-- ==== Sys2Proof/Word.lean ====
section
/-!
DEFINITION. The word types of the Gwepor X4096: scalar registers are 64 bits (R233), syllables and
extension words 32 bits (R204), bytes 8 bits; vector registers are 64 elements of 32 bits (R261) and
accumulator tiles 32 x 32 elements of 32 bits (R58), both held as the raw bits software can see.
-/
namespace Sys2Proof

/-- A scalar register or 64-bit address operand (R13, R233). -/
abbrev Word := BitVec 64
/-- A syllable, extension word, vector element or FP32 code. -/
abbrev W32 := BitVec 32
/-- A byte; the byte at the lowest address holds bits 7..0 (R4). -/
abbrev Byte := BitVec 8
/-- A lane mask such as AM: bit e is lane e (R188). -/
abbrev Mask := BitVec 16
/-- A vector register: element i in bits 32i+31..32i (R261, R277). -/
abbrev VReg := BitVec 2048
/-- An accumulator tile: element (i, j) in bits 32(32i+j)+31..32(32i+j) (R58). -/
abbrev Tile := BitVec 32768

end Sys2Proof
end

