-- ==== Sys2Proof/Syntax.lean ====
section
/-!
DEFINITION. The syntax of the Oxvon instruction set: operand fields (R210), the codes an instruction
names, and the one inductive `Instr` with a constructor for every row of the table of operations.
-/
namespace Sys2Proof

/-- Scalar register number, s0 to s63 (R210). -/
abbrev SReg := BitVec 6
/-- Staging register number, or the first register of a staging block (R210). -/
abbrev KReg := BitVec 5
/-- Index-base register number (R210). -/
abbrev BReg := BitVec 2
/-- Shape register number (R210). -/
abbrev ShpR := BitVec 2
/-- Grammar handle number, h0 to h7 (R337). -/
abbrev Handle := BitVec 3

/-- A vector operand field (R210): direct v0 to v127, or base b plus offset 0 to 31. -/
inductive VOp where
  | direct (n : BitVec 7)
  | indexed (b : BitVec 2) (off : BitVec 5)
deriving DecidableEq, Repr

/-- An accumulator field (R210): tile and expected version. -/
structure Acc where
  tile : BitVec 3
  ver : BitVec 6
deriving DecidableEq, Repr

/-- A sequencer of a pod: the primary, or the spare that runs the other half of a split (R192). -/
inductive HalfId where
  | primary | spare
deriving DecidableEq, Repr

/-- Access size 1, 2, 4 or 8 bytes (R243). -/
inductive Size where
  | b | h | w | d
deriving DecidableEq, Repr

/-- Cache hint CH (R108). -/
inductive Hint where
  | normal | keep | strm | na
deriving DecidableEq, Repr

/-- Scalar condition codes 0 to 5 (R238). -/
inductive Cond where
  | eq | ne | lt | ge | ltu | geu
deriving DecidableEq, Repr

/-- Fence kinds (R249). -/
inductive FenceKind where
  | acq | rel | full
deriving DecidableEq, Repr

/-- Scopes (R153). -/
inductive Scope where
  | pod | die | pkg | sys
deriving DecidableEq, Repr

/-- Barrier kinds (R250). -/
inductive BarKind where
  | team | die | grid
deriving DecidableEq, Repr

/-- Rounding modes RM (R88). -/
inductive RM where
  | rne | rtz | rdn | rup
deriving DecidableEq, Repr

/-- Conversion operations OP 0x0 to 0xB of `vcvt` (R266). -/
inductive CvtOp where
  | s32f32 | u32f32 | f32s32 | f32u32 | rint
  | qfp16 | qbf16 | qe4m3 | qe5m2 | qe3m2 | qe2m3 | qe2m1
deriving DecidableEq, Repr

/-- Vector condition codes 0x0 to 0xA (R268). -/
inductive VCond where
  | feq | fne | flt | fle | fun_ | ieq | ine | ilt | ile | iltu | ileu
deriving DecidableEq, Repr

/-- The field F of `vsetshp` (R275). -/
inductive ShpField where
  | m | n | k | mnk
deriving DecidableEq, Repr

/-- A shape field that DIM can name (R302). -/
inductive MNK where
  | m | n | k
deriving DecidableEq, Repr

/-- DIM and SHP of a transfer syllable (R302): the count is the staging field (SHP reserved) or a
field of a shape register. -/
inductive Cnt where
  | field
  | shape (j : ShpR) (f : MNK)
deriving DecidableEq, Repr

/-- The width field W of an emit, 0b01 to 0b11 (R316). -/
inductive EmitW where
  | w2 | w4 | w8
deriving DecidableEq, Repr

/-- Operators 0x0 to 0x8 of `gred` (R334). -/
inductive RedOp where
  | fsum | fmax | fmin | isum | imax | imin | and | or | xor
deriving DecidableEq, Repr

/-- States of a Gwepor Link port (R436). -/
inductive PortState where
  | down | training | up | failed
deriving DecidableEq, Repr

/-- The two PCI Express windows of the host (R429). -/
inductive Window where
  | launch | mgmt
deriving DecidableEq, Repr

/-- The slots of a bundle in commit order (R204), numbered as TSW.SLOT (R393). -/
inductive Slot where
  | sa | sb | v | m | x | g
deriving DecidableEq, Repr

/-- A function that reports ready by itself (R443, R118). -/
inductive ReadyFn where
  | die (d : Nat)
  | grammar (d : Nat)
  | slice (d i : Nat)
  | pod (p : Nat)
deriving DecidableEq, Repr

/-- One constructor per row of the table of operations and events: what a sequencer issues in a
slot, and what the other agents of the part do. `g` is a global context number (R151), `d` a C-die,
`p` a global pod number, `l` an admitted launch, `st` a stack. -/
inductive Instr where
  -- events
  /-- R213: A context fetches a bundle, checks it and issues its present slots in commit order for one issue cycle or one repeat. -/
  | bundleIssue (g : Nat) (h : HalfId)
  /-- R61: An exposed-latency result is written to its register or scratchpad word at its due issue cycle or at the context's next switch point. -/
  | resultLand (g : Nat) (h : HalfId)
  /-- R180: A Parked context becomes Ready once all its exposed results have landed and no interlocked wait remains. -/
  | parkEnd (g : Nat)
  /-- R387: At a switch or quiet point, the pod picker chooses the handler slot or a Ready context for the next issue run by age, urgency and credit. -/
  | pickerChoice (p : Nat)
  /-- R186: After 4,096 issue cycles in one run while another context is Ready, the part ends the run at the next quiet point. -/
  | forcedRunEnd (g : Nat)
  /-- R244: A global scalar load, store or atomic completes, its value is written back, and the interlocked context continues. -/
  | interlockedAccessComplete (g : Nat) (h : HalfId)
  /-- R69: A stack-cache miss fills its line from memory, evicting the highest-addressed line if needed. -/
  | stackCacheFill (g : Nat) (h : HalfId)
  /-- R69: When s63 rises near the held lines, up to two lines above them are filled in the background, and a fill that faults is discarded. -/
  | stackCacheBackgroundFill (g : Nat)
  /-- R156: An interlocked fence finishes ordering the context's earlier accesses and lets the context continue. -/
  | fenceComplete (g : Nat) (h : HalfId)
  /-- R253: A batch wait ends when every covered command has completed, and it then reports any recorded command or pair fault. -/
  | waitbComplete (g : Nat) (h : HalfId)
  /-- R144: A ufence ends when every earlier pair has been accepted into bins or dropped, and it then reports any deferred fault. -/
  | ufenceComplete (g : Nat) (h : HalfId)
  /-- R250: A barrier generation completes when every current participant has arrived, which releases its waiters with an acquire. -/
  | barrierGenerationComplete (l : Nat) (bk : BarKind) (unit id : Nat)
  /-- R59: A stalled accumulator version check issues once ACCVER equals the expected version in every active lane. -/
  | versionCheckRelease (g : Nat) (h : HalfId)
  /-- R251: The arrinc release completes and the die dispatcher accepts the addition, which ends the interlock. -/
  | arrincAccepted (g : Nat) (h : HalfId)
  /-- R192: Once a context's results have landed, a gsplit pushes a split entry and starts the spare sequencer on the not-taken lanes. -/
  | splitStart (g : Nat)
  /-- R193: When both halves have parked at RPC, the split entry pops, AM is restored and the primary's scalar state stands. -/
  | join (g : Nat)
  /-- R291: A matrix command finishes its last k-group in a lane and advances that tile's ACCVER. -/
  | matrixCommandComplete (g id lane : Nat)
  /-- R299: When an epilogue's last store has been accepted, the optional clear is made and ACCVER advances in that lane. -/
  | mstoreComplete (g id lane : Nat)
  /-- R312: One element of a transfer command reads and writes its row or value, or fails with a translation or memory fault. -/
  | transferElement (g id lane : Nat)
  /-- R308: A transfer command completes in its lanes, recording its progress and any failed element. -/
  | transferCommandComplete (g id : Nat)
  /-- R20: A placement unit that misses an ASID's range table reads the 1,024-byte table from the descriptor. -/
  | rangeTableLoad (u asid : Nat)
  /-- R20: A write of an ASID to RNGSYNC makes every placement unit drop that ASID's cached range table. -/
  | rngsyncWrite (asid : Nat)
  /-- R105: An access arrives at its home slice and takes effect whole at its place in the line's serial order. -/
  | sliceAccess (g : Nat) (h : HalfId) (n : Nat)
  /-- R106: A line in state F receives its fill from DRAM, and the accesses waiting behind it proceed. -/
  | lineFillComplete (d asid ln : Nat)
  /-- R32: A home-die walk finishes, installs a TLB entry or reports the first failing check as a fault. -/
  | pageWalkComplete (d asid va : Nat)
  /-- R37: A TLBINVC write with scope 0b00 starts a shootdown of the named page range under the named ASID. -/
  | shootdownPageRange (d asid count : Nat)
  /-- R37: A TLBINVC write with scope 0b01 starts a shootdown of every page of the ASID on the die. -/
  | shootdownAsid (d asid : Nat)
  /-- R37: A TLBINVC write with scope 0b10 starts a shootdown of every ASID on the die. -/
  | shootdownAll (d : Nat)
  /-- R37: Once no access translated under the old entries remains, late pending granules are applied and TLBINVST.BUSY clears. -/
  | shootdownComplete (d : Nat)
  /-- R111: The base-die scrubber reads each sector once in 24 hours and repairs correctable errors. -/
  | patrolScrub (st sector : Nat)
  /-- R116: At power-on, a stack goes from Off to Training by itself. -/
  | stackTrainingStart (st : Nat)
  /-- R116: A training stack becomes Ready or Failed, which releases or faults the accesses waiting on it. -/
  | stackTrainingEnd (st : Nat) (ok : Bool)
  /-- R117: A Ready stack that loses a channel goes to Failed, its slice lines are invalidated, and its accesses fault. -/
  | stackChannelLoss (st : Nat)
  /-- R124: An update pair arrives at its home die, is translated and checked, and is either dropped as a deferred fault or passed on. -/
  | pairHomeDieCheck (id : Nat)
  /-- R140: A stack's sorter grants a 64-slot permit to a context that has pairs waiting in the ingress. -/
  | permitGrant (g st : Nat)
  /-- R125: A pair enters the filter, sets its granule's pending bit, writes back and invalidates the granule's lines, and is forwarded. -/
  | pairFilterPass (id : Nat)
  /-- R126: The sorter accepts a pair into the bin for its element and combines it by the region's operator. -/
  | pairBinAccept (id : Nat)
  /-- R130: A read or store of a pending granule reaches the base die and triggers an apply of the granule. -/
  | pendingGranuleAccess (gran : Nat)
  /-- R134: Above the high-water mark, the sorter applies the oldest pending granules until occupancy falls to the low-water mark. -/
  | earlyApply (st : Nat)
  /-- R142: A context-kill message reaches a home die behind the context's pairs, and that die reclaims the context's permits. -/
  | contextKillMessage (g d : Nat)
  /-- R123: A write binding a region id is accepted, or is ignored with UPST.ERR set if the binding is invalid or the region is in use. -/
  | uprgnWrite (d rid : Nat) (v : W32)
  /-- R122: A write of a region id to UPDRAIN starts applying every pending granule of that region on the die. -/
  | updrainWrite (d rid : Nat)
  /-- R122: A region drain ends and UPST.DBUSY clears. -/
  | drainComplete (d : Nat)
  /-- R199: At boot, each pod's engines are tested, the engine map is written, and the pod becomes ready if the map is valid or sets MAPERR. -/
  | podSelfTest (p : Nat) (work : BitVec 17) (map0 map1 : Word) (degr : Bool)
  /-- R399: An idle handler slot takes the head of its frozen-context queue and starts at TVEC with its private region loaded. -/
  | handlerEntry (p : Nat)
  /-- R394: A context under a stop request freezes at its next boundary between issues and is not queued for the handler. -/
  | stopRequestFreeze (g : Nat)
  /-- R386: A fatal stop kills every context of the launch, discards unhanded iterations and writes STATUS 0x04. -/
  | fatalStop (l : Nat)
  /-- R74: The driver lowers a frozen handler slot's PRVHW, and the write is accepted only within PRVLO to PRVTOP. -/
  | hprvhwWrite (p : Nat) (v : Word)
  /-- R430: A write of 1 to PODCTL.HRES resumes a handler slot frozen by a high-water fault, and its frozen write is retried. -/
  | podctlHres (p : Nat)
  /-- R430: A write of 1 to DSPRES.RES resumes dispatcher firmware frozen by a high-water fault. -/
  | dspresRes (d : Nat)
  /-- R73: Dispatcher firmware that overruns its private high-water mark freezes the die's walker and launch processing and signals the driver. -/
  | dispatcherHighWaterFault (d : Nat)
  /-- R367: A write of SVHIq with CLOSE 0 appends a start vector to queue q, or discards it and sets OVF. -/
  | startVectorSubmit (q : Nat) (hi : Word)
  /-- R381: A write of SVHIq with CLOSE 1 closes every admitted open launch that has the same ASID and TAG. -/
  | closeVector (q : Nat) (hi : Word)
  /-- R371: When an entry enters its queue's head window, the I-die reads its nest record once and issues the prefetch list, or drops the vector on a fault. -/
  | nestRecordRead (q pos : Nat)
  /-- R376: An accepted increment of an arrival counter checks the triggers and close conditions of the launches that watch it. -/
  | arrivalCounterIncrement (d : Nat)
  /-- R390: A driver write to ARRCNTc sets the counter and is checked as an increment. -/
  | arrcntWrite (d c : Nat) (v : W32)
  /-- R377: A launch fires, reads its bounds and fixes its iteration count, or is refused under checks 0x000C and 0x000B. -/
  | launchFire (l : Nat)
  /-- R382: An xtend reaching an open launch's dispatchers raises the open bound, clamped so that T stays at or below 2^48. -/
  | xtendAccept (g id : Nat)
  /-- R383: A die dispatcher places a team of a fired launch on pods where its budgets fit, and loads its contexts. -/
  | teamPlacement (l d : Nat) (place : List (List (Nat × Nat)))
  /-- R379: The walker gives the next iteration of its die to the earliest waiting unit, with the loop indices in scalar registers. -/
  | iterationHandout (l d : Nat)
  /-- R388: A context that has been urgent for 65,536 of its runs without completing an iteration is held back. -/
  | urgencyHoldBack (g : Nat)
  /-- R385: When every iteration has been handed out, the launch is closed and all contexts have halted, the I-die writes the completion record and the optional MSI. -/
  | launchComplete (l : Nat)
  /-- R407: PRECTL operation 0b01 freezes, drains and saves every context of the matching launch into its save area. -/
  | preempt (asid : BitVec 12) (tag : W32)
  /-- R409: PRECTL operation 0b10 places the launch's teams again and restores every husk. -/
  | resume (asid : BitVec 12) (tag : W32) (place : List (List (Nat × Nat)))
  /-- R406: PRECTL operation 0b11 reports in PRESTAT.NEED the save-area size of the matching launch. -/
  | sizeQuery (asid : BitVec 12) (tag : W32)
  /-- R447: An LKILL write with OP 0b01 kills every admitted launch of that ASID and TAG and writes STATUS 0x05. -/
  | lkill (asid : BitVec 12) (tag : W32)
  /-- R353: The grammar unit takes a command's slot step in issue order, reading and changing slot state and arena. -/
  | grammarStep (g : Nat)
  /-- R365: A mask engine finishes writing a vocabulary mask, freeing room for a waiting pdamask. -/
  | maskComplete (g id : Nat)
  /-- R431: A host read through the aperture reads a physical stack address, applying pending granules first. -/
  | apertureRead (o : Nat) (wide : Bool)
  /-- R431: A host write through the aperture writes a physical stack address, or is dropped with APERR set. -/
  | apertureWrite (o : Nat) (wide : Bool) (v : Word)
  /-- R441: ATTCMD 0x3 extends MEAS5 to MEAS7 with 64 bytes from ATTBUF. -/
  | extendMeasurement (n : BitVec 3)
  /-- R445: A write of FDSEL selects a lifetime counter word that FDDATA then returns. -/
  | fieldDataSelect (v : W32)
  /-- R436: A Gwepor Link port changes STATE, and in-flight flits are resent on other Up ports. -/
  | portStateChange (port : Nat) (st : PortState) (lanes : Nat)
  /-- R436: A remote package's access arrives and is admitted by an ADM entry, or fails with code 0x0D. -/
  | remoteAccessArrival (pkg : BitVec 16) (rasid : BitVec 12) (va : Word) (write : Bool) (data : List Byte)
  /-- R438: An island reaching 105 °C runs at its lowest frequency until it falls below 100 °C. -/
  | thermalThrottle (isl : Nat)
  /-- R438: An island reaching 120 °C stops the module, losing every launch. -/
  | thermalStop (isl : Nat)
  /-- R437: The power manager changes an island's frequency and supply within its bounds to keep the module under PWRCAP. -/
  | islandSettingChange (isl mhz mv : Nat)
  /-- R438: A write to PWRCAP sets the module power cap, or is ignored outside 1,000 to 3,300 W. -/
  | pwrcapWrite (w : BitVec 16)
  /-- R439: After module reset, the boot ROM and root firmware measure and verify the firmware components before starting them. -/
  | bootVerification (svn : W32) (fail : BitVec 3)
  /-- R443: A function passes self-test and reports ready by itself, and may be used from then on. -/
  | functionReady (f : ReadyFn)
  /-- R429: A host write to a window register that has no row of its own updates its writable fields, or is dropped with MISUSE set if misaligned. -/
  | mmioRegisterWrite (win : Window) (off : Nat) (wide : Bool) (v : Word)
  /-- R438: An island that is throttled at its lowest frequency falls below 100 °C and returns to power-manager control. -/
  | thermalThrottleEnd (isl : Nat)
  /-- R119: A stack crosses 85 °C, so refresh moves between the normal and the doubled rate and MSSTAT.HOTREF changes. -/
  | refreshRateChange (st : Nat) (hot : Bool)
  /-- R445: A supply droop event on an island is counted in the field-data droop histogram. -/
  | supplyDroop (isl mv : Nat)
  /-- R353: A grammar command other than a mask completes when its step's node, cursor, save-record and result-word writes have been accepted, which releases waiting binds and batch waits. -/
  | grammarCommandComplete (g id : Nat)
  -- scalar slots (09)
  /-- R236: D := A + B. -/
  | add (d a b : SReg)
  /-- R236: D := A − B. -/
  | sub (d a b : SReg)
  /-- R236: D := low 64 bits of A × B. -/
  | mul (d a b : SReg)
  /-- R236: D := high half of the signed product. -/
  | mulhs (d a b : SReg)
  /-- R236: D := high half of the unsigned product. -/
  | mulhu (d a b : SReg)
  /-- R236: Bitwise and. -/
  | and (d a b : SReg)
  /-- R236: Bitwise or. -/
  | or (d a b : SReg)
  /-- R236: Bitwise exclusive or. -/
  | xor (d a b : SReg)
  /-- R236: Shift left by B[5:0]. -/
  | shl (d a b : SReg)
  /-- R236: Logical shift right by B[5:0]. -/
  | shr (d a b : SReg)
  /-- R236: Arithmetic shift right by B[5:0]. -/
  | sra (d a b : SReg)
  /-- R236: Signed minimum. -/
  | min (d a b : SReg)
  /-- R236: Signed maximum. -/
  | max (d a b : SReg)
  /-- R236: Unsigned minimum. -/
  | minu (d a b : SReg)
  /-- R236: Unsigned maximum. -/
  | maxu (d a b : SReg)
  /-- R237: D := A + sign-extended IMM12. -/
  | addi (d a : SReg) (imm : BitVec 12)
  /-- R237: D := A and sign-extended IMM12. -/
  | andi (d a : SReg) (imm : BitVec 12)
  /-- R237: D := A or sign-extended IMM12. -/
  | ori (d a : SReg) (imm : BitVec 12)
  /-- R237: D := A xor sign-extended IMM12. -/
  | xori (d a : SReg) (imm : BitVec 12)
  /-- R237: Shift left by an immediate amount. -/
  | shli (d a : SReg) (imm : BitVec 6)
  /-- R237: Logical shift right by an immediate amount. -/
  | shri (d a : SReg) (imm : BitVec 6)
  /-- R237: Arithmetic shift right by an immediate amount. -/
  | srai (d a : SReg) (imm : BitVec 6)
  /-- R238: D := 1 if A cc B holds, else 0. -/
  | cmp (cc : Cond) (d a b : SReg)
  /-- R238: D := 1 if A cc sign-extended IMM9 holds, else 0. -/
  | cmpi (cc : Cond) (d a : SReg) (imm : BitVec 9)
  /-- R239: D := A if C ≠ 0, else B. -/
  | sel (d a b c : SReg)
  /-- R240: Count leading zero bits. -/
  | clz (d a : SReg)
  /-- R240: Count trailing zero bits. -/
  | ctz (d a : SReg)
  /-- R240: Count one bits. -/
  | popc (d a : SReg)
  /-- R240: Extract a bit field. -/
  | bext (d a : SReg) (pos lm1 : BitVec 6)
  /-- R240: Insert a bit field into D. -/
  | bins (d a : SReg) (pos lm1 : BitVec 6)
  /-- R241: D := sign-extended IMM18. -/
  | movi (d : SReg) (imm : BitVec 18)
  /-- R241: D := a 64-bit immediate taken from two extension words. -/
  | movx (d : SReg) (imm : Word)
  /-- R242: kD := A. -/
  | kmov (k : KReg) (a : SReg)
  /-- R242: kD := sign-extended IMM19. -/
  | kmovi (k : KReg) (imm : BitVec 19)
  /-- R242: D := kA. -/
  | movk (d : SReg) (k : KReg)
  /-- R242: bD := A[7:0]. -/
  | bmov (b : BReg) (a : SReg)
  /-- R242: bD := IMM8. -/
  | bmovi (b : BReg) (imm : Byte)
  /-- R242: bD := bD + sign-extended IMM8, modulo 256. -/
  | badd (b : BReg) (imm : Byte)
  /-- R244: Load 1 to 8 bytes from memory or through the stack cache. -/
  | ld (sz : Size) (sx : Bool) (ch : Hint) (d a : SReg) (off : BitVec 7)
  /-- R244: Store 1 to 8 bytes to memory or through the stack cache. -/
  | st (sz : Size) (ch : Hint) (s a : SReg) (off : BitVec 7)
  /-- R245: Load raw bytes from one lane's scratchpad. -/
  | ldsp (sz : Size) (sx : Bool) (lane : BitVec 4) (d a : SReg) (off : BitVec 4)
  /-- R245: Store raw bytes to one lane's or every active lane's scratchpad. -/
  | stsp (sz : Size) (all : Bool) (lane : BitVec 4) (s a : SReg) (off : BitVec 4)
  /-- R246: Atomic compare-and-swap at the home slice. -/
  | atcas (wide : Bool) (d a b : SReg)
  /-- R246: Atomic fetch-add. -/
  | atadd (wide : Bool) (d a b : SReg)
  /-- R246: Atomic swap. -/
  | atswp (wide : Bool) (d a b : SReg)
  /-- R246: Atomic and. -/
  | atand (wide : Bool) (d a b : SReg)
  /-- R246: Atomic or. -/
  | ator (wide : Bool) (d a b : SReg)
  /-- R246: Atomic xor. -/
  | atxor (wide : Bool) (d a b : SReg)
  /-- R247: PC-relative branch on a scalar being zero or nonzero. -/
  | br (nz : Bool) (a : SReg) (off : BitVec 17)
  /-- R247: PC-relative jump by an extension-word offset. -/
  | jmp (off : W32)
  /-- R247: Jump to the address in A. -/
  | jr (a : SReg)
  /-- R248: Push FT on the stack through s63 and jump by an extension-word offset. -/
  | call (off : W32)
  /-- R248: Push FT on the stack and jump to the address in A. -/
  | callr (a : SReg)
  /-- R247: Decrement A and branch while it is nonzero. -/
  | loop (a : SReg) (off : BitVec 17)
  /-- R249: Acquire, release or full fence at a scope; a switch point. -/
  | fence (k : FenceKind) (sc : Scope)
  /-- R250: Barrier arrive, with a release at the barrier's scope. -/
  | barr (bk : BarKind) (id : BitVec 4)
  /-- R250: Barrier wait on the generation the context joined. -/
  | barw (bk : BarKind) (id : BitVec 4)
  /-- R251: Add A[31:0] to an arrival counter with a package-scope release. -/
  | arrinc (own : Bool) (die : BitVec 3) (ctr : Byte) (a : SReg)
  /-- R252: Close the open batch and return its number. -/
  | batch (d : SReg)
  /-- R253: Wait for the commands of the selected classes in batches up to n. -/
  | waitb (cm : BitVec 3) (last : Bool) (a : SReg)
  /-- R255: Read a CSR. -/
  | csrr (d : SReg) (c : BitVec 12)
  /-- R255: Write a CSR. -/
  | csrw (c : BitVec 12) (a : SReg)
  /-- R255: Read a CSR and set the bits in A. -/
  | csrset (d : SReg) (c : BitVec 12) (a : SReg)
  /-- R255: Read a CSR and clear the bits in A. -/
  | csrclr (d : SReg) (c : BitVec 12) (a : SReg)
  /-- R257: Commit, then take the software trap with a code before slot sb. -/
  | trap (code : BitVec 16)
  /-- R258: Handler resumes a frozen context of its team. -/
  | tret (a : SReg)
  -- vector slot (10)
  /-- R264: Integer add, modulo 2^32. -/
  | viadd (d a b : VOp)
  /-- R264: Integer subtract, modulo 2^32. -/
  | visub (d a b : VOp)
  /-- R264: Low 32 bits of the integer product. -/
  | vimul (d a b : VOp)
  /-- R264: Bitwise and. -/
  | vand (d a b : VOp)
  /-- R264: Bitwise or. -/
  | vor (d a b : VOp)
  /-- R264: Bitwise xor. -/
  | vxor (d a b : VOp)
  /-- R264: Shift left by B[4:0]. -/
  | vshl (d a b : VOp)
  /-- R264: Logical shift right by B[4:0]. -/
  | vshr (d a b : VOp)
  /-- R264: Arithmetic shift right by B[4:0]. -/
  | vsra (d a b : VOp)
  /-- R264: Signed minimum. -/
  | vimin (d a b : VOp)
  /-- R264: Signed maximum. -/
  | vimax (d a b : VOp)
  /-- R264: Saturating integer add. -/
  | viadds (d a b : VOp)
  /-- R264: Saturating integer subtract. -/
  | visubs (d a b : VOp)
  /-- R265: FP32 add. -/
  | vadd (d a b : VOp)
  /-- R265: FP32 subtract. -/
  | vsub (d a b : VOp)
  /-- R265: FP32 multiply. -/
  | vmul (d a b : VOp)
  /-- R265: FP32 fused multiply-add into D. -/
  | vfma (d a b : VOp)
  /-- R265: FP32 numeric minimum. -/
  | vmin (d a b : VOp)
  /-- R265: FP32 numeric maximum. -/
  | vmax (d a b : VOp)
  /-- R265: FP32 absolute value. -/
  | vabs (d a : VOp)
  /-- R265: FP32 negation. -/
  | vneg (d a : VOp)
  /-- R266: Convert or quantise elements under a rounding mode. -/
  | vcvt (op : CvtOp) (rm : RM) (sat : Bool) (d a : VOp)
  /-- R267: Base-2 exponential. -/
  | vexp2 (d a : VOp)
  /-- R267: Base-2 logarithm. -/
  | vlog2 (d a : VOp)
  /-- R267: Reciprocal. -/
  | vrcp (d a : VOp)
  /-- R267: Reciprocal square root. -/
  | vrsqrt (d a : VOp)
  /-- R267: Hyperbolic tangent. -/
  | vtanh (d a : VOp)
  /-- R268: Compare D with A into an element mask. -/
  | vcmp (cc : VCond) (d a : VOp)
  /-- R269: Select A or B under the mask in D. -/
  | vsel (d a b : VOp)
  /-- R270: Masked tree sum of the lane's elements. -/
  | vredsum (d a b : VOp)
  /-- R270: Masked tree maximum. -/
  | vredmax (d a b : VOp)
  /-- R270: Masked tree minimum. -/
  | vredmin (d a b : VOp)
  /-- R271: Permute elements of A by the indices in B. -/
  | vperm (d a b : VOp)
  /-- R271: Broadcast element IDX of A to every element. -/
  | vbcast (d a : VOp) (idx : BitVec 6)
  /-- R273: Per-bit-plane population counts of the masked keys. -/
  | vbitpop (d a b : VOp)
  /-- R274: Write the indices of nonzero elements and their count into D and D′. -/
  | vnzscan (t : Bool) (d a : VOp)
  /-- R275: Set shape fields from an element, clamped. -/
  | vsetshp (j : ShpR) (f : ShpField) (a : VOp) (elem : BitVec 6)
  /-- R276: Set logits to −infinity where the token mask bit is 0. -/
  | vmaskf (d a : VOp) (s : SReg)
  /-- R272: Register copy. -/
  | vmov (d a : VOp)
  /-- R272: Broadcast S[31:0] to every element. -/
  | vmovs (d : VOp) (s : SReg)
  /-- R272: D[i] := i, or lane × 64 + i. -/
  | viota (lane : Bool) (d : VOp)
  /-- R277: Load 256 raw bytes from scratchpad. -/
  | vld (v : VOp) (a : SReg) (off : BitVec 10)
  /-- R277: Store 256 raw bytes to scratchpad. -/
  | vst (v : VOp) (a : SReg) (off : BitVec 10)
  /-- R278: Converting load from the bank's format. -/
  | vldc (t : Bool) (rm : RM) (v : VOp) (a : SReg) (off : BitVec 6)
  /-- R278: Converting store into the bank's format. -/
  | vstc (t : Bool) (rm : RM) (sat : Bool) (v : VOp) (a : SReg) (off : BitVec 6)
  -- matrix slot (11)
  /-- R291: Matrix multiply-accumulate into a tile. -/
  | mma (acc : Acc) (shp : ShpR) (kb : KReg) (da db : BitVec 3) (reuse : Bool)
  /-- R292: Matrix multiply-accumulate with B rows gathered by index. -/
  | mmag (acc : Acc) (shp : ShpR) (kb : KReg) (da db : BitVec 3) (reuse : Bool)
  /-- R293: Clear a tile to +0. -/
  | mzero (acc : Acc)
  /-- R294: Initialise a tile from vector registers. -/
  | minit (acc : Acc) (a : VOp) (row : Bool)
  /-- R295: Read a tile into 16 vector registers, optionally clearing it. -/
  | mread (acc : Acc) (d : VOp) (clr : Bool)
  /-- R296: Load the A-scale array from four registers. -/
  | mscale (a : VOp)
  /-- R299: Fused epilogue that converts and stores a tile into a bank. -/
  | mstore (acc : Acc) (shp : ShpR) (kb : KReg) (rm : RM) (sat clr relu bias scl : Bool)
  -- transfer slot (12, 14)
  /-- R312: Load rows from memory into scratchpad. -/
  | xld (n : Cnt) (kb : KReg) (ch : Hint)
  /-- R312: Store rows from scratchpad to memory. -/
  | xst (n : Cnt) (kb : KReg) (ch : Hint)
  /-- R315: Converting copy between banks of a lane. -/
  | xcopy (n : Cnt) (kb : KReg)
  /-- R315: Copy from the team window into the lane. -/
  | xwload (n : Cnt) (kb : KReg)
  /-- R315: Copy from the lane into the team window. -/
  | xwstore (n : Cnt) (kb : KReg)
  /-- R312: Gather indexed memory rows into scratchpad. -/
  | xgath (n : Cnt) (kb : KReg) (ch : Hint) (v : VOp)
  /-- R312: Scatter scratchpad rows to indexed memory rows. -/
  | xscat (n : Cnt) (kb : KReg) (ch : Hint) (v : VOp)
  /-- R313: Prefetch rows into their home slices. -/
  | xpref (n : Cnt) (kb : KReg) (ch : Hint)
  /-- R316: Emit update pairs from vector registers. -/
  | xemitv (ew : EmitW) (cvt : Bool) (n : Cnt) (kb : KReg) (v : VOp)
  /-- R317: Emit update pairs from scratchpad rows. -/
  | xemitt (ew : EmitW) (ix : Option VOp) (n : Cnt) (kb : KReg)
  /-- R321: Walk a CSR pattern into per-lane column, virtual-row and carry blocks. -/
  | xwalk (kb : KReg) (ch : Hint)
  /-- R319: Write the count and indices of nonzero scratchpad elements. -/
  | xnzscan (n : Cnt) (kb : KReg)
  /-- R314: Load rows from a remote package's memory. -/
  | xrld (n : Cnt) (kb : KReg) (ch : Hint)
  /-- R314: Store rows to a remote package's memory. -/
  | xrst (n : Cnt) (kb : KReg) (ch : Hint)
  /-- R323: Extend an open bound of a running nest record. -/
  | xtend (kb : KReg)
  /-- R355: Bind a handle to a grammar slot at the image's start state. -/
  | pdabind (h : Handle) (res : Bool) (kb : KReg)
  /-- R356: Unbind a handle without a result word. -/
  | pdaunbind (h : Handle)
  /-- R356: Unbind a handle and write a result word. -/
  | pdaunbindRes (h : Handle) (kb : KReg)
  /-- R357: Write the vocabulary mask of a handle's configuration. -/
  | pdamask (spread : Bool) (h : Handle) (res : Bool) (kb : KReg)
  /-- R358: Advance a handle by a token. -/
  | pdaadv (h : Handle) (res : Bool) (kb : KReg)
  /-- R359: Copy one handle's slot state into another. -/
  | pdafork (h : Handle) (res : Bool) (kb : KReg)
  /-- R360: Push the configuration onto the mark ring. -/
  | pdamark (h : Handle) (res : Bool) (kb : KReg)
  /-- R360: Roll back to the (N + 1)-th newest mark. -/
  | pdaroll (h : Handle) (res : Bool) (kb : KReg)
  /-- R361: Write a handle's save record. -/
  | pdasave (h : Handle) (res : Bool) (kb : KReg)
  /-- R361: Bind a handle from a save record. -/
  | pdarest (h : Handle) (res : Bool) (kb : KReg)
  -- gang slot (13)
  /-- R328: Collect per-lane nonzero tests into a scalar mask. -/
  | gvote (t : Bool) (d : SReg) (a : VOp) (elem : BitVec 6)
  /-- R329: Divergent branch serialised on the stalk. -/
  | gbr (c : SReg) (off : BitVec 18) (rpc : W32)
  /-- R329: Divergent branch that may run the not-taken lanes on the spare sequencer. -/
  | gsplit (c : SReg) (off : BitVec 18) (rpc : W32)
  /-- R330: Push a serial stalk entry and narrow AM. -/
  | gpush (c : SReg) (off : BitVec 18)
  /-- R328: Save AM and the stalk depth in a scalar. -/
  | gmsave (d : SReg)
  /-- R328: Restore AM from a scalar, limited to allowed lanes. -/
  | gmrest (a : SReg)
  /-- R333: Shuffle a vector register across lanes by a permutation word. -/
  | gshuf (d a : VOp) (s : SReg)
  /-- R336: Copy a scratchpad run between lanes by a permutation word. -/
  | gshuft (kb : KReg) (s : SReg)
  /-- R334: Reduce each element across active lanes in a fixed tree. -/
  | gred (op : RedOp) (d a : VOp)
  /-- R333: Broadcast one lane's register to the active lanes. -/
  | gbcast (first : Bool) (lane : BitVec 4) (d a : VOp)
  /-- R335: Compute a permutation grouping lanes by key, and the group starts. -/
  | gregroup (inv : Bool) (d : SReg) (a : VOp) (elem : BitVec 6)
  -- rows with no operand, last: events
  /-- R20: RNGSYNCST.BUSY clears when every unit has acknowledged and no access placed with the old table remains. -/
  | rngsyncComplete
  /-- R369: The scheduler makes one deficit-round-robin dispatch, which admits a queue head or rotates the queue. -/
  | launchDispatch
  /-- R407: The husks and portions have been written, the slots are Free, and PRESTAT.BUSY clears. -/
  | preemptComplete
  /-- R432: A write of CPYCMD.GO starts a 64-byte-block copy between host memory and stacks, or sets ERR. -/
  | copyStart
  /-- R432: The copy engine finishes or stops on error, clears BUSY and sets DONE and EVTSTAT.CPY. -/
  | copyComplete
  /-- R441: ATTCMD 0x1 reads a nonce from ATTBUF and writes an AK-signed report there. -/
  | attestReport
  /-- R441: ATTCMD 0x2 writes the DIK certificate and the DIK-signed AK public key into ATTBUF. -/
  | getCertificates
  /-- R441: A security command ends, clears ATTST.BUSY and sets EVTSTAT.SEC. -/
  | securityCommandComplete
  /-- R444: Every 3,600 s, and at an orderly power-down, live counters are written to the non-volatile store. -/
  | fieldDataSave
  /-- R436: A write to RTSYNC makes the link unit drop its cached route masks. -/
  | rtsyncWrite
  /-- R436: RTSYNC.BUSY clears once no access routed under the old masks remains in flight. -/
  | rtsyncComplete
  /-- R369: A module reset, or power-on, returns the part to its reset state: queues and scheduler lists empty, slots Free, registers at their reset values, grammar bindings released, and launches lost. -/
  | moduleReset
  /-- R444: Each second of power-on, the I-die advances the power-on-seconds counter and the temperature-bin counters of every island. -/
  | powerOnSecond
  -- rows with no operand, last: scalar slots (09)
  /-- R209: Scalar nop does nothing. -/
  | nop
  /-- R248: Pop a return address from the stack and jump to it. -/
  | ret
  /-- R254: Wait until every earlier pair has been accepted or dropped. -/
  | ufence
  /-- R259: A switch point that lets every other Ready context run first. -/
  | yield
  /-- R260: Wait, report any remaining fault, release, and end the context. -/
  | halt
  /-- R260: Wait, release, and end the iteration only, taking the next iteration if any. -/
  | haltNext
  /-- R257: Take the breakpoint trap without committing. -/
  | brk
  -- rows with no operand, last: vector slot (10)
  /-- R209: Issue nothing and empty the v slot's sticky state. -/
  | vnop
  -- rows with no operand, last: matrix slot (11)
  /-- R209: Issue nothing and empty the m slot's sticky state. -/
  | mnop
  -- rows with no operand, last: transfer slot (12, 14)
  /-- R209: Issue nothing and empty the x slot's sticky state. -/
  | xnop
  -- rows with no operand, last: gang slot (13)
  /-- R209: Gang nop. -/
  | gnop
  /-- R331: Pop the top stalk entry, abandoning pending lanes. -/
  | gpop
deriving DecidableEq, Repr

end Sys2Proof
end

