-- ==== Sys2Proof/WellFormed.lean ====
section
/-!
DEFINITION. Which terms of `Instr` are well formed: a slot instruction whose field combination its
entry does not forbid in every context (the illegal-instruction cases of R207 that a syllable alone
shows), and an event that names units the package has (R1, R151).
-/
namespace Sys2Proof

/-- A global context number of an ordinary context slot (R151). -/
def isContext (g : Nat) : Bool := g / 8 < 256 && g % 8 < 4
/-- A global context number of an ordinary context or of a handler slot (R151). -/
def isRunner (g : Nat) : Bool := g / 8 < 256 && g % 8 < 5
/-- A C-die number (R1). -/
def isDie (d : Nat) : Bool := d < 8
/-- A global pod number (R1). -/
def isPod (p : Nat) : Bool := p < 256
/-- A memory stack number (R1). -/
def isStack (st : Nat) : Bool := st < 16
/-- A launch queue number (R366). -/
def isQueue (q : Nat) : Bool := q < 32
/-- A voltage and frequency island number (R437). -/
def isIsland (i : Nat) : Bool := i < 280
/-- A lane number (R2). -/
def isLane (e : Nat) : Bool := e < 16
/-- Every pod and slot that a placement lists exists (R179). -/
def isPlacing (pl : List (List (Nat × Nat))) : Bool :=
  pl.all fun t => t.all fun x => x.1 < 256 && x.2 < 4
/-- A readiness function names a unit of the package (R443, R118). -/
def ReadyFn.wf : ReadyFn → Bool
  | .die d => isDie d
  | .grammar d => isDie d
  | .slice d i => isDie d && i < 64
  | .pod p => isPod p

/-- A digit count from 1 to 6; 0 and 7 are reserved (R289). -/
def isDigits (n : BitVec 3) : Bool := n != 0 && n != 7
/-- Barriers of kind die or grid are numbered 0 to 3, team barriers 0 to 15 (R250). -/
def isBarrier (bk : BarKind) (id : Nat) : Bool :=
  match bk with
  | .team => id < 16
  | .die => id < 4
  | .grid => id < 4
/-- SAT of `vcvt` is legal only with OP 0x5 to 0xB (R266). -/
def CvtOp.quantises : CvtOp → Bool
  | .s32f32 | .u32f32 | .f32s32 | .f32u32 | .rint => false
  | _ => true

/-- The well-formedness check. -/
def Instr.wf : Instr → Bool
  | .bundleIssue g _ => isRunner g
  | .resultLand g _ => isRunner g
  | .parkEnd g => isRunner g
  | .pickerChoice p => isPod p
  | .forcedRunEnd g => isRunner g
  | .interlockedAccessComplete g _ => isRunner g
  | .stackCacheFill g _ => isContext g
  | .stackCacheBackgroundFill g => isContext g
  | .fenceComplete g _ => isRunner g
  | .waitbComplete g _ => isRunner g
  | .ufenceComplete g _ => isRunner g
  | .barrierGenerationComplete _ bk _ id => isBarrier bk id
  | .versionCheckRelease g _ => isContext g
  | .arrincAccepted g _ => isContext g
  | .splitStart g => isContext g
  | .join g => isContext g
  | .matrixCommandComplete g _ e => isContext g && isLane e
  | .mstoreComplete g _ e => isContext g && isLane e
  | .transferElement g _ e => isRunner g && isLane e
  | .transferCommandComplete g _ => isRunner g
  | .rangeTableLoad u asid => u < 9 && asid < 4096
  | .rngsyncWrite asid => asid < 4096
  | .sliceAccess g _ _ => isRunner g
  | .lineFillComplete d asid _ => isDie d && asid < 4096
  | .pageWalkComplete d asid va => isDie d && asid < 4096 && va < 281474976710656
  | .shootdownPageRange d asid count => isDie d && asid < 4096 && count < 65536
  | .shootdownAsid d asid => isDie d && asid < 4096
  | .shootdownAll d => isDie d
  | .shootdownComplete d => isDie d
  | .patrolScrub n _ => isStack n
  | .stackTrainingStart n => isStack n
  | .stackTrainingEnd n _ => isStack n
  | .stackChannelLoss n => isStack n
  | .permitGrant g n => isRunner g && isStack n
  | .earlyApply n => isStack n
  | .contextKillMessage g d => isRunner g && isDie d
  | .uprgnWrite d rid _ => isDie d && rid < 1024
  | .updrainWrite d rid => isDie d && rid < 1024
  | .drainComplete d => isDie d
  | .podSelfTest p _ _ _ _ => isPod p
  | .handlerEntry p => isPod p
  | .stopRequestFreeze g => isContext g
  | .hprvhwWrite p _ => isPod p
  | .podctlHres p => isPod p
  | .dspresRes d => isDie d
  | .dispatcherHighWaterFault d => isDie d
  | .startVectorSubmit q _ => isQueue q
  | .closeVector q _ => isQueue q
  | .nestRecordRead q pos => isQueue q && pos < 4
  | .arrivalCounterIncrement d => isDie d
  | .arrcntWrite d c _ => isDie d && c < 256
  | .xtendAccept g _ => isRunner g
  | .teamPlacement _ d pl => isDie d && isPlacing pl
  | .iterationHandout _ d => isDie d
  | .urgencyHoldBack g => isContext g
  | .resume _ _ pl => isPlacing pl
  | .grammarStep g => isContext g
  | .maskComplete g _ => isContext g
  | .apertureRead o _ => o < 8388608
  | .apertureWrite o _ _ => o < 8388608
  | .portStateChange port _ lanes => port < 16 && lanes < 5
  | .thermalThrottle i => isIsland i
  | .thermalStop i => isIsland i
  | .islandSettingChange i mhz mv => isIsland i && mhz < 65536 && mv < 65536
  | .functionReady f => f.wf
  | .mmioRegisterWrite w off _ _ =>
    match w with
    | .launch => off < 65536
    | .mgmt => off < 33554432
  | .thermalThrottleEnd i => isIsland i
  | .refreshRateChange n _ => isStack n
  | .supplyDroop i _ => isIsland i
  | .grammarCommandComplete g _ => isContext g
  -- slot instructions
  | .ld sz sx _ _ _ _ => !(sx && sz == .d)
  | .ldsp sz sx _ _ _ _ => !(sx && sz == .d)
  | .stsp _ all lane _ _ _ => !(all && lane != 0)
  | .atcas _ d _ _ => d != 63
  | .atadd _ d _ _ => d != 63
  | .atswp _ d _ _ => d != 63
  | .atand _ d _ _ => d != 63
  | .ator _ d _ _ => d != 63
  | .atxor _ d _ _ => d != 63
  | .barr bk id => isBarrier bk id.toNat
  | .barw bk id => isBarrier bk id.toNat
  | .waitb cm last a => cm != 0 && !(last && a != 0)
  | .vcvt op _ sat _ _ => !(sat && !op.quantises)
  | .mma _ _ _ da db _ => isDigits da && isDigits db
  | .mmag _ _ _ da db _ => isDigits da && isDigits db
  | .xemitv w cvt _ _ _ => !(cvt && w != .w2)
  | .gbcast first lane _ _ => !(first && lane != 0)
  | .gregroup _ d _ _ => d != 0 && d != 63
  | _ => true

end Sys2Proof
end

