-- ==== Sys2Proof/Decode.lean ====
section
/-!
DEFINITION. Decoding a bundle: the header (R205, R206), the five opcode tables (R223) with the fields
of each instruction's entry, rejection by name, and the encoder. Every field is pulled out here, once.
-/
namespace Sys2Proof

/-- Why a word is no instruction of its slot (R207): each raises the illegal-instruction trap. -/
inductive DecodeErr where
  /-- The opcode is unassigned in the slot's table. -/
  | unassigned (op : Nat)
  /-- A reserved field is nonzero. -/
  | reserved
  /-- A field holds a code its entry reserves. -/
  | reservedCode
  /-- The opcode is assigned in the scalar table but not for slot sb. -/
  | wrongSlot
  /-- The fields are each legal and their combination is not. -/
  | illFormed
  /-- The extension words are missing. -/
  | truncated
deriving DecidableEq, Repr

/-- Bits lo+len-1 down to lo of a word (R4). -/
def bits (lo len : Nat) (w : W32) : BitVec len := w.extractLsb' lo len
/-- The 32 bits of a 64-bit word from bit lo. -/
def bits64 (lo : Nat) (w : Word) : W32 := w.extractLsb' lo 32
/-- One bit of a word. -/
def flag (k : Nat) (w : W32) : Bool := bits k 1 w == 1#1
/-- A reserved field must be zero (R5). -/
def zero (lo len : Nat) (w : W32) : Bool := bits lo len w == 0#len

/-- A vector operand from its field (R210). -/
def VOp.ofBits (b : BitVec 8) : VOp :=
  if b.extractLsb' 7 1 == 1#1 then .indexed (b.extractLsb' 5 2) (b.extractLsb' 0 5)
  else .direct (b.extractLsb' 0 7)
/-- The field of a vector operand (R210). -/
def VOp.toBits : VOp → BitVec 8
  | .direct n => 0#1 ++ n
  | .indexed b off => 1#1 ++ b ++ off
/-- An accumulator operand from its field (R210). -/
def Acc.ofBits (b : BitVec 9) : Acc := ⟨b.extractLsb' 6 3, b.extractLsb' 0 6⟩
/-- The field of an accumulator operand (R210). -/
def Acc.toBits (a : Acc) : BitVec 9 := a.tile ++ a.ver

/-- SZ (R243). -/
def Size.ofBits (b : BitVec 2) : Size :=
  if b == 0#2 then .b else if b == 1#2 then .h else if b == 2#2 then .w else .d
/-- SZ (R243). -/
def Size.toBits : Size → BitVec 2
  | .b => 0#2 | .h => 1#2 | .w => 2#2 | .d => 3#2
/-- CH (R108). -/
def Hint.ofBits (b : BitVec 2) : Hint :=
  if b == 0#2 then .normal else if b == 1#2 then .keep else if b == 2#2 then .strm else .na
/-- CH (R108). -/
def Hint.toBits : Hint → BitVec 2
  | .normal => 0#2 | .keep => 1#2 | .strm => 2#2 | .na => 3#2
/-- SC (R249). -/
def Scope.ofBits (b : BitVec 2) : Scope :=
  if b == 0#2 then .pod else if b == 1#2 then .die else if b == 2#2 then .pkg else .sys
/-- SC (R249). -/
def Scope.toBits : Scope → BitVec 2
  | .pod => 0#2 | .die => 1#2 | .pkg => 2#2 | .sys => 3#2
/-- RM (R88). -/
def RM.ofBits (b : BitVec 2) : RM :=
  if b == 0#2 then .rne else if b == 1#2 then .rtz else if b == 2#2 then .rdn else .rup
/-- RM (R88). -/
def RM.toBits : RM → BitVec 2
  | .rne => 0#2 | .rtz => 1#2 | .rdn => 2#2 | .rup => 3#2
/-- F of `vsetshp` (R275). -/
def ShpField.ofBits (b : BitVec 2) : ShpField :=
  if b == 0#2 then .m else if b == 1#2 then .n else if b == 2#2 then .k else .mnk
/-- F of `vsetshp` (R275). -/
def ShpField.toBits : ShpField → BitVec 2
  | .m => 0#2 | .n => 1#2 | .k => 2#2 | .mnk => 3#2

/-- Condition code numbers (R238). -/
def Cond.code : Cond → Nat
  | .eq => 0 | .ne => 1 | .lt => 2 | .ge => 3 | .ltu => 4 | .geu => 5
/-- Condition codes; the others are reserved (R238). -/
def Cond.ofCode? : Nat → Option Cond
  | 0 => some .eq | 1 => some .ne | 2 => some .lt | 3 => some .ge | 4 => some .ltu | 5 => some .geu
  | _ => none
/-- K numbers (R249). -/
def FenceKind.code : FenceKind → Nat
  | .acq => 0 | .rel => 1 | .full => 2
/-- K; 0b11 is illegal (R249). -/
def FenceKind.ofCode? : Nat → Option FenceKind
  | 0 => some .acq | 1 => some .rel | 2 => some .full | _ => none
/-- BK numbers (R250). -/
def BarKind.code : BarKind → Nat
  | .team => 0 | .die => 1 | .grid => 2
/-- BK; 0b11 is illegal (R250). -/
def BarKind.ofCode? : Nat → Option BarKind
  | 0 => some .team | 1 => some .die | 2 => some .grid | _ => none
/-- OP numbers of `vcvt` (R266). -/
def CvtOp.code : CvtOp → Nat
  | .s32f32 => 0 | .u32f32 => 1 | .f32s32 => 2 | .f32u32 => 3 | .rint => 4 | .qfp16 => 5
  | .qbf16 => 6 | .qe4m3 => 7 | .qe5m2 => 8 | .qe3m2 => 9 | .qe2m3 => 10 | .qe2m1 => 11
/-- OP of `vcvt`; 0xC to 0xF are reserved (R266). -/
def CvtOp.ofCode? : Nat → Option CvtOp
  | 0 => some .s32f32 | 1 => some .u32f32 | 2 => some .f32s32 | 3 => some .f32u32
  | 4 => some .rint | 5 => some .qfp16 | 6 => some .qbf16 | 7 => some .qe4m3
  | 8 => some .qe5m2 | 9 => some .qe3m2 | 10 => some .qe2m3 | 11 => some .qe2m1 | _ => none
/-- CC numbers of `vcmp` (R268). -/
def VCond.code : VCond → Nat
  | .feq => 0 | .fne => 1 | .flt => 2 | .fle => 3 | .fun_ => 4 | .ieq => 5 | .ine => 6
  | .ilt => 7 | .ile => 8 | .iltu => 9 | .ileu => 10
/-- CC of `vcmp`; 0xB to 0xF are reserved (R268). -/
def VCond.ofCode? : Nat → Option VCond
  | 0 => some .feq | 1 => some .fne | 2 => some .flt | 3 => some .fle | 4 => some .fun_
  | 5 => some .ieq | 6 => some .ine | 7 => some .ilt | 8 => some .ile | 9 => some .iltu
  | 10 => some .ileu | _ => none
/-- W numbers (R316). -/
def EmitW.code : EmitW → Nat
  | .w2 => 1 | .w4 => 2 | .w8 => 3
/-- W; 0b00 is reserved (R316). -/
def EmitW.ofCode? : Nat → Option EmitW
  | 1 => some .w2 | 2 => some .w4 | 3 => some .w8 | _ => none
/-- OP numbers of `gred` (R334). -/
def RedOp.code : RedOp → Nat
  | .fsum => 0 | .fmax => 1 | .fmin => 2 | .isum => 3 | .imax => 4 | .imin => 5
  | .and => 6 | .or => 7 | .xor => 8
/-- OP of `gred`; 0x9 to 0xF are reserved (R334). -/
def RedOp.ofCode? : Nat → Option RedOp
  | 0 => some .fsum | 1 => some .fmax | 2 => some .fmin | 3 => some .isum | 4 => some .imax
  | 5 => some .imin | 6 => some .and | 7 => some .or | 8 => some .xor | _ => none

/-- SHP and DIM (R302): SHP is reserved when DIM = 0b00. -/
def Cnt.ofBits? (b : BitVec 4) : Option Cnt :=
  let j := b.extractLsb' 2 2
  let dim := b.extractLsb' 0 2
  if dim == 0#2 then (if j == 0#2 then some .field else none)
  else if dim == 1#2 then some (.shape j .m)
  else if dim == 2#2 then some (.shape j .n)
  else some (.shape j .k)
/-- SHP and DIM (R302). -/
def Cnt.toBits : Cnt → BitVec 4
  | .field => 0#4
  | .shape j .m => j ++ 1#2
  | .shape j .n => j ++ 2#2
  | .shape j .k => j ++ 3#2
/-- IX and VOP of `xemitt` (R317): VOP is reserved when IX = 0 (R303). -/
def ixOfBits? (b : BitVec 11) : Option (Option VOp) :=
  if b.extractLsb' 8 2 != 0#2 then none
  else if b.extractLsb' 10 1 == 1#1 then some (some (VOp.ofBits (b.extractLsb' 0 8)))
  else if b.extractLsb' 0 8 == 0#8 then some none
  else none
/-- IX and VOP of `xemitt` (R317). -/
def ixBits : Option VOp → BitVec 11
  | none => 0#11
  | some v => 1#1 ++ 0#2 ++ v.toBits

/-- The scalar table of R223, fields by R236 to R260. -/
def decodeScalar (w : W32) (ext : List W32) : Except DecodeErr Instr :=
  match (bits 24 8 w).toNat with
  | 0x00 => if zero 0 24 w then .ok .nop else .error .reserved
  | 0x01 => if zero 0 6 w then .ok (.add (bits 18 6 w) (bits 12 6 w) (bits 6 6 w)) else .error .reserved
  | 0x02 => if zero 0 6 w then .ok (.sub (bits 18 6 w) (bits 12 6 w) (bits 6 6 w)) else .error .reserved
  | 0x03 => if zero 0 6 w then .ok (.mul (bits 18 6 w) (bits 12 6 w) (bits 6 6 w)) else .error .reserved
  | 0x04 => if zero 0 6 w then .ok (.mulhs (bits 18 6 w) (bits 12 6 w) (bits 6 6 w)) else .error .reserved
  | 0x05 => if zero 0 6 w then .ok (.mulhu (bits 18 6 w) (bits 12 6 w) (bits 6 6 w)) else .error .reserved
  | 0x06 => if zero 0 6 w then .ok (.and (bits 18 6 w) (bits 12 6 w) (bits 6 6 w)) else .error .reserved
  | 0x07 => if zero 0 6 w then .ok (.or (bits 18 6 w) (bits 12 6 w) (bits 6 6 w)) else .error .reserved
  | 0x08 => if zero 0 6 w then .ok (.xor (bits 18 6 w) (bits 12 6 w) (bits 6 6 w)) else .error .reserved
  | 0x09 => if zero 0 6 w then .ok (.shl (bits 18 6 w) (bits 12 6 w) (bits 6 6 w)) else .error .reserved
  | 0x0a => if zero 0 6 w then .ok (.shr (bits 18 6 w) (bits 12 6 w) (bits 6 6 w)) else .error .reserved
  | 0x0b => if zero 0 6 w then .ok (.sra (bits 18 6 w) (bits 12 6 w) (bits 6 6 w)) else .error .reserved
  | 0x0c => if zero 0 6 w then .ok (.min (bits 18 6 w) (bits 12 6 w) (bits 6 6 w)) else .error .reserved
  | 0x0d => if zero 0 6 w then .ok (.max (bits 18 6 w) (bits 12 6 w) (bits 6 6 w)) else .error .reserved
  | 0x0e => if zero 0 6 w then .ok (.minu (bits 18 6 w) (bits 12 6 w) (bits 6 6 w)) else .error .reserved
  | 0x0f => if zero 0 6 w then .ok (.maxu (bits 18 6 w) (bits 12 6 w) (bits 6 6 w)) else .error .reserved
  | 0x10 => .ok (.addi (bits 18 6 w) (bits 12 6 w) (bits 0 12 w))
  | 0x11 => .ok (.andi (bits 18 6 w) (bits 12 6 w) (bits 0 12 w))
  | 0x12 => .ok (.ori (bits 18 6 w) (bits 12 6 w) (bits 0 12 w))
  | 0x13 => .ok (.xori (bits 18 6 w) (bits 12 6 w) (bits 0 12 w))
  | 0x14 => if zero 6 6 w then .ok (.shli (bits 18 6 w) (bits 12 6 w) (bits 0 6 w)) else .error .reserved
  | 0x15 => if zero 6 6 w then .ok (.shri (bits 18 6 w) (bits 12 6 w) (bits 0 6 w)) else .error .reserved
  | 0x16 => if zero 6 6 w then .ok (.srai (bits 18 6 w) (bits 12 6 w) (bits 0 6 w)) else .error .reserved
  | 0x18 => (match Cond.ofCode? (bits 0 6 w).toNat with | some cc => .ok (.cmp cc (bits 18 6 w) (bits 12 6 w) (bits 6 6 w)) | none => .error .reservedCode)
  | 0x19 => (match Cond.ofCode? (bits 9 3 w).toNat with | some cc => .ok (.cmpi cc (bits 18 6 w) (bits 12 6 w) (bits 0 9 w)) | none => .error .reservedCode)
  | 0x1a => .ok (.sel (bits 18 6 w) (bits 12 6 w) (bits 6 6 w) (bits 0 6 w))
  | 0x1c => if zero 0 12 w then .ok (.clz (bits 18 6 w) (bits 12 6 w)) else .error .reserved
  | 0x1d => if zero 0 12 w then .ok (.ctz (bits 18 6 w) (bits 12 6 w)) else .error .reserved
  | 0x1e => if zero 0 12 w then .ok (.popc (bits 18 6 w) (bits 12 6 w)) else .error .reserved
  | 0x1f => .ok (.bext (bits 18 6 w) (bits 12 6 w) (bits 6 6 w) (bits 0 6 w))
  | 0x20 => .ok (.bins (bits 18 6 w) (bits 12 6 w) (bits 6 6 w) (bits 0 6 w))
  | 0x24 => .ok (.movi (bits 18 6 w) (bits 0 18 w))
  | 0x25 => (match ext with | [e0, e1] => if zero 0 18 w then .ok (.movx (bits 18 6 w) (e1 ++ e0)) else .error .reserved | _ => .error .truncated)
  | 0x28 => if zero 18 1 w && zero 0 12 w then .ok (.kmov (bits 19 5 w) (bits 12 6 w)) else .error .reserved
  | 0x29 => .ok (.kmovi (bits 19 5 w) (bits 0 19 w))
  | 0x2a => if zero 0 13 w then .ok (.movk (bits 18 6 w) (bits 13 5 w)) else .error .reserved
  | 0x2b => if zero 18 4 w && zero 0 12 w then .ok (.bmov (bits 22 2 w) (bits 12 6 w)) else .error .reserved
  | 0x2c => if zero 8 14 w then .ok (.bmovi (bits 22 2 w) (bits 0 8 w)) else .error .reserved
  | 0x2d => if zero 8 14 w then .ok (.badd (bits 22 2 w) (bits 0 8 w)) else .error .reserved
  | 0x30 => .ok (.ld (Size.ofBits (bits 10 2 w)) (flag 9 w) (Hint.ofBits (bits 7 2 w)) (bits 18 6 w) (bits 12 6 w) (bits 0 7 w))
  | 0x31 => if zero 9 1 w then .ok (.st (Size.ofBits (bits 10 2 w)) (Hint.ofBits (bits 7 2 w)) (bits 18 6 w) (bits 12 6 w) (bits 0 7 w)) else .error .reserved
  | 0x32 => if zero 8 1 w then .ok (.ldsp (Size.ofBits (bits 10 2 w)) (flag 9 w) (bits 4 4 w) (bits 18 6 w) (bits 12 6 w) (bits 0 4 w)) else .error .reserved
  | 0x33 => if zero 8 1 w then .ok (.stsp (Size.ofBits (bits 10 2 w)) (flag 9 w) (bits 4 4 w) (bits 18 6 w) (bits 12 6 w) (bits 0 4 w)) else .error .reserved
  | 0x38 => if zero 0 5 w then .ok (.atcas (flag 5 w) (bits 18 6 w) (bits 12 6 w) (bits 6 6 w)) else .error .reserved
  | 0x39 => if zero 0 5 w then .ok (.atadd (flag 5 w) (bits 18 6 w) (bits 12 6 w) (bits 6 6 w)) else .error .reserved
  | 0x3a => if zero 0 5 w then .ok (.atswp (flag 5 w) (bits 18 6 w) (bits 12 6 w) (bits 6 6 w)) else .error .reserved
  | 0x3b => if zero 0 5 w then .ok (.atand (flag 5 w) (bits 18 6 w) (bits 12 6 w) (bits 6 6 w)) else .error .reserved
  | 0x3c => if zero 0 5 w then .ok (.ator (flag 5 w) (bits 18 6 w) (bits 12 6 w) (bits 6 6 w)) else .error .reserved
  | 0x3d => if zero 0 5 w then .ok (.atxor (flag 5 w) (bits 18 6 w) (bits 12 6 w) (bits 6 6 w)) else .error .reserved
  | 0x40 => .ok (.br (flag 17 w) (bits 18 6 w) (bits 0 17 w))
  | 0x41 => (match ext with | [e0] => if zero 0 24 w then .ok (.jmp e0) else .error .reserved | _ => .error .truncated)
  | 0x42 => if zero 18 6 w && zero 0 12 w then .ok (.jr (bits 12 6 w)) else .error .reserved
  | 0x43 => (match ext with | [e0] => if zero 0 24 w then .ok (.call e0) else .error .reserved | _ => .error .truncated)
  | 0x44 => if zero 18 6 w && zero 0 12 w then .ok (.callr (bits 12 6 w)) else .error .reserved
  | 0x45 => if zero 0 24 w then .ok .ret else .error .reserved
  | 0x46 => if zero 17 1 w then .ok (.loop (bits 18 6 w) (bits 0 17 w)) else .error .reserved
  | 0x50 => if zero 0 20 w then (match FenceKind.ofCode? (bits 22 2 w).toNat with | some k => .ok (.fence k (Scope.ofBits (bits 20 2 w))) | none => .error .reservedCode) else .error .reserved
  | 0x51 => if zero 4 18 w then (match BarKind.ofCode? (bits 22 2 w).toNat with | some bk => .ok (.barr bk (bits 0 4 w)) | none => .error .reservedCode) else .error .reserved
  | 0x52 => if zero 4 18 w then (match BarKind.ofCode? (bits 22 2 w).toNat with | some bk => .ok (.barw bk (bits 0 4 w)) | none => .error .reservedCode) else .error .reserved
  | 0x53 => if zero 8 6 w then .ok (.arrinc (flag 17 w) (bits 14 3 w) (bits 0 8 w) (bits 18 6 w)) else .error .reserved
  | 0x54 => if zero 0 18 w then .ok (.batch (bits 18 6 w)) else .error .reserved
  | 0x55 => if zero 18 3 w && zero 0 11 w then .ok (.waitb (bits 21 3 w) (flag 11 w) (bits 12 6 w)) else .error .reserved
  | 0x56 => if zero 0 24 w then .ok .ufence else .error .reserved
  | 0x60 => if zero 12 6 w then .ok (.csrr (bits 18 6 w) (bits 0 12 w)) else .error .reserved
  | 0x61 => if zero 18 6 w then .ok (.csrw (bits 0 12 w) (bits 12 6 w)) else .error .reserved
  | 0x62 => .ok (.csrset (bits 18 6 w) (bits 0 12 w) (bits 12 6 w))
  | 0x63 => .ok (.csrclr (bits 18 6 w) (bits 0 12 w) (bits 12 6 w))
  | 0x68 => if zero 16 8 w then .ok (.trap (bits 0 16 w)) else .error .reserved
  | 0x69 => if zero 18 6 w && zero 0 12 w then .ok (.tret (bits 12 6 w)) else .error .reserved
  | 0x6a => if zero 0 24 w then .ok .yield else .error .reserved
  | 0x6b => if zero 1 23 w then .ok (if flag 0 w then .haltNext else .halt) else .error .reserved
  | 0x6c => if zero 0 24 w then .ok .brk else .error .reserved
  | op => .error (.unassigned op)

/-- The vector table of R223, fields by R264 to R278. -/
def decodeVector (w : W32) : Except DecodeErr Instr :=
  match (bits 24 8 w).toNat with
  | 0x00 => if zero 0 24 w then .ok .vnop else .error .reserved
  | 0x01 => .ok (.viadd (VOp.ofBits (bits 16 8 w)) (VOp.ofBits (bits 8 8 w)) (VOp.ofBits (bits 0 8 w)))
  | 0x02 => .ok (.visub (VOp.ofBits (bits 16 8 w)) (VOp.ofBits (bits 8 8 w)) (VOp.ofBits (bits 0 8 w)))
  | 0x03 => .ok (.vimul (VOp.ofBits (bits 16 8 w)) (VOp.ofBits (bits 8 8 w)) (VOp.ofBits (bits 0 8 w)))
  | 0x04 => .ok (.vand (VOp.ofBits (bits 16 8 w)) (VOp.ofBits (bits 8 8 w)) (VOp.ofBits (bits 0 8 w)))
  | 0x05 => .ok (.vor (VOp.ofBits (bits 16 8 w)) (VOp.ofBits (bits 8 8 w)) (VOp.ofBits (bits 0 8 w)))
  | 0x06 => .ok (.vxor (VOp.ofBits (bits 16 8 w)) (VOp.ofBits (bits 8 8 w)) (VOp.ofBits (bits 0 8 w)))
  | 0x07 => .ok (.vshl (VOp.ofBits (bits 16 8 w)) (VOp.ofBits (bits 8 8 w)) (VOp.ofBits (bits 0 8 w)))
  | 0x08 => .ok (.vshr (VOp.ofBits (bits 16 8 w)) (VOp.ofBits (bits 8 8 w)) (VOp.ofBits (bits 0 8 w)))
  | 0x09 => .ok (.vsra (VOp.ofBits (bits 16 8 w)) (VOp.ofBits (bits 8 8 w)) (VOp.ofBits (bits 0 8 w)))
  | 0x0a => .ok (.vimin (VOp.ofBits (bits 16 8 w)) (VOp.ofBits (bits 8 8 w)) (VOp.ofBits (bits 0 8 w)))
  | 0x0b => .ok (.vimax (VOp.ofBits (bits 16 8 w)) (VOp.ofBits (bits 8 8 w)) (VOp.ofBits (bits 0 8 w)))
  | 0x0c => .ok (.viadds (VOp.ofBits (bits 16 8 w)) (VOp.ofBits (bits 8 8 w)) (VOp.ofBits (bits 0 8 w)))
  | 0x0d => .ok (.visubs (VOp.ofBits (bits 16 8 w)) (VOp.ofBits (bits 8 8 w)) (VOp.ofBits (bits 0 8 w)))
  | 0x10 => .ok (.vadd (VOp.ofBits (bits 16 8 w)) (VOp.ofBits (bits 8 8 w)) (VOp.ofBits (bits 0 8 w)))
  | 0x11 => .ok (.vsub (VOp.ofBits (bits 16 8 w)) (VOp.ofBits (bits 8 8 w)) (VOp.ofBits (bits 0 8 w)))
  | 0x12 => .ok (.vmul (VOp.ofBits (bits 16 8 w)) (VOp.ofBits (bits 8 8 w)) (VOp.ofBits (bits 0 8 w)))
  | 0x13 => .ok (.vfma (VOp.ofBits (bits 16 8 w)) (VOp.ofBits (bits 8 8 w)) (VOp.ofBits (bits 0 8 w)))
  | 0x14 => .ok (.vmin (VOp.ofBits (bits 16 8 w)) (VOp.ofBits (bits 8 8 w)) (VOp.ofBits (bits 0 8 w)))
  | 0x15 => .ok (.vmax (VOp.ofBits (bits 16 8 w)) (VOp.ofBits (bits 8 8 w)) (VOp.ofBits (bits 0 8 w)))
  | 0x16 => if zero 0 8 w then .ok (.vabs (VOp.ofBits (bits 16 8 w)) (VOp.ofBits (bits 8 8 w))) else .error .reserved
  | 0x17 => if zero 0 8 w then .ok (.vneg (VOp.ofBits (bits 16 8 w)) (VOp.ofBits (bits 8 8 w))) else .error .reserved
  | 0x18 => if zero 0 1 w then (match CvtOp.ofCode? (bits 4 4 w).toNat with | some op => .ok (.vcvt op (RM.ofBits (bits 2 2 w)) (flag 1 w) (VOp.ofBits (bits 16 8 w)) (VOp.ofBits (bits 8 8 w))) | none => .error .reservedCode) else .error .reserved
  | 0x1c => if zero 0 8 w then .ok (.vexp2 (VOp.ofBits (bits 16 8 w)) (VOp.ofBits (bits 8 8 w))) else .error .reserved
  | 0x1d => if zero 0 8 w then .ok (.vlog2 (VOp.ofBits (bits 16 8 w)) (VOp.ofBits (bits 8 8 w))) else .error .reserved
  | 0x1e => if zero 0 8 w then .ok (.vrcp (VOp.ofBits (bits 16 8 w)) (VOp.ofBits (bits 8 8 w))) else .error .reserved
  | 0x1f => if zero 0 8 w then .ok (.vrsqrt (VOp.ofBits (bits 16 8 w)) (VOp.ofBits (bits 8 8 w))) else .error .reserved
  | 0x20 => if zero 0 8 w then .ok (.vtanh (VOp.ofBits (bits 16 8 w)) (VOp.ofBits (bits 8 8 w))) else .error .reserved
  | 0x24 => if zero 0 4 w then (match VCond.ofCode? (bits 4 4 w).toNat with | some cc => .ok (.vcmp cc (VOp.ofBits (bits 16 8 w)) (VOp.ofBits (bits 8 8 w))) | none => .error .reservedCode) else .error .reserved
  | 0x25 => .ok (.vsel (VOp.ofBits (bits 16 8 w)) (VOp.ofBits (bits 8 8 w)) (VOp.ofBits (bits 0 8 w)))
  | 0x28 => .ok (.vredsum (VOp.ofBits (bits 16 8 w)) (VOp.ofBits (bits 8 8 w)) (VOp.ofBits (bits 0 8 w)))
  | 0x29 => .ok (.vredmax (VOp.ofBits (bits 16 8 w)) (VOp.ofBits (bits 8 8 w)) (VOp.ofBits (bits 0 8 w)))
  | 0x2a => .ok (.vredmin (VOp.ofBits (bits 16 8 w)) (VOp.ofBits (bits 8 8 w)) (VOp.ofBits (bits 0 8 w)))
  | 0x2c => .ok (.vperm (VOp.ofBits (bits 16 8 w)) (VOp.ofBits (bits 8 8 w)) (VOp.ofBits (bits 0 8 w)))
  | 0x2d => if zero 6 2 w then .ok (.vbcast (VOp.ofBits (bits 16 8 w)) (VOp.ofBits (bits 8 8 w)) (bits 0 6 w)) else .error .reserved
  | 0x30 => .ok (.vbitpop (VOp.ofBits (bits 16 8 w)) (VOp.ofBits (bits 8 8 w)) (VOp.ofBits (bits 0 8 w)))
  | 0x31 => if zero 0 7 w then .ok (.vnzscan (flag 7 w) (VOp.ofBits (bits 16 8 w)) (VOp.ofBits (bits 8 8 w))) else .error .reserved
  | 0x32 => if zero 16 4 w && zero 0 2 w then .ok (.vsetshp (bits 22 2 w) (ShpField.ofBits (bits 20 2 w)) (VOp.ofBits (bits 8 8 w)) (bits 2 6 w)) else .error .reserved
  | 0x33 => if zero 0 2 w then .ok (.vmaskf (VOp.ofBits (bits 16 8 w)) (VOp.ofBits (bits 8 8 w)) (bits 2 6 w)) else .error .reserved
  | 0x34 => if zero 0 8 w then .ok (.vmov (VOp.ofBits (bits 16 8 w)) (VOp.ofBits (bits 8 8 w))) else .error .reserved
  | 0x35 => if zero 0 10 w then .ok (.vmovs (VOp.ofBits (bits 16 8 w)) (bits 10 6 w)) else .error .reserved
  | 0x36 => if zero 0 15 w then .ok (.viota (flag 15 w) (VOp.ofBits (bits 16 8 w))) else .error .reserved
  | 0x38 => .ok (.vld (VOp.ofBits (bits 16 8 w)) (bits 10 6 w) (bits 0 10 w))
  | 0x39 => .ok (.vst (VOp.ofBits (bits 16 8 w)) (bits 10 6 w) (bits 0 10 w))
  | 0x3a => if zero 6 1 w then .ok (.vldc (flag 9 w) (RM.ofBits (bits 7 2 w)) (VOp.ofBits (bits 16 8 w)) (bits 10 6 w) (bits 0 6 w)) else .error .reserved
  | 0x3b => .ok (.vstc (flag 9 w) (RM.ofBits (bits 7 2 w)) (flag 6 w) (VOp.ofBits (bits 16 8 w)) (bits 10 6 w) (bits 0 6 w))
  | op => .error (.unassigned op)

/-- The matrix table of R223, fields by R289 to R297. -/
def decodeMatrix (w : W32) : Except DecodeErr Instr :=
  match (bits 24 8 w).toNat with
  | 0x00 => if zero 0 24 w then .ok .mnop else .error .reserved
  | 0x01 => if zero 0 1 w then .ok (.mma (Acc.ofBits (bits 15 9 w)) (bits 13 2 w) (bits 8 5 w) (bits 5 3 w) (bits 2 3 w) (flag 1 w)) else .error .reserved
  | 0x02 => if zero 0 1 w then .ok (.mmag (Acc.ofBits (bits 15 9 w)) (bits 13 2 w) (bits 8 5 w) (bits 5 3 w) (bits 2 3 w) (flag 1 w)) else .error .reserved
  | 0x03 => if zero 0 15 w then .ok (.mzero (Acc.ofBits (bits 15 9 w))) else .error .reserved
  | 0x04 => if zero 0 6 w then .ok (.minit (Acc.ofBits (bits 15 9 w)) (VOp.ofBits (bits 7 8 w)) (flag 6 w)) else .error .reserved
  | 0x05 => if zero 0 6 w then .ok (.mread (Acc.ofBits (bits 15 9 w)) (VOp.ofBits (bits 7 8 w)) (flag 6 w)) else .error .reserved
  | 0x06 => if zero 0 16 w then .ok (.mscale (VOp.ofBits (bits 16 8 w))) else .error .reserved
  | 0x07 => if zero 0 1 w then .ok (.mstore (Acc.ofBits (bits 15 9 w)) (bits 13 2 w) (bits 8 5 w) (RM.ofBits (bits 6 2 w)) (flag 5 w) (flag 4 w) (flag 3 w) (flag 2 w) (flag 1 w)) else .error .reserved
  | op => .error (.unassigned op)

/-- The transfer table of R223, fields by R302, R303 and R350. -/
def decodeTransfer (w : W32) : Except DecodeErr Instr :=
  match (bits 24 8 w).toNat with
  | 0x00 => if zero 0 24 w then .ok .xnop else .error .reserved
  | 0x01 => if zero 0 13 w then (match Cnt.ofBits? (bits 20 4 w) with | some n => .ok (.xld n (bits 15 5 w) (Hint.ofBits (bits 13 2 w))) | none => .error .reservedCode) else .error .reserved
  | 0x02 => if zero 0 13 w then (match Cnt.ofBits? (bits 20 4 w) with | some n => .ok (.xst n (bits 15 5 w) (Hint.ofBits (bits 13 2 w))) | none => .error .reservedCode) else .error .reserved
  | 0x03 => if zero 0 15 w then (match Cnt.ofBits? (bits 20 4 w) with | some n => .ok (.xcopy n (bits 15 5 w)) | none => .error .reservedCode) else .error .reserved
  | 0x04 => if zero 0 15 w then (match Cnt.ofBits? (bits 20 4 w) with | some n => .ok (.xwload n (bits 15 5 w)) | none => .error .reservedCode) else .error .reserved
  | 0x05 => if zero 0 15 w then (match Cnt.ofBits? (bits 20 4 w) with | some n => .ok (.xwstore n (bits 15 5 w)) | none => .error .reservedCode) else .error .reserved
  | 0x06 => if zero 8 5 w then (match Cnt.ofBits? (bits 20 4 w) with | some n => .ok (.xgath n (bits 15 5 w) (Hint.ofBits (bits 13 2 w)) (VOp.ofBits (bits 0 8 w))) | none => .error .reservedCode) else .error .reserved
  | 0x07 => if zero 8 5 w then (match Cnt.ofBits? (bits 20 4 w) with | some n => .ok (.xscat n (bits 15 5 w) (Hint.ofBits (bits 13 2 w)) (VOp.ofBits (bits 0 8 w))) | none => .error .reservedCode) else .error .reserved
  | 0x08 => if zero 0 13 w then (match Cnt.ofBits? (bits 20 4 w) with | some n => .ok (.xpref n (bits 15 5 w) (Hint.ofBits (bits 13 2 w))) | none => .error .reservedCode) else .error .reserved
  | 0x09 => if zero 13 2 w && zero 8 2 w then (match Cnt.ofBits? (bits 20 4 w) with | some n => (match EmitW.ofCode? (bits 11 2 w).toNat with | some ew => .ok (.xemitv ew (flag 10 w) n (bits 15 5 w) (VOp.ofBits (bits 0 8 w))) | none => .error .reservedCode) | none => .error .reservedCode) else .error .reserved
  | 0x0a => if zero 13 2 w then (match Cnt.ofBits? (bits 20 4 w) with | some n => (match EmitW.ofCode? (bits 11 2 w).toNat with | some ew => (match ixOfBits? (bits 0 11 w) with | some ix => .ok (.xemitt ew ix n (bits 15 5 w)) | none => .error .reservedCode) | none => .error .reservedCode) | none => .error .reservedCode) else .error .reserved
  | 0x0b => if zero 20 4 w && zero 0 13 w then .ok (.xwalk (bits 15 5 w) (Hint.ofBits (bits 13 2 w))) else .error .reserved
  | 0x0c => if zero 0 15 w then (match Cnt.ofBits? (bits 20 4 w) with | some n => .ok (.xnzscan n (bits 15 5 w)) | none => .error .reservedCode) else .error .reserved
  | 0x0d => if zero 0 13 w then (match Cnt.ofBits? (bits 20 4 w) with | some n => .ok (.xrld n (bits 15 5 w) (Hint.ofBits (bits 13 2 w))) | none => .error .reservedCode) else .error .reserved
  | 0x0e => if zero 0 13 w then (match Cnt.ofBits? (bits 20 4 w) with | some n => .ok (.xrst n (bits 15 5 w) (Hint.ofBits (bits 13 2 w))) | none => .error .reservedCode) else .error .reserved
  | 0x0f => if zero 20 4 w && zero 0 15 w then .ok (.xtend (bits 15 5 w)) else .error .reserved
  | 0x20 => if zero 20 4 w && zero 13 2 w && zero 9 1 w && zero 0 8 w then .ok (.pdabind (bits 10 3 w) (flag 8 w) (bits 15 5 w)) else .error .reserved
  | 0x21 =>
    if flag 8 w then
      (if zero 0 8 w && zero 9 1 w && zero 13 2 w && zero 20 4 w then .ok (.pdaunbindRes (bits 10 3 w) (bits 15 5 w)) else .error .reserved)
    else if zero 0 10 w && zero 13 11 w then .ok (.pdaunbind (bits 10 3 w)) else .error .reserved
  | 0x22 => if zero 20 4 w && zero 13 2 w && zero 0 8 w then .ok (.pdamask (flag 9 w) (bits 10 3 w) (flag 8 w) (bits 15 5 w)) else .error .reserved
  | 0x23 => if zero 20 4 w && zero 13 2 w && zero 9 1 w && zero 0 8 w then .ok (.pdaadv (bits 10 3 w) (flag 8 w) (bits 15 5 w)) else .error .reserved
  | 0x24 => if zero 20 4 w && zero 13 2 w && zero 9 1 w && zero 0 8 w then .ok (.pdafork (bits 10 3 w) (flag 8 w) (bits 15 5 w)) else .error .reserved
  | 0x25 => if zero 20 4 w && zero 13 2 w && zero 9 1 w && zero 0 8 w then .ok (.pdamark (bits 10 3 w) (flag 8 w) (bits 15 5 w)) else .error .reserved
  | 0x26 => if zero 20 4 w && zero 13 2 w && zero 9 1 w && zero 0 8 w then .ok (.pdaroll (bits 10 3 w) (flag 8 w) (bits 15 5 w)) else .error .reserved
  | 0x27 => if zero 20 4 w && zero 13 2 w && zero 9 1 w && zero 0 8 w then .ok (.pdasave (bits 10 3 w) (flag 8 w) (bits 15 5 w)) else .error .reserved
  | 0x28 => if zero 20 4 w && zero 13 2 w && zero 9 1 w && zero 0 8 w then .ok (.pdarest (bits 10 3 w) (flag 8 w) (bits 15 5 w)) else .error .reserved
  | op => .error (.unassigned op)

/-- The gang table of R223, fields by R328 to R336. -/
def decodeGang (w : W32) (ext : List W32) : Except DecodeErr Instr :=
  match (bits 24 8 w).toNat with
  | 0x00 => if zero 0 24 w then .ok .gnop else .error .reserved
  | 0x01 => if zero 6 3 w then .ok (.gvote (flag 9 w) (bits 18 6 w) (VOp.ofBits (bits 10 8 w)) (bits 0 6 w)) else .error .reserved
  | 0x02 => (match ext with | [e0] => .ok (.gbr (bits 18 6 w) (bits 0 18 w) e0) | _ => .error .truncated)
  | 0x03 => (match ext with | [e0] => .ok (.gsplit (bits 18 6 w) (bits 0 18 w) e0) | _ => .error .truncated)
  | 0x04 => .ok (.gpush (bits 18 6 w) (bits 0 18 w))
  | 0x05 => if zero 0 24 w then .ok .gpop else .error .reserved
  | 0x06 => if zero 0 18 w then .ok (.gmsave (bits 18 6 w)) else .error .reserved
  | 0x07 => if zero 0 18 w then .ok (.gmrest (bits 18 6 w)) else .error .reserved
  | 0x08 => if zero 0 2 w then .ok (.gshuf (VOp.ofBits (bits 16 8 w)) (VOp.ofBits (bits 8 8 w)) (bits 2 6 w)) else .error .reserved
  | 0x09 => if zero 0 13 w then .ok (.gshuft (bits 19 5 w) (bits 13 6 w)) else .error .reserved
  | 0x0a => if zero 0 4 w then (match RedOp.ofCode? (bits 4 4 w).toNat with | some op => .ok (.gred op (VOp.ofBits (bits 16 8 w)) (VOp.ofBits (bits 8 8 w))) | none => .error .reservedCode) else .error .reserved
  | 0x0b => if zero 0 3 w then .ok (.gbcast (flag 3 w) (bits 4 4 w) (VOp.ofBits (bits 16 8 w)) (VOp.ofBits (bits 8 8 w))) else .error .reserved
  | 0x0c => if zero 6 3 w then .ok (.gregroup (flag 9 w) (bits 18 6 w) (VOp.ofBits (bits 10 8 w)) (bits 0 6 w)) else .error .reserved
  | op => .error (.unassigned op)

/-- Extension words an opcode takes in its slot (R223). An opcode that is unassigned in its slot counts as 0 (R206), and
so jmp and call, which R223 lists for sa only, count as 0 in sb. -/
def extWords (slot : Slot) (op : Nat) : Nat :=
  match slot with
  | .sa => if op == 0x25 then 2 else if op == 0x41 || op == 0x43 then 1 else 0
  | .sb => if op == 0x25 then 2 else 0
  | .g => if op == 0x02 || op == 0x03 then 1 else 0
  | _ => 0

/-- Opcodes of the scalar table that are legal in sa only (R223). -/
def saOnly (op : Nat) : Bool :=
  (0x38 ≤ op && op ≤ 0x3D) || (0x40 ≤ op && op ≤ 0x46) || (0x50 ≤ op && op ≤ 0x56)
    || (0x60 ≤ op && op ≤ 0x63) || (0x68 ≤ op && op ≤ 0x6C)

/-- Opcodes marked "single" (R223). The mark is the opcode's in the map of the scalar slots, so it counts in sb too
(R206; DEDUCED, log entry 34). -/
def isSingle (slot : Slot) (op : Nat) : Bool :=
  match slot with
  | .sa => (0x40 ≤ op && op ≤ 0x46) || (0x50 ≤ op && op ≤ 0x56) || (0x68 ≤ op && op ≤ 0x6C)
  | .sb => (0x40 ≤ op && op ≤ 0x46) || (0x50 ≤ op && op ≤ 0x56) || (0x68 ≤ op && op ≤ 0x6C)
  | .g => op == 0x02 || op == 0x03
  | _ => false

/-- The opcode of a syllable (R207). -/
def opcode (w : W32) : Nat := (bits 24 8 w).toNat

/-- Decode the syllable of a slot with its extension words (R207, R208). -/
def decodeSyllable (slot : Slot) (w : W32) (ext : List W32) : Except DecodeErr Instr :=
  let r := match slot with
    | .sa => decodeScalar w ext
    | .sb => if saOnly (opcode w) then .error .wrongSlot else decodeScalar w ext
    | .v => decodeVector w
    | .m => decodeMatrix w
    | .x => decodeTransfer w
    | .g => decodeGang w ext
  match r with
  | .ok i => if i.wf then .ok i else .error .illFormed
  | .error e => .error e

/-- The slots a header marks present, in commit order (R204, R205). -/
def headerSlots (h : W32) : List Slot :=
  (if flag 31 h then [Slot.sa] else []) ++ (if flag 30 h then [Slot.sb] else [])
    ++ (if flag 29 h then [Slot.v] else []) ++ (if flag 28 h then [Slot.m] else [])
    ++ (if flag 27 h then [Slot.x] else []) ++ (if flag 26 h then [Slot.g] else [])
/-- REP of a header: the repeat count minus one (R205). -/
def headerRep (h : W32) : Nat := (bits 18 8 h).toNat
/-- SW of a header (R205). -/
def headerSw (h : W32) : Bool := flag 17 h
/-- EXT of a header (R205). -/
def headerExt (h : W32) : Nat := (bits 15 2 h).toNat
/-- Words of a bundle after its header: syllables and extension words (R204). -/
def headerWords (h : W32) : Nat := (headerSlots h).length + headerExt h

/-- A fetched bundle: its header and the slots present, each with its syllable and its extension
words dealt out in commit order (R208). -/
structure Bundle where
  header : W32
  slots : List (Slot × W32 × List W32)
deriving DecidableEq, Repr

/-- Deal the extension words to the syllables in commit order (R208). -/
def dealExt : List (Slot × W32) → List W32 → List (Slot × W32 × List W32)
  | [], _ => []
  | (sl, w) :: rest, ext =>
    let n := extWords sl (opcode w)
    (sl, w, ext.take n) :: dealExt rest (ext.drop n)

/-- The bundle of a header and the words after it; `none` for an illegal bundle, by the three checks
of R206. -/
def makeBundle (h : W32) (ws : List W32) : Option Bundle :=
  let sl := headerSlots h
  let syl := sl.zip ws
  let need := (syl.map fun x => extWords x.1 (opcode x.2)).sum
  if zero 0 15 h && headerExt h == need
      && !(headerRep h != 0 && syl.any fun x => isSingle x.1 (opcode x.2))
      && ws.length == headerWords h then
    some ⟨h, dealExt syl (ws.drop sl.length)⟩
  else none

/-- A 32-bit word from four little-endian bytes (R4). -/
def wordOfBytes : List Byte → Option (W32 × List Byte)
  | b0 :: b1 :: b2 :: b3 :: rest => some (b3 ++ b2 ++ b1 ++ b0, rest)
  | _ => none

/-- Take n words off a byte list (R4). -/
def takeWords : Nat → List Byte → Option (List W32 × List Byte)
  | 0, bs => some ([], bs)
  | n + 1, bs =>
    match wordOfBytes bs with
    | none => none
    | some (w, rest) =>
      match takeWords n rest with
      | none => none
      | some (ws, rest') => some (w :: ws, rest')

/-- Decode the bundle at the head of a byte list: the bundle and the rest, or a refusal, by name. -/
def decodeBundle (bs : List Byte) : Except DecodeErr (Bundle × List Byte) :=
  match wordOfBytes bs with
  | none => .error .truncated
  | some (h, rest) =>
    match takeWords (headerWords h) rest with
    | none => .error .truncated
    | some (ws, rest') =>
      match makeBundle h ws with
      | none => .error .illFormed
      | some b => .ok (b, rest')

/-- The words of a slot instruction, syllable first: the inverse of the decoder; `[]` for an event,
which has no words. -/
def encode : Instr → List W32
  | .nop => [((0x00#8 ++ 0#24 : BitVec _) : W32)]
  | .add d a b => [((0x01#8 ++ d ++ a ++ b ++ 0#6 : BitVec _) : W32)]
  | .sub d a b => [((0x02#8 ++ d ++ a ++ b ++ 0#6 : BitVec _) : W32)]
  | .mul d a b => [((0x03#8 ++ d ++ a ++ b ++ 0#6 : BitVec _) : W32)]
  | .mulhs d a b => [((0x04#8 ++ d ++ a ++ b ++ 0#6 : BitVec _) : W32)]
  | .mulhu d a b => [((0x05#8 ++ d ++ a ++ b ++ 0#6 : BitVec _) : W32)]
  | .and d a b => [((0x06#8 ++ d ++ a ++ b ++ 0#6 : BitVec _) : W32)]
  | .or d a b => [((0x07#8 ++ d ++ a ++ b ++ 0#6 : BitVec _) : W32)]
  | .xor d a b => [((0x08#8 ++ d ++ a ++ b ++ 0#6 : BitVec _) : W32)]
  | .shl d a b => [((0x09#8 ++ d ++ a ++ b ++ 0#6 : BitVec _) : W32)]
  | .shr d a b => [((0x0a#8 ++ d ++ a ++ b ++ 0#6 : BitVec _) : W32)]
  | .sra d a b => [((0x0b#8 ++ d ++ a ++ b ++ 0#6 : BitVec _) : W32)]
  | .min d a b => [((0x0c#8 ++ d ++ a ++ b ++ 0#6 : BitVec _) : W32)]
  | .max d a b => [((0x0d#8 ++ d ++ a ++ b ++ 0#6 : BitVec _) : W32)]
  | .minu d a b => [((0x0e#8 ++ d ++ a ++ b ++ 0#6 : BitVec _) : W32)]
  | .maxu d a b => [((0x0f#8 ++ d ++ a ++ b ++ 0#6 : BitVec _) : W32)]
  | .addi d a imm => [((0x10#8 ++ d ++ a ++ imm : BitVec _) : W32)]
  | .andi d a imm => [((0x11#8 ++ d ++ a ++ imm : BitVec _) : W32)]
  | .ori d a imm => [((0x12#8 ++ d ++ a ++ imm : BitVec _) : W32)]
  | .xori d a imm => [((0x13#8 ++ d ++ a ++ imm : BitVec _) : W32)]
  | .shli d a imm => [((0x14#8 ++ d ++ a ++ 0#6 ++ imm : BitVec _) : W32)]
  | .shri d a imm => [((0x15#8 ++ d ++ a ++ 0#6 ++ imm : BitVec _) : W32)]
  | .srai d a imm => [((0x16#8 ++ d ++ a ++ 0#6 ++ imm : BitVec _) : W32)]
  | .cmp cc d a b => [((0x18#8 ++ d ++ a ++ b ++ BitVec.ofNat 6 cc.code : BitVec _) : W32)]
  | .cmpi cc d a imm => [((0x19#8 ++ d ++ a ++ BitVec.ofNat 3 cc.code ++ imm : BitVec _) : W32)]
  | .sel d a b c => [((0x1a#8 ++ d ++ a ++ b ++ c : BitVec _) : W32)]
  | .clz d a => [((0x1c#8 ++ d ++ a ++ 0#12 : BitVec _) : W32)]
  | .ctz d a => [((0x1d#8 ++ d ++ a ++ 0#12 : BitVec _) : W32)]
  | .popc d a => [((0x1e#8 ++ d ++ a ++ 0#12 : BitVec _) : W32)]
  | .bext d a pos lm1 => [((0x1f#8 ++ d ++ a ++ pos ++ lm1 : BitVec _) : W32)]
  | .bins d a pos lm1 => [((0x20#8 ++ d ++ a ++ pos ++ lm1 : BitVec _) : W32)]
  | .movi d imm => [((0x24#8 ++ d ++ imm : BitVec _) : W32)]
  | .movx d imm => [((0x25#8 ++ d ++ 0#18 : BitVec _) : W32), bits64 0 imm, bits64 32 imm]
  | .kmov k a => [((0x28#8 ++ k ++ 0#1 ++ a ++ 0#12 : BitVec _) : W32)]
  | .kmovi k imm => [((0x29#8 ++ k ++ imm : BitVec _) : W32)]
  | .movk d k => [((0x2a#8 ++ d ++ k ++ 0#13 : BitVec _) : W32)]
  | .bmov b a => [((0x2b#8 ++ b ++ 0#4 ++ a ++ 0#12 : BitVec _) : W32)]
  | .bmovi b imm => [((0x2c#8 ++ b ++ 0#14 ++ imm : BitVec _) : W32)]
  | .badd b imm => [((0x2d#8 ++ b ++ 0#14 ++ imm : BitVec _) : W32)]
  | .ld sz sx ch d a off => [((0x30#8 ++ d ++ a ++ sz.toBits ++ BitVec.ofBool sx ++ ch.toBits ++ off : BitVec _) : W32)]
  | .st sz ch s a off => [((0x31#8 ++ s ++ a ++ sz.toBits ++ 0#1 ++ ch.toBits ++ off : BitVec _) : W32)]
  | .ldsp sz sx lane d a off => [((0x32#8 ++ d ++ a ++ sz.toBits ++ BitVec.ofBool sx ++ 0#1 ++ lane ++ off : BitVec _) : W32)]
  | .stsp sz all lane s a off => [((0x33#8 ++ s ++ a ++ sz.toBits ++ BitVec.ofBool all ++ 0#1 ++ lane ++ off : BitVec _) : W32)]
  | .atcas wide d a b => [((0x38#8 ++ d ++ a ++ b ++ BitVec.ofBool wide ++ 0#5 : BitVec _) : W32)]
  | .atadd wide d a b => [((0x39#8 ++ d ++ a ++ b ++ BitVec.ofBool wide ++ 0#5 : BitVec _) : W32)]
  | .atswp wide d a b => [((0x3a#8 ++ d ++ a ++ b ++ BitVec.ofBool wide ++ 0#5 : BitVec _) : W32)]
  | .atand wide d a b => [((0x3b#8 ++ d ++ a ++ b ++ BitVec.ofBool wide ++ 0#5 : BitVec _) : W32)]
  | .ator wide d a b => [((0x3c#8 ++ d ++ a ++ b ++ BitVec.ofBool wide ++ 0#5 : BitVec _) : W32)]
  | .atxor wide d a b => [((0x3d#8 ++ d ++ a ++ b ++ BitVec.ofBool wide ++ 0#5 : BitVec _) : W32)]
  | .br nz a off => [((0x40#8 ++ a ++ BitVec.ofBool nz ++ off : BitVec _) : W32)]
  | .jmp off => [((0x41#8 ++ 0#24 : BitVec _) : W32), off]
  | .jr a => [((0x42#8 ++ 0#6 ++ a ++ 0#12 : BitVec _) : W32)]
  | .call off => [((0x43#8 ++ 0#24 : BitVec _) : W32), off]
  | .callr a => [((0x44#8 ++ 0#6 ++ a ++ 0#12 : BitVec _) : W32)]
  | .ret => [((0x45#8 ++ 0#24 : BitVec _) : W32)]
  | .loop a off => [((0x46#8 ++ a ++ 0#1 ++ off : BitVec _) : W32)]
  | .fence k sc => [((0x50#8 ++ BitVec.ofNat 2 k.code ++ sc.toBits ++ 0#20 : BitVec _) : W32)]
  | .barr bk id => [((0x51#8 ++ BitVec.ofNat 2 bk.code ++ 0#18 ++ id : BitVec _) : W32)]
  | .barw bk id => [((0x52#8 ++ BitVec.ofNat 2 bk.code ++ 0#18 ++ id : BitVec _) : W32)]
  | .arrinc own die ctr a => [((0x53#8 ++ a ++ BitVec.ofBool own ++ die ++ 0#6 ++ ctr : BitVec _) : W32)]
  | .batch d => [((0x54#8 ++ d ++ 0#18 : BitVec _) : W32)]
  | .waitb cm last a => [((0x55#8 ++ cm ++ 0#3 ++ a ++ BitVec.ofBool last ++ 0#11 : BitVec _) : W32)]
  | .ufence => [((0x56#8 ++ 0#24 : BitVec _) : W32)]
  | .csrr d c => [((0x60#8 ++ d ++ 0#6 ++ c : BitVec _) : W32)]
  | .csrw c a => [((0x61#8 ++ 0#6 ++ a ++ c : BitVec _) : W32)]
  | .csrset d c a => [((0x62#8 ++ d ++ a ++ c : BitVec _) : W32)]
  | .csrclr d c a => [((0x63#8 ++ d ++ a ++ c : BitVec _) : W32)]
  | .trap code => [((0x68#8 ++ 0#8 ++ code : BitVec _) : W32)]
  | .tret a => [((0x69#8 ++ 0#6 ++ a ++ 0#12 : BitVec _) : W32)]
  | .yield => [((0x6a#8 ++ 0#24 : BitVec _) : W32)]
  | .halt => [((0x6b#8 ++ 0#24 : BitVec _) : W32)]
  | .haltNext => [((0x6b#8 ++ 0#23 ++ 1#1 : BitVec _) : W32)]
  | .brk => [((0x6c#8 ++ 0#24 : BitVec _) : W32)]
  | .vnop => [((0x00#8 ++ 0#24 : BitVec _) : W32)]
  | .viadd d a b => [((0x01#8 ++ d.toBits ++ a.toBits ++ b.toBits : BitVec _) : W32)]
  | .visub d a b => [((0x02#8 ++ d.toBits ++ a.toBits ++ b.toBits : BitVec _) : W32)]
  | .vimul d a b => [((0x03#8 ++ d.toBits ++ a.toBits ++ b.toBits : BitVec _) : W32)]
  | .vand d a b => [((0x04#8 ++ d.toBits ++ a.toBits ++ b.toBits : BitVec _) : W32)]
  | .vor d a b => [((0x05#8 ++ d.toBits ++ a.toBits ++ b.toBits : BitVec _) : W32)]
  | .vxor d a b => [((0x06#8 ++ d.toBits ++ a.toBits ++ b.toBits : BitVec _) : W32)]
  | .vshl d a b => [((0x07#8 ++ d.toBits ++ a.toBits ++ b.toBits : BitVec _) : W32)]
  | .vshr d a b => [((0x08#8 ++ d.toBits ++ a.toBits ++ b.toBits : BitVec _) : W32)]
  | .vsra d a b => [((0x09#8 ++ d.toBits ++ a.toBits ++ b.toBits : BitVec _) : W32)]
  | .vimin d a b => [((0x0a#8 ++ d.toBits ++ a.toBits ++ b.toBits : BitVec _) : W32)]
  | .vimax d a b => [((0x0b#8 ++ d.toBits ++ a.toBits ++ b.toBits : BitVec _) : W32)]
  | .viadds d a b => [((0x0c#8 ++ d.toBits ++ a.toBits ++ b.toBits : BitVec _) : W32)]
  | .visubs d a b => [((0x0d#8 ++ d.toBits ++ a.toBits ++ b.toBits : BitVec _) : W32)]
  | .vadd d a b => [((0x10#8 ++ d.toBits ++ a.toBits ++ b.toBits : BitVec _) : W32)]
  | .vsub d a b => [((0x11#8 ++ d.toBits ++ a.toBits ++ b.toBits : BitVec _) : W32)]
  | .vmul d a b => [((0x12#8 ++ d.toBits ++ a.toBits ++ b.toBits : BitVec _) : W32)]
  | .vfma d a b => [((0x13#8 ++ d.toBits ++ a.toBits ++ b.toBits : BitVec _) : W32)]
  | .vmin d a b => [((0x14#8 ++ d.toBits ++ a.toBits ++ b.toBits : BitVec _) : W32)]
  | .vmax d a b => [((0x15#8 ++ d.toBits ++ a.toBits ++ b.toBits : BitVec _) : W32)]
  | .vabs d a => [((0x16#8 ++ d.toBits ++ a.toBits ++ 0#8 : BitVec _) : W32)]
  | .vneg d a => [((0x17#8 ++ d.toBits ++ a.toBits ++ 0#8 : BitVec _) : W32)]
  | .vcvt op rm sat d a => [((0x18#8 ++ d.toBits ++ a.toBits ++ BitVec.ofNat 4 op.code ++ rm.toBits ++ BitVec.ofBool sat ++ 0#1 : BitVec _) : W32)]
  | .vexp2 d a => [((0x1c#8 ++ d.toBits ++ a.toBits ++ 0#8 : BitVec _) : W32)]
  | .vlog2 d a => [((0x1d#8 ++ d.toBits ++ a.toBits ++ 0#8 : BitVec _) : W32)]
  | .vrcp d a => [((0x1e#8 ++ d.toBits ++ a.toBits ++ 0#8 : BitVec _) : W32)]
  | .vrsqrt d a => [((0x1f#8 ++ d.toBits ++ a.toBits ++ 0#8 : BitVec _) : W32)]
  | .vtanh d a => [((0x20#8 ++ d.toBits ++ a.toBits ++ 0#8 : BitVec _) : W32)]
  | .vcmp cc d a => [((0x24#8 ++ d.toBits ++ a.toBits ++ BitVec.ofNat 4 cc.code ++ 0#4 : BitVec _) : W32)]
  | .vsel d a b => [((0x25#8 ++ d.toBits ++ a.toBits ++ b.toBits : BitVec _) : W32)]
  | .vredsum d a b => [((0x28#8 ++ d.toBits ++ a.toBits ++ b.toBits : BitVec _) : W32)]
  | .vredmax d a b => [((0x29#8 ++ d.toBits ++ a.toBits ++ b.toBits : BitVec _) : W32)]
  | .vredmin d a b => [((0x2a#8 ++ d.toBits ++ a.toBits ++ b.toBits : BitVec _) : W32)]
  | .vperm d a b => [((0x2c#8 ++ d.toBits ++ a.toBits ++ b.toBits : BitVec _) : W32)]
  | .vbcast d a idx => [((0x2d#8 ++ d.toBits ++ a.toBits ++ 0#2 ++ idx : BitVec _) : W32)]
  | .vbitpop d a b => [((0x30#8 ++ d.toBits ++ a.toBits ++ b.toBits : BitVec _) : W32)]
  | .vnzscan t d a => [((0x31#8 ++ d.toBits ++ a.toBits ++ BitVec.ofBool t ++ 0#7 : BitVec _) : W32)]
  | .vsetshp j f a elem => [((0x32#8 ++ j ++ f.toBits ++ 0#4 ++ a.toBits ++ elem ++ 0#2 : BitVec _) : W32)]
  | .vmaskf d a s => [((0x33#8 ++ d.toBits ++ a.toBits ++ s ++ 0#2 : BitVec _) : W32)]
  | .vmov d a => [((0x34#8 ++ d.toBits ++ a.toBits ++ 0#8 : BitVec _) : W32)]
  | .vmovs d s => [((0x35#8 ++ d.toBits ++ s ++ 0#10 : BitVec _) : W32)]
  | .viota lane d => [((0x36#8 ++ d.toBits ++ BitVec.ofBool lane ++ 0#15 : BitVec _) : W32)]
  | .vld v a off => [((0x38#8 ++ v.toBits ++ a ++ off : BitVec _) : W32)]
  | .vst v a off => [((0x39#8 ++ v.toBits ++ a ++ off : BitVec _) : W32)]
  | .vldc t rm v a off => [((0x3a#8 ++ v.toBits ++ a ++ BitVec.ofBool t ++ rm.toBits ++ 0#1 ++ off : BitVec _) : W32)]
  | .vstc t rm sat v a off => [((0x3b#8 ++ v.toBits ++ a ++ BitVec.ofBool t ++ rm.toBits ++ BitVec.ofBool sat ++ off : BitVec _) : W32)]
  | .mnop => [((0x00#8 ++ 0#24 : BitVec _) : W32)]
  | .mma acc shp kb da db reuse => [((0x01#8 ++ acc.toBits ++ shp ++ kb ++ da ++ db ++ BitVec.ofBool reuse ++ 0#1 : BitVec _) : W32)]
  | .mmag acc shp kb da db reuse => [((0x02#8 ++ acc.toBits ++ shp ++ kb ++ da ++ db ++ BitVec.ofBool reuse ++ 0#1 : BitVec _) : W32)]
  | .mzero acc => [((0x03#8 ++ acc.toBits ++ 0#15 : BitVec _) : W32)]
  | .minit acc a row => [((0x04#8 ++ acc.toBits ++ a.toBits ++ BitVec.ofBool row ++ 0#6 : BitVec _) : W32)]
  | .mread acc d clr => [((0x05#8 ++ acc.toBits ++ d.toBits ++ BitVec.ofBool clr ++ 0#6 : BitVec _) : W32)]
  | .mscale a => [((0x06#8 ++ a.toBits ++ 0#16 : BitVec _) : W32)]
  | .mstore acc shp kb rm sat clr relu bias scl => [((0x07#8 ++ acc.toBits ++ shp ++ kb ++ rm.toBits ++ BitVec.ofBool sat ++ BitVec.ofBool clr ++ BitVec.ofBool relu ++ BitVec.ofBool bias ++ BitVec.ofBool scl ++ 0#1 : BitVec _) : W32)]
  | .xnop => [((0x00#8 ++ 0#24 : BitVec _) : W32)]
  | .xld n kb ch => [((0x01#8 ++ n.toBits ++ kb ++ ch.toBits ++ 0#13 : BitVec _) : W32)]
  | .xst n kb ch => [((0x02#8 ++ n.toBits ++ kb ++ ch.toBits ++ 0#13 : BitVec _) : W32)]
  | .xcopy n kb => [((0x03#8 ++ n.toBits ++ kb ++ 0#15 : BitVec _) : W32)]
  | .xwload n kb => [((0x04#8 ++ n.toBits ++ kb ++ 0#15 : BitVec _) : W32)]
  | .xwstore n kb => [((0x05#8 ++ n.toBits ++ kb ++ 0#15 : BitVec _) : W32)]
  | .xgath n kb ch v => [((0x06#8 ++ n.toBits ++ kb ++ ch.toBits ++ 0#5 ++ v.toBits : BitVec _) : W32)]
  | .xscat n kb ch v => [((0x07#8 ++ n.toBits ++ kb ++ ch.toBits ++ 0#5 ++ v.toBits : BitVec _) : W32)]
  | .xpref n kb ch => [((0x08#8 ++ n.toBits ++ kb ++ ch.toBits ++ 0#13 : BitVec _) : W32)]
  | .xemitv ew cvt n kb v => [((0x09#8 ++ n.toBits ++ kb ++ 0#2 ++ BitVec.ofNat 2 ew.code ++ BitVec.ofBool cvt ++ 0#2 ++ v.toBits : BitVec _) : W32)]
  | .xemitt ew ix n kb => [((0x0a#8 ++ n.toBits ++ kb ++ 0#2 ++ BitVec.ofNat 2 ew.code ++ ixBits ix : BitVec _) : W32)]
  | .xwalk kb ch => [((0x0b#8 ++ 0#4 ++ kb ++ ch.toBits ++ 0#13 : BitVec _) : W32)]
  | .xnzscan n kb => [((0x0c#8 ++ n.toBits ++ kb ++ 0#15 : BitVec _) : W32)]
  | .xrld n kb ch => [((0x0d#8 ++ n.toBits ++ kb ++ ch.toBits ++ 0#13 : BitVec _) : W32)]
  | .xrst n kb ch => [((0x0e#8 ++ n.toBits ++ kb ++ ch.toBits ++ 0#13 : BitVec _) : W32)]
  | .xtend kb => [((0x0f#8 ++ 0#4 ++ kb ++ 0#15 : BitVec _) : W32)]
  | .pdabind h res kb => [((0x20#8 ++ 0#4 ++ kb ++ 0#2 ++ h ++ 0#1 ++ BitVec.ofBool res ++ 0#8 : BitVec _) : W32)]
  | .pdaunbind h => [((0x21#8 ++ 0#11 ++ h ++ 0#10 : BitVec _) : W32)]
  | .pdaunbindRes h kb => [((0x21#8 ++ 0#4 ++ kb ++ 0#2 ++ h ++ 0#1 ++ 1#1 ++ 0#8 : BitVec _) : W32)]
  | .pdamask spread h res kb => [((0x22#8 ++ 0#4 ++ kb ++ 0#2 ++ h ++ BitVec.ofBool spread ++ BitVec.ofBool res ++ 0#8 : BitVec _) : W32)]
  | .pdaadv h res kb => [((0x23#8 ++ 0#4 ++ kb ++ 0#2 ++ h ++ 0#1 ++ BitVec.ofBool res ++ 0#8 : BitVec _) : W32)]
  | .pdafork h res kb => [((0x24#8 ++ 0#4 ++ kb ++ 0#2 ++ h ++ 0#1 ++ BitVec.ofBool res ++ 0#8 : BitVec _) : W32)]
  | .pdamark h res kb => [((0x25#8 ++ 0#4 ++ kb ++ 0#2 ++ h ++ 0#1 ++ BitVec.ofBool res ++ 0#8 : BitVec _) : W32)]
  | .pdaroll h res kb => [((0x26#8 ++ 0#4 ++ kb ++ 0#2 ++ h ++ 0#1 ++ BitVec.ofBool res ++ 0#8 : BitVec _) : W32)]
  | .pdasave h res kb => [((0x27#8 ++ 0#4 ++ kb ++ 0#2 ++ h ++ 0#1 ++ BitVec.ofBool res ++ 0#8 : BitVec _) : W32)]
  | .pdarest h res kb => [((0x28#8 ++ 0#4 ++ kb ++ 0#2 ++ h ++ 0#1 ++ BitVec.ofBool res ++ 0#8 : BitVec _) : W32)]
  | .gnop => [((0x00#8 ++ 0#24 : BitVec _) : W32)]
  | .gvote t d a elem => [((0x01#8 ++ d ++ a.toBits ++ BitVec.ofBool t ++ 0#3 ++ elem : BitVec _) : W32)]
  | .gbr c off rpc => [((0x02#8 ++ c ++ off : BitVec _) : W32), rpc]
  | .gsplit c off rpc => [((0x03#8 ++ c ++ off : BitVec _) : W32), rpc]
  | .gpush c off => [((0x04#8 ++ c ++ off : BitVec _) : W32)]
  | .gpop => [((0x05#8 ++ 0#24 : BitVec _) : W32)]
  | .gmsave d => [((0x06#8 ++ d ++ 0#18 : BitVec _) : W32)]
  | .gmrest a => [((0x07#8 ++ a ++ 0#18 : BitVec _) : W32)]
  | .gshuf d a s => [((0x08#8 ++ d.toBits ++ a.toBits ++ s ++ 0#2 : BitVec _) : W32)]
  | .gshuft kb s => [((0x09#8 ++ kb ++ s ++ 0#13 : BitVec _) : W32)]
  | .gred op d a => [((0x0a#8 ++ d.toBits ++ a.toBits ++ BitVec.ofNat 4 op.code ++ 0#4 : BitVec _) : W32)]
  | .gbcast first lane d a => [((0x0b#8 ++ d.toBits ++ a.toBits ++ lane ++ BitVec.ofBool first ++ 0#3 : BitVec _) : W32)]
  | .gregroup inv d a elem => [((0x0c#8 ++ d ++ a.toBits ++ BitVec.ofBool inv ++ 0#3 ++ elem : BitVec _) : W32)]
  | _ => []

/-- A slot the instruction is legal in (R223); `none` for an event. -/
def slotOf : Instr → Option Slot
  | .nop | .add .. | .sub .. | .mul .. | .mulhs .. | .mulhu .. | .and .. | .or .. | .xor ..
  | .shl .. | .shr .. | .sra .. | .min .. | .max .. | .minu .. | .maxu .. | .addi .. | .andi ..
  | .ori .. | .xori .. | .shli .. | .shri .. | .srai .. | .cmp .. | .cmpi .. | .sel .. | .clz ..
  | .ctz .. | .popc .. | .bext .. | .bins .. | .movi .. | .movx .. | .kmov .. | .kmovi ..
  | .movk .. | .bmov .. | .bmovi .. | .badd .. | .ld .. | .st .. | .ldsp .. | .stsp .. | .atcas ..
  | .atadd .. | .atswp .. | .atand .. | .ator .. | .atxor .. | .br .. | .jmp .. | .jr ..
  | .call .. | .callr .. | .ret | .loop .. | .fence .. | .barr .. | .barw .. | .arrinc ..
  | .batch .. | .waitb .. | .ufence | .csrr .. | .csrw .. | .csrset .. | .csrclr .. | .trap ..
  | .tret .. | .yield | .halt | .haltNext | .brk => some .sa
  | .vnop | .viadd .. | .visub .. | .vimul .. | .vand .. | .vor .. | .vxor .. | .vshl ..
  | .vshr .. | .vsra .. | .vimin .. | .vimax .. | .viadds .. | .visubs .. | .vadd .. | .vsub ..
  | .vmul .. | .vfma .. | .vmin .. | .vmax .. | .vabs .. | .vneg .. | .vcvt .. | .vexp2 ..
  | .vlog2 .. | .vrcp .. | .vrsqrt .. | .vtanh .. | .vcmp .. | .vsel .. | .vredsum ..
  | .vredmax .. | .vredmin .. | .vperm .. | .vbcast .. | .vbitpop .. | .vnzscan .. | .vsetshp ..
  | .vmaskf .. | .vmov .. | .vmovs .. | .viota .. | .vld .. | .vst .. | .vldc ..
  | .vstc .. => some .v
  | .mnop | .mma .. | .mmag .. | .mzero .. | .minit .. | .mread .. | .mscale ..
  | .mstore .. => some .m
  | .xnop | .xld .. | .xst .. | .xcopy .. | .xwload .. | .xwstore .. | .xgath .. | .xscat ..
  | .xpref .. | .xemitv .. | .xemitt .. | .xwalk .. | .xnzscan .. | .xrld .. | .xrst ..
  | .xtend .. | .pdabind .. | .pdaunbind .. | .pdaunbindRes .. | .pdamask .. | .pdaadv ..
  | .pdafork .. | .pdamark .. | .pdaroll .. | .pdasave .. | .pdarest .. => some .x
  | .gnop | .gvote .. | .gbr .. | .gsplit .. | .gpush .. | .gpop | .gmsave .. | .gmrest ..
  | .gshuf .. | .gshuft .. | .gred .. | .gbcast .. | .gregroup .. => some .g
  | _ => none

/-- The presence bit of a slot in a header (R205). -/
def presenceBit : Slot → W32
  | .sa => 0x80000000#32
  | .sb => 0x40000000#32
  | .v => 0x20000000#32
  | .m => 0x10000000#32
  | .x => 0x08000000#32
  | .g => 0x04000000#32

/-- The header of a bundle that holds one instruction in one slot, issued once (R205). -/
def soloHeader (slot : Slot) (ext : Nat) : W32 :=
  presenceBit slot ||| (BitVec.ofNat 32 ext <<< 15)

/-- The words of a bundle that holds one instruction in one slot (R204). -/
def encodeSolo (slot : Slot) (i : Instr) : List W32 :=
  match encode i with
  | [] => []
  | w :: ext => soloHeader slot ext.length :: w :: ext

/-- Zeros for the extension words a syllable takes in a slot. -/
def zeroExt (sl : Slot) (w : W32) : List W32 := List.replicate (extWords sl (opcode w)) 0#32
/-- The first table, in the order scalar, vector, matrix, transfer, gang, whose reading of a syllable with
extension words of zeros is an instruction; a syllable alone does not say its slot (log entry 5). -/
def tableSlot (w : W32) : Option Slot :=
  let ok := fun sl => match decodeSyllable sl w (zeroExt sl w) with
    | .ok _ => true
    | .error _ => false
  if ok .sa then some .sa
  else if ok .v then some .v
  else if ok .m then some .m
  else if ok .x then some .x
  else if ok .g then some .g
  else none

/-- The instruction read from the syllable whose bits are w, by the first table that assigns it
(log entry 5); extension words are given as zeros. -/
def decodeTableWord (nbits w : Nat) : Option Instr :=
  let v : W32 := BitVec.ofNat 32 (w % 2 ^ nbits)
  (tableSlot v).bind fun sl => (decodeSyllable sl v (zeroExt sl v)).toOption

end Sys2Proof
end

