-- ==== Sys2Proof/Config.lean ====
section
/-!
DEFINITION. What one part fixes and the manual leaves open: opaque constants, so no proof can see a
value. Each is named in a log entry.
-/
namespace Sys2Proof.Config

/-- Result of a transcendental for an input the special cases do not fix; `op` is 0 for vexp2, 1 for
vlog2, 2 for vrcp, 3 for vrsqrt, 4 for vtanh (R267). The model narrows it to the stated bound and monotonicity. -/
opaque transc : Nat → W32 → W32
/-- SHA3-512 of a byte list, 64 bytes (R440). -/
opaque sha3 : List Byte → List Byte
/-- The n-th ML-DSA-87 signature of a message under a key seed, 4,627 bytes (R440, R442). -/
opaque mldsaSign : Nat → List Byte → List Byte → List Byte
/-- ML-DSA-87 public key of a key seed, 2,592 bytes (R440). -/
opaque mldsaPublic : List Byte → List Byte
/-- The fuse secret (R440). -/
opaque fuseSecret : List Byte
/-- SERIAL from fuses (R442). -/
opaque serial : Word
/-- The DIK certificate held in the non-volatile store (R440). -/
opaque dikCert : List Byte
/-- Bytes of the firmware components that boot measures: root, dispatcher, power manager, error
collector (R439, R440). -/
opaque component : Nat → List Byte
/-- The boot configuration as it is measured: engine maps, PLCMAP and SLCMAP (R440). -/
opaque bootConfig : List Word → List W32 → List Word → List Byte
/-- Fused minimum security version of the root firmware (R439). -/
opaque minSvn : W32
/-- Which member of the set of R30 the n-th access to a malformed contiguous group takes. -/
opaque contPick : Nat → Nat
/-- What a byte of a remote package's memory reads as, by package, ASID and address, in the n-th read
(R314). -/
opaque remoteByte : Nat → Nat → Nat → Nat → Byte
/-- Whether an access to a remote package fails there and how, by package, ASID and address, in the n-th
access: none, or a number that names one of the faults that package can report (R314). -/
opaque remoteFault : Nat → Nat → Nat → Nat → Option Nat
/-- How long the write of a scratchpad granule by an uncovered command stays unseen, by the granule of a reader and the
count at which it was written (R63, R170, R175). -/
opaque raceWord : Nat → Nat → Nat
/-- Whether the root firmware's signature verifies against the vendor key (R439). -/
opaque rootVerifies : Bool
/-- A free value for the n-th read that the manual leaves open. -/
opaque freeWord : Nat → Word
/-- Save-area size of a launch with this nest record, in 64 KiB units (R406): the husk layout is the part's. -/
opaque saveNeed : List Word → W32
/-- Which husk of a launch an uncorrectable sector of its save area spoils, by the sector's number in the area
(R402, R408). -/
opaque saveOwner : Nat → Nat
/-- Whether the n-th issue of one half of a split context falls in the issue cycle of the other half's last (R234). -/
opaque sameCycle : Nat → Bool
/-- Whether the n-th host read completes with an error (R428). -/
opaque hostReadFails : Nat → Bool

end Sys2Proof.Config
end

