-- ==== Sys2Proof/Machine/Bits.lean ====
section
/-!
DEFINITION. Bit-field, packing, byte-order and sign-extension helpers (R4), and maps by number held
as rising lists with no default entry, so that equal maps are equal data.
-/
namespace Sys2Proof.Machine

/-- Field of a natural number: `len` bits from bit `lo`. -/
def field (lo len x : Nat) : Nat := (x >>> lo) % 2 ^ len
/-- A number with `len` bits from bit `lo` replaced by `v`. -/
def setField (lo len v x : Nat) : Nat :=
  (x >>> (lo + len)) <<< (lo + len) ||| ((v % 2 ^ len) <<< lo) ||| (x % 2 ^ lo)
/-- One bit of a number. -/
def bitOf (k x : Nat) : Bool := Nat.testBit x k
/-- A Boolean as a bit. -/
def bit (b : Bool) : Nat := if b then 1 else 0

/-- n fields of w bits, the field of index i at bit w*i (R4). -/
def packNat (w : Nat) : Nat → (Nat → Nat) → Nat
  | 0, _ => 0
  | n + 1, f => packNat w n f ||| ((f n % 2 ^ w) <<< (w * n))
/-- n elements of w bits as one bit vector, element i at bit w*i. -/
def pack (w n : Nat) (f : Nat → BitVec w) : BitVec (w * n) :=
  BitVec.ofNat _ (packNat w n fun i => (f i).toNat)
/-- Element i of w bits of a bit vector. -/
def elem (w i : Nat) {n : Nat} (v : BitVec n) : BitVec w := v.extractLsb' (w * i) w

/-- A vector register from its 64 elements (R261). -/
def packV (f : Nat → W32) : VReg := pack 32 64 f
/-- Element i of a vector register (R261). -/
def elemV (v : VReg) (i : Nat) : W32 := elem 32 i v
/-- A tile from its elements: (i, j) at index 32 i + j (R58). -/
def packT (f : Nat → Nat → W32) : Tile := pack 32 1024 fun k => f (k / 32) (k % 32)
/-- Element (i, j) of a tile (R58). -/
def elemT (t : Tile) (i j : Nat) : W32 := elem 32 (32 * i + j) t

/-- Little-endian bytes of a number, n of them (R4). -/
def bytesOf : Nat → Nat → List Byte
  | 0, _ => []
  | n + 1, x => BitVec.ofNat 8 x :: bytesOf n (x >>> 8)
/-- The number of a little-endian byte list (R4). -/
def ofBytes : List Byte → Nat
  | [] => 0
  | b :: bs => b.toNat + 256 * ofBytes bs

/-- Signed value of an n-bit field held as a number. -/
def sext (n x : Nat) : Int :=
  if Nat.testBit x (n - 1) then (x % 2 ^ n : Nat) - (2 ^ n : Nat) else (x % 2 ^ n : Nat)
/-- An integer modulo 2^n, as a number. -/
def wrap (n : Nat) (x : Int) : Nat := (x % (2 ^ n : Nat)).toNat

/-- Sign-extend a field to a 64-bit word. -/
def sx64 {n : Nat} (b : BitVec n) : Word := b.signExtend 64
/-- Zero-extend a field to a 64-bit word. -/
def zx64 {n : Nat} (b : BitVec n) : Word := b.setWidth 64

/-- Ceiling of a division. -/
def ceilDiv (a b : Nat) : Nat := (a + b - 1) / b
/-- Smallest k with 2^k at least n. -/
def clog2 (n : Nat) : Nat := if n ≤ 1 then 0 else Nat.log2 (n - 1) + 1
/-- The least i below n that satisfies p. -/
def leastBelow (n : Nat) (p : Nat → Bool) : Option Nat := (List.range n).find? p
/-- How many i below n satisfy p. -/
def countBelow (n : Nat) (p : Nat → Bool) : Nat := ((List.range n).filter p).length

/-- A map from numbers: pairs with strictly rising keys, none with the default value. -/
abbrev NMap (α : Type) := List (Nat × α)

/-- The value at key k, or the default. -/
def mget {α : Type} (d : α) : NMap α → Nat → α
  | [], _ => d
  | (k', v) :: m, k => if k == k' then v else mget d m k

/-- Insert or replace a pair in a rising list. -/
def mins {α : Type} (k : Nat) (v : α) : NMap α → NMap α
  | [] => [(k, v)]
  | (k', v') :: m =>
    if k == k' then (k, v) :: m
    else if k < k' then (k, v) :: (k', v') :: m
    else (k', v') :: mins k v m

/-- Remove a key. -/
def mdel {α : Type} (k : Nat) (m : NMap α) : NMap α := m.filter fun x => x.1 != k

/-- Set the value at a key; the default value leaves no entry. -/
def mset {α : Type} [DecidableEq α] (d : α) (m : NMap α) (k : Nat) (v : α) : NMap α :=
  if v = d then mdel k m else mins k v m

/-- Keys strictly rising. -/
def rising {α : Type} : NMap α → Bool
  | [] => true
  | (_, _) :: [] => true
  | (k, _) :: (k', v') :: m => decide (k < k') && rising ((k', v') :: m)
/-- The canonical form of a map: rising keys and no default value. -/
def mwf {α : Type} [DecidableEq α] (d : α) (m : NMap α) : Bool :=
  rising m && m.all fun x => decide (x.2 ≠ d)

/-- Replace the first entry that satisfies p. -/
def updFirst {α : Type} (p : α → Bool) (f : α → α) : List α → List α
  | [] => []
  | a :: l => if p a then f a :: l else a :: updFirst p f l

end Sys2Proof.Machine
end

