-- ==== Sys2Proof/Machine/Numerics.lean ====
section
/-!
DEFINITION. Number formats and rounding (chapter 03): decoding and encoding of every element format,
the conversion of R89, block scales of R80 to R82, exact arithmetic before the one rounding, the
order key of R85 and the zero test of R87.
-/
namespace Sys2Proof.Machine

/-- Element formats of SPFMT (R55, R75). -/
inductive Fmt where
  | raw | fp32 | fp16 | bf16 | e4m3 | e5m2 | e3m2 | e2m3 | e2m1
  | mx4 | mx6 | mx8 | int8 | int16 | int32 | int64 | pair64
deriving DecidableEq, Repr

/-- SPFMT codes; the others are reserved (R55). -/
def Fmt.ofCode? : Nat → Option Fmt
  | 0 => some .raw | 1 => some .fp32 | 2 => some .fp16 | 3 => some .bf16 | 4 => some .e4m3
  | 5 => some .e5m2 | 6 => some .e3m2 | 7 => some .e2m3 | 8 => some .e2m1 | 9 => some .mx4
  | 10 => some .mx6 | 11 => some .mx8 | 12 => some .int8 | 13 => some .int16 | 14 => some .int32
  | 15 => some .int64 | 16 => some .pair64 | _ => none

/-- Bits an element takes in a bank: E3M2 and E2M3 take a byte (R75). -/
def Fmt.bits : Fmt → Nat
  | .raw => 8 | .fp32 => 32 | .fp16 => 16 | .bf16 => 16 | .e4m3 => 8 | .e5m2 => 8
  | .e3m2 => 8 | .e2m3 => 8 | .e2m1 => 4 | .mx4 => 4 | .mx6 => 6 | .mx8 => 8
  | .int8 => 8 | .int16 => 16 | .int32 => 32 | .int64 => 64 | .pair64 => 64
/-- The MX integer formats (R80). -/
def Fmt.isMx : Fmt → Bool
  | .mx4 | .mx6 | .mx8 => true
  | _ => false

/-- A decoded value: NaN, an infinity, or (-1)^neg * m * 2^e exactly; m = 0 is a signed zero. -/
inductive FVal where
  | nan
  | inf (neg : Bool)
  | fin (neg : Bool) (m : Nat) (e : Int)
deriving DecidableEq, Repr

/-- Positive zero. -/
def FVal.zero : FVal := .fin false 0 0
/-- An integer as a value. -/
def FVal.ofInt (x : Int) : FVal := .fin (x < 0) x.natAbs 0
/-- Whether the value is a finite zero. -/
def FVal.isZero : FVal → Bool
  | .fin _ m _ => m == 0
  | _ => false
/-- Sign of a value. -/
def FVal.neg : FVal → Bool
  | .nan => false
  | .inf s => s
  | .fin s _ _ => s

/-- The integer nearest to m * 2^e under a mode, ties to even (R88). -/
def roundInt (rm : RM) (neg : Bool) (m : Nat) (e : Int) : Nat :=
  if 0 ≤ e then m <<< e.toNat
  else
    let sh := (-e).toNat
    let q := m >>> sh
    let r := m % 2 ^ sh
    let half := 2 ^ (sh - 1)
    let up := match rm with
      | .rne => decide (half < r) || (decide (r = half) && q % 2 == 1)
      | .rtz => false
      | .rdn => neg && decide (r ≠ 0)
      | .rup => !neg && decide (r ≠ 0)
    if up then q + 1 else q

/-- floor(log2 (m * 2^e)) for m nonzero. -/
def flog2 (m : Nat) (e : Int) : Int := (Nat.log2 m : Int) + e

/-- Whether m1 * 2^e1 < m2 * 2^e2. -/
def magLt (m1 : Nat) (e1 : Int) (m2 : Nat) (e2 : Int) : Bool :=
  let lo := min e1 e2
  decide (m1 <<< (e1 - lo).toNat < m2 <<< (e2 - lo).toNat)

/-- Decode a binary format with subnormals: eb exponent bits, mb significand bits (R76). -/
def decodeIeee (eb mb c : Nat) : FVal :=
  let neg := bitOf (eb + mb) c
  let e := field mb eb c
  let m := field 0 mb c
  let bias : Int := (2 ^ (eb - 1) - 1 : Nat)
  if e = 2 ^ eb - 1 then (if m = 0 then .inf neg else .nan)
  else if e = 0 then .fin neg m (1 - bias - mb)
  else .fin neg (2 ^ mb + m) (e - bias - mb)
/-- Decode BF16: codes with E = 0 are zeros of their sign (R77). -/
def decodeBf16 (c : Nat) : FVal :=
  if field 7 8 c = 0 then .fin (bitOf 15 c) 0 0 else decodeIeee 8 7 c
/-- Decode a narrow-float code that is not special (R78). -/
def decodeNarrow (eb mb : Nat) (bias : Int) (c : Nat) : FVal :=
  if c % 2 ^ (eb + mb + 1) = 0 then .zero
  else .fin (bitOf (eb + mb) c) (2 ^ mb + field 0 mb c) (field mb eb c - bias - mb)
/-- Decode an MX element under its scale (R80, R81). -/
def decodeMx (n c scale : Nat) : FVal :=
  if scale % 256 = 255 then .nan
  else
    let q := sext n c
    if q = 0 then .zero else .fin (q < 0) q.natAbs ((scale % 256 : Nat) - 127 - (n - 2 : Nat))

/-- Value of an element code; `scale` is the block scale, used by the MX formats only. -/
def fmtDecode (f : Fmt) (c scale : Nat) : FVal :=
  match f with
  | .raw => .fin false (c % 256) 0
  | .fp32 => decodeIeee 8 23 c
  | .fp16 => decodeIeee 5 10 c
  | .bf16 => decodeBf16 c
  | .e4m3 => if c % 128 = 127 then .nan else decodeNarrow 4 3 7 c
  | .e5m2 =>
    if field 2 5 c = 31 then (if field 0 2 c = 0 then .inf (bitOf 7 c) else .nan)
    else decodeNarrow 5 2 15 c
  | .e3m2 => decodeNarrow 3 2 3 c
  | .e2m3 => decodeNarrow 2 3 1 c
  | .e2m1 => decodeNarrow 2 1 1 c
  | .mx4 => decodeMx 4 c scale
  | .mx6 => decodeMx 6 c scale
  | .mx8 => decodeMx 8 c scale
  | .int8 => .ofInt (sext 8 c)
  | .int16 => .ofInt (sext 16 c)
  | .int32 => .ofInt (sext 32 c)
  | .int64 => .ofInt (sext 64 c)
  | .pair64 => .fin false (c % 2 ^ 64) 0

/-- Overflow of an IEEE-derived format: infinity or the largest finite code (R89). -/
def overflowIeee (eb mb : Nat) (rm : RM) (sat neg : Bool) : Nat :=
  let infc := (2 ^ eb - 1) <<< mb
  let toInf := match rm with
    | .rne => true
    | .rtz => false
    | .rdn => neg
    | .rup => !neg
  let mag := if toInf && !sat then infc else infc - 1
  if neg then mag + 2 ^ (eb + mb) else mag

/-- Round and encode into FP32 or FP16, subnormals kept (R76, R89). -/
def encodeIeee (eb mb : Nat) (rm : RM) (sat : Bool) (x : FVal) : Nat :=
  let infc := (2 ^ eb - 1) <<< mb
  let sgn := fun (neg : Bool) (mag : Nat) => if neg then mag + 2 ^ (eb + mb) else mag
  match x with
  | .nan => infc + 2 ^ (mb - 1)
  | .inf neg => sgn neg (if sat then infc - 1 else infc)
  | .fin neg m e =>
    if m = 0 then sgn neg 0
    else
      let bias : Int := (2 ^ (eb - 1) - 1 : Nat)
      let q := max (flog2 m e - mb) (1 - bias - mb)
      let n := roundInt rm neg m (e - q)
      let code := ((q + mb + bias).toNat <<< mb) + n - 2 ^ mb
      if infc ≤ code then overflowIeee eb mb rm sat neg else sgn neg code

/-- Round and encode into BF16: an 8-bit significand with unbounded exponent, then flushed (R77). -/
def encodeBf16 (rm : RM) (sat : Bool) (x : FVal) : Nat :=
  match x with
  | .fin neg m e =>
    if m = 0 then (if neg then 0x8000 else 0)
    else
      let q := flog2 m e - 7
      let n := roundInt rm neg m (e - q)
      if magLt n q 1 (-126) then (if neg then 0x8000 else 0)
      else
        let code := ((q + 7 + 127).toNat <<< 7) + n - 128
        if 0x7F80 ≤ code then overflowIeee 8 7 rm sat neg
        else if neg then code + 0x8000 else code
  | y => encodeIeee 8 7 rm sat y

/-- Round and encode into a narrow float: no subnormals, one zero, finite overflow saturates to
`top` (R78, R79, R89). -/
def encodeNarrow (eb mb : Nat) (bias : Int) (top : Nat) (rm : RM) (neg : Bool) (m : Nat) (e : Int) : Nat :=
  let sgn := 2 ^ (eb + mb)
  if m = 0 then 0
  else
    let minM := if neg then 2 ^ mb else 2 ^ mb + 1
    if magLt m e minM (-bias - mb) then
      let up := match rm with
        | .rne => magLt minM (-bias - mb) m (e + 1)
        | .rtz => false
        | .rdn => neg
        | .rup => !neg
      if up then (if neg then sgn else 1) else 0
    else
      let q := flog2 m e - mb
      let n := roundInt rm neg m (e - q)
      let code := ((q + mb + bias).toNat <<< mb) + n - 2 ^ mb
      let code := if top < code then top else code
      if neg then code + sgn else code

/-- Round to an integer and saturate to [lo, hi]; NaN gives 0 (R83). -/
def toIntSat (lo hi : Int) (rm : RM) (x : FVal) : Int :=
  match x with
  | .nan => 0
  | .inf neg => if neg then lo else hi
  | .fin neg m e =>
    let n : Int := roundInt rm neg m e
    let v := if neg then -n else n
    if v < lo then lo else if hi < v then hi else v

/-- Convert to a signed integer code of n bits (R83). -/
def encodeInt (n : Nat) (rm : RM) (x : FVal) : Nat :=
  wrap n (toIntSat (-(2 ^ (n - 1) : Nat)) ((2 ^ (n - 1) : Nat) - 1) rm x)

/-- The conversion of R89 into a format other than RAW and MX, with saturation when `sat`. -/
def convertS (sat : Bool) (f : Fmt) (rm : RM) (x : FVal) : Nat :=
  let narrow := fun (eb mb : Nat) (bias : Int) (top nanc infc : Nat) =>
    match x with
    | .nan => nanc
    | .inf neg => if neg then infc + 2 ^ (eb + mb) else infc
    | .fin neg m e => encodeNarrow eb mb bias top rm neg m e
  match f with
  | .fp32 => encodeIeee 8 23 rm sat x
  | .fp16 => encodeIeee 5 10 rm sat x
  | .bf16 => encodeBf16 rm sat x
  | .e4m3 => narrow 4 3 7 0x7E 0x7F 0x7E
  | .e5m2 => narrow 5 2 15 0x7B 0x7E (if sat then 0x7B else 0x7C)
  | .e3m2 => narrow 3 2 3 0x1F 0 0x1F
  | .e2m3 => narrow 2 3 1 0x1F 0 0x1F
  | .e2m1 => narrow 2 1 1 0x7 0 0x7
  | .int8 => encodeInt 8 rm x
  | .int16 => encodeInt 16 rm x
  | .int32 => encodeInt 32 rm x
  | .int64 => encodeInt 64 rm x
  | .pair64 => (toIntSat 0 ((2 ^ 64 : Nat) - 1) rm x).toNat
  | .raw | .mx4 | .mx6 | .mx8 => encodeInt 8 rm x
/-- The conversion of R89. -/
def convert (f : Fmt) (rm : RM) (x : FVal) : Nat := convertS false f rm x

/-- Value of an FP32 code. -/
def f32 (c : W32) : FVal := decodeIeee 8 23 c.toNat
/-- Round a value to FP32 (R89). -/
def toF32 (rm : RM) (x : FVal) : W32 := BitVec.ofNat 32 (encodeIeee 8 23 rm false x)
/-- The canonical FP32 NaN (R90). -/
def nan32 : W32 := 0x7FC00000#32

/-- Exact signed sum of two finite values, with the IEEE sign of a zero sum. -/
def addFin (rm : RM) (n1 : Bool) (m1 : Nat) (e1 : Int) (n2 : Bool) (m2 : Nat) (e2 : Int) : FVal :=
  let lo := min e1 e2
  let a : Int := m1 <<< (e1 - lo).toNat
  let b : Int := m2 <<< (e2 - lo).toNat
  let t := (if n1 then -a else a) + (if n2 then -b else b)
  if t = 0 then
    (if n1 == n2 then .fin n1 0 0 else .fin (match rm with | .rdn => true | _ => false) 0 0)
  else .fin (t < 0) t.natAbs lo
/-- Exact sum before rounding (IEEE 754). -/
def addV (rm : RM) (x y : FVal) : FVal :=
  match x, y with
  | .nan, _ => .nan
  | _, .nan => .nan
  | .inf a, .inf b => if a == b then .inf a else .nan
  | .inf a, .fin _ _ _ => .inf a
  | .fin _ _ _, .inf b => .inf b
  | .fin n1 m1 e1, .fin n2 m2 e2 => addFin rm n1 m1 e1 n2 m2 e2
/-- Exact product before rounding (IEEE 754). -/
def mulV (x y : FVal) : FVal :=
  match x, y with
  | .nan, _ => .nan
  | _, .nan => .nan
  | .inf a, .inf b => .inf (a != b)
  | .inf a, .fin b m _ => if m = 0 then .nan else .inf (a != b)
  | .fin a m _, .inf b => if m = 0 then .nan else .inf (a != b)
  | .fin a m1 e1, .fin b m2 e2 => .fin (a != b) (m1 * m2) (e1 + e2)
/-- Negation. -/
def negV (x : FVal) : FVal :=
  match x with
  | .nan => .nan
  | .inf a => .inf (!a)
  | .fin a m e => .fin (!a) m e

/-- FP32 addition under a mode (R100). -/
def fadd (rm : RM) (a b : W32) : W32 := toF32 rm (addV rm (f32 a) (f32 b))
/-- FP32 subtraction. -/
def fsub (a b : W32) : W32 := toF32 .rne (addV .rne (f32 a) (negV (f32 b)))
/-- FP32 multiplication. -/
def fmul (a b : W32) : W32 := toF32 .rne (mulV (f32 a) (f32 b))
/-- FP32 fused multiply-add, rounded once. -/
def ffma (a b c : W32) : W32 := toF32 .rne (addV .rne (mulV (f32 a) (f32 b)) (f32 c))
/-- An FP32 NaN code. -/
def isNan32 (c : W32) : Bool := decide (field 23 8 c.toNat = 255) && decide (field 0 23 c.toNat ≠ 0)
/-- The order key of an FP32 code (R85). -/
def ord32 (c : W32) : W32 := if bitOf 31 c.toNat then c ^^^ 0xFFFFFFFF#32 else c ^^^ 0x80000000#32
/-- Numeric minimum, −0 below +0, canonical NaN if either is NaN (R265). -/
def fminN (a b : W32) : W32 :=
  if isNan32 a || isNan32 b then nan32 else if (ord32 a).toNat ≤ (ord32 b).toNat then a else b
/-- Numeric maximum, −0 below +0, canonical NaN if either is NaN (R265). -/
def fmaxN (a b : W32) : W32 :=
  if isNan32 a || isNan32 b then nan32 else if (ord32 a).toNat ≤ (ord32 b).toNat then b else a
/-- A NaN becomes the canonical NaN (R90). -/
def canon32 (a : W32) : W32 := if isNan32 a then nan32 else a
/-- A zero of either sign. -/
def isZero32 (c : W32) : Bool := decide (c.toNat % 2 ^ 31 = 0)

/-- What counts as zero under a format and block scale (R87). -/
def countsZero (f : Fmt) (c scale : Nat) : Bool := (fmtDecode f c scale).isZero

/-- |x| < |y| for values that are not NaN, an infinity above every finite value (R82). -/
def absLt (x y : FVal) : Bool :=
  match x, y with
  | .fin _ m1 e1, .fin _ m2 e2 => magLt m1 e1 m2 e2
  | .fin _ _ _, .inf _ => true
  | _, _ => false
/-- The largest magnitude of a block. -/
def amaxOf (xs : List FVal) : FVal := xs.foldl (fun a x => if absLt a x then x else a) .zero
/-- The E8M0 scale of a block with no NaN (R82). -/
def mxScale (xs : List FVal) : Nat :=
  match amaxOf xs with
  | .nan => 255
  | .inf _ => 254
  | .fin _ m e => if m = 0 then 127 else (max (-127) (min 127 (flog2 m e)) + 127).toNat
/-- Encode a block into MXINTn: the scale and the codes (R82). -/
def mxEncode (n : Nat) (xs : List FVal) : Nat × List Nat :=
  if xs.any (fun x => match x with | .nan => true | _ => false) then (255, xs.map fun _ => 0)
  else
    let sc := mxScale xs
    let top : Int := (2 ^ (n - 1) : Nat) - 1
    (sc, xs.map fun x =>
      match x with
      | .nan => 0
      | .inf neg => wrap n (if neg then -top else top)
      | .fin neg m e => wrap n (toIntSat (-top) top .rne (.fin neg m (e + (n - 2 : Nat) - (sc - 127)))))

/-- Digits of a matrix operand format (R94). -/
def Fmt.digits? : Fmt → Option Nat
  | .e2m1 => some 1
  | .e4m3 | .e5m2 | .e3m2 | .e2m3 | .mx4 => some 2
  | .mx6 => some 3
  | .mx8 | .int8 | .bf16 => some 4
  | .fp16 => some 6
  | _ => none
/-- Quads per product (R95). -/
def quads (a b : Nat) : Nat := ceilDiv (a * b) 4
/-- The k-group size (R95). -/
def kGroup (a b : Nat) : Nat := if quads a b ≤ 8 then 8 / 2 ^ clog2 (quads a b) else 1

/-- A product truncated towards zero to a multiple of 2^w. -/
def truncAt (w : Int) (x : FVal) : FVal :=
  match x with
  | .fin neg m e => if e < w then .fin neg (m >>> (w - e).toNat) w else .fin neg m e
  | y => y
/-- Exponent of the largest nonzero product of a group. -/
def emaxOf (ps : List FVal) : Option Int :=
  ps.foldl (fun a p =>
    match p with
    | .fin _ m e =>
      if m = 0 then a
      else match a with
        | none => some (flog2 m e)
        | some w => some (max w (flog2 m e))
    | _ => a) none
/-- The group sum S of R97 over products, window rule when q > 1. -/
def groupSum (q : Nat) (ps : List FVal) : FVal :=
  let special := ps.foldl (fun a p =>
    match p with
    | .fin _ _ _ => a
    | y => addV .rne a y) FVal.zero
  match special with
  | .fin _ _ _ =>
    let qs := if q ≤ 1 then ps else
      match emaxOf ps with
      | none => []
      | some w => ps.map (truncAt (w - 46))
    qs.foldl (addV .rne) .zero
  | y => y
/-- Multiply exactly by an E8M0 scale; scale 0xFF is NaN (R98). -/
def scaleBy (sc : Nat) (x : FVal) : FVal :=
  if sc % 256 = 255 then .nan else
  match x with
  | .fin neg m e => .fin neg m (e + ((sc % 256 : Nat) - 127))
  | y => y
/-- One rounding of the accumulator; a zero T leaves it unchanged (R99). -/
def accumulate (acc : W32) (t : FVal) : W32 :=
  if t.isZero then acc else toF32 .rne (addV .rne (f32 acc) t)

/-- The fixed reduction tree of R101 over `2^k` positions, an absent operand passing the other. -/
def treeReduce (op : W32 → W32 → W32) : Nat → (Nat → Option W32) → Option W32
  | 0, f => f 0
  | k + 1, f =>
    treeReduce op k fun i =>
      match f i, f (i + 2 ^ k) with
      | some a, some b => some (op a b)
      | some a, none => some a
      | none, b => b

end Sys2Proof.Machine
end

