-- ==== Sys2Proof/Machine/Parts.lean ====
section
/-!
DEFINITION. The parts of the state that belong to contexts and pods: halves, sticky states, commands,
traps, grammar handles (chapters 02, 07, 08, 11, 12, 14, 16). All plain data.
-/
namespace Sys2Proof.Machine

/-- States of a context slot (R180). -/
inductive Phase where
  | free | loading | ready | issuing | parked | frozen
deriving DecidableEq, Repr

/-- A stalk entry (R188): PEND, RPC, KIND, SAVED, PPC. -/
structure StalkEntry where
  pend : Mask
  rpc : Word
  split : Bool
  saved : Mask
  ppc : Word
deriving DecidableEq, Repr

/-- One register or scratchpad word that an exposed result writes (R61, R397). -/
inductive Wr where
  /-- A scalar register. -/
  | s (n : SReg) (v : Word)
  /-- A staging register. -/
  | k (n : KReg) (v : Word)
  /-- An index base. -/
  | b (n : BReg) (v : Byte)
  /-- Vector register n of the context's budget (or of the handler bank) in a lane. -/
  | v (lane n : Nat) (x : VReg)
  /-- `n` bytes of the portion at local address `la` in a lane. -/
  | sp (lane la n x : Nat)
  /-- A field of a shape register in a lane (R275). -/
  | shp (lane j : Nat) (f : MNK) (x : Nat)
  /-- A CSR write, with the lanes active at its issue (R255). -/
  | csr (c : Nat) (x : Word) (am : Mask)
deriving DecidableEq, Repr

/-- An exposed result that has not landed: its due cycle and all it writes; `pb` when the debug mode
set pending bits for it (R61, R64); `beat` counts the issue cycle of the context, and `born` that of its half, in which it
was issued (R234, R281). -/
structure Pend where
  due : Nat
  writes : List Wr
  pb : Bool
  beat : Nat
  born : Nat
deriving DecidableEq, Repr

/-- What a fresh issue captures: staging registers of its block and scalar operands (R219). -/
structure Cap where
  ks : List Word
  a : Word
  b : Word
deriving DecidableEq, Repr

/-- A sticky state that is not empty (R217): operation, captures, step values, running offsets, the
version of the fresh issue and the count of issues per tile. -/
structure Sticky where
  op : Instr
  cap : Cap
  step : Word
  rstep : Nat
  roff : Nat
  laOff : Nat
  vaOff : Word
  tileOff : Nat
  v0 : Nat
  counts : NMap Nat
deriving DecidableEq, Repr

/-- Memory types of a leaf (R27). -/
inductive MemType where
  | normal | update | grammar | host
deriving DecidableEq, Repr

/-- A piece of an access inside one line, after translation: home die, VA, PA, length, memory type,
the region id of its leaf. -/
structure Seg where
  die : Nat
  asid : Nat
  va : Nat
  pa : Nat
  len : Nat
  mt : MemType
  rid : Nat
deriving DecidableEq, Repr

/-- How far a queued store is visible by an ordering operation, before it takes effect at its slices: to its own
context only, or to every agent of the pod, die or package instance (R153). -/
inductive Vis where
  | own | pod | die | pkg
deriving DecidableEq, Repr
/-- A store in a store queue (R155): its translated pieces with their bytes, its hint, the urgency of its
context at issue (R110), how far ordering operations have made it visible (R153, R158), and the order in which
they did so. -/
structure StqEntry where
  segs : List (Seg × List Byte)
  ch : Hint
  urg : Bool
  vis : Vis
  stamp : Nat
deriving DecidableEq, Repr

/-- What an interlocked context waits for. -/
inductive Wait where
  /-- Nothing. -/
  | none
  /-- A memory access of the slot that must be tried again (R19, R116, R118, R244). -/
  | access (i : Instr)
  /-- A fence (R156). -/
  | fence (k : FenceKind) (sc : Scope)
  /-- A batch wait for classes `cm` up to batch n (R253). -/
  | waitb (n : Nat) (cm : BitVec 3)
  /-- `ufence`, for the emit commands issued before it: those of lower order number (R144, R254). -/
  | ufence (upto : Nat)
  /-- A barrier wait on a joined generation (R250). -/
  | barw (bk : BarKind) (id : Nat) (gen : Nat)
  /-- A version check of a tile for a version; `extra` for the further stall of `mread` (R59, R295). -/
  | version (tile ver : Nat) (extra : Bool)
  /-- `arrinc`: its counter and addend (R251). -/
  | arrinc (die ctr : Nat) (x : W32)
  /-- `batch` while 32,767 batches are open (R252). -/
  | batch
  /-- `gsplit`: condition lanes, target, fall-through and reconvergence (R191). -/
  | split (t n : Mask) (tgt ft rpc : Word)
  /-- A half that has reached the RPC of its split (R193). -/
  | join
  /-- `halt` or `halt.next` making the steps of R167 (R260). -/
  | halt (next : Bool)
  /-- Waiting for the walker's next iteration (R379, R380). -/
  | iter
  /-- A half held at its switch point until the picker chooses the context again (R194). -/
  | held
  /-- The half that froze first, until the other half has stopped (R195, R396). -/
  | stopped
  /-- A handler slot frozen by a high-water fault: the uncommitted write (R72). -/
  | highWater (v : Word)
deriving DecidableEq, Repr

/-- A queued store that was lost because its stack had Failed (R117): ASID, VA and stack. -/
structure Lost where
  asid : Nat
  va : Nat
  stack : Nat
deriving DecidableEq, Repr

/-- A sequencer's view of a context: the scalar copies, AM, stalk and issue position of one half
(R192). -/
structure Half where
  sreg : NMap Word
  kreg : NMap Word
  breg : NMap Byte
  am : Mask
  own : Mask
  stalk : List StalkEntry
  pc : Word
  /-- Fall-through address of the bundle last fetched (R204). -/
  ft : Word
  /-- Change of program counter made by this bundle, effective from the next (R213). -/
  nextPc : Option Word
  /-- Number of the issue cycle that has begun last (R60). -/
  cycle : Nat
  /-- Issue cycles in the present run (R186). -/
  run : Nat
  /-- Repeat and slot at which issue stands; slot 6 is past the last (R215, R216). -/
  rep : Nat
  slot : Nat
  /-- The issue at (rep, slot) has begun: its cycle is counted (R398). -/
  begun : Bool
  /-- The comparison of R190 has been made for this issue and no freeze has stopped it since (R215). -/
  live : Bool
  /-- The bundle ends at a switch point although SW is clear: a `yield`, or a split tried (R185, R259). -/
  switchReq : Bool
  /-- The version check at which the slot stalled has been released (R59). -/
  verOk : Bool
  pend : List Pend
  stV : Option Sticky
  stM : Option Sticky
  stX : Option Sticky
  stq : List StqEntry
  /-- Lost stores, whose faults the half has still to take, one at an issue (R117). -/
  lost : List Lost
  wait : Wait
  /-- Urgency of the context when the access that waits was issued, and the order number of its arrival (R105, R110). -/
  urgAt : Bool
  ask : Option Nat
  tpc : Word
deriving DecidableEq, Repr

/-- A half at context start; every register 0 (R188, R379). -/
def Half.reset : Half :=
  { sreg := [], kreg := [], breg := [], am := 0#16, own := 0xFFFF#16, stalk := [], pc := 0#64,
    ft := 0#64, nextPc := none, cycle := 0, run := 0, rep := 0, slot := 0, begun := false, live := false, switchReq := false,
    verOk := false, pend := [],
    stV := none, stM := none, stX := none, stq := [], lost := [], wait := .none, urgAt := false, ask := none, tpc := 0#64 }

/-- A line of a stack cache (R69): VA of its first byte, dirty, and its 64 bytes. -/
structure StkLine where
  va : Nat
  dirty : Bool
  data : BitVec 512
deriving DecidableEq, Repr

/-- Command classes, numbered as the bits of CM (R253). -/
inductive Cls where
  | matrix | transfer | grammar
deriving DecidableEq, Repr

/-- A command fault (R307): element number, ASID, KIND, memory error, SRC, code or unit, level, VA;
`gcode` is the CODE of a grammar fault, 0 otherwise (R354). -/
structure CmdFault where
  felem : Nat
  asid : Nat
  kind : Nat
  merr : Bool
  src : Nat
  code : Nat
  lvl : Nat
  va : Nat
  gcode : Nat
deriving DecidableEq, Repr

/-- The part of a command in one lane: its shape or counts, the operands read at issue, formats in
force at issue, its progress point DONE (R307) and whether it has completed there. -/
structure LaneJob where
  lane : Nat
  m : Nat
  n : Nat
  k : Nat
  /-- Index values read at issue (R304, R292). -/
  idx : List W32
  /-- Value elements read at issue (R316). -/
  vals : List W32
  /-- SPFMT of the bank of the lane that the command decodes, and of the other bank (R53). -/
  fmt : Nat
  fmt2 : Nat
  /-- SPFMT of the portion banks of the lane, and of the window scratchpad, at issue (R66). -/
  lf : List Nat
  wf : List Nat
  /-- Register bytes read at issue: an A group, an initial tile, or a bias row. -/
  a : Nat
  /-- A-scale array taken at issue (R287). -/
  asc : BitVec 8192
  done : Nat
  fin : Bool
  /-- Walker state (R322): previous row and last virtual row plus one. -/
  prev : Option Nat
  vrow : Nat
deriving DecidableEq, Repr

/-- A command issued and not forgotten: order number, half, class, batch once it has joined one, the
operation with its captures and advanced offsets, its lanes, its fault. -/
structure Cmd where
  id : Nat
  half : HalfId
  cls : Cls
  batch : Option Nat
  op : Instr
  ks : List Word
  /-- Urgency of its context at issue (R110). -/
  urg : Bool
  /-- ASID, first physical bank of the portion, and launch and team whose window it reaches, at issue (R306). -/
  asid : Nat
  splo : Nat
  launch : Option Nat
  team : Nat
  tile : Nat
  jobs : List LaneJob
  flt : Option CmdFault
  /-- The fault has been reported at a wait. -/
  reported : Bool
  /-- A slot step of a grammar command, or the acceptance of `xtend`, has been made. -/
  stepped : Bool
  /-- Scratchpad bytes a grammar command will write, by lane: (lane, la, bytes). -/
  outs : List (Nat × Nat × List Byte)
  /-- Destination bytes whose pending bits the debug mode set: the command's lane, and the lane, address and length of
  the bytes (R64). -/
  dests : List (Nat × Nat × Nat × Nat)
  fin : Bool
deriving DecidableEq, Repr

/-- A saved configuration of a grammar slot (R338). -/
structure GMark where
  state : Nat
  fin : Bool
  top : Nat
  depth : Nat
  pos : Nat
deriving DecidableEq, Repr

/-- A bound grammar slot (R338); marks newest first. -/
structure GSlot where
  imgva : Nat
  arenava : Nat
  alim : Nat
  state : Nat
  fin : Bool
  top : Nat
  depth : Nat
  pos : Nat
  marks : List GMark
deriving DecidableEq, Repr

/-- The first dropped pair not yet reported (R145): VA, value, class, width, where it failed, and the
batch and issue place of its emit command. -/
structure Deferred where
  va : Nat
  val : Word
  cls : Nat
  w : Nat
  asid : Nat
  cmd : Nat
  /-- Number of its element: lane * 2^24 + i (R307, R316). -/
  elemNo : Nat
  batch : Option Nat
  code : Nat
  lvl : Nat
  unit : Nat
deriving DecidableEq, Repr

/-- The operand latch of a lane (R286): A bytes, format code, depth and row scales. -/
structure Latch where
  a : Nat
  fmt : Nat
  ka : Nat
  asc : BitVec 8192
deriving DecidableEq, Repr

/-- The A-scale array at allocation: 0x7F everywhere (R287). -/
def ascReset : BitVec 8192 := pack 8 1024 fun _ => 0x7F#8
/-- Value of a shape register at reset (R196). -/
def shpReset : Nat := 0x0000002000200020

/-- A scratchpad word that a command has written and no wait has covered (R63, R170): the command's context, order number,
class, batch and tile, the lane of the command, the physical place of the word's first byte, a mask of the bytes written,
the word's value before, and the count at which it was written (R148). -/
structure Unseen where
  gcn : Nat
  cmd : Nat
  cls : Cls
  batch : Option Nat
  tile : Nat
  lane : Nat
  key : Nat
  mask : Nat
  old : Nat
  born : Nat
deriving DecidableEq, Repr

/-- A context slot or handler slot. -/
structure Ctx where
  phase : Phase
  asid : Nat
  /-- The admitted launch it belongs to. -/
  launch : Option Nat
  team : Nat
  role : Nat
  kind : Nat
  ridx : Nat
  tpod : Nat
  spn : Nat
  splo : Nat
  acnt : Nat
  abase : Nat
  vcnt : Nat
  vbase : Nat
  stktop : Word
  stklim : Word
  stk : List StkLine
  dbgPend : Bool
  tfva : Word
  tfinfo : Word
  meva : Word
  meinfo : Word
  upfva : Word
  upfval : Word
  upfinfo : Word
  deferred : Option Deferred
  drop : Nat
  issued : Nat
  completed : Nat
  vstep : Word
  mstep : Word
  xstep : Word
  tsw : Word
  tvec : Word
  tctl : Word
  /-- Arrival state per barrier: kind, number, generation joined (R250). -/
  arrivals : List (BarKind × Nat × Nat)
  handles : NMap (Option GSlot)
  cmds : List Cmd
  nextCmd : Nat
  /-- The command whose fault was reported last (R399). -/
  lastCmd : Option Nat
  hxflt : Word
  hxfva : Word
  hlprog : NMap Nat
  iters : Nat
  urgent : Bool
  urgentRuns : Nat
  heldBack : Bool
  age : Nat
  credit : Nat
  /-- Slots that must be chosen before this context after its `yield` (R387). -/
  yieldSet : List Nat
  /-- It has executed `yield` since the last choice of the picker (R259). -/
  yielded : Bool
  /-- A stop request of the host waits for its boundary (R386, R394). -/
  stopReq : Bool
  preempting : Bool
  /-- A freeze of one half waits for the other to stop, and whether it is then queued for the handler (R195,
  R396). -/
  stopBy : Option Bool
  /-- Frozen, but the steps of R396 are not done: matrix commands in flight, dirty stack-cache lines. -/
  settling : Bool
  /-- Frozen by a pre-emption and by nothing else (R180, R407). -/
  preFrozen : Bool
  shp : NMap Nat
  latch : NMap (Option Latch)
  ascl : NMap (BitVec 8192)
  prim : Half
  spare : Option Half
  /-- Issue cycles of the context begun by either half, and the half that has the last one to itself so far (R234). -/
  beat : Nat
  beatOf : Option HalfId
  /-- TVEC entry and served context of a handler slot, PRV registers and views (R72, R399). -/
  prvtop : Word
  prvhw : Word
  prvlo : Word
  hsel : Word
  hvwin : Word
  htwin : Word
  /-- Context slot that entered the handler. -/
  serving : Option Nat
  /-- Slot that a `tret` of the bundle in issue resumes when the bundle ends (R258). -/
  tretTo : Option Nat
deriving DecidableEq, Repr

/-- A Free slot; launch-loaded fields 0. -/
def Ctx.reset : Ctx :=
  { phase := .free, asid := 0, launch := none, team := 0, role := 0, kind := 0, ridx := 0, tpod := 0,
    spn := 0, splo := 0, acnt := 0, abase := 0, vcnt := 0, vbase := 0, stktop := 0#64,
    stklim := 0#64, stk := [], dbgPend := false, tfva := 0#64, tfinfo := 0#64, meva := 0#64,
    meinfo := 0#64, upfva := 0#64, upfval := 0#64, upfinfo := 0#64, deferred := none, drop := 0,
    issued := 0, completed := 0, vstep := 0#64, mstep := 0#64, xstep := 0#64, tsw := 0#64,
    tvec := 0#64, tctl := 0#64, arrivals := [], handles := [], cmds := [], nextCmd := 0,
    lastCmd := none, hxflt := 0#64, hxfva := 0#64, hlprog := [], iters := 0, urgent := false,
    urgentRuns := 0, heldBack := false, age := 0, credit := 0, yieldSet := [], yielded := false, stopReq := false,
    preempting := false, stopBy := none, settling := false, preFrozen := false, shp := [], latch := [], ascl := [], prim := Half.reset, spare := none, beat := 0, beatOf := none,
    prvtop := 0#64, prvhw := 0#64, prvlo := 0#64, hsel := 0#64, hvwin := 0#64, htwin := 0#64,
    serving := none, tretTo := none }

/-- A pod's control block and its handler queue (R198, R399). -/
structure Pod where
  work : BitVec 17
  maperr : Bool
  degr : Bool
  rdy : Bool
  map0 : Word
  map1 : Word
  /-- Frozen context slots waiting for the handler slot, head first. -/
  queue : List Nat
deriving DecidableEq, Repr

/-- A pod at module reset (R198). -/
def Pod.reset : Pod :=
  { work := 0#17, maperr := false, degr := false, rdy := false, map0 := 0x0706050403020100#64,
    map1 := 0x0F0E0D0C0B0A0908#64, queue := [] }

end Sys2Proof.Machine
end

