-- ==== Sys2Proof/Machine/Units.lean ====
section
/-!
DEFINITION. The parts of the state that belong to C-dies, launches and the I-die (chapters 01, 04,
05, 15, 16, 20). All plain data.
-/
namespace Sys2Proof.Machine

/-- A last-level TLB entry (R32): ASID, first VA and size of the page, the leaf PTE. -/
structure TlbEnt where
  asid : Nat
  va : Nat
  size : Nat
  leaf : Word
deriving DecidableEq, Repr

/-- States of a slice line that is not I (R106). -/
inductive LineSt where
  | fill | clean | dirty
deriving DecidableEq, Repr

/-- A slice line (R103, R108): ASID, VA[47:7], memory type, PA[43:7], slice, set, way, state, RRV,
keep bit, its bytes, its 32-byte sectors that hold an uncorrectable and those that hold a correctable error (R111, R112), and
whether its tag holds an uncorrectable or a correctable one (R111). -/
structure Line where
  asid : Nat
  ln : Nat
  mt : MemType
  pln : Nat
  slice : Nat
  set : Nat
  way : Nat
  st : LineSt
  rrv : Nat
  keep : Bool
  data : BitVec 1024
  bad : List Nat
  soft : List Nat
  tagBad : Bool
  tagSoft : Bool
deriving DecidableEq, Repr

/-- A value in a bin: a word of the element's width, or an F16 sum with its flags (R86, R128). -/
inductive BinVal where
  | word (v : Nat)
  | f16 (n : Int) (nan pinf ninf : Bool)
deriving DecidableEq, Repr

/-- A bin or overflow entry (R126): element PA, binding (OP, ET), value, order of creation. -/
structure Bin where
  pa : Nat
  op : Nat
  et : Nat
  val : BinVal
  born : Nat
deriving DecidableEq, Repr

/-- A pending granule (R125): PA / 4096, RID, and the ASID and VA of the pair that set its bit. -/
structure Gran where
  gran : Nat
  rid : Nat
  asid : Nat
  va : Nat
deriving DecidableEq, Repr

/-- Scopes of a shootdown (R45). -/
inductive ShootScope where
  | page | asid | all
deriving DecidableEq, Repr

/-- A shootdown in progress (R37). -/
structure Shoot where
  scope : ShootScope
  asid : Nat
  va : Nat
  pages : Nat
deriving DecidableEq, Repr

/-- A C-die. -/
structure Die where
  asidtab : Word
  tlbinva : Word
  tlbinvc : W32
  tlberr : Bool
  shoot : Option Shoot
  tlb : List TlbEnt
  slcmap : List Word
  slcrdy : Word
  lines : List Line
  /-- Urgent requests each slice has granted in a row while another waited (R110). -/
  urow : NMap Nat
  uprgn : NMap W32
  uperr : Bool
  /-- A drain of this region is running (R122). -/
  drain : Option Nat
  f16rnd : List Nat
  hwm : List Bool
  upovf : List Word
  grans : List Gran
  bins : List Bin
  spill : List Bin
  arrcnt : NMap W32
  prvtop : Word
  prvhw : Word
  prvlo : Word
  dspFrozen : Bool
deriving DecidableEq, Repr

/-- A C-die at module reset (R45, R119, R122). -/
def Die.reset : Die :=
  { asidtab := 0#64, tlbinva := 0#64, tlbinvc := 0#32, tlberr := false, shoot := none, tlb := [],
    slcmap := [0x0706050403020100#64, 0x0F0E0D0C0B0A0908#64, 0x1716151413121110#64,
      0x1F1E1D1C1B1A1918#64, 0x2726252423222120#64, 0x2F2E2D2C2B2A2928#64, 0x3736353433323130#64,
      0x3F3E3D3C3B3A3938#64],
    slcrdy := 0#64, lines := [], urow := [], uprgn := [], uperr := false, drain := none, f16rnd := [0, 0],
    hwm := [false, false], upovf := [0#64, 0#64], grans := [], bins := [], spill := [], arrcnt := [],
    prvtop := 0#64, prvhw := 0#64, prvlo := 0#64, dspFrozen := false }

/-- How far a pair has travelled (R124, R125, R140). -/
inductive PairStage where
  /-- In the buffer of its engine's transfer port, not sent. -/
  | buffered
  /-- Sent; on its way to its home die. -/
  | sent
  /-- Translated and checked; in the ingress, waiting for a permit. -/
  | ingress
  /-- Past the filter, before the bins. -/
  | filtered
deriving DecidableEq, Repr

/-- An update pair in flight: sender, emit command, ASID, VA, width in bytes, value, and once
translated its PA, region and binding. -/
structure Pair where
  id : Nat
  gcn : Nat
  cmd : Nat
  lane : Nat
  /-- Number of its element: lane * 2^24 + i (R307, R316). -/
  elemNo : Nat
  asid : Nat
  va : Word
  w : Nat
  val : Word
  stage : PairStage
  die : Nat
  pa : Nat
  rid : Nat
  op : Nat
  et : Nat
  /-- The permit whose slot it uses, once past the filter (R140). -/
  permit : Nat
  /-- It comes from a husk and is sent again (R141). -/
  again : Bool
deriving DecidableEq, Repr

/-- A permit (R140): its number, its context and stack, slots used and slots freed. -/
structure Permit where
  id : Nat
  gcn : Nat
  stack : Nat
  used : Nat
  freed : Nat
deriving DecidableEq, Repr

/-- A queue entry (R367): its start vector, and the nest record once read (R371). -/
structure QEntry where
  asid : Nat
  rva : Nat
  tag : W32
  stkva : Nat
  record : Option (List Word)
deriving DecidableEq, Repr

/-- A role of a kernel (R183, R232): kind, contexts, registers, tiles. -/
structure RoleD where
  kind : Nat
  count : Nat
  vcnt : Nat
  acnt : Nat
deriving DecidableEq, Repr

/-- What a kernel header and STGVA give (R232). -/
structure Kern where
  entry : Nat
  stk : Nat
  spn : Nat
  cores : Bool
  roles : List RoleD
  stg : NMap Word
deriving DecidableEq, Repr

/-- A barrier of a launch (R162, R250): kind, its team or die (0 for a grid), number, current
generation, arrived contexts. -/
structure Barrier where
  bk : BarKind
  unit : Nat
  id : Nat
  gen : Nat
  arrived : List Nat
deriving DecidableEq, Repr

/-- A husk (R408): the context with its registers and tiles of every lane, and its unsent update pairs in buffer
order (R141). -/
structure Husk where
  gcn : Nat
  ctx : Ctx
  vregs : NMap VReg
  tiles : NMap Tile
  vers : NMap Nat
  unsent : List Pair
  queued : Option Nat
deriving DecidableEq, Repr

/-- A saved portion (R67): team, index of the pod in the team, bytes and format registers. -/
structure Portion where
  team : Nat
  tpod : Nat
  bytes : NMap Byte
  fmts : NMap Nat
deriving DecidableEq, Repr

/-- Whether a launch is pre-empted (R407). -/
inductive PreState where
  | running
  | freezing (area : Nat)
  | saved (area : Nat) (husks : List Husk) (portions : List Portion)
deriving DecidableEq, Repr

/-- A pod of a placed team: team, index in its pod list, pod, first bank of its portion (R47, R182). -/
structure TeamPod where
  team : Nat
  tpod : Nat
  pod : Nat
  splo : Nat
deriving DecidableEq, Repr

/-- An admitted launch (R368, R374 to R385). -/
structure Launch where
  id : Nat
  asid : Nat
  tag : W32
  q : Nat
  rva : Nat
  stkva : Nat
  record : List Word
  kern : Kern
  /-- DETAIL of a refusal (R374), 0 when none. -/
  refused : Nat
  /-- A check has found the trigger reached (R376). -/
  trig : Bool
  fired : Bool
  closed : Bool
  /-- Bounds of the dimensions, fixed at firing (R377). -/
  bounds : List Nat
  /-- Extension of a bound accepted before firing (R377). -/
  exts : List (Option Nat)
  /-- Iterations handed out on each die (R379). -/
  next : NMap Nat
  handed : Nat
  /-- Teams placed on each die (R383). -/
  placed : NMap Nat
  tpods : List TeamPod
  /-- Units waiting for an iteration, first to wait first: die and contexts (R379). -/
  waiting : List (Nat × List Nat)
  /-- Contexts of a MODE 1 team that have executed `halt.next` (R379). -/
  parkedNext : List Nat
  bars : List Barrier
  pre : PreState
  /-- Fatal cause and the context it names (R386, R402). -/
  fatal : Option (Nat × Nat)
  killed : Bool
deriving DecidableEq, Repr

/-- An entry of a cached range table (R18, R20): the unit, the ASID and the 64 entries. -/
structure RTab where
  unit : Nat
  asid : Nat
  entries : List (Word × Word)
deriving DecidableEq, Repr

/-- A voltage and frequency island (R437, R438); `peak` is its highest reading in the second that runs (R445). -/
structure Isl where
  temp : Nat
  peak : Nat
  mv : Nat
  mhz : Nat
  throttled : Bool
deriving DecidableEq, Repr

/-- A Gwepor Link port (R436). -/
structure Port where
  state : PortState
  lanes : Nat
  retrains : Nat
deriving DecidableEq, Repr

/-- A command of the security controller or the copy engine in progress. -/
inductive SecCmd where
  | report | certs | extend (n : Nat) | unassigned
deriving DecidableEq, Repr

/-- A copy in progress (R432): source, destination, bytes. -/
structure Copy where
  src : Nat
  dst : Nat
  len : Nat
deriving DecidableEq, Repr

/-- Whose refused access stands at its slices until it is made (R110): an element of a transfer command in a lane, the
step of a grammar command, the fetch of the bundle at an address, the fill of a stack-cache line that an access of a half
waits for, the write-backs of a context that freezes, halts or is pre-empted, those that a pair waits for, and on the I-die
and the dispatchers the read of a record, an admission, a firing, the start of a team on a die, and a completion. -/
inductive Who where
  | elem (g id lane : Nat)
  | gram (g id : Nat)
  | fetch (g pc : Nat)
  | fill (g : Nat) (h : HalfId) (va : Nat)
  | settle (g : Nat)
  | pair (id : Nat)
  | record (q rva : Nat)
  | admission (q : Nat)
  | fire (l : Nat)
  | start (l d : Nat)
  | finish (l : Nat)
deriving DecidableEq, Repr
/-- Who makes an access: placement unit (die, or 8 for the I-die), ASID, privilege, urgency, the order number of its
arrival at its slices when it has waited there (R105), and the pod, die and package instances it belongs to; every agent
belongs to the system (R152); `who` when a refused access of it stands at its slices until it is made (R110). -/
structure Agent where
  unit : Nat
  asid : Nat
  priv : Bool
  urgent : Bool
  ask : Option Nat
  pod : Option Nat
  die : Option Nat
  pkg : Bool
  who : Option Who
deriving DecidableEq, Repr
/-- A refused access that stands at its slices (R105, R110): its owner and agent, whether it writes, its pieces, and the
order number of its arrival. -/
structure Ask where
  who : Who
  ag : Agent
  wr : Bool
  segs : List Seg
  ord : Nat
deriving DecidableEq, Repr

/-- The I-die and the package. -/
structure Pkg where
  plcmap : List W32
  /-- RNGSYNC writes not yet complete, the running one first (R46). -/
  rngq : List Nat
  rngBad : Bool
  rtabs : List RTab
  msstate : NMap Nat
  hotref : NMap Bool
  rdyDie : Byte
  rdyGram : Byte
  hlerr : W32
  apbase : Word
  evtstat : W32
  evtcfg : W32
  prvpend : NMap Word
  dsppend : W32
  /-- MSI-X vectors sent, in order (R434, R385). -/
  msgs : List Nat
  /-- What the host's last read of a window returned, its first 8 bytes: the model's own field (R429, R431). -/
  hostRead : Word
  /-- Writes of the host to its own memory, by device physical address, that the host link has not delivered
  (R433). -/
  hostIn : List (Nat × List Byte)
  cpysrc : Word
  cpydst : Word
  cpylen : Word
  cpyst : W32
  copy : Option Copy
  pkgid : Word
  lnken : Word
  rtbase : Word
  rtbusy : Bool
  /-- Cached route masks: destination package and mask (R436). -/
  rmasks : NMap (Option Nat)
  ports : NMap Port
  adm : NMap Word
  pwrcap : Word
  pwrnow : Word
  isl : NMap Isl
  thermalStop : Bool
  linkUp : Bool
  attbuf : Word
  attst : W32
  sec : Option SecCmd
  bootst : Word
  meas : NMap (BitVec 512)
  /-- The DIK's signature over the AK public key, made at boot (R440). -/
  akSig : List Byte
  fdsel : W32
  fdStored : NMap Nat
  fdLive : NMap Nat
  svlo : NMap Word
  qcfg : NMap W32
  ovf : NMap Bool
  lerr : W32
  queues : NMap (List QEntry)
  /-- Active lists of the high and the normal class (R369). -/
  hi : List Nat
  lo : List Nat
  hrun : Nat
  deficit : NMap Nat
  visit : List Nat
  launches : List Launch
  nextLaunch : Nat
  prearea : Word
  prestat : Word
  /-- A pre-emption or resume of this launch is running (R406). -/
  preBusy : Option Nat
  /-- LKILL writes waiting for PRESTAT.BUSY (R447). -/
  lkillq : List (Nat × W32)
  pairs : List Pair
  nextPair : Nat
  permits : List Permit
  nextPermit : Nat
  /-- Requests for permits, first to arrive first: context and stack (R140). -/
  permReqs : List (Nat × Nat)
  /-- Context-kill messages in flight: context and home die (R142). -/
  kills : List (Nat × Nat)
  /-- Arrival-counter changes accepted and not yet checked: die, counter, value, and the number of the first launch
  admitted later, which the check does not concern (R376). -/
  checks : List (Nat × Nat × W32 × Nat)
  /-- Order number of the next store that an ordering operation makes visible: the model's own field (R153). -/
  nextStamp : Nat
  /-- Order number of the next access that waits: the model's own field (R105). -/
  nextAsk : Nat
  /-- Accesses of agents other than a waiting half that their slices have refused: the model's own field (R105, R110). -/
  asks : List Ask
  /-- Copy of stack sectors (PA / 32) with an uncorrectable and with a correctable error (R111). -/
  badSectors : List Nat
  softSectors : List Nat
  /-- Requests admitted from remote packages: package, ASID, VA, and the bytes or fault code returned
  (R436). -/
  remote : List (Nat × Nat × Nat × List Byte × Option Nat)
deriving DecidableEq, Repr

/-- A port at reset (R436). -/
def Port.reset : Port := { state := .down, lanes := 0, retrains := 0 }
/-- An island at reset (R438). -/
def Isl.reset : Isl := { temp := 0, peak := 0, mv := 0, mhz := 0, throttled := false }

/-- The I-die at module reset. -/
def Pkg.reset : Pkg :=
  { plcmap := List.replicate 8 0x76543210#32, rngq := [], rngBad := false, rtabs := [], msstate := [],
    hotref := [], rdyDie := 0#8, rdyGram := 0#8, hlerr := 0#32, apbase := 0#64, evtstat := 0#32,
    evtcfg := 0#32, prvpend := [], dsppend := 0#32, msgs := [], hostRead := 0#64, hostIn := [], cpysrc := 0#64, cpydst := 0#64,
    cpylen := 0#64, cpyst := 0#32, copy := none, pkgid := 0xFFFF#64, lnken := 0#64, rtbase := 0#64,
    rtbusy := false, rmasks := [], ports := [], adm := [], pwrcap := 3300#64, pwrnow := 0#64,
    isl := [], thermalStop := false, linkUp := true, attbuf := 0#64, attst := 0#32, sec := none,
    bootst := 0#64, meas := [], akSig := [], fdsel := 0#32, fdStored := [], fdLive := [], svlo := [], qcfg := [],
    ovf := [], lerr := 0#32, queues := [], hi := [], lo := [], hrun := 0, deficit := [], visit := [],
    launches := [], nextLaunch := 0, prearea := 0#64, prestat := 0#64, preBusy := none, lkillq := [],
    pairs := [], nextPair := 0, permits := [], nextPermit := 0, permReqs := [], kills := [], checks := [], nextStamp := 0, nextAsk := 0, asks := [], badSectors := [],
    softSectors := [], remote := [] }

end Sys2Proof.Machine
end

