-- ==== Sys2Proof/Machine/State.lean ====
section
/-!
DEFINITION. The state of the package: every piece of state the manual names, as plain data, with the
state right after module reset; and the reasons a step can stop.
-/
namespace Sys2Proof.Machine

/-- The running offsets and captures of a re-issue, handed to the meaning (R219). -/
structure Env where
  re : Bool
  roff : Nat
  laOff : Nat
  vaOff : Word
  tileOff : Nat
  cap : Cap
  counts : NMap Nat
  v0 : Nat
deriving DecidableEq, Repr

/-- A fresh issue. -/
def Env.fresh : Env :=
  { re := false, roff := 0, laOff := 0, vaOff := 0#64, tileOff := 0, cap := ⟨[], 0#64, 0#64⟩,
    counts := [], v0 := 0 }

/-- The sequencer and slot whose instruction runs, and its environment. -/
structure Issuer where
  gcn : Nat
  half : HalfId
  slot : Slot
  env : Env
deriving DecidableEq, Repr

/-- What the host does beside the steps of the operation table: an access of `size` bytes at an offset of one of its two
windows, or a store of the driver to host memory at a device physical address (R429, R433; log entry 1). -/
inductive HostAcc where
  | read (w : Window) (off size : Nat)
  | write (w : Window) (off size : Nat) (v : Word)
  | store (pa : Nat) (bytes : List Byte)
deriving DecidableEq, Repr

/-- One turn of the agenda: an event row of the operation table, or a host access. -/
inductive Turn where
  | event (i : Instr)
  | host (a : HostAcc)
deriving DecidableEq, Repr

/-- The machine. Pod storage is keyed by physical place: vector registers (pod * 16 + lane) * 272 +
register, with 256 to 271 the handler bank (R48, R51); tiles and versions (pod * 16 + lane) * 8 + tile
(R58); scratchpad (pod * 16 + lane) * 2^18 + byte (R47); SPFMT (pod * 16 + lane) * 16 + bank (R57).
Lists hold no entry equal to the default. -/
structure State where
  /-- What the other agents do next, in order; empty when the next step is the issuer's (log entry 1). -/
  agenda : List Turn
  issuer : Issuer
  /-- Memory by physical address; an unlisted byte reads 0 (log entry 2). -/
  mem : List Host.Cell
  ctxs : NMap Ctx
  pods : NMap Pod
  dies : NMap Die
  vregs : NMap VReg
  tiles : NMap Tile
  vers : NMap Nat
  sp : NMap Byte
  /-- Scratchpad words whose reads return old or new, in the order of their writes (R63, R170). -/
  unseen : List Unseen
  spfmt : NMap Nat
  pkg : Pkg
  /-- Counter of free values used (log entry 4). -/
  freeCtr : Nat
deriving DecidableEq, Repr

/-- The issuer that reset names: pod 0, context slot 0, primary half, slot sa (log entry 1). -/
def Issuer.reset : Issuer := { gcn := 0, half := .primary, slot := .sa, env := Env.fresh }

/-- The machine right after module reset. -/
def State.reset : State :=
  { agenda := [], issuer := Issuer.reset, mem := [], ctxs := [], pods := [], dies := [], vregs := [],
    tiles := [], vers := [], sp := [], unseen := [], spfmt := [], pkg := Pkg.reset, freeCtr := 0 }

/-- Why a step stops with a fault. Traps of the manual are next states, not faults. -/
inductive Fault where
  /-- A turn of the agenda names a unit or a place that the package does not have: raised by `step`. Safe: it is no event of the part. -/
  | noSuchUnit
  /-- The agenda names a slot instruction, which only a sequencer issues: raised by `step`. Safe. -/
  | notAnEvent
deriving DecidableEq, Repr

/-- Why a step is refused. -/
inductive Refusal where
  /-- No meaning written for the instruction: raised by a refused arm of the dispatch. Safe. -/
  | notModelled (mnemonic : String)
deriving DecidableEq, Repr

/-- The outcome of a step. -/
abbrev Outcome := Host.Outcome State Fault Refusal

end Sys2Proof.Machine
end

