-- ==== Sys2Proof/Machine/Ops.lean ====
section
/-!
DEFINITION. The named operations over contexts, registers and exposed results (R48, R57, R61, R233),
the one operation that takes a trap (R391 to R396, R399, R402) and the return of the handler (R401).
-/
namespace Sys2Proof.Machine

/-- Pod of a global context number (R151). -/
def podOf (g : Nat) : Nat := g / 8
/-- Slot of a global context number (R151). -/
def slotOfG (g : Nat) : Nat := g % 8
/-- C-die of a global context number: 32 pods a die (R1). -/
def dieOf (g : Nat) : Nat := g / 256
/-- Whether a context number is a handler slot's (R179). -/
def isHandler (g : Nat) : Bool := slotOfG g == 4

/-- A context slot. -/
def ctxOf (s : State) (g : Nat) : Ctx := mget Ctx.reset s.ctxs g
/-- Replace a context slot. -/
def setCtx (s : State) (g : Nat) (c : Ctx) : State := { s with ctxs := mset Ctx.reset s.ctxs g c }
/-- Update a context slot. -/
def updCtx (s : State) (g : Nat) (f : Ctx → Ctx) : State := setCtx s g (f (ctxOf s g))
/-- A pod. -/
def pod (s : State) (p : Nat) : Pod := mget Pod.reset s.pods p
/-- Update a pod. -/
def updPod (s : State) (p : Nat) (f : Pod → Pod) : State :=
  { s with pods := mset Pod.reset s.pods p (f (pod s p)) }
/-- A C-die. -/
def die (s : State) (d : Nat) : Die := mget Die.reset s.dies d
/-- Update a C-die. -/
def updDie (s : State) (d : Nat) (f : Die → Die) : State :=
  { s with dies := mset Die.reset s.dies d (f (die s d)) }
/-- Update the I-die. -/
def updPkg (s : State) (f : Pkg → Pkg) : State := { s with pkg := f s.pkg }

/-- The half of a context; a context without a spare half answers its primary (R192). -/
def Ctx.half (c : Ctx) (h : HalfId) : Half :=
  match h with
  | .primary => c.prim
  | .spare => c.spare.getD c.prim
/-- Replace a half of a context. -/
def Ctx.setHalf (c : Ctx) (h : HalfId) (x : Half) : Ctx :=
  match h with
  | .primary => { c with prim := x }
  | .spare => { c with spare := some x }
/-- Update a half of a context of the state. -/
def updHalf (s : State) (g : Nat) (h : HalfId) (f : Half → Half) : State :=
  updCtx s g fun c => c.setHalf h (f (c.half h))
/-- The halves a context has. -/
def Ctx.halves (c : Ctx) : List HalfId := if c.spare.isSome then [.primary, .spare] else [.primary]

/-- The context that issues. -/
def cur (s : State) : Ctx := ctxOf s s.issuer.gcn
/-- The half that issues. -/
def curH (s : State) : Half := (cur s).half s.issuer.half
/-- Update the context that issues. -/
def updCur (s : State) (f : Ctx → Ctx) : State := updCtx s s.issuer.gcn f
/-- Update the half that issues. -/
def updH (s : State) (f : Half → Half) : State := updHalf s s.issuer.gcn s.issuer.half f
/-- Whether the issuer is a handler slot. -/
def inHandler (s : State) : Bool := isHandler s.issuer.gcn

/-- The context number a handler slot serves, or the context itself (R256). -/
def servedOf (s : State) (g : Nat) : Nat :=
  if isHandler g then podOf g * 8 + (ctxOf s g).serving.getD 0 else g
/-- The context whose portion, formats and fault records an access uses (R256, R261). -/
def served (s : State) : Nat := servedOf s s.issuer.gcn
/-- The context the handler's views select (R399). -/
def hselG (s : State) (g : Nat) : Nat := podOf g * 8 + field 0 2 (ctxOf s g).hsel.toNat

/-- Scalar register n of a half; s0 reads as zero (R210). -/
def rdSH (h : Half) (n : SReg) : Word := if n = 0 then 0#64 else mget 0#64 h.sreg n.toNat
/-- Scalar register n of the issuing half. -/
def rdS (s : State) (n : SReg) : Word := rdSH (curH s) n
/-- Staging register n of the issuing half. -/
def rdK (s : State) (n : KReg) : Word := mget 0#64 (curH s).kreg n.toNat
/-- Index base n of the issuing half. -/
def rdB (s : State) (n : BReg) : Byte := mget 0#8 (curH s).breg n.toNat
/-- Write a scalar register of a half; s0 ignores writes (R210). -/
def wrSH (h : Half) (n : SReg) (v : Word) : Half :=
  if n = 0 then h else { h with sreg := mset 0#64 h.sreg n.toNat v }
/-- The active mask of the issuing half (R188). -/
def am (s : State) : Mask := (curH s).am
/-- Whether a lane is in a mask. -/
def inMask (m : Mask) (e : Nat) : Bool := m.getLsbD e
/-- The lanes of a mask in increasing order. -/
def lanesOf (m : Mask) : List Nat := (List.range 16).filter (inMask m)
/-- The active lanes of the issuing half. -/
def lanes (s : State) : List Nat := lanesOf (am s)
/-- A mask from a predicate on lanes. -/
def maskOf (p : Nat → Bool) : Mask := BitVec.ofNat 16 (packNat 1 16 fun e => bit (p e))

/-- Whether a context is Frozen with the steps of R396 done: no matrix command of it is in flight (R58). -/
def isFrozen (c : Ctx) : Bool := c.phase == .frozen && !c.settling

/-- Key of a lane's physical vector register (R48). -/
def vkey (p lane r : Nat) : Nat := (p * 16 + lane) * 272 + r
/-- Key of a lane's physical tile (R58). -/
def tkey (p lane t : Nat) : Nat := (p * 16 + lane) * 8 + t
/-- Key of a lane's scratchpad byte (R47). -/
def skey (p lane b : Nat) : Nat := (p * 16 + lane) * 262144 + b
/-- Key of a lane's bank format (R57). -/
def fkey (p lane b : Nat) : Nat := (p * 16 + lane) * 16 + b

/-- Registers in the vector budget: 16 for a handler slot (R51). -/
def vcntOf (s : State) (g : Nat) : Nat := if isHandler g then 16 else (ctxOf s g).vcnt
/-- Physical place of register n of a context's budget, or of the handler bank (R48, R51). -/
def vphys (s : State) (g lane n : Nat) : Nat :=
  if isHandler g then vkey (podOf g) lane (256 + n) else vkey (podOf g) lane ((ctxOf s g).vbase + n)
/-- Rows 2P and 2P+1 of a tile as a register, laid out as in R295. -/
def tileRows (t : Tile) (p : Nat) : VReg := packV fun i => elemT t (2 * p + i / 32) (i % 32)
/-- Replace rows 2P and 2P+1 of a tile (R399). -/
def setTileRows (t : Tile) (p : Nat) (v : VReg) : Tile :=
  packT fun i j => if i / 2 = p then elemV v ((i % 2) * 32 + j) else elemT t i j
/-- Read tile t of a context's budget in a lane. -/
def rdTile (s : State) (g lane t : Nat) : Tile :=
  mget 0#32768 s.tiles (tkey (podOf g) lane ((ctxOf s g).abase + t))
/-- Write tile t of a context's budget in a lane. -/
def wrTile (s : State) (g lane t : Nat) (x : Tile) : State :=
  { s with tiles := mset 0#32768 s.tiles (tkey (podOf g) lane ((ctxOf s g).abase + t)) x }
/-- ACCVER of tile t in a lane (R58). -/
def accver (s : State) (g lane t : Nat) : Nat :=
  mget 0 s.vers (tkey (podOf g) lane ((ctxOf s g).abase + t))
/-- Set ACCVER of tile t in a lane. -/
def setAccver (s : State) (g lane t v : Nat) : State :=
  { s with vers := mset 0 s.vers (tkey (podOf g) lane ((ctxOf s g).abase + t)) (v % 64) }

/-- The window a handler register shows (R399): the target's register, or rows of a target tile. -/
def hwinV (s : State) (g n : Nat) : Option (Nat ⊕ Nat × Nat) :=
  let c := ctxOf s g
  if isHandler g && n == 15 && bitOf 8 c.hvwin.toNat then some (.inl (field 0 8 c.hvwin.toNat))
  else if isHandler g && n == 14 && bitOf 8 c.htwin.toNat then
    some (.inr (field 4 3 c.htwin.toNat, field 0 4 c.htwin.toNat))
  else none
/-- Whether HSEL selects a context of the served team (R399). -/
def hselValid (s : State) (g : Nat) : Bool :=
  let t := ctxOf s (hselG s g)
  let v := ctxOf s (servedOf s g)
  t.phase != .free && t.launch == v.launch && t.launch.isSome && t.team == v.team
/-- Read vector register n of a context in a lane (R48, R51, R399). -/
def rdV (s : State) (g lane n : Nat) : VReg :=
  match hwinV s g n with
  | some (.inl m) => if hselValid s g then mget 0#2048 s.vregs (vphys s (hselG s g) lane m) else 0#2048
  | some (.inr (t, p)) => if hselValid s g then tileRows (rdTile s (hselG s g) lane t) p else 0#2048
  | none => mget 0#2048 s.vregs (vphys s g lane n)
/-- Write vector register n of a context in a lane. -/
def wrV (s : State) (g lane n : Nat) (x : VReg) : State :=
  match hwinV s g n with
  | some (.inl m) =>
    if hselValid s g && isFrozen (ctxOf s (hselG s g)) then
      { s with vregs := mset 0#2048 s.vregs (vphys s (hselG s g) lane m) x } else s
  | some (.inr (t, p)) =>
    if hselValid s g && isFrozen (ctxOf s (hselG s g)) then
      wrTile s (hselG s g) lane t (setTileRows (rdTile s (hselG s g) lane t) p x) else s
  | none => { s with vregs := mset 0#2048 s.vregs (vphys s g lane n) x }

/-- Set bytes of a map from key k. -/
def putBytes : NMap Byte → Nat → List Byte → NMap Byte
  | m, _, [] => m
  | m, k, b :: bs => putBytes (mset 0#8 m k b) (k + 1) bs
/-- The n bytes of a map from key k, as a number. -/
def getBytes (m : NMap Byte) (k n : Nat) : Nat := packNat 8 n fun i => (mget 0#8 m (k + i)).toNat
/-- Who reads scratchpad (R152): a context by its number, or a command stream of a context through its command of an order
number. A context reads a word or 8 bytes at once, a stream 64 bytes, which hold the granules of R175. -/
inductive Eye where
  | ctx (g : Nat)
  | stream (g cmd : Nat)
/-- The granule of a reader that a word lies in, numbered over all readers: a context reads the words of its own
commands apart (R63), those of others by 8 bytes (R175). The streams of a context meet a write in one order, whether a
command reads a row or a separately addressed element (R148, R149, log entry 7). -/
def Eye.unit (e : Eye) (owner key : Nat) : Nat :=
  match e with
  | .ctx g => (if owner == g then 4 * (key / 4) else 4 * (key / 8) + 1) * 16384 + g
  | .stream g _ => (4 * (key / 64) + 2) * 16384 + g
/-- Whether a word was written by the command that reads. -/
def Eye.wrote (e : Eye) (owner cmd : Nat) : Bool :=
  match e with
  | .ctx _ => false
  | .stream g c => g == owner && c == cmd
/-- Whether a reader observes the write of a word that no wait has covered: at once when its own command wrote it, else
from a free moment on, the same for the whole granule and never revoked (R63, R148, R149, R170, log entry 4). -/
def observes (s : State) (e : Eye) (u : Unseen) : Bool :=
  e.wrote u.gcn u.cmd || decide (u.born + Config.raceWord (e.unit u.gcn u.key) u.born ≤ s.freeCtr)
/-- Whether an uncovered write wrote the byte at a physical place. -/
def Unseen.covers (u : Unseen) (b : Nat) : Bool := decide (u.key ≤ b) && bitOf (b - u.key) u.mask
/-- An uncovered write without the bytes that satisfy p. -/
def Unseen.without (p : Nat → Bool) (u : Unseen) : Unseen :=
  { u with mask := packNat 1 4 fun i => bit (bitOf i u.mask && !p (u.key + i)) }
/-- Uncovered writes without the bytes that satisfy p; those with no byte left go. -/
def withoutBytes (p : Unseen → Nat → Bool) (l : List Unseen) : List Unseen :=
  (l.map fun u => u.without (p u)).filter fun u => u.mask != 0
/-- Writes that satisfy p read as they stand from now on: a wait has covered them, or their context is gone. A byte that
such a write wrote keeps no value from before an earlier write: that write is observed with it (R148, R149). -/
def expose (s : State) (p : Unseen → Bool) : State :=
  let gone := s.unseen.filter p
  let hidden := fun (u : Unseen) b => gone.any fun v => decide (u.born < v.born) && v.covers b
  { s with unseen := withoutBytes hidden (s.unseen.filter fun u => !p u) }
/-- The writes of a context's commands read as they stand. -/
def exposeCtx (s : State) (g : Nat) : State := expose s fun u => u.gcn == g
/-- Insert an uncovered write before those made earlier. -/
def insBorn (u : Unseen) : List Unseen → List Unseen
  | [] => [u]
  | v :: l => if v.born ≤ u.born then u :: v :: l else v :: insBorn u l
/-- Bytes with those that an unobserved write hides as they were before it: not behind a later write of the byte that the
reader observes (R148, R149). -/
def hideBy (seen : List Unseen) (m : NMap Byte) (u : Unseen) : NMap Byte :=
  (List.range 4).foldl (fun m i =>
    if bitOf i u.mask && !(seen.any fun v => decide (u.born ≤ v.born) && v.covers (u.key + i)) then
      mset 0#8 m (u.key + i) (BitVec.ofNat 8 (u.old >>> (8 * i)))
    else m) m
/-- The n bytes of scratchpad from a physical place as a reader meets them: each as it was before the first write behind the
last that the reader observes (R63, R148, R170, R174). -/
def seenBytes (s : State) (e : Eye) (k n : Nat) : Nat :=
  let l := s.unseen.filter fun u => decide (u.key < k + n) && decide (k < u.key + 4)
  let hid := (l.filter fun u => !observes s e u).foldl (fun a u => insBorn u a) []
  getBytes (hid.foldl (hideBy (l.filter (observes s e))) s.sp) k n
/-- Key of local address la of a lane's portion (R11, R47). -/
def spKey (s : State) (g lane la : Nat) : Nat :=
  skey (podOf g) lane ((ctxOf s (servedOf s g)).splo * 16384 + la)
/-- The n bytes of a lane's portion from local address la, as a number, as a context reads them; la is inside the
portion (R11, R47, R63). -/
def rdSp (s : State) (g lane la n : Nat) : Nat := seenBytes s (.ctx g) (spKey s g lane la) n
/-- The same, as a command that the context issues now reads a row (R175). -/
def rdSpRow (s : State) (g lane la n : Nat) : Nat :=
  seenBytes s (.stream g (ctxOf s g).nextCmd) (spKey s g lane la) n
/-- Write bytes to a lane's portion from local address la. -/
def wrSp (s : State) (g lane la : Nat) (bs : List Byte) : State :=
  { s with sp := putBytes s.sp (spKey s g lane la) bs }
/-- A store of a context lands in its lane's portion: its bytes hold the store's value for every reader, whichever uncovered
commands wrote them before (R148, R155, R170). -/
def landSp (s : State) (g lane la : Nat) (bs : List Byte) : State :=
  let k := spKey s g lane la
  { wrSp s g lane la bs with
    unseen := withoutBytes (fun _ b => decide (k ≤ b) && decide (b < k + bs.length)) s.unseen }

/-- Where a command reads and writes scratchpad: pod, lane, first physical bank; and the command, by its context and
order number. -/
structure Place where
  pod : Nat
  lane : Nat
  splo : Nat
  gcn : Nat
  cmd : Nat
/-- Key of a local address of a place. -/
def Place.key (p : Place) (la : Nat) : Nat := skey p.pod p.lane (p.splo * 16384 + la)
/-- Bytes of a place as its command reads them, a row or a separately addressed element (R63, R170, R175). -/
def rdPlace (s : State) (p : Place) (la n : Nat) : Nat := seenBytes s (.stream p.gcn p.cmd) (p.key la) n
/-- Bytes of a place as they stand, which a write of part of them keeps. -/
def rawPlace (s : State) (p : Place) (la n : Nat) : Nat := getBytes s.sp (p.key la) n
/-- The words that n bytes from a physical place touch, by their first bytes. -/
def wordsIn (k n : Nat) : List Nat :=
  if n = 0 then [] else (List.range ((k % 4 + n + 3) / 4)).map fun i => k / 4 * 4 + 4 * i
/-- Remember the values of the bytes a command is about to write, runs of them by local address and length, until a wait
covers it: one write to every reader of a granule (R63, R175). A byte that the command has written last keeps its value
from before that; behind another command's write it is written anew (R148, R312). -/
def noteUnseen (s : State) (p : Place) (runs : List (Nat × Nat)) : State :=
  match (ctxOf s p.gcn).cmds.find? fun x => x.id == p.cmd with
  | none => s
  | some x =>
    let near := fun (k : Nat) => runs.any fun r => decide (k < p.key r.1 + r.2) && decide (p.key r.1 < k + 4)
    let here := s.unseen.filter fun u => near u.key
    let had := fun (b : Nat) => ((here.filter fun u => u.covers b).getLast?).any fun u => u.gcn == p.gcn && u.cmd == p.cmd
    let wr := fun (b : Nat) => runs.any fun r => decide (p.key r.1 ≤ b) && decide (b < p.key r.1 + r.2)
    let new := (runs.flatMap fun r => wordsIn (p.key r.1) r.2).filterMap fun k =>
      let m := packNat 1 4 fun i => bit (wr (k + i) && !had (k + i))
      if m = 0 then none
      else some { gcn := p.gcn, cmd := x.id, cls := x.cls, batch := x.batch, tile := x.tile, lane := p.lane, key := k,
                  mask := m, old := getBytes s.sp k 4, born := s.freeCtr : Unseen }
    { s with freeCtr := s.freeCtr + 1, unseen := s.unseen ++ new }
/-- Write n bytes of a number to a place, as part of a write that is remembered. -/
def wrRaw (s : State) (p : Place) (la n x : Nat) : State := { s with sp := putBytes s.sp (p.key la) (bytesOf n x) }
/-- A command writes n bytes of a number to a place. -/
def wrPlace (s : State) (p : Place) (la n x : Nat) : State := wrRaw (noteUnseen s p [(la, n)]) p la n x
/-- SPFMT of portion bank j in a lane (R57). -/
def spfmtOf (s : State) (g lane j : Nat) : Nat :=
  mget 0 s.spfmt (fkey (podOf g) lane ((ctxOf s (servedOf s g)).splo + j))
/-- Whether n bytes from la lie in one bank of the portion (R52). -/
def inBank (s : State) (g la n : Nat) : Bool :=
  la / 16384 < (ctxOf s (servedOf s g)).spn && la % 16384 + n ≤ 16384
/-- Shape register j of a lane (R196). -/
def shpOf (s : State) (g lane j : Nat) : Nat :=
  mget shpReset (ctxOf s (servedOf s g)).shp (lane * 4 + j)
/-- Fields of a shape register (R196). -/
def shpField (f : MNK) (x : Nat) : Nat :=
  match f with
  | .m => field 0 6 x
  | .n => field 16 6 x
  | .k => field 32 16 x
/-- Replace a field of a shape register. -/
def setShpField (f : MNK) (v x : Nat) : Nat :=
  match f with
  | .m => setField 0 6 v x
  | .n => setField 16 6 v x
  | .k => setField 32 16 v x

/-- Queue an exposed result of the issuing half, due `lat` issue cycles after this issue (R60, R61). -/
def addPend (s : State) (lat : Nat) (ws : List Wr) : State :=
  let c := cur s
  updH s fun h => { h with pend := h.pend ++ [{ due := h.cycle + lat, writes := ws, pb := c.dbgPend, beat := c.beat, born := h.cycle }] }

/-- A launch by its number. -/
def launchOf (s : State) (id : Nat) : Option Launch := s.pkg.launches.find? fun l => l.id == id
/-- Update an admitted launch. -/
def updLaunch (s : State) (id : Nat) (f : Launch → Launch) : State :=
  updPkg s fun p => { p with launches := p.launches.map fun l => if l.id == id then f l else l }

/-- Set an EVTSTAT bit; a rising bit sends the message of R434 when EVTCFG.EN = 1. -/
def raiseEvent (s : State) (k : Nat) : State :=
  let p := s.pkg
  let rise := !(bitOf k p.evtstat.toNat)
  let msgs := if rise && bitOf 31 p.evtcfg.toNat then p.msgs ++ [field 0 11 p.evtcfg.toNat] else p.msgs
  updPkg s fun p => { p with evtstat := p.evtstat ||| (1#32 <<< k), msgs := msgs }
/-- Whether firmware component k has not been started: 0 the dispatcher firmware, 1 the power manager, 2 the error
collector. None has before the root firmware has verified them, BOOTST.DONE, and none that BOOTST.FAIL names (R439,
R440). -/
def notStarted (s : State) (k : Nat) : Bool :=
  !bitOf 0 s.pkg.bootst.toNat || bitOf (4 + k) s.pkg.bootst.toNat
/-- Add to a live field-data counter, keyed as FDSEL selects it (R444, R445). The error counts, classes 1 and 2, are the
error collector's (R111, R439). -/
def countFd (s : State) (cls idx w n : Nat) : State :=
  let k := cls * 16777216 + idx * 256 + w
  let n := if (cls == 1 || cls == 2) && notStarted s 2 then 0 else n
  updPkg s fun p => { p with fdLive := mset 0 p.fdLive k (mget 0 p.fdLive k + n) }

/-- Begin the fatal stop of a launch with a cause and the context it names; the event FATAL_STOP
carries it out (R386, R402). The first cause stands, and it alone is counted (R445). -/
def markFatal (s : State) (g cause named : Nat) : State :=
  match (ctxOf s g).launch with
  | none => s
  | some l =>
    if ((launchOf s l).bind fun x => x.fatal).isSome then s
    else
      let s := updLaunch s l fun x => { x with fatal := some (cause, named) }
      if cause ≤ 7 then countFd s 5 0 (24 + cause) 1 else s

/-- Word of TSW (R393). -/
def tswWord (arg rep : Nat) (split : Bool) (half : HalfId) (wait : Bool) (slot cause : Nat) : Word :=
  BitVec.ofNat 64 (setField 48 16 arg (setField 32 8 rep (setField 26 1 (bit split)
    (setField 25 1 (bit (half == .spare)) (setField 24 1 (bit wait) (setField 21 3 slot
      (setField 8 6 cause 1)))))))

/-- Whether a half stands at a boundary between issues (R394). -/
def atBoundary (x : Half) : Bool := !x.begun
/-- Whether a half has stopped for a freeze of its context: it froze first, or it stands at a boundary (R195). -/
def hasStopped (x : Half) : Bool := x.wait == .stopped || atBoundary x
/-- The address that TPC holds: VA[47:2] (R393). -/
def tpcOf (pc : Word) : Word := pc &&& 0x0000FFFFFFFFFFFC#64
/-- What a half keeps when its context has frozen: the resume point, which is what TPC holds of its program counter, and no
wait, since the slot that waited issues again (R216, R393, R401); a wait for an iteration goes on (R379). -/
def freezeHalf (x : Half) : Half :=
  { x with tpc := tpcOf x.pc, pc := tpcOf x.pc, wait := if x.wait == .iter then .iter else .none, ask := none, live := false, verOk := false }
/-- The context is Frozen once both halves have stopped; the steps of R396 that are left make it settle. It is queued
for the handler, unless its TVEC is 0 (R399). -/
def enterFrozen (s : State) (g : Nat) : State :=
  let c := ctxOf s g
  match c.stopBy with
  | none => s
  | some queue =>
    if !(c.halves.all fun h => hasStopped (c.half h)) then s
    else
      let s := updCtx s g fun c =>
        { c with phase := .frozen, stopBy := none, settling := true, prim := freezeHalf c.prim,
                 spare := c.spare.map freezeHalf }
      if !queue then s
      else if c.tvec = 0#64 then markFatal s g 0x04 g
      else updPod s (podOf g) fun p => { p with queue := p.queue ++ [slotOfG g] }

/-- Freeze a context at the position its half stands at: TSW, the TPC of both halves, state Frozen once the other half
has stopped at its next boundary (R195, R393 to R396). A half that traps while the other's freeze is under way only
stops, and its slot issues again at the resume. `queue` puts the context in the handler's queue (R399). -/
def freeze (s : State) (g : Nat) (h : HalfId) (cause arg : Nat) (wait queue : Bool) : State :=
  let c := ctxOf s g
  let x := c.half h
  let slot := if x.slot < 6 then x.slot else 5
  let stop := fun (c : Ctx) => c.setHalf h { c.half h with wait := .stopped, live := false }
  if c.stopBy.isSome then enterFrozen (updCtx s g stop) g
  else
    let s := updCtx s g fun c =>
      { stop c with tsw := tswWord arg x.rep c.spare.isSome h wait slot cause, stopBy := some queue }
    enterFrozen (countFd s 5 0 cause 1) g

/-- TAKING A TRAP, the one shared operation: `cause` and `arg` as R391 gives them, `wait` when the cause
was recorded with a command or pair. In a handler slot it is the fatal stop 0x02 of its launch and the
slot issues no more (R402). -/
def raiseW (s : State) (cause arg : Nat) (wait : Bool) : State :=
  let g := s.issuer.gcn
  if isHandler g then
    let s := markFatal s (servedOf s g) 0x02 (servedOf s g)
    let s := countFd s 5 0 cause 1
    updCtx s g fun c =>
      { c with phase := .frozen, tsw := tswWord arg c.prim.rep false .primary wait c.prim.slot cause,
               prim := { c.prim with tpc := tpcOf c.prim.pc, wait := .none } }
  else freeze s g s.issuer.half cause arg wait true
/-- A trap at the slot that issues, with ARG 0 (R391). -/
def raise (s : State) (cause : Nat) : Outcome := .next (raiseW s cause 0 false)

/-- Causes of R391. -/
def causeIllegalBundle : Nat := 0x01
def causeIllegal : Nat := 0x02
def causePrivileged : Nat := 0x03
def causeBudget : Nat := 0x04
def causeSpRange : Nat := 0x05
def causeVersion : Nat := 0x06
def causePending : Nat := 0x07
def causeStack : Nat := 0x08
def causeMisaligned : Nat := 0x09
def causeTranslation : Nat := 0x0A
def causeMemory : Nat := 0x0B
def causeUpdate : Nat := 0x0C
def causeBatch : Nat := 0x0D
def causeBarrier : Nat := 0x0E
def causeOverflow : Nat := 0x0F
def causeUnderflow : Nat := 0x10
def causeMatrix : Nat := 0x11
def causeTransfer : Nat := 0x12
def causeGrammar : Nat := 0x13
def causeSoftware : Nat := 0x14
def causeBreak : Nat := 0x15
def causeStep : Nat := 0x16
def causeStop : Nat := 0x17

/-- Check a value bound for s63 and, when it may be written, go on (R68, R72, R233). -/
def checkS63 (s : State) (v : Word) (k : State → Outcome) : Outcome :=
  let c := cur s
  if inHandler s then
    if c.prvhw ≤ v && v ≤ c.prvtop then k s
    else if c.prvlo ≤ v && v < c.prvhw then
      let p := podOf s.issuer.gcn
      let s := updH s fun h => { h with wait := .highWater v }
      let s := updCur s fun c => { c with phase := .frozen }
      let s := updPkg s fun q =>
        { q with prvpend := mset 0#64 q.prvpend (p / 64) (mget 0#64 q.prvpend (p / 64) ||| (1#64 <<< (p % 64))) }
      .next (raiseEvent s 0)
    else
      let s := markFatal s (served s) 0x01 (served s)
      .next (updCur s fun c => { c with phase := .frozen })
  else if v < c.stklim || c.stktop < v then raise s causeStack
  else k s

/-- Drop a write of a scalar register from the results that land before the next bundle of the issuing half reads. -/
def dropS (s : State) (d : SReg) : State :=
  updH s fun h => { h with pend := h.pend.map fun p =>
    if p.due ≤ h.cycle + 1 then
      { p with writes := p.writes.filter fun w => match w with
                                                  | .s n _ => n != d
                                                  | _ => true }
    else p }
/-- Write a scalar result of the issuing slot at latency `lat`: s0 discards it, s63 is checked first
(R233). -/
def putS (s : State) (d : SReg) (v : Word) (lat : Nat) : Outcome :=
  if d = 0 then .next s
  else if d = 63 then checkS63 s v fun s => .next (addPend s lat [.s d v])
  else .next (addPend s lat [.s d v])
/-- Waits at a switch point (R185); the others are interlocked. -/
def Wait.isSwitch : Wait → Bool
  | .none | .access _ | .arrinc .. | .batch | .highWater _ | .stopped => false
  | _ => true
/-- The context parks once each of its halves waits at a switch point, or has stopped (R185, R194). -/
def parkIfDone (c : Ctx) : Ctx :=
  if c.halves.all fun h => (c.half h).wait.isSwitch || (c.half h).wait == .stopped then { c with phase := .parked } else c
/-- Waits for a memory access. -/
def Wait.isAccess : Wait → Bool
  | .access _ => true
  | _ => false
/-- The instruction waits at its slot; at a switch point the context parks (R185), an interlock keeps the
sequencer (R60) and remembers the urgency of its access and the order of its arrival, those of its first try (R105,
R110). -/
def waitAt (s : State) (w : Wait) (switch : Bool) : State :=
  let u := (cur s).urgent && !inHandler s
  let n := s.pkg.nextAsk
  let s := updH s fun h => { h with wait := w, urgAt := u, ask := if w.isAccess then some (h.ask.getD n) else none }
  let s := if w.isAccess then updPkg s fun p => { p with nextAsk := n + 1 } else s
  if switch then updCur s parkIfDone else s

/-- The issue position moves past the slot at which it waits. -/
def passSlot (h : Half) : Half := { h with wait := .none, ask := none, verOk := false, slot := h.slot + 1 }

/-- RETURN OF THE HANDLER: the context of slot n of the pod resumes at the point its TSW and TPC
record, Ready; if it is not the one that entered, that one goes back to the head of the queue; the
handler slot goes idle (R258, R401). -/
def handlerReturn (s : State) (g n : Nat) : State :=
  let t := podOf g * 8 + n
  let h := ctxOf s g
  let s := updCtx s t fun c => { c with phase := .ready, age := 0, settling := false }
  let s := updPod s (podOf g) fun p =>
    let q := p.queue.filter (· != n)
    match h.serving with
    | some m => if m == n then { p with queue := q } else { p with queue := m :: q.filter (· != m) }
    | none => { p with queue := q }
  updCtx s g fun c => { c with phase := .free, serving := none, tretTo := none, asid := 0,
                               prim := { c.prim with wait := .none } }

end Sys2Proof.Machine
end

