-- ==== Sys2Proof/Machine/Memory.lean ====
section
/-!
DEFINITION. Memory: physical bytes, placement and range tables (R16 to R20), walks, TLB and checks
(R25 to R32, R39), slices (R103 to R113), stacks (R116, R117), uncached host memory (R428), and the
apply of pending granules (R126 to R131).
-/
namespace Sys2Proof.Machine

/-- What an unlisted byte of memory reads as (log entry 2). -/
def memDefault : Byte := 0#8
/-- The canonical form of a memory: addresses strictly rising, no listed byte equal to the default. -/
def Memory.wf (m : List Host.Cell) : Bool := mwf memDefault m
/-- Read one byte of physical memory. -/
def rdByte (s : State) (a : Nat) : Byte := mget memDefault s.mem a
/-- Read n bytes of physical memory. -/
def rdPhys (s : State) : Nat → Nat → List Byte
  | _, 0 => []
  | a, n + 1 => rdByte s a :: rdPhys s (a + 1) n
/-- Write bytes to physical memory. -/
def wrMem : List Host.Cell → Nat → List Byte → List Host.Cell
  | m, _, [] => m
  | m, a, b :: bs => wrMem (mset memDefault m a b) (a + 1) bs
/-- Write bytes to physical memory. -/
def wrPhys (s : State) (a : Nat) (bs : List Byte) : State := { s with mem := wrMem s.mem a bs }
/-- A little-endian number of n bytes at a physical address. -/
def rdNum (s : State) (a n : Nat) : Nat := ofBytes (rdPhys s a n)

/-- Why an access fails: fault code and level of R39, or a memory error with SRC and UNIT (R114). -/
structure MFault where
  merr : Bool
  code : Nat
  lvl : Nat
  src : Nat
  unit : Nat
deriving DecidableEq, Repr

/-- A translation fault. -/
def tfault (code lvl : Nat) : MFault := ⟨false, code, lvl, 0, 0⟩
/-- A memory-error fault. -/
def mfault (src unit : Nat) : MFault := ⟨true, 0, 0, src, unit⟩

/-- Result of an access: done, waits without effect (R19, R116, R118), with the requests that its slices have refused
(R110), or fails. -/
inductive MemR (α : Type) where
  | ok (a : α) (s : State)
  | wait (l : List Ask)
  | fault (f : MFault) (s : State)

/-- Go on after an access that is done. -/
def MemR.bind {α β : Type} (x : MemR α) (k : α → State → MemR β) : MemR β :=
  match x with
  | .ok a s => k a s
  | .wait l => .wait l
  | .fault f s => .fault f s

/-- Kinds of access (R29), with the KIND code of R40. -/
inductive AKind where
  | fetch | sload | sstore | atomic | tread | twrite | emit | gread | gwrite
deriving DecidableEq, Repr
/-- KIND (R40). -/
def AKind.code : AKind → Nat
  | .fetch => 0 | .sload => 1 | .sstore => 2 | .atomic => 3 | .tread => 4 | .twrite => 5
  | .emit => 6 | .gread => 7 | .gwrite => 7
/-- Write-kind accesses (R29). -/
def AKind.isWrite : AKind → Bool
  | .sstore | .atomic | .twrite | .emit | .gwrite => true
  | _ => false
/-- Memory types that admit an access kind (R29). -/
def AKind.admits : AKind → MemType → Bool
  | .fetch, .normal => true
  | .sload, _ => true
  | .sstore, _ => true
  | .tread, _ => true
  | .twrite, _ => true
  | .atomic, .normal => true
  | .emit, .update => true
  | .gread, .grammar => true
  | .gwrite, .grammar => true
  | _, _ => false

/-- The agent of a context or handler slot (R14, R110, R152), for an access of the half that issues, which may have waited. -/
def agentOf (s : State) (g : Nat) : Agent :=
  let c := ctxOf s g
  { unit := dieOf g, asid := c.asid, priv := isHandler g, urgent := c.urgent && !isHandler g,
    ask := if s.issuer.gcn == g then (c.half s.issuer.half).ask else none,
    pod := some (podOf g), die := some (dieOf g), pkg := true, who := none }
/-- Whether an agent belongs to the instance of a scope that the owner of a store names with it (R153). -/
def Agent.sees (a : Agent) (g : Nat) : Vis → Bool
  | .own => false
  | .pod => a.pod == some (podOf g)
  | .die => a.die == some (dieOf g)
  | .pkg => a.pkg

/-- States of a stack (R116). -/
def msOff : Nat := 0
def msTraining : Nat := 1
def msReady : Nat := 2
def msFailed : Nat := 3
/-- State of a stack. -/
def stackState (s : State) (n : Nat) : Nat := mget 0 s.pkg.msstate n
/-- Stack of a physical address (R22). -/
def stackOf (pa : Nat) : Nat := pa / 0x2000000000
/-- Whether an address lies in the stack windows (R22). -/
def inStacks (pa : Nat) : Bool := pa < 0x20000000000
/-- Whether an address lies in the populated part of a stack (R22). -/
def populated (pa : Nat) : Bool := inStacks pa && pa % 0x2000000000 < 0x1800000000
/-- Whether an address lies in the host window (R22). -/
def inHost (pa : Nat) : Bool := 0x80000000000 ≤ pa && pa < 0x100000000000
/-- Readiness of a C-die (R443). -/
def dieReady (s : State) (d : Nat) : Bool := s.pkg.rdyDie.getLsbD d

/-- The error collector records an uncorrectable error: class 1 of a stack, class 2 of a slice (R111, R434,
R445). -/
def countBad (s : State) (cls idx : Nat) : State :=
  if notStarted s 2 then s else raiseEvent (countFd s cls idx 1 1) 2
/-- A read of stack bytes repairs and counts the correctable errors it meets (R111). -/
def repair (s : State) (pa n : Nat) : State :=
  let hit := fun (b : Nat) => decide (b * 32 < pa + n) && decide (pa < b * 32 + 32)
  if s.pkg.softSectors.any hit then
    countFd (updPkg s fun p => { p with softSectors := p.softSectors.filter fun b => !hit b }) 1 (stackOf pa) 0
      (s.pkg.softSectors.filter hit).length
  else s

/-- A read of stack bytes by physical address, beside the caches: waits while the stack is not Ready,
fails when it has Failed or a sector is uncorrectable (R112, R116, R117). A physical address that no stack populates,
in the host window or elsewhere, reads as zero bytes: the manual says of no table what it finds there (DESIGN CHOICE,
log entry 10). -/
def rdStack (s : State) (pa n : Nat) : MemR (List Byte) :=
  let st := stackState s (stackOf pa)
  if !populated pa then .ok (List.replicate n memDefault) s
  else if st == msFailed then .fault (mfault 2 (stackOf pa)) s
  else if st != msReady then .wait []
  else if s.pkg.badSectors.any fun b => b * 32 < pa + n && pa < b * 32 + 32 then
    .fault (mfault 1 (stackOf pa)) (countBad s 1 (stackOf pa))
  else .ok (rdPhys s pa n) (repair s pa n)

/-- The ASIDTAB a placement unit reads through (R45): its die's, or for the I-die that of the
lowest-numbered ready C-die. -/
def asidtabOf (s : State) (unit : Nat) : Option Word :=
  if unit < 8 then some (die s unit).asidtab
  else (leastBelow 8 (dieReady s)).map fun d => (die s d).asidtab
/-- Physical address of an ASID's descriptor (R15). -/
def descOf (tab : Word) (asid : Nat) : Nat := field 23 21 tab.toNat * 8388608 + asid * 0x800
/-- EN of an ASIDTAB (R45). -/
def tabEn (tab : Word) : Bool := bitOf 0 tab.toNat
/-- Read and check a descriptor's header (R15). An uncorrectable DRAM error in a descriptor or a range table gives the
access a memory-error fault with SRC 1: R28 has a code for errors in PTEs alone (DESIGN CHOICE, log entry 10). -/
def rdDesc (s : State) (tab : Word) (asid : Nat) : MemR Nat :=
  (rdStack s (descOf tab asid) 8).bind fun bs s =>
    let h := ofBytes bs
    if bitOf 0 h && field 44 20 h == 0 && field 1 11 h == 0 then .ok h s
    else .fault (tfault 0x0D 0) s

/-- Entries of a range table from its bytes. -/
def rtEntries : List Byte → Nat → List (Word × Word)
  | _, 0 => []
  | bs, n + 1 =>
    (BitVec.ofNat 64 (ofBytes (bs.take 8)), BitVec.ofNat 64 (ofBytes ((bs.drop 8).take 8)))
      :: rtEntries (bs.drop 16) n
/-- Whether a range-table entry is ignored although V = 1 (R18). -/
def rtBad (e : Word × Word) : Bool :=
  let a := e.1.toNat
  let b := e.2.toNat
  bitOf 0 a && (field 48 16 a != 0 || field 5 16 a != 0 || field 48 16 b != 0 || field 0 21 b != 0
    || field 21 27 b < field 21 27 a)
/-- Load an ASID's range table into a placement unit, which waits while its ASIDTAB has EN = 0 and keeps up to 32
tables; a malformed entry sets RNGSYNCST.BAD (R18, R20, R45). Which table gives way to a 33rd the manual does not say:
the model drops the one loaded first (DESIGN CHOICE, log entry 10). -/
def loadRange (s : State) (unit asid : Nat) : MemR (List (Word × Word)) :=
  match asidtabOf s unit with
  | none => .wait []
  | some tab =>
    if !tabEn tab then .wait [] else
    match s.pkg.rtabs.find? fun t => t.unit == unit && t.asid == asid with
    | some t => .ok t.entries s
    | none =>
      (rdDesc s tab asid).bind fun _ s => (rdStack s (descOf tab asid + 64) 1024).bind fun bs s =>
        let es := rtEntries bs 64
        let mine := s.pkg.rtabs.filter fun t => t.unit == unit
        let others := s.pkg.rtabs.filter fun t => t.unit != unit
        let mine := if mine.length < 32 then mine else mine.drop 1
        let s := updPkg s fun p =>
          { p with rtabs := others ++ mine ++ [⟨unit, asid, es⟩], rngBad := p.rngBad || es.any rtBad }
        .ok es s

/-- Default placement of an address (R16, R17). -/
def placeDefault (s : State) (va : Nat) : Nat :=
  let h := (field 21 6 va) ^^^ (field 27 6 va)
  field (4 * (h % 8)) 3 (s.pkg.plcmap.getD (h / 8) 0#32).toNat
/-- The home die of an address and whether it is frozen (R16). -/
def placeIn (s : State) (es : List (Word × Word)) (va : Nat) : Nat × Bool :=
  let g := field 21 27 va
  match es.find? fun e =>
      bitOf 0 e.1.toNat && !rtBad e && field 21 27 e.1.toNat ≤ g && g ≤ field 21 27 e.2.toNat with
  | some e => (field 2 3 e.1.toNat, bitOf 1 e.1.toNat)
  | none => (placeDefault s va, false)

/-- Memory type of a leaf; the other codes are reserved (R27). -/
def leafMt (l : Nat) : Option MemType :=
  match field 6 3 l with
  | 0 => some .normal
  | 1 => some .update
  | 2 => some .grammar
  | 3 => some .host
  | _ => none
/-- Format errors of a leaf at a level (R28). -/
def leafBad (lvl l : Nat) : Bool :=
  lvl < 3 || field 44 10 l != 0 || field 9 7 l != 0 || (leafMt l).isNone
    || (field 54 10 l != 0 && field 6 3 l != 1) || (lvl == 3 && field 16 5 l != 0)
    || (lvl == 4 && bitOf 5 l)
/-- Format errors of a pointer at a level (R28). -/
def ptrBad (lvl p : Nat) : Bool :=
  lvl == 4 || field 44 20 p != 0 || field 2 6 p != 0 || (lvl < 3 && field 8 4 p != 0)
/-- Index of an address at a level (R25). -/
def walkIdx (lvl va : Nat) : Nat :=
  if lvl == 1 then field 39 9 va else if lvl == 2 then field 30 9 va
  else if lvl == 3 then field 21 9 va else field 16 5 va
/-- Walk from a table at a level: the leaf and its level, or the first failing check (R25 to R28). -/
def walk (s : State) (va : Nat) : Nat → Nat → Nat → MemR (Nat × Nat)
  | 0, _, lvl => .fault (tfault 0x03 lvl) s
  | fuel + 1, table, lvl =>
    match rdStack s (table + 8 * walkIdx lvl va) 8 with
    | .wait l => .wait l
    | .fault f s => if f.src == 1 then .fault (tfault 0x0C lvl) s else .fault f s
    | .ok bs s =>
      let e := ofBytes bs
      if !bitOf 0 e then .fault (tfault 0x02 lvl) s
      else if bitOf 1 e then
        (if leafBad lvl e then .fault (tfault 0x03 lvl) s else .ok (e, lvl) s)
      else if ptrBad lvl e then .fault (tfault 0x03 lvl) s
      else walk s va fuel (field 8 36 e * 256) (lvl + 1)

/-- The TLB entry that maps an address (R32). -/
def tlbFind (d : Die) (asid va : Nat) : Option TlbEnt :=
  d.tlb.find? fun e => e.asid == asid && e.va ≤ va && va < e.va + e.size
/-- Install a TLB entry; beyond 12,288 the oldest goes (R32). -/
def tlbInstall (d : Die) (e : TlbEnt) : Die :=
  { d with tlb := (if d.tlb.length < 12288 then d.tlb else d.tlb.drop 1) ++ [e] }
/-- Whether a shootdown in progress on the die holds translations of an address (R37). -/
def shotBy (d : Die) (asid va : Nat) : Bool :=
  match d.shoot with
  | none => false
  | some x =>
    match x.scope with
    | .page => x.asid == asid && x.va ≤ va && va < x.va + x.pages * 65536
    | .asid => x.asid == asid
    | .all => true
/-- The walk of an address: the entry for its leaf, which may be installed in the TLB (R25, R32). -/
def ownWalk (s : State) (asid root va : Nat) : MemR (TlbEnt × Bool) :=
  (walk s va 4 root 1).bind fun r s =>
    let size := if r.2 == 3 then 2097152 else 65536
    .ok (⟨asid, va - va % size, size, BitVec.ofNat 64 r.1⟩, true) s
/-- Whether the 8 bytes of a PTE can be read: a populated place of a Ready stack, and no uncorrectable sector. -/
def pteReads (s : State) (a : Nat) : Bool :=
  populated a && stackState s (stackOf a) == msReady && !(s.pkg.badSectors.any fun b => b == a / 32)
/-- A valid pointer PTE of level 1 or 2, and the table it names (R26). -/
def ptrAt (s : State) (lvl table va : Nat) : Option Nat :=
  let a := table + 8 * walkIdx lvl va
  let e := rdNum s a 8
  if pteReads s a && bitOf 0 e && !bitOf 1 e && !ptrBad lvl e then some (field 8 36 e * 256) else none
/-- The correctable errors of table bytes that are read are repaired and counted (R111). -/
def pteRepair (s : State) (a n : Nat) : State :=
  if populated a && stackState s (stackOf a) == msReady then repair s a n else s
/-- The reads that find the CONT leaves of the 64 MiB range of an address: a level-1 entry, a level-2 entry and 32 level-3
entries (R30). -/
def contRead (s : State) (root va : Nat) : State :=
  let s := pteRepair s (root + 8 * walkIdx 1 va) 8
  match ptrAt s 1 root va with
  | none => s
  | some t =>
    let s := pteRepair s (t + 8 * walkIdx 2 va) 8
    match ptrAt s 2 t va with
    | none => s
    | some t => pteRepair s (t + 8 * (32 * field 26 4 va)) 256
/-- The level-3 entries of the 64 MiB range of an address: those that are leaves with CONT = 1, by number in the range
(R30). One that fails the format checks of R28, or whose PTE cannot be read, is none of them: the manual does not say
whether it is a member of its malformed group (DESIGN CHOICE, log entry 10). -/
def contLeaves (s : State) (root va : Nat) : List (Nat × Nat) :=
  match (ptrAt s 1 root va).bind fun t => ptrAt s 2 t va with
  | none => []
  | some t =>
    (List.range 32).filterMap fun i =>
      let a := t + 8 * (32 * field 26 4 va + i)
      let e := rdNum s a 8
      if pteReads s a && bitOf 0 e && bitOf 1 e && bitOf 5 e && !leafBad 3 e then some (i, e) else none
/-- Whether the CONT leaves of a range form a contiguous group: all 32, their PAs rising by 2 MiB from a 64 MiB-aligned
base, their other fields equal (R30). -/
def contGroup (l : List (Nat × Nat)) : Bool :=
  match l with
  | [] => false
  | (_, e0) :: _ =>
    l.length == 32 && field 16 10 e0 == 0
      && l.all fun x => field 16 28 x.2 == field 16 28 e0 + 32 * x.1 && setField 16 28 0 x.2 == setField 16 28 0 e0
/-- The entry by which the leaf at place i of a 64 MiB range maps its 2 MiB page. -/
def contEntry (asid va : Nat) (x : Nat × Nat) : TlbEnt :=
  ⟨asid, va - va % 67108864 + x.1 * 2097152, 2097152, BitVec.ofNat 64 x.2⟩
/-- The leaf that maps an address at its home die, and whether it comes from a walk, so that it is installed once it has
passed the checks: a contiguous group as one entry of 64 MiB (R30, R32). In a range whose CONT leaves form no group the
access takes one member of the set of R30, its own walk or one of those leaves, a free choice (log entry 10). -/
def leafFor (s : State) (d asid va : Nat) : MemR (TlbEnt × Bool) :=
  if !tabEn (die s d).asidtab || shotBy (die s d) asid va then .wait []
  else (rdDesc s (die s d).asidtab asid).bind fun hdr s =>
    match tlbFind (die s d) asid va with
    | some e => .ok (e, false) s
    | none =>
      let root := field 12 32 hdr * 4096
      let conts := contLeaves s root va
      let s := contRead s root va
      let pick := Config.contPick s.freeCtr % (conts.length + 1)
      match if contGroup conts then conts.head? else none, conts[pick - 1]? with
      | some x, _ =>
        .ok (⟨asid, va - va % 67108864, 67108864, BitVec.ofNat 64 x.2⟩, true) s
      | none, some x =>
        if pick = 0 then ownWalk { s with freeCtr := s.freeCtr + 1 } asid root va
        else .ok (contEntry asid va x, false) { s with freeCtr := s.freeCtr + 1 }
      | none, none => ownWalk s asid root va
/-- Install the entry that a walk has given (R32). -/
def keepLeaf (s : State) (d : Nat) (x : TlbEnt × Bool) : State :=
  if x.2 then updDie s d fun y => tlbInstall y x.1 else s
/-- Physical address of a VA under the leaf of a TLB entry: the leaf's PA plus the distance from the VA the leaf maps
(R27, R30). -/
def paOf (e : TlbEnt) (va : Nat) : Nat := (field 16 28 e.leaf.toNat * 65536 + va + 2 ^ 44 - e.va % 2 ^ 44) % 2 ^ 44

/-- Whether a leaf's PA lies outside the stacks of the die that checks it (R23), and whether it lies in no populated part
(R22). An access that reaches a range's new home while the leaf still names the old home's stack is of the first kind:
R21 names no fault for it, R23 does (DESIGN CHOICE, log entry 10). -/
def leafPlace (d pa : Nat) (mt : MemType) : Option Nat :=
  if mt == .host then none
  else if !(inStacks pa && stackOf pa / 2 == d) then some 0x04
  else if !populated pa then some 0x05
  else none
/-- The checks on a leaf in the order of R39 (R22, R23, R29, R31). -/
def leafCheck (ag : Agent) (k : AKind) (d : Nat) (leaf pa : Nat) (mt : MemType) : Option Nat :=
  match leafPlace d pa mt with
  | some c => some c
  | none =>
    if bitOf 4 leaf && !ag.priv then some 0x06
    else if k.isWrite && !bitOf 2 leaf then some 0x07
    else if k == .fetch && !bitOf 3 leaf then some 0x08
    else if !k.admits mt || (mt == .host && !inHost pa) then some 0x09
    else none

/-- Place and translate one piece that lies in one line, waiting as R19 and R116 give. -/
def xlatePiece (s : State) (ag : Agent) (k : AKind) (va : Nat) (len : Nat) : MemR Seg :=
  match loadRange s ag.unit ag.asid with
  | .wait l => .wait l
  | .fault f s => .fault f s
  | .ok es s =>
    if 0x1000000000000 ≤ va then
      match asidtabOf s ag.unit with
      | none => .wait []
      | some tab => (rdDesc s tab ag.asid).bind fun _ s => .fault (tfault 0x01 0) s
    else
      let (d, frz) := placeIn s es va
      if frz || !dieReady s d then .wait []
      else (leafFor s d ag.asid va).bind fun e s =>
        let leaf := e.1.leaf.toNat
        let pa := paOf e.1 va
        match leafMt leaf with
        | none => .fault (tfault 0x03 0) s
        | some mt =>
          match leafCheck ag k d leaf pa mt with
          | some c => .fault (tfault c 0) s
          | none => .ok ⟨d, ag.asid, va, pa, len, mt, field 54 10 leaf⟩ (keepLeaf s d e)

/-- Translate n bytes from an address held in 64 bits, piece by piece, before any byte is read or
written (R13, R244). -/
def xlate (ag : Agent) (k : AKind) : Nat → State → Nat → Nat → MemR (List Seg)
  | 0, s, _, _ => .ok [] s
  | fuel + 1, s, va, n =>
    if n = 0 then .ok [] s
    else
      let len := min n (128 - va % 128)
      (xlatePiece s ag k va len).bind fun sg s =>
        (xlate ag k fuel s (va + len) (n - len)).bind fun l s => .ok (sg :: l) s

/-- Slice of a line and its set (R104). -/
def sliceOf (d : Die) (asid va : Nat) : Nat :=
  let h := field 7 6 va ^^^ field 13 6 va ^^^ field 19 6 va ^^^ field 25 6 va ^^^ field 31 6 va
    ^^^ field 37 6 va ^^^ field 43 5 va ^^^ field 0 6 asid ^^^ field 6 6 asid
  field (8 * (h % 8)) 6 (d.slcmap.getD (h / 8) 0#64).toNat
/-- Set of a line (R104). -/
def setOf (va : Nat) : Nat := field 7 9 va ^^^ field 16 9 va
/-- Whether a line's tag is that of an address under a memory type (R103). -/
def Line.tagged (asid ln : Nat) (mt : MemType) (l : Line) : Bool := l.asid == asid && l.ln == ln && l.mt == mt
/-- The line of an address under a memory type, if a slice holds it (R103). -/
def lineFind (d : Die) (asid ln : Nat) (mt : MemType) : Option Line := d.lines.find? (Line.tagged asid ln mt)
/-- Replace a line. -/
def linePut (d : Die) (l : Line) : Die := { d with lines := updFirst (Line.tagged l.asid l.ln l.mt) (fun _ => l) d.lines }
/-- Drop a line. -/
def lineDrop (d : Die) (asid ln : Nat) (mt : MemType) : Die :=
  { d with lines := d.lines.filter fun l => !l.tagged asid ln mt }
/-- The line that a piece of an access finds in its slice. -/
def segLine (s : State) (sg : Seg) : Option Line := lineFind (die s sg.die) sg.asid (sg.va / 128) sg.mt

/-- Write a line back to its stack; an uncorrectable sector stays uncorrectable there (R106, R113). -/
def writeBack (s : State) (l : Line) : State :=
  let s := wrPhys s (l.pln * 128) (bytesOf 128 l.data.toNat)
  updPkg s fun p => { p with badSectors := p.badSectors.filter (fun b => b / 4 != l.pln)
                                  ++ l.bad.map (fun k => l.pln * 4 + k),
                             softSectors := p.softSectors.filter fun b => b / 4 != l.pln }
/-- A line whose tag holds an uncorrectable error is gone without write-back: the error is counted, and what a dirty one
held is lost, its sectors uncorrectable from then on (R111, R113). -/
def loseLine (s : State) (d : Nat) (l : Line) : State :=
  let s := countBad s 2 (d * 64 + l.slice)
  match l.st with
  | .dirty => updPkg s fun p => { p with badSectors := p.badSectors.filter (fun b => b / 4 != l.pln)
                                            ++ (List.range 4).map fun k => l.pln * 4 + k }
  | _ => s
/-- The correctable errors that a dirty line's write-back meets, in its tag and sectors, are counted (R111). -/
def softOut (s : State) (d : Nat) (l : Line) : State :=
  let n := l.soft.length + bit l.tagSoft
  if n = 0 then s else countFd s 2 (d * 64 + l.slice) 0 n
/-- Remove a line from its die, writing it back if dirty (R106, R111). -/
def evict (s : State) (d : Nat) (l : Line) : State :=
  let s := if l.tagBad then loseLine s d l
    else match l.st with
    | .dirty => writeBack (softOut s d l) l
    | _ => s
  updDie s d fun x => lineDrop x l.asid l.ln l.mt

/-- Raise the RRV of every line of a set that is not filling and has no keep bit (R109). -/
def ageSet (d : Die) (sl st : Nat) : Die :=
  { d with lines := d.lines.map fun l =>
      if l.slice == sl && l.set == st && l.st != .fill && !l.keep then { l with rrv := min 3 (l.rrv + 1) }
      else l }
/-- The line of the set with the least way that satisfies p. -/
def leastWay (d : Die) (sl st : Nat) (p : Line → Bool) : Option Line :=
  (d.lines.filter fun l => l.slice == sl && l.set == st && p l).foldl (fun a l =>
    match a with
    | none => some l
    | some m => if l.way < m.way then some l else some m) none
/-- The way a new line takes, after the victim rule of R109; `none` when every way is filling. -/
def victim (s : State) (d sl st : Nat) : Nat → Option (Nat × State)
  | 0 => none
  | fuel + 1 =>
    let x := die s d
    let mine := x.lines.filter fun l => l.slice == sl && l.set == st
    match leastBelow 16 fun w => !(mine.any fun l => l.way == w) with
    | some w => some (w, s)
    | none =>
      match leastWay x sl st fun l => l.st != .fill && !l.keep && l.rrv == 3 with
      | some l => some (l.way, evict s d l)
      | none =>
        if mine.any fun l => l.st != .fill && !l.keep then
          victim (updDie s d fun x => ageSet x sl st) d sl st fuel
        else
          match leastWay x sl st fun l => l.st != .fill with
          | some l => some (l.way, evict s d l)
          | none => none
/-- RRV and keep bit of a line inserted under a hint (R108). -/
def insertPolicy (d : Die) (sl st : Nat) (ch : Hint) (urgent : Bool) : Nat × Bool :=
  let normal := (if urgent then 1 else 2, false)
  match ch with
  | .keep =>
    if (d.lines.filter fun l => l.slice == sl && l.set == st && l.keep).length < 8 then (0, true) else normal
  | .strm => (3, false)
  | _ => normal
/-- A line after a hit under a hint (R108). -/
def hitPolicy (d : Die) (l : Line) (ch : Hint) : Line :=
  match ch with
  | .normal => { l with rrv := 0 }
  | .keep =>
    let n := (d.lines.filter fun x => x.slice == l.slice && x.set == l.set && x.keep).length
    { l with rrv := 0, keep := l.keep || decide (n < 8) }
  | _ => l

/-- Element width of a region binding; 0 when the combination is invalid (R121). -/
def bindWidth (op et : Nat) : Nat :=
  if op == 0 then (if et == 0 then 4 else if et == 1 then 8 else 0)
  else if op == 1 then (if et == 4 then 4 else 0)
  else if op == 2 then (if et == 5 then 2 else 0)
  else if op == 3 || op == 4 then (if et == 0 || et == 2 || et == 4 then 4 else if et == 3 then 8 else 0)
  else if 5 ≤ op && op ≤ 7 then (if et == 6 then 4 else if et == 7 then 8 else 0)
  else 0
/-- The operator on two element words (R126, R127). -/
def bindOp (op et x y : Nat) : Nat :=
  let w := bindWidth op et
  let n := 8 * w
  if op == 0 then (x + y) % 2 ^ n
  else if op == 1 then (fadd .rne (BitVec.ofNat 32 x) (BitVec.ofNat 32 y)).toNat
  else if op == 3 || op == 4 then
    if et == 4 then
      (if op == 3 then fminN (BitVec.ofNat 32 x) (BitVec.ofNat 32 y)
       else fmaxN (BitVec.ofNat 32 x) (BitVec.ofNat 32 y)).toNat
    else
      let less := if et == 0 then decide (sext 32 x ≤ sext 32 y) else decide (x ≤ y)
      if op == 3 then (if less then x else y) else (if less then y else x)
  else if op == 5 then x &&& y
  else if op == 6 then x ||| y
  else x ^^^ y
/-- Hold an F16 sum in 64 bits. A sum of exactly -2^63 counts as outside the range, which R128 does not say (DESIGN CHOICE,
log entry 18). -/
def clampF16 (n : Int) : Int := max (-(2 ^ 63 - 1)) (min (2 ^ 63 - 1) n)
/-- A FP16 code as an F16 bin value (R86, R128). -/
def f16Bin (c : Nat) : BinVal :=
  match decodeIeee 5 10 c with
  | .nan => .f16 0 true false false
  | .inf neg => .f16 0 false (!neg) neg
  | .fin neg m e =>
    let v : Int := m <<< (e + 24).toNat
    .f16 (if neg then -v else v) false false false
/-- A pair's value or a DRAM element as a bin value (R126, R128). -/
def toBin (op c : Nat) : BinVal := if op == 2 then f16Bin c else .word c
/-- Combine two bin values of one element (R126 to R128). -/
def binCombine (op et : Nat) (x y : BinVal) : BinVal :=
  match x, y with
  | .word a, .word b => .word (bindOp op et a b)
  | .f16 n a b c, .f16 m a' b' c' => .f16 (clampF16 (n + m)) (a || a') (b || b') (c || c')
  | .word _, y => y
  | x, .word _ => x
/-- The element a bin value is written back as (R128). -/
def binWord (v : BinVal) : Nat :=
  match v with
  | .word x => x
  | .f16 n a b c =>
    if a || (b && c) then 0x7E00
    else if b then 0x7C00
    else if c then 0xFC00
    else if n = 0 then 0
    else encodeIeee 5 10 .rne false (.fin (n < 0) n.natAbs (-24))

/-- The marks of a stack's sorter (R134). -/
def binHigh : Nat := 1835008
def binLow : Nat := 1572864
/-- Bins occupied in a stack's sorter (R122). -/
def binsOf (x : Die) (n : Nat) : Nat := (x.bins.filter fun b => stackOf b.pa == n).length
/-- The sorter's high-water state after a change of occupancy (R134). -/
def markBins (s : State) (n : Nat) : State :=
  updDie s (n / 2) fun x =>
    let k := binsOf x n
    let old := x.hwm.getD (n % 2) false
    let new := if binHigh < k then true else if k ≤ binLow then false else old
    { x with hwm := x.hwm.set (n % 2) new }
/-- Two values for one element and binding. -/
def sameBin (a b : Bin) : Bool := a.pa == b.pa && a.op == b.op && a.et == b.et
/-- Put a value into a list of bins, combined with the one of its element (R126). -/
def addBin (l : List Bin) (b : Bin) : List Bin :=
  if l.any (sameBin b) then updFirst (sameBin b) (fun a => { a with val := binCombine b.op b.et a.val b.val }) l
  else l ++ [b]
/-- Apply the value of an element's bin and overflow entry to its DRAM element (R129). The manual leaves the grouping
of add.f32 open (R127): the model adds pairs in the order in which they are accepted into the bin, and the DRAM element
last (DESIGN CHOICE, log entry 18). -/
def applyBin (s : State) (b : Bin) : State :=
  let w := bindWidth b.op b.et
  let s := repair s b.pa w
  let old := toBin b.op (rdNum s b.pa w)
  wrPhys s b.pa (bytesOf w (binWord (binCombine b.op b.et b.val old)))
/-- Whether a pair for a granule lies between the filter and the bins (R125). -/
def betweenBins (s : State) (gran : Nat) : Bool :=
  s.pkg.pairs.any fun p => p.stage == .filtered && p.pa / 4096 == gran
/-- The pending bit of a granule clears when nothing of the granule is left (R125). -/
def clearGran (s : State) (d gran : Nat) : State :=
  let x := die s d
  let here := fun (b : Bin) => b.pa / 4096 == gran
  if x.bins.any here || x.spill.any here || betweenBins s gran then s
  else updDie s d fun x => { x with grans := x.grans.filter fun g => g.gran != gran }
/-- Apply a granule: each element whose sector is not uncorrectable takes its bin, its overflow entry and its DRAM
value combined once; the pending bit clears when nothing of the granule is left (R125, R129). A drain, a shootdown or a
reset applies the bins of a stack that has Failed to its bytes, an early apply does not: R129 does not say what becomes of
them (DESIGN CHOICE, log entry 18). -/
def applyGran (s : State) (d gran : Nat) : State :=
  let x := die s d
  let bad := fun (b : Bin) => s.pkg.badSectors.any fun k => k == b.pa / 32
  let mine := fun (b : Bin) => b.pa / 4096 == gran && !bad b
  let s := ((x.bins.filter mine).foldl addBin (x.spill.filter mine)).foldl applyBin s
  let s := updDie s d fun x => { x with bins := x.bins.filter fun b => !mine b, spill := x.spill.filter fun b => !mine b }
  markBins (clearGran s d gran) (stackOf (gran * 4096))
/-- Whether a granule is pending (R125). -/
def isPending (s : State) (d pa : Nat) : Bool := (die s d).grans.any fun g => g.gran == pa / 4096

/-- State of the stack behind an address: `none` when served, a wait or a memory error otherwise
(R116, R117). -/
def stackGate (s : State) (pa : Nat) : MemR Unit :=
  let st := stackState s (stackOf pa)
  if st == msReady then .ok () s
  else if st == msFailed then .fault (mfault 2 (stackOf pa)) s
  else .wait []

/-- Bytes [off, off+n) of a 128-byte line. -/
def lineBytes (x : BitVec 1024) (off n : Nat) : List Byte := ((bytesOf 128 x.toNat).drop off).take n
/-- A line with bytes replaced from an offset. -/
def lineSet (x : BitVec 1024) (off : Nat) (bs : List Byte) : BitVec 1024 :=
  let old := bytesOf 128 x.toNat
  BitVec.ofNat 1024 (ofBytes (old.take off ++ bs ++ old.drop (off + bs.length)))
/-- Sectors 0 to 3 of a line that n bytes from an offset touch. -/
def sectorsOf (off n : Nat) : List Nat :=
  (List.range 4).filter fun k => k * 32 < off + n && off < k * 32 + 32
/-- Sectors that n bytes from an offset cover whole. -/
def wholeSectors (off n : Nat) : List Nat :=
  (List.range 4).filter fun k => off ≤ k * 32 && k * 32 + 32 ≤ off + n
/-- Uncorrectable DRAM sectors of a line, as sectors 0 to 3. -/
def badIn (s : State) (pln : Nat) : List Nat :=
  (List.range 4).filter fun k => s.pkg.badSectors.any fun b => b == pln * 4 + k

/-- Allocate the line of a piece from DRAM in state C (R106, R108, R109). -/
def allocate (s : State) (sg : Seg) (ch : Hint) (urgent : Bool) : Option (Line × State) :=
  let x := die s sg.die
  let sl := sliceOf x sg.asid sg.va
  let st := setOf sg.va
  match victim s sg.die sl st 5 with
  | none => none
  | some (w, s) =>
    let (rrv, keep) := insertPolicy (die s sg.die) sl st ch urgent
    let pln := sg.pa / 128
    let s := repair s (pln * 128) 128
    let keep := if keep then true else false
    let l : Line :=
      { asid := sg.asid, ln := sg.va / 128, mt := sg.mt, pln := pln, slice := sl, set := st, way := w,
        st := .clean, rrv := rrv, keep := keep,
        data := BitVec.ofNat 1024 (ofBytes (rdPhys s (pln * 128) 128)), bad := badIn s pln, soft := [],
        tagBad := false, tagSoft := false }
    some (l, updDie s sg.die fun x => { x with lines := x.lines ++ [l] })

/-- The host link delivers posted writes of the host to its memory, the first k of them, in order (R433). -/
def hostDeliver : Nat → State → State
  | 0, s => s
  | k + 1, s =>
    match s.pkg.hostIn with
    | [] => s
    | (a, bs) :: l => hostDeliver k (updPkg (wrPhys s a bs) fun p => { p with hostIn := l })
/-- Read a host byte list, after a free number of the host's posted writes; a read that completes with an error gives
0xFF and sets RDERR (R428, R433). -/
def rdHost (s : State) (pa n : Nat) : List Byte × State :=
  let fails := Config.hostReadFails s.freeCtr
  let k := (Config.freeWord s.freeCtr).toNat % (s.pkg.hostIn.length + 1)
  let s := hostDeliver k s
  let s' := { s with freeCtr := s.freeCtr + 1 }
  if fails then
    (List.replicate n 0xFF#8, updPkg s' fun p => { p with hlerr := p.hlerr ||| 1#32 })
  else (rdPhys s pa n, s')

/-- Whether the slice of a piece is ready (R118). -/
def sliceReady (s : State) (sg : Seg) : Bool :=
  let x := die s sg.die
  x.slcrdy.getLsbD (sliceOf x sg.asid sg.va)

/-- When a set is looked up, its lines with an uncorrectable tag error go, and the correctable tag errors of the others
are repaired and counted (R111). -/
def tagCheck (s : State) (d sl st : Nat) : State :=
  let mine := fun (l : Line) => l.slice == sl && l.set == st
  let gone := (die s d).lines.filter fun l => mine l && l.tagBad
  let soft := (die s d).lines.filter fun l => mine l && l.tagSoft && !l.tagBad
  if gone.isEmpty && soft.isEmpty then s
  else
    let s := gone.foldl (fun s l => loseLine s d l) s
    let s := if soft.isEmpty then s else countFd s 2 (d * 64 + sl) 0 soft.length
    updDie s d fun x =>
      { x with lines := (x.lines.filter fun l => !(mine l && l.tagBad)).map fun l =>
                 if mine l then { l with tagSoft := false } else l }
/-- The correctable errors of a line's sectors are repaired and counted when they are read (R111). -/
def softFix (s : State) (d : Nat) (l : Line) (ks : List Nat) : State × Line :=
  let n := (l.soft.filter fun k => ks.any (· == k)).length
  if n = 0 then (s, l)
  else (countFd s 2 (d * 64 + l.slice) 0 n, { l with soft := l.soft.filter fun k => !(ks.any (· == k)) })
/-- The bytes of a piece in a line that has just been filled from DRAM, or the error of an uncorrectable sector there
(R112). -/
def filledBytes (s : State) (sg : Seg) (l : Line) : MemR (List Byte) :=
  let off := sg.va % 128
  if (sectorsOf off sg.len).any fun k => l.bad.any (· == k) then
    .fault (mfault 1 (stackOf sg.pa)) (countBad s 1 (stackOf sg.pa))
  else .ok (lineBytes l.data off sg.len) s
/-- Read a piece that misses: a line is allocated for it, except under no-allocate (R108). -/
def rdMiss (s : State) (sg : Seg) (ch : Hint) (urgent : Bool) : MemR (List Byte) :=
  match ch with
  | .na => rdStack s sg.pa sg.len
  | _ =>
    match allocate s sg ch urgent with
    | none => .wait []
    | some (l, s) => filledBytes s sg l
/-- Whether an address lies in the overflow area of its stack (R138). -/
def inOverflow (s : State) (pa : Nat) : Bool :=
  let w := ((die s (stackOf pa / 2)).upovf.getD (stackOf pa % 2) 0#64).toNat
  let base := field 28 16 w * 268435456
  inStacks pa && decide (base ≤ pa) && decide (pa < base + field 0 4 w * 268435456)
/-- The overflow entries of a stack with free values for their sums, from the k-th free value on. -/
def corruptBins (n : Nat) : Nat → List Bin → List Bin
  | _, [] => []
  | k, b :: l =>
    let w := Config.freeWord k
    let v := BinVal.f16 (clampF16 (Config.freeWord (k + 1)).toInt) (w.getLsbD 0) (w.getLsbD 1) (w.getLsbD 2)
    (if stackOf b.pa == n then { b with val := v } else b) :: corruptBins n (k + 2) l
/-- A context access to the overflow area of a stack, through a mapping that software must not make, corrupts the
add.f16e sums that the area holds: each becomes a free value (R138, log entry 18). -/
def overAccess (s : State) (pa : Nat) : State :=
  if inOverflow s pa then
    let n := stackOf pa
    let l := (die s (n / 2)).spill
    updDie { s with freeCtr := s.freeCtr + 2 * l.length } (n / 2) fun x =>
      { x with spill := corruptBins n s.freeCtr l }
  else s
/-- Read a piece of a granule that has just been applied; an element in an uncorrectable sector keeps it pending, and the read
fails (R129, R130). -/
def rdApplied (s : State) (sg : Seg) : MemR (List Byte) :=
  if isPending s sg.die sg.pa && s.pkg.badSectors.any (fun b => b / 128 == sg.pa / 4096) then
    .fault (mfault 1 (stackOf sg.pa)) (countBad s 1 (stackOf sg.pa))
  else rdStack s sg.pa sg.len
/-- Read a piece through the line of its address, if a slice holds it (R106, R108, R111, R112). A line that is refilled
for an uncorrectable clean sector is inserted anew under the access's hint, no-allocate as normal, and loses its keep
bit: R112 gives neither (DESIGN CHOICE, log entry 10). That error is not counted: R112 does not say whether it is (DESIGN
CHOICE, log entry 19). -/
def rdLine (s : State) (sg : Seg) (ch : Hint) (urgent : Bool) : MemR (List Byte) :=
  let s := tagCheck s sg.die (sliceOf (die s sg.die) sg.asid sg.va) (setOf sg.va)
  let x := die s sg.die
  let off := sg.va % 128
  match segLine s sg with
  | some l =>
    match l.st with
    | .fill => .wait []
    | _ =>
      let touched := sectorsOf off sg.len
      if (touched.filter fun k => l.bad.any (· == k)).isEmpty then
        let r := softFix s sg.die (hitPolicy x l ch) touched
        .ok (lineBytes l.data off sg.len) (updDie r.1 sg.die fun x => linePut x r.2)
      else if l.st == .dirty then
        .fault (mfault 0 l.slice) (countBad s 2 (sg.die * 64 + l.slice))
      else
        let s := updDie s sg.die fun x => lineDrop x sg.asid (sg.va / 128) sg.mt
        rdMiss s sg (if ch == .na then .normal else ch) urgent
  | none => rdMiss s sg ch urgent
/-- Read one translated piece at its place in the line's order (R105 to R108, R111, R112, R130). A read of a pending
granule stands behind the pairs that passed the filter before it (R125). -/
def rdSeg (s : State) (sg : Seg) (ch : Hint) (urgent : Bool) : MemR (List Byte) :=
  if sg.mt == .host then
    let r := rdHost s sg.pa sg.len
    .ok r.1 r.2
  else (stackGate s sg.pa).bind fun _ s0 =>
    let s := overAccess s0 sg.pa
    if !sliceReady s sg then .wait []
    else if isPending s sg.die sg.pa then
      if betweenBins s (sg.pa / 4096) then .wait []
      else rdApplied (applyGran s sg.die (sg.pa / 4096)) sg
    else rdLine s sg ch urgent

/-- Write bytes to DRAM under a byte mask; a whole sector written ends its error, and a correctable one in a sector
written in part is repaired (R108, R111, R112). -/
def wrStack (s : State) (pa : Nat) (bs : List Byte) : State :=
  let whole := fun (b : Nat) => decide (pa ≤ b * 32) && decide (b * 32 + 32 ≤ pa + bs.length)
  let s := updPkg (wrPhys s pa bs) fun p =>
    { p with badSectors := p.badSectors.filter fun b => !whole b, softSectors := p.softSectors.filter fun b => !whole b }
  repair s pa bs.length

/-- Write one translated piece at its place in the line's order (R105 to R108, R131). -/
def wrSeg (s : State) (sg : Seg) (bs : List Byte) (ch : Hint) (urgent : Bool) : MemR Unit :=
  if sg.mt == .host then .ok () (wrPhys s sg.pa bs)
  else (stackGate s sg.pa).bind fun _ s0 =>
    let s := overAccess s0 sg.pa
    if !sliceReady s sg then .wait []
    else if isPending s sg.die sg.pa then
      if betweenBins s (sg.pa / 4096) then .wait []
      else .ok () (wrStack (applyGran s sg.die (sg.pa / 4096)) sg.pa bs)
    else
      let s := tagCheck s sg.die (sliceOf (die s sg.die) sg.asid sg.va) (setOf sg.va)
      let off := sg.va % 128
      let whole := wholeSectors off sg.len
      let put := fun (l : Line) =>
        { l with st := .dirty, data := lineSet l.data off bs,
                 bad := l.bad.filter fun k => !(whole.any (· == k)),
                 soft := l.soft.filter fun k => !(whole.any (· == k)) }
      match segLine s sg with
      | some l =>
        match l.st with
        | .fill => .wait []
        | _ =>
          let r := softFix s sg.die l ((sectorsOf off sg.len).filter fun k => !(whole.any (· == k)))
          .ok () (updDie r.1 sg.die fun x => linePut x (put (hitPolicy x r.2 ch)))
      | none =>
        match ch with
        | .na => .ok () (wrStack s sg.pa bs)
        | _ =>
          match allocate s sg ch urgent with
          | none => .wait []
          | some (l, s) => .ok () (updDie s sg.die fun x => linePut x (put l))

/-- Read every piece of an access. -/
def rdSegs (ch : Hint) (urgent : Bool) : State → List Seg → MemR (List Byte)
  | s, [] => .ok [] s
  | s, sg :: l =>
    (rdSeg s sg ch urgent).bind fun bs s => (rdSegs ch urgent s l).bind fun r s => .ok (bs ++ r) s
/-- Deal bytes out to the pieces of an access. -/
def dealBytes : List Seg → List Byte → List (Seg × List Byte)
  | [], _ => []
  | sg :: l, bs => (sg, bs.take sg.len) :: dealBytes l (bs.drop sg.len)
/-- Write every piece of an access. -/
def wrSegs (ch : Hint) (urgent : Bool) : State → List (Seg × List Byte) → MemR Unit
  | s, [] => .ok () s
  | s, (sg, bs) :: l => (wrSeg s sg bs ch urgent).bind fun _ s => wrSegs ch urgent s l

/-- Whether every piece of a write could take effect now: its stack, slice and line do not make it
wait or fail. -/
def segReady (s : State) (sg : Seg) : MemR Unit :=
  if sg.mt == .host then .ok () s
  else (stackGate s sg.pa).bind fun _ s =>
    if !sliceReady s sg || (isPending s sg.die sg.pa && betweenBins s (sg.pa / 4096)) then .wait []
    else match segLine s sg with
      | some l => if l.st == .fill then .wait [] else .ok () s
      | none => .ok () s
/-- Whether every piece could take effect now. -/
def segsReady : State → List Seg → MemR Unit
  | s, [] => .ok () s
  | s, sg :: l => (segReady s sg).bind fun _ s => segsReady s l

/-- Bytes of a list at positions given by an overlay: the bytes `new` at address `a` laid over `old`
at address `va`. -/
def overlay (va : Nat) (old : List Byte) (a : Nat) (new : List Byte) : List Byte :=
  (List.range old.length).map fun i =>
    if a ≤ va + i && va + i < a + new.length then new.getD (va + i - a) 0#8 else old.getD i 0#8
/-- A queued store that ordering operations have made visible to an agent (R153, R158), with its owner. -/
def visibleStores (s : State) (ag : Agent) : List (Nat × StqEntry) :=
  s.ctxs.flatMap fun x => x.2.halves.flatMap fun h =>
    (((x.2.half h).stq.filter fun e => ag.sees x.1 e.vis).map fun e => (x.1, e))
/-- Whether two pieces share a byte, by physical address. -/
def meets (a b : Seg) : Bool := decide (a.pa < b.pa + b.len) && decide (b.pa < a.pa + a.len)
/-- Insert a store by the order in which it became visible. -/
def insStamp (e : StqEntry) : List StqEntry → List StqEntry
  | [] => [e]
  | x :: l => if e.stamp < x.stamp then e :: x :: l else x :: insStamp e l
/-- What an agent reads at a piece: the bytes its slice or stack gives, under the queued stores visible to the agent in
the order in which they became so (R148, R158). -/
def overlayVisible (s : State) (ag : Agent) (sg : Seg) (bs : List Byte) : List Byte :=
  ((visibleStores s ag).foldl (fun a x => insStamp x.2 a) []).foldl (fun b e =>
    e.segs.foldl (fun b x => if meets sg x.1 then overlay sg.pa b x.1.pa x.2 else b) b) bs
/-- Whether a write of an agent to a piece must wait: a queued store visible to the agent comes before it there
(R148). -/
def storeBefore (s : State) (ag : Agent) (l : List Seg) : Bool :=
  (visibleStores s ag).any fun x => x.2.segs.any fun y => l.any fun sg => meets sg y.1
/-- Lay what is visible to an agent over the bytes of the pieces of an access. -/
def overlaySegs (s : State) (ag : Agent) : List Seg → List Byte → List Byte
  | [], _ => []
  | sg :: l, bs => overlayVisible s ag sg (bs.take sg.len) ++ overlaySegs s ag l (bs.drop sg.len)

end Sys2Proof.Machine
end

