-- ==== Sys2Proof/Machine/Operands.lean ====
section
/-!
DEFINITION. Operand forms of the vector, matrix, transfer and gang slots (R210, R211, R284, R304), the
register-budget and pending-read checks (R49, R64), staging blocks (R210, R219), and the sticky state
an issue leaves (R217 to R219).
-/
namespace Sys2Proof.Machine

/-- The register a vector operand names relative to the budget; `none` for a direct operand at or
above VCNT (R49, R211). -/
def vreg (s : State) (o : VOp) : Option Nat :=
  let n := vcntOf s s.issuer.gcn
  match o with
  | .direct r => if r.toNat < n then some r.toNat else none
  | .indexed b off => some (((rdB s b).toNat + off.toNat + s.issuer.env.roff) % n)
/-- Register g of the group that starts at a vector operand (R284, R304). -/
def vgrp (s : State) (o : VOp) (g : Nat) : Nat :=
  match o with
  | .direct r => r.toNat + g
  | .indexed b off =>
    ((rdB s b).toNat + off.toNat + s.issuer.env.roff + g) % vcntOf s s.issuer.gcn
/-- Whether the first n registers of a group are within the budget; a group of none reaches no register (R285,
R304). -/
def vgrpOk (s : State) (o : VOp) (n : Nat) : Bool :=
  match o with
  | .direct r => n == 0 || decide (r.toNat + n ≤ vcntOf s s.issuer.gcn)
  | .indexed _ _ => true
/-- Whether every operand is within the budget. -/
def vregsOk (s : State) (os : List VOp) : Bool := os.all fun o => (vreg s o).isSome
/-- The register an operand names, when `vreg` has been checked. -/
def vnum (s : State) (o : VOp) : Nat := (vreg s o).getD 0
/-- Read an operand in a lane. -/
def rdVO (s : State) (lane : Nat) (o : VOp) : VReg := rdV s s.issuer.gcn lane (vnum s o)

/-- Whether the debug mode has a pending bit on register r in a lane (R64). With two results in flight to one place, or two
commands, R64 does not say which of them clears its one bit: it stays until the last has landed or completed (DESIGN CHOICE,
log entry 34). -/
def pendingV (s : State) (lane r : Nat) : Bool :=
  (cur s).dbgPend && (cur s).halves.any fun h =>
    ((cur s).half h).pend.any fun p => p.pb && p.writes.any fun w =>
      match w with
      | .v l n _ => l == lane && n == r
      | _ => false
/-- Whether any active lane has a pending bit on one of the registers (R64). -/
def pendingVs (s : State) (rs : List Nat) : Bool :=
  (lanes s).any fun e => rs.any fun r => pendingV s e r
/-- Whether n bytes from one local address share a 4-byte word with m bytes from another. -/
def sharesWord (a n b m : Nat) : Bool := decide (b / 4 * 4 < a + n) && decide (a / 4 * 4 < b + m)
/-- Whether the debug mode has a pending bit on a word of n bytes from la in a lane: a command's destination, or that
of an exposed store of either half (R64). The stores of the reading half are of the same bundle and do not count
(R62): the manual says so of loads that read the old value, and the model takes `gshuft`, which reads behind them, the same
way (DESIGN CHOICE, log entry 34). The handler slot has no debug mode of its own, and a read of it is not checked against the
pending bits of the context it serves (DESIGN CHOICE, log entry 34). -/
def pendingSp (s : State) (lane la n : Nat) : Bool :=
  (cur s).dbgPend &&
    (((cur s).cmds.any fun c => !c.fin && c.dests.any fun d => d.2.1 == lane && sharesWord la n d.2.2.1 d.2.2.2)
      || (cur s).halves.any fun h => h != s.issuer.half && ((cur s).half h).pend.any fun p => p.pb && p.writes.any fun w =>
        match w with
        | .sp l a k _ => l == lane && sharesWord la n a k
        | _ => false)

/-- The staging block of n registers from kb, as captured (R219); `none` when it runs past k31
(R210). -/
def block (s : State) (kb : KReg) (n : Nat) : Option (List Word) :=
  if 32 < kb.toNat + n then none
  else if s.issuer.env.re then some s.issuer.env.cap.ks
  else some ((List.range n).map fun i => rdK s (kb + BitVec.ofNat 5 i))
/-- A word of a captured block. -/
def blk (ks : List Word) (i : Nat) : Nat := (ks.getD i 0#64).toNat
/-- A scalar operand as captured at the fresh issue (R219). -/
def capA (s : State) (v : Word) : Word := if s.issuer.env.re then s.issuer.env.cap.a else v

/-- RSTEP of VSTEP, and ASTEP of MSTEP (R218). -/
def stepReg (w : Word) : Nat := field 24 8 w.toNat
/-- SPSTEP, BSTEP or LASTEP (R218). -/
def stepLa (w : Word) : Nat := field 0 18 w.toNat
/-- VASTEP of XSTEP, sign-extended (R218). -/
def stepVa (w : Word) : Word := BitVec.ofInt 64 (sext 40 (field 18 40 w.toNat))
/-- TSTEP of MSTEP (R218). -/
def stepTile (w : Word) : Nat := field 32 3 w.toNat

/-- Which sticky slot. -/
inductive StickySlot where
  | v | m | x
deriving DecidableEq, Repr
/-- The sticky state of a slot of a half. -/
def getSticky (h : Half) : StickySlot → Option Sticky
  | .v => h.stV
  | .m => h.stM
  | .x => h.stX
/-- Replace the sticky state of a slot of a half. -/
def setSticky (h : Half) (k : StickySlot) (x : Option Sticky) : Half :=
  match k with
  | .v => { h with stV := x }
  | .m => { h with stM := x }
  | .x => { h with stX := x }

/-- What a committed issue leaves in a sticky slot: after a fresh issue the operation with its
captures, after a re-issue the advanced values; `tile` is the tile it consumed and `v0` its named
version (R217, R219). An x-slot state too takes RSTEP of VSTEP as it stands at the fresh issue: the manual captures
"its step register" then and names XSTEP for the x slot, not when the RSTEP that moves its ROFF is read (DESIGN
CHOICE, log entry 34). -/
def leave (s : State) (k : StickySlot) (op : Instr) (cap : Cap) (tile : Option Nat) (v0 : Nat) : State :=
  let e := s.issuer.env
  let c := cur s
  let bump := fun (m : NMap Nat) =>
    match tile with
    | none => m
    | some t => mset 0 m t (mget 0 m t + 1)
  if e.re then
    updH s fun h =>
      setSticky h k ((getSticky h k).map fun st =>
        { st with roff := e.roff, laOff := e.laOff, vaOff := e.vaOff, tileOff := e.tileOff,
                  counts := bump st.counts })
  else
    let step := match k with
      | .v => c.vstep
      | .m => c.mstep
      | .x => c.xstep
    let rstep := match k with
      | .m => stepReg c.mstep
      | _ => stepReg c.vstep
    let st : Sticky :=
      { op := op, cap := cap, step := step, rstep := rstep, roff := 0, laOff := 0, vaOff := 0#64,
        tileOff := 0, v0 := v0, counts := bump [] }
    updH s fun h => setSticky h k (some st)
/-- The environment of the next re-issue of a sticky state (R219). -/
def reissueEnv (k : StickySlot) (st : Sticky) (vcnt acnt : Nat) : Env :=
  { re := true, roff := (st.roff + st.rstep) % vcnt, laOff := (st.laOff + stepLa st.step) % 262144,
    vaOff := if k == .x then st.vaOff + stepVa st.step else 0#64,
    tileOff := if k == .m then (st.tileOff + stepTile st.step) % acnt else 0,
    cap := st.cap, counts := st.counts, v0 := st.v0 }

/-- A local address moved by the running offset of a re-issue (R219). -/
def laStep (s : State) (la : Nat) : Nat := (la + s.issuer.env.laOff) % 262144
/-- A memory address moved by the running offset of a re-issue, in 64 bits (R219). -/
def vaStep (s : State) (va : Word) : Word := va + s.issuer.env.vaOff

/-- Every operand within the budget, or the register-budget trap (R49). -/
def withRegs (s : State) (os : List VOp) (k : Outcome) : Outcome :=
  if vregsOk s os then k else raise s causeBudget
/-- No source register pending in an active lane, or the pending-read trap (R64). -/
def withSettled (s : State) (rs : List Nat) (k : Outcome) : Outcome :=
  if pendingVs s rs then raise s causePending else k

/-- A vector instruction of the v slot: checks its registers, reads its sources at issue, computes
each active lane's result and queues it at a latency, leaving its sticky state (R261, R279). -/
def vexec (s : State) (op : Instr) (d : VOp) (srcs : List VOp) (lat : Nat) (f : Nat → VReg) : Outcome :=
  withRegs s (d :: srcs) <| withSettled s (srcs.map (vnum s)) <|
    let ws := (lanes s).map fun e => Wr.v e (vnum s d) (f e)
    .next (leave (addPend s lat ws) .v op s.issuer.env.cap none 0)

end Sys2Proof.Machine
end

