-- ==== Sys2Proof/Machine/Owners.lean ====
section
/-!
DEFINITION. What the owners of accesses have still to do: launches and their teams (fields of the nest record of R372,
R377 to R380, R383), pre-emption (R407), the commands of a context with their elements and steps (R308, R353), the queues
(R368, R369).
-/
namespace Sys2Proof.Machine

/-- Word i of a nest record. -/
def recW (l : Launch) (i : Nat) : Nat := (l.record.getD i 0#64).toNat
/-- DIEMASK, TEAMS, ORDER, NDM, OPEN, BMEM and MODE of a record (R372). -/
def recDies (l : Launch) : List Nat := (List.range 8).filter fun d => bitOf (56 + d) (recW l 0)
def recTeams (l : Launch) : Nat := field 48 8 (recW l 0)
def recOrder (l : Launch) (f : Nat) : Nat := field (48 + 2 * f) 2 (recW l 1)
def recNdm (l : Launch) : Nat := field 0 2 (recW l 6)
def recOpen (l : Launch) : Nat := field 56 4 (recW l 1)
def recBmem (l : Launch) (j : Nat) : Bool := bitOf (60 + j) (recW l 1)
def recMode (l : Launch) : Bool := bitOf 2 (recW l 6)
def recPre (l : Launch) (j : Nat) : Nat := field (8 + 6 * j) 6 (recW l 6)
/-- TRIGDIE (R372). -/
def recTrigDie (x : Launch) : Nat := field 4 3 (recW x 6)
/-- Whether a launch is open and not closed (R381). -/
def isOpen (l : Launch) : Bool := recOpen l != 0 && !l.closed
/-- Bound j as it stands. -/
def boundOf (l : Launch) (j : Nat) : Nat := l.bounds.getD j 0
/-- The iteration count T, in 64 bits (R377). -/
def iterCount (l : Launch) : Nat :=
  (List.range (recNdm l + 1)).foldl (fun a j => a * boundOf l j) 1 % 2 ^ 64
/-- Iterations that belong to the die at position p of n (R378). -/
def shareOf (t n p : Nat) : Nat := (t + n - 1 - p) / n
/-- Position of a die in DIEMASK. -/
def diePos (l : Launch) (d : Nat) : Nat := ((recDies l).filter (· < d)).length
/-- Iterations of a die not yet handed out (R379). -/
def itersLeft (l : Launch) (d : Nat) : Nat :=
  if l.fired then shareOf (iterCount l) (recDies l).length (diePos l d) - mget 0 l.next d else 0
/-- Whether the walker of a die has no iteration and never will (R380). -/
def walkerDry (l : Launch) (d : Nat) : Bool := l.fired && itersLeft l d == 0 && !isOpen l
/-- Index of dimension j in iteration L (R378). -/
def idxOf (l : Launch) (j : Nat) : Nat → Nat → Nat
  | 0, _ => 0
  | fuel + 1, x =>
    let f := recNdm l - fuel
    let b := boundOf l (recOrder l f)
    if recOrder l f == j then x % b else idxOf l j fuel (x / b)
/-- Contexts of the package that satisfy p. -/
def ctxsWith (s : State) (p : Nat → Ctx → Bool) : List Nat :=
  (s.ctxs.filter fun x => p x.1 x.2).map (·.1)
/-- Placed contexts of a launch (not handler slots). -/
def launchCtxs (s : State) (l : Nat) : List Nat :=
  ctxsWith s fun g c => !isHandler g && c.launch == some l && c.phase != .free
/-- The die whose walker and dispatcher serve a context: the one on which its team was placed. It stays so when a resume
puts the team on pods of another die, since the walker's state stays where it is (R383, R384). -/
def homeDie (s : State) (g : Nat) : Nat :=
  let c := ctxOf s g
  match c.launch.bind (launchOf s) with
  | some l => (recDies l).getD (c.team / recTeams l) (dieOf g)
  | none => dieOf g
/-- Placed contexts of a team. -/
def teamCtxs (s : State) (l team : Nat) : List Nat :=
  (launchCtxs s l).filter fun g => (ctxOf s g).team == team
/-- Whether the handler slot of a pod serves a team (R407). -/
def handlerServes (s : State) (l team p : Nat) : Bool :=
  match (ctxOf s (p * 8 + 4)).serving with
  | some n => (ctxOf s (p * 8 + n)).launch == some l && (ctxOf s (p * 8 + n)).team == team
  | none => false
/-- Whether a pre-emption holds a context at its next boundary: one is asked for, and no context of its team is
in the handler (R407). -/
def pausing (s : State) (g : Nat) : Bool :=
  let c := ctxOf s g
  c.preempting && !((teamCtxs s (c.launch.getD 0) c.team).any fun t =>
    handlerServes s (c.launch.getD 0) c.team (podOf t))

/-- Whether the dispatcher and walker of a die are stopped: frozen by a high-water fault (R73), their firmware not started
(R439), or the die not ready (R443). -/
def dispatcherStopped (s : State) (d : Nat) : Bool := (die s d).dspFrozen || notStarted s 0 || !dieReady s d
/-- Whether an admitted launch still runs: not refused, stopped or killed. -/
def alive (x : Launch) : Bool := x.refused == 0 && x.fatal.isNone && !x.killed
/-- The entries of a queue. -/
def queueOf (s : State) (q : Nat) : List QEntry := mget [] s.pkg.queues q
/-- Whether a fired launch has a team to place on a die (R383, R184). -/
def wantsTeam (x : Launch) (d : Nat) : Bool :=
  let open_ := (x.waiting.filter fun u => u.1 == d).length
  alive x && x.fired && x.pre == .running && (recDies x).any (· == d)
    && (if x.kern.cores then mget 0 x.placed d == 0 && iterCount x != 0
        else decide (mget 0 x.placed d < recTeams x) && decide (open_ < itersLeft x d))
/-- Team numbers and their dies that one placement starts: one team, or with the co-residence flag every team
of every die at once (R184, R383). -/
def teamsFor (x : Launch) (d : Nat) : List (Nat × Nat) :=
  if x.kern.cores then
    (recDies x).flatMap fun e => (List.range (recTeams x)).map fun j => (diePos x e * recTeams x + j, e)
  else [(diePos x d * recTeams x + mget 0 x.placed d, d)]
/-- Whether it is the turn of a launch to place a team on a die (R383, R439, R443). -/
def mayPlace (s : State) (x : Launch) (d : Nat) : Bool :=
  let ts := teamsFor x d
  wantsTeam x d && !(s.pkg.launches.any fun y => decide (y.id < x.id) && ts.any fun t => wantsTeam y t.2)
    && !(ts.any fun t => dispatcherStopped s t.2)
/-- Whether the scheduler serves the high class next, and the list of the class (R369). -/
def highNext (p : Pkg) : Bool := !p.hi.isEmpty && (p.lo.isEmpty || decide (p.hrun < 7))
def nextList (p : Pkg) : List Nat := if highNext p then p.hi else p.lo
/-- A command of a context by its order number. -/
def cmdOf (s : State) (g id : Nat) : Option Cmd := (ctxOf s g).cmds.find? fun x => x.id == id
/-- The part of a command in a lane. -/
def jobOf (x : Cmd) (lane : Nat) : Option LaneJob := x.jobs.find? fun j => j.lane == lane
/-- Whether a command emits pairs. -/
def isEmit (i : Instr) : Bool :=
  match i with
  | .xemitv .. | .xemitt .. => true
  | _ => false
/-- Whether a command is `xtend`. -/
def isXtend (i : Instr) : Bool :=
  match i with
  | .xtend _ => true
  | _ => false
/-- Commands that run to their end before a husk is taken (R309); `gshuft` as well (R336). -/
def runsThrough (i : Instr) : Bool :=
  match i with
  | .xcopy .. | .xwload .. | .xwstore .. | .xnzscan .. | .xtend _ | .gshuft .. => true
  | _ => false
/-- Whether a half ends its context (R260). -/
def halting (c : Ctx) : Bool := c.halves.any fun h =>
  match (c.half h).wait with
  | .halt _ => true
  | _ => false
/-- Whether a context has no store in a queue. -/
def storesDone (s : State) (g : Nat) : Bool :=
  (ctxOf s g).halves.all fun h => ((ctxOf s g).half h).stq.isEmpty
/-- Pairs in the buffer of an engine's transfer port (R140). -/
def portPairs (s : State) (p lane : Nat) : Nat :=
  (s.pkg.pairs.filter fun x => podOf x.gcn == p && x.lane == lane && x.stage == .buffered).length
/-- Whether a transfer command may start its next element in a lane (R140, R308, R309). -/
def mayElem (s : State) (g : Nat) (x : Cmd) (j : LaneJob) : Bool :=
  x.cls == .transfer && !isXtend x.op && x.flt.isNone && !x.fin && !j.fin
    && !(pausing s g && !runsThrough x.op)
    && !(isEmit x.op && decide (512 ≤ portPairs s (podOf g) j.lane))
/-- Whether a command binds its handle afresh: its old binding goes first, whatever the outcome (R355,
R361). -/
def gBinds (i : Instr) : Bool :=
  match i with
  | .pdabind .. => true
  | .pdarest .. => true
  | _ => false
/-- Whether a command produces a mask. -/
def gIsMask (i : Instr) : Bool :=
  match i with
  | .pdamask .. => true
  | _ => false
/-- Masks in progress on a die (R365). -/
def masksOn (s : State) (d : Nat) : Nat :=
  (s.ctxs.map fun x => if dieOf x.1 == d then
    (x.2.cmds.filter fun c => gIsMask c.op && c.stepped && !c.fin).length else 0).foldl (· + ·) 0
/-- The context's first grammar command that has not stepped (R353). -/
def nextGram (s : State) (g : Nat) : Option Cmd :=
  (ctxOf s g).cmds.find? fun c => c.cls == .grammar && !c.stepped && !c.fin
/-- Whether what the step of a grammar command must wait for is done, and the grammar unit of its die is ready (R353, R365,
R443). -/
def mayStep (s : State) (g : Nat) (c : Cmd) : Bool :=
  s.pkg.rdyGram.getLsbD (dieOf g) && storesDone s g
    && !(gBinds c.op && (ctxOf s g).cmds.any fun x => x.cls == .grammar && decide (x.id < c.id) && !x.fin)
    && !(gIsMask c.op && decide (64 ≤ masksOn s (dieOf g)))

end Sys2Proof.Machine
end

