-- ==== Sys2Proof/Machine/Slices.lean ====
section
/-!
DEFINITION. Requests at the slices: queued stores that may take effect (R105, R148, R155), accesses that wait (R244), the
order in which a slice serves them (R105, R110), and the reads and writes of virtual memory that stand behind it.
-/
namespace Sys2Proof.Machine

/-- Fuel for the pieces of an access of n bytes. -/
def pieces (n : Nat) : Nat := n / 128 + 2
/-- Every visible store of the package, with its owner. -/
def widened (s : State) : List (Nat × StqEntry) :=
  s.ctxs.flatMap fun x => x.2.halves.flatMap fun h =>
    (((x.2.half h).stq.filter fun e => e.vis != .own).map fun e => (x.1, e))
/-- Whether a queued store must let another go first: one visible to its context, or, when it is visible itself, one
that became visible before it (R148). -/
def heldStore (s : State) (g : Nat) (e : StqEntry) : Bool :=
  let l := e.segs.map (·.1)
  if e.vis == .own then storeBefore s (agentOf s g) l
  else (widened s).any fun x => decide (x.2.stamp < e.stamp) && x.2.segs.any fun y => l.any fun sg => meets sg y.1
/-- Whether two pieces lie in one line of a slice (R103, R105). -/
def Seg.sameLine (a b : Seg) : Bool := a.mt != .host && b.mt != .host && a.asid == b.asid && a.va / 128 == b.va / 128
/-- Whether two accesses have a line in common. -/
def shareLine (l m : List Seg) : Bool := l.any fun a => m.any a.sameLine
/-- Whether two stores touch one line of one ASID. -/
def sameLine (x y : StqEntry) : Bool :=
  x.segs.any fun a => y.segs.any fun b => a.1.asid == b.1.asid && a.1.va / 128 == b.1.va / 128
/-- The slices that pieces go to, by die and number. -/
def slicesOf (s : State) (l : List Seg) : List Nat :=
  (l.filterMap fun x =>
    if x.mt == .host then none else some (x.die * 64 + sliceOf (die s x.die) x.asid x.va)).eraseDups
/-- The stores of a half's queue behind which no older store of the queue to one of their lines stands (R105). -/
def frontStores (s : State) (g : Nat) (h : HalfId) : List StqEntry :=
  let q := ((ctxOf s g).half h).stq
  (List.range q.length).filterMap fun n =>
    match q[n]? with
    | some e => if (q.take n).any fun x => sameLine x e then none else some e
    | none => none
/-- Whether pieces could be served now. -/
def segsServe (s : State) (l : List Seg) : Bool :=
  match segsReady s l with
  | .wait _ => false
  | _ => true
/-- Whether a store could take effect now. -/
def storeReady (s : State) (g : Nat) (e : StqEntry) : Bool :=
  !heldStore s g e && segsServe s (e.segs.map (·.1))
/-- Bytes of an access size (R243). -/
def sizeBytes : Size → Nat
  | .b => 1 | .h => 2 | .w => 4 | .d => 8
/-- Address A + sext(OFF) × size in 64 bits, of a half (R243, R245). -/
def offAddrH {n : Nat} (x : Half) (a : SReg) (off : BitVec n) (sz : Size) : Word :=
  rdSH x a + sx64 off * BitVec.ofNat 64 (sizeBytes sz)
/-- The bytes of memory that an instruction waiting for an access reads or writes (R244, R246, R248). -/
def accessBytes (x : Half) (i : Instr) : Option (Nat × Nat) :=
  match i with
  | .ld sz _ _ _ a off => some ((offAddrH x a off sz).toNat, sizeBytes sz)
  | .st sz _ _ a off => some ((offAddrH x a off sz).toNat, sizeBytes sz)
  | .call _ => some ((rdSH x 63 - 8#64).toNat, 8)
  | .callr _ => some ((rdSH x 63 - 8#64).toNat, 8)
  | .ret => some ((rdSH x 63).toNat, 8)
  | .atcas wide _ a _ => some ((rdSH x a).toNat, if wide then 8 else 4)
  | .atadd wide _ a _ => some ((rdSH x a).toNat, if wide then 8 else 4)
  | .atswp wide _ a _ => some ((rdSH x a).toNat, if wide then 8 else 4)
  | .atand wide _ a _ => some ((rdSH x a).toNat, if wide then 8 else 4)
  | .ator wide _ a _ => some ((rdSH x a).toNat, if wide then 8 else 4)
  | .atxor wide _ a _ => some ((rdSH x a).toNat, if wide then 8 else 4)
  | _ => none
/-- Whether n bytes at va lie in the stack of a context, which a stack cache holds (R68, R72). -/
def inStack (s : State) (g va n : Nat) : Bool :=
  let c := ctxOf s g
  !isHandler g && decide (c.stklim.toNat ≤ va) && decide (va + n ≤ c.stktop.toNat)
/-- Whether an instruction that waits asks a slice for its bytes: a store only enters the store queue, and asks when it stands
there (R155), and for a line of the stack its fill asks (R69). -/
def asksSlice (s : State) (g va n : Nat) (i : Instr) : Bool :=
  match i with
  | .st .. | .call _ | .callr _ => false
  | _ => !inStack s g va n
/-- Whether an access that waits has no store to wait for: an atomic has those of its context (log entry 9) and those that
its context can see (R158). -/
def accessFree (s : State) (g : Nat) (i : Instr) (l : List Seg) : Bool :=
  match i with
  | .atcas .. | .atadd .. | .atswp .. | .atand .. | .ator .. | .atxor .. => storesDone s g && !storeBefore s (agentOf s g) l
  | _ => true

/-- A request that a slice could serve now: its urgency, its pieces, and the order number of its arrival; a queued store
arrives in the step that serves it (R105, R110, log entry 9). -/
structure Req where
  urg : Bool
  segs : List Seg
  ask : Option Nat
/-- The request of the access for which a half waits, once it is translated and nothing but its slices keeps it. -/
def accessReq (s : State) (g : Nat) (x : Half) : Option Req :=
  match x.wait with
  | .access i =>
    (accessBytes x i).bind fun b =>
      if !asksSlice s g b.1 b.2 i then none
      else
        match xlate (agentOf s g) .sload (pieces b.2) s b.1 b.2 with
        | .ok l _ => if segsServe s l && accessFree s g i l then some ⟨x.urgAt, l, x.ask⟩ else none
        | _ => none
  | _ => none
/-- Whether the owner of a refused access still asks for it: nothing but its slices keeps it. -/
def askLive (s : State) (a : Ask) : Bool :=
  let dirty := fun (g : Nat) => (ctxOf s g).stk.any fun l => l.dirty && a.segs.any fun x => l.va < x.va + x.len && x.va < l.va + 64
  !(a.wr && storeBefore s a.ag a.segs) &&
  match a.who with
  | .elem g id lane =>
    storesDone s g && (cmdOf s g id).any fun x => (jobOf x lane).any (mayElem s g x)
  | .gram g id => (nextGram s g).any fun c => c.id == id && mayStep s g c
  | .fetch g pc =>
    let c := ctxOf s g
    let stop := c.stopReq || c.stopBy.isSome || pausing s g
    c.phase == .issuing && c.halves.any fun h =>
      (c.half h).pc.toNat == pc && (c.half h).wait == .none && !(atBoundary (c.half h) && stop)
  | .fill g h va =>
    !((ctxOf s g).stk.any fun l => l.va == va) &&
    match ((ctxOf s g).half h).wait with
    | .access i => (accessBytes ((ctxOf s g).half h) i).any fun b => decide (va < b.1 + b.2) && decide (b.1 < va + 64)
    | _ => false
  | .settle g =>
    let c := ctxOf s g
    dirty g && (halting c || (c.phase == .frozen && (c.settling || c.preempting)))
  | .pair id =>
    match s.pkg.pairs.find? fun p => p.id == id with
    | some p => p.stage == .ingress && dirty p.gcn
        && s.pkg.permits.any fun t => t.gcn == p.gcn && t.stack == stackOf p.pa && decide (t.used < 64)
    | none => false
  | .record q rva => !notStarted s 0 && (queueOf s q).any fun e => e.rva == rva && e.record.isNone
  | .admission q =>
    !notStarted s 0 && (nextList s.pkg).head? == some q && decide (s.pkg.launches.length < 64)
      && (queueOf s q).head?.any fun e => e.record.isSome
  | .fire l => (launchOf s l).any fun x => alive x && !x.fired && x.trig && !dispatcherStopped s (recTrigDie x)
  | .start l d => (launchOf s l).any fun x => (recDies x).any (· == d) && mayPlace s x d
  | .finish l =>
    (launchCtxs s l).isEmpty && (visibleStores s a.ag).isEmpty && (launchOf s l).any fun x => x.pre == .running
/-- Every request that stands at the slices. -/
def requests (s : State) : List Req :=
  (s.ctxs.flatMap fun x => x.2.halves.flatMap fun h =>
    (((frontStores s x.1 h).filter (storeReady s x.1)).map fun e => ⟨e.urg, e.segs.map (·.1), none⟩)
      ++ (accessReq s x.1 (x.2.half h)).toList)
    ++ (s.pkg.asks.filter fun a => askLive s a && segsServe s a.segs).map fun a => ⟨a.ag.urgent, a.segs, some a.ord⟩
/-- Whether an access that arrived as number n, or arrives now, has a request before it on one of its lines (R105). -/
def behind (q : List Req) (n : Option Nat) (l : List Seg) : Bool :=
  q.any fun r => r.ask.any (fun m => n.all fun k => decide (m < k)) && shareLine r.segs l
/-- Whether a request of the given urgency to other lines than those of an access asks a slice, and no request to its own
lines is before it. -/
def asked (s : State) (q : List Req) (l : List Seg) (k : Nat) (urg : Bool) : Bool :=
  q.any fun r => r.urg == urg && !shareLine r.segs l && (slicesOf s r.segs).any (· == k) && !behind q r.ask r.segs
/-- Urgent requests that a slice has served in a row while another waited (R110). -/
def urgentRow (s : State) (k : Nat) : Nat := mget 0 (die s (k / 64)).urow (k % 64)
/-- Whether the slices of an access serve it next: behind the requests on its lines that have arrived before it (R105);
urgent ones first, but no more than 16 in a row while another waits (R110). An access to several slices goes first at all
of them once one of them has served 16 (log entry 9). -/
def serves (s : State) (urg : Bool) (n : Option Nat) (l : List Seg) : Bool :=
  let q := requests s
  let ks := slicesOf s l
  q.isEmpty || !behind q n l &&
    (if urg then ks.all fun k => decide (urgentRow s k < 16) || !asked s q l k false
     else ks.any (fun k => decide (16 ≤ urgentRow s k)) || ks.all fun k => !asked s q l k true)
/-- The slices count an access that they serve: urgent ones in a row while another waits (R110). -/
def countServed (s : State) (urg : Bool) (l : List Seg) : State :=
  let q := requests s
  (slicesOf s l).foldl (fun t k =>
    let n := if urg && asked s q l k false then urgentRow s k + 1 else 0
    updDie t (k / 64) fun d => { d with urow := mset 0 d.urow (k % 64) n }) s
/-- Add a refused access to those that stand, unless it stands there already. -/
def addAsk (s : State) (a : Ask) : State :=
  if s.pkg.asks.any fun b => b.who == a.who && b.segs == a.segs then s
  else updPkg s fun p => { p with asks := p.asks ++ [{ a with ord := p.nextAsk }], nextAsk := p.nextAsk + 1 }
/-- The accesses that an event of an owner leaves refused stand, in the order of their arrival, and no other of the owner;
those that nobody asks for any more go (R110). -/
def noteAsks (s : State) (l : List Ask) : State :=
  if l.isEmpty then s
  else l.foldl addAsk (updPkg s fun p =>
    { p with asks := p.asks.filter fun b => askLive s b && l.all fun a => a.who != b.who || a.segs == b.segs })
/-- An agent whose refused accesses stand until they are made. -/
def Agent.asking (ag : Agent) (w : Who) : Agent := { ag with who := some w, ask := none }
/-- Go on with an access of an agent once its slices serve it (R105, R110); `wr` when it writes. A refused one stands with the
urgency and the order of its first arrival, and competes with none of its own owner. -/
def atSlices {α : Type} (s : State) (ag : Agent) (wr : Bool) (l : List Seg) (k : State → MemR α) : MemR α :=
  let mine := fun (a : Ask) => ag.who == some a.who
  let own := s.pkg.asks.find? fun a => mine a && a.segs == l
  let urg := (own.map fun a => a.ag.urgent).getD ag.urgent
  let ask := (own.map fun a => a.ord).orElse fun _ => ag.ask
  let left := fun (p : Ask → Bool) => updPkg s fun q => { q with asks := q.asks.filter fun a => !p a }
  let refused := MemR.wait (ag.who.toList.map fun w => ⟨w, { ag with urgent := urg }, wr, l, 0⟩)
  if serves (left mine) urg ask l then
    match k (countServed (left fun a => mine a && a.segs == l) urg l) with
    | .wait _ => refused
    | r => r
  else refused

/-- Read n bytes of virtual memory for an agent. -/
def memRead (s : State) (ag : Agent) (k : AKind) (va n : Nat) (ch : Hint) : MemR (List Byte) :=
  (xlate ag k (pieces n) s va n).bind fun l s => atSlices s ag false l fun s =>
    (rdSegs ch ag.urgent s l).bind fun bs s =>
      .ok (if (visibleStores s ag).isEmpty then bs else overlaySegs s ag l bs) s
/-- Write bytes of virtual memory for an agent: every piece is translated, then written (R307). -/
def memWrite (s : State) (ag : Agent) (k : AKind) (va : Nat) (bs : List Byte) (ch : Hint) : MemR Unit :=
  (xlate ag k (pieces bs.length) s va bs.length).bind fun l s =>
    if storeBefore s ag l then .wait []
    else atSlices s ag true l fun s => (segsReady s l).bind fun _ s => wrSegs ch ag.urgent s (dealBytes l bs)

end Sys2Proof.Machine
end

