-- ==== Sys2Proof/Machine/Access.lean ====
section
/-!
DEFINITION. A context's scalar accesses to memory: store queue (R155), stack cache (R68 to R71), fault
records (R40, R114), interlocked waits (R244), and what completes batches (R252).
-/
namespace Sys2Proof.Machine

/-- Fill the fault record of an access, TFVA and TFINFO or MEVA and MEINFO (R40, R114). TFVA holds VA[47:0] of the
address for every code, 0x01 too: the manual gives MEVA and XFVA that width and gives TFVA none (DESIGN CHOICE, log
entry 31). While a freeze of the context waits for its other half, the record keeps the fault that froze it (R195). -/
def recordFault (s : State) (g : Nat) (f : MFault) (kind va elemNo asid : Nat) : State :=
  let v := BitVec.ofNat 64 (va % 2 ^ 48)
  if (ctxOf s g).stopBy.isSome then s
  else if f.merr then
    let w := setField 32 32 elemNo (setField 20 12 asid (setField 16 4 kind (setField 14 2 f.src
      (setField 8 6 f.unit 1))))
    updCtx s g fun c => { c with meva := v, meinfo := BitVec.ofNat 64 w }
  else
    let w := setField 32 32 elemNo (setField 20 12 asid (setField 16 4 kind (setField 13 3 f.lvl
      (setField 8 5 f.code 1))))
    updCtx s g fun c => { c with tfva := v, tfinfo := BitVec.ofNat 64 w }
/-- The trap of a failed access: translation fault or memory-error fault (R391). -/
def memCause (f : MFault) : Nat := if f.merr then causeMemory else causeTranslation
/-- Finish a precise access: go on, wait interlocked, or record the fault and trap (R41, R114). -/
def withMem {α : Type} (s : State) (i : Instr) (k : AKind) (va : Nat) (r : MemR α)
    (f : α → State → Outcome) : Outcome :=
  match r with
  | .ok a s => f a s
  | .wait l => .next (waitAt (noteAsks s l) (.access i) false)
  | .fault m s' =>
    .next (raiseW (recordFault s' (served s') m k.code va 0 (cur s').asid) (memCause m) 0 false)

/-- Lay a half's queued stores that no ordering operation has made visible over bytes read from memory, oldest first
(R155); the visible ones are in the bytes already (R158). -/
def overlayStq (h : Half) (va : Nat) (bs : List Byte) : List Byte :=
  (h.stq.filter fun e => e.vis == .own).foldl (fun b e => e.segs.foldl (fun b x => overlay va b x.1.va x.2) b) bs
/-- Lay the stack cache's lines over bytes read from memory. -/
def overlayStk (c : Ctx) (va : Nat) (bs : List Byte) : List Byte :=
  c.stk.foldl (fun b l => overlay va b l.va (bytesOf 64 l.data.toNat)) bs

/-- The scope of a visible store, by width. -/
def Vis.rank : Vis → Nat
  | .own => 0 | .pod => 1 | .die => 2 | .pkg => 3
/-- Make a queued store visible at least as far as `v`; one that becomes visible takes the order number `n`. -/
def StqEntry.widen (v : Vis) (n : Nat) (e : StqEntry) : StqEntry :=
  if v.rank ≤ e.vis.rank then e else { e with vis := v, stamp := if e.vis == .own then n else e.stamp }
/-- Number the stores of a queue as they become visible, in their order. -/
def widenAll (v : Vis) : Nat → List StqEntry → List StqEntry
  | _, [] => []
  | n, e :: l => e.widen v n :: widenAll v (n + 1) l
/-- A RELEASE of a half of a context at pod, die or package scope: its queued stores, and those of others that are visible to
it, become visible to every agent of the scope's instance before any later store of it does (R156, R158, R159). It
waits for nothing. -/
def releaseTo (s : State) (g : Nat) (h : HalfId) (v : Vis) : State :=
  let ag := agentOf s g
  let s := (visibleStores s ag).foldl (fun s x =>
    (ctxOf s x.1).halves.foldl (fun s k => updHalf s x.1 k fun y =>
      { y with stq := y.stq.map fun e => if ag.sees x.1 e.vis then e.widen v 0 else e }) s) s
  let q := ((ctxOf s g).half h).stq
  let n := s.pkg.nextStamp
  updPkg (updHalf s g h fun y => { y with stq := widenAll v n q }) fun p => { p with nextStamp := n + q.length }
/-- A release of every half a context has. -/
def releaseCtx (s : State) (g : Nat) (v : Vis) : State :=
  (ctxOf s g).halves.foldl (fun s h => releaseTo s g h v) s
/-- Let the n-th store of a half's queue take effect at its slices (R105); it stays when it must wait. When its stack
has Failed it is lost, and the half keeps the fault to take at an issue (R117). -/
def drainNth (s : State) (g : Nat) (h : HalfId) (n : Nat) : State :=
  let q := ((ctxOf s g).half h).stq
  match q[n]? with
  | none => s
  | some e =>
    let drop := fun (s : State) => updHalf s g h fun x => { x with stq := x.stq.eraseIdx n }
    let lose := fun (f : MFault) (s : State) => updHalf (drop s) g h fun x =>
      { x with lost := x.lost ++ [match e.segs with
          | [] => ⟨0, 0, f.unit⟩
          | y :: _ => ⟨y.1.asid, y.1.va, f.unit⟩] }
    if heldStore s g e then s
    else
      match segsReady s (e.segs.map (·.1)) with
      | .wait _ => s
      | .fault f s => lose f s
      | .ok _ s =>
        match wrSegs e.ch e.urg s e.segs with
        | .ok _ s => drop s
        | .wait _ => s
        | .fault f s => lose f s
/-- A store of a queue takes effect when its slices serve it, and they count it (R110). -/
def serveNth (s : State) (g : Nat) (h : HalfId) (n : Nat) : State :=
  match ((ctxOf s g).half h).stq[n]? with
  | none => s
  | some e =>
    let l := e.segs.map (·.1)
    if !storeReady s g e || !serves s e.urg none l then s
    else drainNth (countServed s e.urg l) g h n
/-- Drain a half's store queue in order, as far as nothing waits. -/
def drainStq (s : State) (g : Nat) (h : HalfId) : Nat → State
  | 0 => s
  | fuel + 1 =>
    let n := ((ctxOf s g).half h).stq.length
    if n = 0 then s
    else
      let s' := serveNth s g h 0
      if ((ctxOf s' g).half h).stq.length < n then drainStq s' g h fuel else s'
/-- Drain the store queues of a context. -/
def flushStores (s : State) (g : Nat) : State :=
  (ctxOf s g).halves.foldl (fun s h => drainStq s g h ((ctxOf s g).half h).stq.length) s

/-- The memory-error fault of the first queued store of the issuing half that was lost; `none` when none was (R117). -/
def takeLost (s : State) : Option State :=
  match (curH s).lost with
  | [] => none
  | x :: l =>
    let s := recordFault (updH s fun h => { h with lost := l }) (served s) (mfault 2 x.stack) AKind.sstore.code x.va
      0 x.asid
    some (raiseW s causeMemory 0 false)
/-- The memory-error fault of a queued store that was lost is taken before the issuing half goes on (R117, log entry
9). -/
def withLost (s : State) (k : State → Outcome) : Outcome :=
  match takeLost s with
  | none => k s
  | some t => .next t

/-- Write a dirty stack-cache line back for an owner, if any; a line that waits or faults stays dirty (R69). -/
def stkWriteBack (s : State) (w : Option Who) (g : Nat) (l : StkLine) : MemR Unit :=
  memWrite s { agentOf s g with who := w, ask := if w.isSome then none else (agentOf s g).ask } .sstore l.va (bytesOf 64 l.data.toNat) .normal
/-- Mark a line clean. -/
def stkMarkClean (s : State) (g va : Nat) : State :=
  updCtx s g fun c => { c with stk := c.stk.map fun x => if x.va == va then { x with dirty := false } else x }
/-- Write one dirty line back and mark it clean; true when it, or one before it, must wait. A write-back to a stack that
has Failed loses the line's bytes, and the context keeps the fault to take at an issue, as for a queued store (R117,
log entry 9). -/
def stkCleanOne (w : Option Who) (g : Nat) (r : State × Bool) (l : StkLine) : State × Bool :=
  match stkWriteBack r.1 w g l with
  | .ok _ s => (stkMarkClean s g l.va, r.2)
  | .wait l => (l.foldl addAsk r.1, true)
  | .fault f s =>
    if f.merr && f.src == 2 then
      (updHalf (stkMarkClean s g l.va) g .primary fun x =>
        { x with lost := x.lost ++ [⟨(ctxOf s g).asid, l.va, f.unit⟩] }, r.2)
    else (s, r.2)
/-- Write back every dirty line that overlaps [va, va + n) and mark it clean; true when one must wait. A line whose
write-back fails stays dirty and held, as R69 gives for a demand fill (R70, R71). -/
def stkClean (s : State) (w : Option Who) (g va n : Nat) : State × Bool :=
  ((ctxOf s g).stk.filter fun l => l.dirty && l.va < va + n && va < l.va + 64).foldl (stkCleanOne w g) (s, false)
/-- Invalidate the lines that overlap [va, va + n) (R70, R71). -/
def stkDrop (s : State) (g va n : Nat) : State :=
  updCtx s g fun c => { c with stk := c.stk.filter fun l => !(l.va < va + n && va < l.va + 64) }
/-- Write back every dirty line of a context (R71); true when one must wait. -/
def stkCleanAll (s : State) (g : Nat) : State × Bool := stkClean s (some (.settle g)) g 0 (2 ^ 48)
/-- The end of a context goes on when no dirty line is left; a write-back that faults is reported there, KIND 2 as for a
write-back that a fill forces (R69, log entry 9). -/
def withClean (s : State) (g : Nat) (k : State → Outcome) : Outcome :=
  match (ctxOf s g).stk.find? (·.dirty) with
  | none => k s
  | some l =>
    match stkWriteBack s none g l with
    | .fault f s => .next (raiseW (recordFault s g f 2 l.va 0 (ctxOf s g).asid) (memCause f) 0 false)
    | _ => k s
/-- Whether a context has a matrix command in flight (R396). -/
def matrixOut (c : Ctx) : Bool := c.cmds.any fun x => x.cls == .matrix && !x.fin
/-- Steps 2 and 3 of R396 for a context that has just frozen: once its matrix commands are done and no dirty line waits to
be written back, it is Frozen, and what it has committed is ordered before the handler's operations (R168). -/
def settleFrozen (s : State) (g : Nat) : State :=
  let c := ctxOf s g
  if c.phase == .frozen && c.settling && !matrixOut c then
    let r := stkCleanAll s g
    if r.2 then r.1 else updCtx (releaseCtx r.1 g .pod) g fun c => { c with settling := false }
  else s

/-- Free a line of a full stack cache: the highest-addressed goes, written back if dirty, but never the one at `keep`,
which the access itself needs (R69). -/
def stkMakeRoom (s : State) (w : Who) (g keep : Nat) : MemR Unit :=
  let c := ctxOf s g
  if c.stk.length < 64 then .ok () s
  else
    let top := (c.stk.filter fun l => l.va != keep).foldl (fun a l => max a l.va) 0
    match c.stk.find? fun l => l.va == top && l.va != keep with
    | none => .ok () s
    | some l =>
      let drop := fun (s : State) => updCtx s g fun c => { c with stk := c.stk.filter fun x => x.va != top }
      if l.dirty then (stkWriteBack s (some w) g l).bind fun _ s => .ok () (drop s) else .ok () (drop s)
/-- What a stack-cache access met. -/
inductive StkR where
  | ok (s : State)
  | wait (l : List Ask)
  /-- A fault with its KIND: 1 for a fill, 2 for a write-back (R69). -/
  | fault (f : MFault) (kind : Nat) (s : State)
/-- Make sure the line at va is held, beside the one at `keep` (R69). -/
def stkFill (s : State) (g : Nat) (h : HalfId) (va keep : Nat) : StkR :=
  if (ctxOf s g).stk.any fun l => l.va == va then .ok s
  else
    match stkMakeRoom s (.fill g h va) g keep with
    | .wait l => .wait l
    | .fault f s => .fault f 2 s
    | .ok _ s =>
      match memRead s ((agentOf s g).asking (.fill g h va)) .sload va 64 .normal with
      | .wait l => .wait l
      | .fault f s => .fault f 1 s
      | .ok bs s =>
        let bs := overlayStq ((ctxOf s g).half h) va bs
        .ok (updCtx s g fun c => { c with stk := c.stk ++ [⟨va, false, BitVec.ofNat 512 (ofBytes bs)⟩] })
/-- Make sure the lines of n bytes at va are held. -/
def stkFills (s : State) (g : Nat) (h : HalfId) (va n : Nat) : StkR :=
  let a := va / 64 * 64
  let b := (va + n - 1) / 64 * 64
  match stkFill s g h a b with
  | .ok s => if b = a then .ok s else stkFill s g h b a
  | r => r
/-- Read n bytes through held lines. -/
def stkRead (s : State) (g va n : Nat) : List Byte :=
  overlayStk (ctxOf s g) va (List.replicate n 0#8)
/-- Write bytes into held lines. -/
def stkWrite (s : State) (g va : Nat) (bs : List Byte) : State :=
  updCtx s g fun c =>
    { c with stk := c.stk.map fun l =>
        if l.va < va + bs.length && va < l.va + 64 then
          { l with dirty := true,
                   data := BitVec.ofNat 512 (ofBytes (overlay l.va (bytesOf 64 l.data.toNat) va bs)) }
        else l }

/-- How a scalar access lies to the context's stack (R68). -/
inductive StackPart where
  | inside | spans | outside
deriving DecidableEq, Repr
/-- Where n bytes at va lie: a handler slot has no stack cache (R72). -/
def stackPart (s : State) (va n : Nat) : StackPart :=
  let c := cur s
  let lo := c.stklim.toNat
  let hi := c.stktop.toNat
  if inHandler s || hi ≤ lo then .outside
  else if lo ≤ va && va + n ≤ hi then .inside
  else if va + n ≤ lo || hi ≤ va then .outside
  else .spans

/-- A write of a pod's handler into the stack of a frozen context of the pod that runs under its ASID drops that
context's lines (R71). -/
def handlerDrop (s : State) (g va n : Nat) : State :=
  [0, 1, 2, 3].foldl (fun s k =>
    let t := podOf g * 8 + k
    if (ctxOf s t).phase == .frozen && (ctxOf s t).asid == (ctxOf s g).asid then stkDrop s t va n else s) s
/-- A handler store drops the lines it hits of frozen contexts (R71). -/
def handlerStore (s : State) (va n : Nat) : State := if inHandler s then handlerDrop s s.issuer.gcn va n else s

/-- A scalar load of n bytes; `k` receives the value (R244). -/
def loadK (s : State) (i : Instr) (va n : Nat) (ch : Hint) (k : Bool → Nat → State → Outcome) : Outcome :=
  let g := s.issuer.gcn
  let h := s.issuer.half
  match stackPart s va n with
  | .spans => raise s causeStack
  | .inside =>
    match stkFills s g h va n with
    | .wait l => .next (waitAt (noteAsks s l) (.access i) false)
    | .fault f kd s' =>
      .next (raiseW (recordFault s' g f kd va 0 (cur s').asid) (memCause f) 0 false)
    | .ok s => k true (ofBytes (stkRead s g va n)) s
  | .outside =>
    withMem s i .sload va (memRead s (agentOf s g) .sload va n ch) fun bs s =>
      k false (ofBytes (overlayStk (cur s) va (overlayStq (curH s) va bs))) s
/-- A scalar store of bytes; `k` goes on once it is made (R244). -/
def storeK (s : State) (i : Instr) (va : Nat) (bs : List Byte) (ch : Hint) (k : State → Outcome) : Outcome :=
  let g := s.issuer.gcn
  let h := s.issuer.half
  let n := bs.length
  match stackPart s va n with
  | .spans => raise s causeStack
  | .inside =>
    match stkFills s g h va n with
    | .wait l => .next (waitAt (noteAsks s l) (.access i) false)
    | .fault f kd s' =>
      .next (raiseW (recordFault s' g f kd va 0 (cur s').asid) (memCause f) 0 false)
    | .ok s => k (stkWrite s g va bs)
  | .outside =>
    withMem s i .sstore va
      ((xlate (agentOf s g) .sstore (pieces n) s va n).bind fun l s =>
        (segsReady s l).bind fun _ s => .ok l s) fun l s =>
        let s := handlerStore s va n
        let s := updCur s fun c =>
          { c with stk := c.stk.map fun x =>
              { x with data := BitVec.ofNat 512 (ofBytes (overlay x.va (bytesOf 64 x.data.toNat) va bs)) } }
        k (updH s fun x => { x with stq := x.stq ++ [⟨dealBytes l bs, ch, (agentOf s g).urgent, .own, 0⟩] })

/-- COMPLETED: the latest batch at or before which every batch has completed (R252). -/
def completedOf (c : Ctx) : Nat :=
  let back := c.cmds.foldl (fun a x =>
    match x.batch with
    | some b => if x.fin then a else max a ((c.issued + 65536 - b) % 65536 + 1)
    | none => a) 0
  (c.issued + 65536 - back) % 65536
/-- Forget finished commands of closed batches with no fault, bring COMPLETED up to date and release a `batch` that
waited for room (R252). -/
def refresh (s : State) (g : Nat) : State :=
  updCtx s g fun c =>
    let c := { c with cmds := c.cmds.filter fun x => !(x.fin && x.flt.isNone && x.batch.isSome) }
    let c := { c with completed := completedOf c }
    let room := (c.issued + 65536 - c.completed) % 65536 < 32767
    let free := fun (h : Half) => if room && h.wait == .batch then { h with wait := .none } else h
    { c with prim := free c.prim, spare := c.spare.map free }
/-- Close the open batch: its commands join the next number (R252). -/
def closeBatch (c : Ctx) : Ctx :=
  let n := (c.issued + 1) % 65536
  { c with issued := n,
           deferred := c.deferred.map fun f => if f.batch.isNone then { f with batch := some n } else f,
           cmds := c.cmds.map fun x => if x.batch.isNone then { x with batch := some n } else x }
/-- Close the open batch of a context, whose uncovered writes belong to it from now on (R252). -/
def closeOpen (s : State) (g : Nat) : State :=
  let n := ((ctxOf s g).issued + 1) % 65536
  { updCtx s g closeBatch with
    unseen := s.unseen.map fun u => if u.gcn == g && u.batch.isNone then { u with batch := some n } else u }
/-- Add a command to the open batch of the issuing context (R252). -/
def addCmd (s : State) (x : Cmd) : State :=
  updCur s fun c => { c with cmds := c.cmds ++ [{ x with id := c.nextCmd }], nextCmd := c.nextCmd + 1 }

end Sys2Proof.Machine
end

