-- ==== Sys2Proof/Machine/Team.lean ====
section
/-!
DEFINITION. Teams, walkers and the end of contexts: who may still get an iteration (R380), urgency (R388), barriers (R162,
R203) and the release of a slot (R180, R260).
-/
namespace Sys2Proof.Machine

/-- Insert into a rising list. -/
def insNat (x : Nat) : List Nat → List Nat
  | [] => [x]
  | y :: l => if x ≤ y then x :: y :: l else y :: insNat x l
/-- Sort. -/
def sortNat (l : List Nat) : List Nat := l.foldr insNat []

/-- Re-evaluate the urgency of a team (R388); a context that stops being urgent loses its credit
(R387). -/
def urgency (s : State) (l team : Nat) : State :=
  let live := teamCtxs s l team
  let count := fun g => (ctxOf s g).iters
  let m := (sortNat (live.map count)).getD (live.length / 2) 0
  let u := live.foldl (fun (a : Option Nat) g =>
    match a with
    | none => some g
    | some b => if count g < count b then some g else some b) none
  live.foldl (fun s g => updCtx s g fun c =>
    let urg := decide (2 ≤ live.length) && u == some g && decide (c.iters < m) && !c.heldBack
    { c with urgent := urg, credit := if urg then c.credit else 0 }) s

/-- The barrier unit of a context for a barrier kind (R162); a resume on another die changes none (R409). -/
def barUnit (s : State) (g : Nat) (bk : BarKind) : Nat :=
  match bk with
  | .team => (ctxOf s g).team
  | .die => homeDie s g
  | .grid => 0
/-- A barrier of a launch; one never used is at generation 0 with no arrival. -/
def barrierOf (l : Launch) (bk : BarKind) (unit id : Nat) : Barrier :=
  (l.bars.find? fun b => b.bk == bk && b.unit == unit && b.id == id).getD ⟨bk, unit, id, 0, []⟩
/-- Replace a barrier of a launch. -/
def putBarrier (l : Launch) (b : Barrier) : Launch :=
  { l with bars := b :: l.bars.filter fun x => !(x.bk == b.bk && x.unit == b.unit && x.id == b.id) }
/-- The participants of a barrier (R162, R203). -/
def participants (s : State) (l : Nat) (bk : BarKind) (unit : Nat) : List Nat :=
  (launchCtxs s l).filter fun g => barUnit s g bk == unit

/-- The stores of a half's queue that ordering operations have made visible: others may have read them, so they drain even
when the context is gone (R149). -/
def visibleQ (h : Half) : List StqEntry := h.stq.filter fun e => e.vis != .own
/-- A half of a context whose slot becomes Free: its registers keep their values, which no rule clears before the next
context start (R379, R410), and nothing of it is outstanding but visible stores. -/
def freedHalf (h : Half) : Half :=
  { h with pend := [], stq := visibleQ h, lost := [], wait := .none, ask := none, nextPc := none, rep := 0, slot := 0, begun := false,
           live := false, switchReq := false, verOk := false, stV := none, stM := none, stX := none }
/-- A context whose slot becomes Free (R180). -/
def freedCtx (c : Ctx) : Ctx :=
  { c with phase := .free, launch := none, stk := [], deferred := none, arrivals := [], handles := [], cmds := [],
           iters := 0, urgent := false, urgentRuns := 0, heldBack := false, age := 0, credit := 0,
           yieldSet := [], yielded := false, stopReq := false, preempting := false, stopBy := none, settling := false,
           preFrozen := false, spare := none,
           prim := { freedHalf c.prim with stq := c.halves.flatMap fun h => visibleQ (c.half h) } }
/-- The slot of a context becomes Free: its bindings are released and it leaves its barriers, also those at which it has
arrived, and its team (R180, R203, R260, R337). -/
def freeCtx (s : State) (g : Nat) : State :=
  let c := ctxOf s g
  let s := updCtx (exposeCtx s g) g freedCtx
  let s := updPod s (podOf g) fun p => { p with queue := p.queue.filter (· != slotOfG g) }
  let s := [0, 1, 2, 3].foldl (fun s n => updCtx s (podOf g * 8 + n) fun x =>
    { x with yieldSet := x.yieldSet.filter (· != slotOfG g) }) s
  match c.launch with
  | none => s
  | some l =>
    let s := updLaunch s l fun x =>
      { x with waiting := (x.waiting.map fun u => (u.1, u.2.filter (· != g))).filter fun u => !u.2.isEmpty,
               parkedNext := x.parkedNext.filter (· != g),
               bars := x.bars.map fun b => { b with arrived := b.arrived.filter (· != g) } }
    urgency s l c.team

/-- Whether a die gives a unit of a launch that waits no iteration any more: the walker has none left (R379, R380), or the
start of a later team has refused the launch (R232). A stopped walker finds nothing until it goes on (R73). -/
def noMore (s : State) (x : Launch) (d : Nat) : Bool :=
  (walkerDry x d || x.refused != 0) && !dispatcherStopped s d
/-- A unit waits for its next iteration, or its contexts end when none will come. -/
def waitUnit (s : State) (l d : Nat) (unit : List Nat) : State :=
  match launchOf s l with
  | none => s
  | some x =>
    if noMore s x d then unit.foldl freeCtx s
    else updLaunch s l fun x => { x with waiting := x.waiting ++ [(d, unit)] }

/-- With MODE = 1 a team waits once each of its contexts that has not halted has executed `halt.next`
(R379). -/
def teamWait (s : State) (l team d : Nat) : State :=
  match launchOf s l with
  | none => s
  | some x =>
    let ts := sortNat (teamCtxs s l team)
    if recMode x && !ts.isEmpty && ts.all fun t => x.parkedNext.any (· == t) then
      waitUnit (updLaunch s l fun x =>
        { x with parkedNext := x.parkedNext.filter fun t => !(ts.any (· == t)) }) l d ts
    else s
/-- The entry bundle of a launch, where a context that waits for an iteration goes on (R379, R394). -/
def entryOf (s : State) (l : Nat) (pc : Word) : Word :=
  ((launchOf s l).map fun x => BitVec.ofNat 64 x.kern.entry).getD pc
/-- The end of a halt whose waits are done and that has no fault to report (R260). -/
def finishHalt (s : State) (g : Nat) (next : Bool) : State :=
  let c := ctxOf s g
  let d := homeDie s g
  match c.launch with
  | none => freeCtx s g
  | some l =>
    if !next then teamWait (freeCtx s g) l c.team d
    else
      let s := updCtx s g fun c =>
        { c with iters := c.iters + 1, heldBack := false, urgentRuns := 0, phase := .parked,
                 prim := { c.prim with wait := .iter, pc := entryOf s l c.prim.pc, slot := 0, rep := 0, nextPc := none,
                                       begun := false, live := false } }
      let s := urgency s l c.team
      match launchOf s l with
      | none => s
      | some x =>
        if !recMode x then waitUnit s l d [g]
        else teamWait (updLaunch s l fun x => { x with parkedNext := x.parkedNext ++ [g] }) l c.team d

/-- Age of a batch counting back from n in modulo order: a larger number is older (R43). -/
def batchAge (n b : Nat) : Nat := (n + 65536 - b) % 65536
/-- Whether batch d lies at or before n (R252). -/
def atOrBefore (n d : Nat) : Bool := (n + 65536 - d) % 65536 < 32768
/-- Bit of a class in CM (R253). -/
def Cls.bit : Cls → Nat
  | .matrix => 0
  | .transfer => 1
  | .grammar => 2
/-- Commands of a context that a wait for the classes `cm` up to n covers. -/
def covered (c : Ctx) (n : Nat) (cm : BitVec 3) : List Cmd :=
  c.cmds.filter fun x =>
    cm.getLsbD x.cls.bit &&
    match x.batch with
    | some b => atOrBefore n b
    | none => false

/-- The fault record of a pair fault and its trap (R145). -/
def reportPair (s : State) (f : Deferred) : State × Nat × Nat :=
  let g := s.issuer.gcn
  let c := ctxOf s g
  let wc := if f.w == 2 then 1 else if f.w == 4 then 2 else 3
  let info := setField 32 32 (min c.drop 0xFFFFFFFF) (setField 20 12 f.asid (setField 16 4 f.cls
    (setField 14 2 wc 1)))
  let s := updCtx s (served s) fun c =>
    { c with upfva := BitVec.ofNat 64 (f.va % 2 ^ 48), upfval := f.val, upfinfo := BitVec.ofNat 64 info }
  let s := updCtx s g fun c => { c with deferred := none, drop := 0 }
  if f.cls == 1 then
    (recordFault s (served s) (tfault f.code f.lvl) 6 f.va f.elemNo f.asid, causeTranslation, 0)
  else if f.cls == 2 then
    (recordFault s (served s) (mfault 2 f.unit) 6 f.va f.elemNo f.asid, causeMemory, 0)
  else (s, causeUpdate, f.cls)
/-- XFLT of a fault (R307). -/
def xfltWord (f : CmdFault) : Word :=
  BitVec.ofNat 64 (setField 32 28 f.felem (setField 20 12 f.asid (setField 16 4 f.kind
    (setField 14 2 f.src (setField 8 6 f.code (setField 1 1 (bit f.merr) 1))))))
/-- The fault record of a command fault and its trap (R43, R307, R354). -/
def reportCmd (s : State) (x : Cmd) (f : CmdFault) : State × Nat × Nat :=
  let g := s.issuer.gcn
  let s := updCtx s g fun c =>
    { c with lastCmd := some x.id, hxflt := if f.gcode == 0 || f.gcode == 0xD then xfltWord f else 0#64,
             hxfva := BitVec.ofNat 64 (f.va % 2 ^ 48),
             hlprog := x.jobs.foldl (fun m j => mset 0 m j.lane j.done) [],
             cmds := c.cmds.map fun y => if y.id == x.id then { y with reported := true } else y }
  if f.gcode != 0 && f.gcode != 0xD then (s, causeGrammar, f.gcode)
  else
    let m : MFault := ⟨f.merr, f.code, f.lvl, f.src, f.code⟩
    (recordFault s (served s) m f.kind f.va f.felem f.asid,
      if f.merr then causeMemory else causeTranslation, 0)
/-- Report the recorded fault that a wait over n and `cm` chooses, or go on (R43, R145). While the other half's freeze
is under way the half only stops, and the fault stays recorded (R195). -/
def reportOr (s : State) (n : Nat) (cm : BitVec 3) (pairs : Bool) (k : State → Outcome) : Outcome :=
  let c := ctxOf s s.issuer.gcn
  let cands := (covered c n cm).filter fun x => x.flt.isSome && !x.reported
  let oldest := cands.foldl (fun (a : Option Cmd) x =>
    match a with
    | none => some x
    | some y =>
      if batchAge n (y.batch.getD n) < batchAge n (x.batch.getD n)
        || (x.batch == y.batch && x.id < y.id) then some x else some y) none
  let pf := c.deferred.filter fun f =>
    pairs && (match f.batch with
      | some b => atOrBefore n b
      | none => false)
  let go := fun (r : State × Nat × Nat) =>
    Host.Outcome.next (if c.stopBy.isSome then raiseW s causeTranslation 0 true else raiseW r.1 r.2.1 r.2.2 true)
  match oldest, pf with
  | none, none => k s
  | none, some f => go (reportPair s f)
  | some x, none =>
    (match x.flt with
    | some f => go (reportCmd s x f)
    | none => k s)
  | some x, some f =>
    let pairFirst := decide (batchAge n (x.batch.getD n) < batchAge n (f.batch.getD n))
      || (x.batch == f.batch && decide (f.cmd < x.id))
    if pairFirst then go (reportPair s f)
    else
      match x.flt with
      | some e => go (reportCmd s x e)
      | none => k s

/-- Whether a context has pairs in flight of emit commands below an order number (R144). -/
def pairsOut (s : State) (g upto : Nat) : Bool := s.pkg.pairs.any fun p => p.gcn == g && decide (p.cmd < upto)
/-- Whether an emit command of the context below an order number has pairs still to generate (R144). -/
def emitsOut (c : Ctx) (upto : Nat) : Bool := c.cmds.any fun x => !x.fin && decide (x.id < upto) &&
  match x.op with
  | .xemitv .. | .xemitt .. => true
  | _ => false

/-- A halt ends when every command is done and every pair accepted, after reporting what remains, and when its stores
have taken effect (R167, R260); otherwise it waits, a switch point. -/
def haltStep (s : State) (g : Nat) (h : HalfId) (next : Bool) : Outcome :=
  let s := { s with issuer := { s.issuer with gcn := g, half := h } }
  let c := ctxOf s g
  if (c.cmds.any fun x => !x.fin) || pairsOut s g c.nextCmd then .next (waitAt s (.halt next) true)
  else
    reportOr s c.issued 7#3 true fun s =>
      let s := flushStores (releaseCtx s g .pkg) g
      if !storesDone s g then .next (waitAt s (.halt next) true)
      else
        let r := stkCleanAll s g
        if r.2 then .next (waitAt r.1 (.halt next) true)
        else withLost r.1 fun s => withClean s g fun s =>
          .next (finishHalt (exposeCtx s g) g next)

end Sys2Proof.Machine
end

