-- ==== Sys2Proof/Machine/Flags.lean ====
section
/-!
DEFINITION. The part has no flags register; what other parts compute into flags it computes into
registers: scalar conditions (R238), vector comparisons and element masks (R263, R268), the zero test
(R87, R240), and the saturating sums of R264.
-/
namespace Sys2Proof.Machine

/-- Whether a scalar condition holds (R238). -/
def condHolds (c : Cond) (a b : Word) : Bool :=
  match c with
  | .eq => a == b
  | .ne => a != b
  | .lt => a.slt b
  | .ge => !a.slt b
  | .ltu => a.ult b
  | .geu => !a.ult b
/-- A Boolean as a 64-bit word. -/
def boolWord (b : Bool) : Word := if b then 1#64 else 0#64
/-- A Boolean as a mask element: all ones or all zeros (R263). -/
def maskElem (b : Bool) : W32 := if b then 0xFFFFFFFF#32 else 0#32
/-- Whether a mask element is set: it is nonzero (R263). -/
def maskSet (x : W32) : Bool := x != 0#32

/-- Whether a vector comparison of two elements holds (R268). -/
def vcondHolds (c : VCond) (a b : W32) : Bool :=
  let nan := isNan32 a || isNan32 b
  let same := a == b || (isZero32 a && isZero32 b)
  let less := !same && (ord32 a).ult (ord32 b)
  match c with
  | .feq => !nan && same
  | .fne => nan || !same
  | .flt => !nan && less
  | .fle => !nan && (less || same)
  | .fun_ => nan
  | .ieq => a == b
  | .ine => a != b
  | .ilt => a.slt b
  | .ile => !b.slt a
  | .iltu => a.ult b
  | .ileu => !b.ult a

/-- An integer saturated to a signed 32-bit word (R264). -/
def sat32 (x : Int) : W32 :=
  if x < -2147483648 then 0x80000000#32 else if 2147483647 < x then 0x7FFFFFFF#32 else BitVec.ofInt 32 x

/-- Number of leading zero bits; 64 for zero (R240). -/
def clz64 (a : Word) : Nat := if a = 0#64 then 64 else 63 - Nat.log2 a.toNat
/-- Number of trailing zero bits; 64 for zero (R240). -/
def ctz64 (a : Word) : Nat := (leastBelow 64 fun i => bitOf i a.toNat).getD 64
/-- Number of one bits (R240). -/
def popc64 (a : Word) : Nat := countBelow 64 fun i => bitOf i a.toNat

end Sys2Proof.Machine
end

