-- ==== Sys2Proof/Machine/Transc.lean ====
section
/-!
DEFINITION. The transcendentals of R267: the exact special results, and elsewhere a free value of the part
(`Config.transc`) narrowed to the stated bound by an enclosure of the exact result. Free values that would make a
function that is not monotonic where the exact one is are not the part's: the nearest code of the enclosure stands for
them, so that the part's function is any monotonic one within the bounds (log entry 21).
-/
namespace Sys2Proof.Machine

/-- Fractional bits of the enclosures. -/
def fixP : Nat := 128
/-- floor(ln 2 × 2^128). -/
def ln2Fix : Nat := 235865763225513294137944142764154484399
/-- exp t for t in [0, 1), t and the result in units of 2^-128; below the exact value by fewer than
1,024 units. -/
def expFix (t : Nat) : Nat :=
  ((List.range 40).foldl (fun (a : Nat × Nat) i =>
    let term := (a.1 * t) >>> fixP
    (term / (i + 1), a.2 + term / (i + 1))) (2 ^ fixP, 2 ^ fixP)).2
/-- artanh y for y in [0, 1/2), in units of 2^-128; below the exact value by fewer than 1,024 units. -/
def artanhFix (y : Nat) : Nat :=
  let y2 := (y * y) >>> fixP
  ((List.range 80).foldl (fun (a : Nat × Nat) i =>
    (((a.1 * y2) >>> fixP), a.2 + a.1 / (2 * i + 1))) (y, 0)).2
/-- Integer square root, bit by bit from bit n. -/
def isqrt (x : Nat) : Nat → Nat → Nat
  | 0, r => r
  | n + 1, r =>
    let c := r + 2 ^ n
    isqrt x n (if c * c ≤ x then c else r)

/-- An enclosure of a positive real: it lies in [lo × 2^e, hi × 2^e]. -/
structure Encl where
  lo : Nat
  hi : Nat
  e : Int

/-- A fixed-point value with an allowance of 2,048 units. -/
def enclFix (x : Nat) (e : Int) : Encl := ⟨x - 2048, x + 2048, e⟩
/-- m × 2^e as an integer part and a fraction in units of 2^-128, for m × 2^e below 2^200. -/
def splitFix (m : Nat) (e : Int) : Nat × Nat :=
  let x := if 0 ≤ e + 128 then m <<< (e + 128).toNat else m >>> (-(e + 128)).toNat
  (x >>> fixP, x % 2 ^ fixP)
/-- The same for a value between 1 and 2, neither of which it is: the enclosure leaves both out. -/
def enclUnit (x : Nat) (e : Int) : Encl :=
  ⟨max (2 ^ fixP + 1) (x - 2048), min (2 ^ (fixP + 1) - 1) (x + 2048), e⟩
/-- 2^(±m × 2^e). -/
def exp2Encl (neg : Bool) (m : Nat) (e : Int) : Encl :=
  let (k, f) := splitFix m e
  if neg then
    (if f = 0 then enclUnit (2 ^ (fixP + 1)) (-(k : Int) - 129)
     else enclUnit (expFix (((2 ^ fixP - f) * ln2Fix) >>> fixP)) (-(k : Int) - 129))
  else enclUnit (expFix ((f * ln2Fix) >>> fixP)) ((k : Int) - 128)
/-- |log2 (m × 2^e)| with its sign, m nonzero, in units of 2^-128. -/
def log2Encl (m : Nat) (e : Int) : Bool × Encl :=
  let k := flog2 m e
  let x := (m <<< fixP) >>> Nat.log2 m
  let one := 2 ^ fixP
  let y := ((x - one) <<< fixP) / (x + one)
  let frac := ((2 * artanhFix y) <<< fixP) / ln2Fix
  let t : Int := k * (one : Nat) + (frac : Nat)
  (t < 0, enclFix t.natAbs (-128))
/-- 1 / (m × 2^e). -/
def rcpEncl (m : Nat) (e : Int) : Encl := ⟨2 ^ 200 / m, 2 ^ 200 / m + 1, -200 - e⟩
/-- 1 / √(m × 2^e). -/
def rsqrtEncl (m : Nat) (e : Int) : Encl :=
  let (m, e) := if e % 2 = 0 then (m, e) else (2 * m, e - 1)
  let r := isqrt (2 ^ 300 / m) 151 0
  ⟨r, r + 1, -150 - e / 2⟩
/-- tanh (m × 2^e), for m × 2^e below 16: (E - 1) / (E + 1) with E = exp (2 m × 2^e). -/
def tanhEncl (m : Nat) (e : Int) : Encl :=
  let (k, f) := splitFix m (e + 1)
  let y := k * 2 ^ fixP + f
  let n := y / ln2Fix
  let x := expFix (y % ln2Fix) <<< n
  let one := 2 ^ fixP
  let t := ((x - one) <<< fixP) / (x + one)
  ⟨t - 2 ^ 20, t + 2 ^ 20, -128⟩

/-- The FP32 code of an order key (R85). -/
def unord32 (k : Nat) : W32 :=
  if 2 ^ 31 ≤ k then BitVec.ofNat 32 (k - 2 ^ 31) else BitVec.ofNat 32 (2 ^ 32 - 1 - k)
/-- One unit in the last place of an enclosed result, in units of 2^e (R267). -/
def ulpOf (x : Encl) : Nat :=
  if (Nat.log2 x.lo : Int) + x.e < -126 then 2 ^ (-149 - x.e).toNat else 2 ^ (Nat.log2 x.lo - 23)
/-- The nearest code of an enclosed result. -/
def nearest (neg : Bool) (x : Encl) : W32 := toF32 .rne (.fin neg x.lo x.e)
/-- The free value, or the nearest code when there is none, narrowed to the FP32 codes within `b` units of the enclosed
result: about ±2^128 the nearest code is an infinity, and the greatest finite code lies within the bound. No code lies
within the bound for `vrcp` of a subnormal x whose 1/x lies beyond every finite code by more than 1 ulp, for example
2^-129: R267 states no result there, and the result is one of the two codes about 1/x, the greatest finite one and
infinity (DESIGN CHOICE, log entry 21). -/
def narrow (neg : Bool) (x : Encl) (b : Nat) (free : Option W32) : W32 :=
  let a : Int := if neg then -(x.hi : Int) - b else (x.lo : Int) - b
  let c : Int := if neg then -(x.lo : Int) + b else (x.hi : Int) + b
  let lo := (ord32 (toF32 .rup (.fin (a < 0) a.natAbs x.e))).toNat
  let hi := (ord32 (toF32 .rdn (.fin (c < 0) c.natAbs x.e))).toNat
  unord32 (max (min lo hi) (min (max lo hi) (ord32 (free.getD (nearest neg x))).toNat))

/-- Exponent k when a magnitude is exactly 2^k. -/
def pow2Of (m : Nat) (e : Int) : Option Int :=
  if m = 2 ^ Nat.log2 m then some (flog2 m e) else none
/-- +infinity, -infinity, one. -/
def pinf32 : W32 := 0x7F800000#32
def ninf32 : W32 := 0xFF800000#32
def one32 : W32 := 0x3F800000#32
/-- A signed FP32 code from its magnitude. -/
def signed32 (neg : Bool) (x : W32) : W32 := if neg then x ||| 0x80000000#32 else x

/-- `vexp2` with given free values (R267). -/
def exp2With (free : W32 → Option W32) (c : W32) : W32 :=
  match f32 c with
  | .nan => nan32
  | .inf neg => if neg then 0#32 else pinf32
  | .fin neg m e =>
    if m = 0 then one32
    else if !neg && !magLt m e 1 7 then pinf32
    else if neg && magLt 150 0 m e then 0#32
    else
      let k := splitFix m e
      if (decide (0 ≤ e) || m % 2 ^ (-e).toNat == 0) && !(neg && k.1 == 150) then
        toF32 .rne (.fin false 1 (if neg then -(k.1 : Int) else k.1))
      else
        let x := exp2Encl neg m e
        narrow false x (2 * ulpOf x) (free c)
/-- `vlog2` with given free values. -/
def log2With (free : W32 → Option W32) (c : W32) : W32 :=
  match f32 c with
  | .nan => nan32
  | .inf neg => if neg then nan32 else pinf32
  | .fin neg m e =>
    if m = 0 then ninf32
    else if neg then nan32
    else
      match pow2Of m e with
      | some k => toF32 .rne (.ofInt k)
      | none =>
        let (sg, x) := log2Encl m e
        let b := if x.lo < 2 ^ fixP then max (2 ^ 106) (2 * ulpOf x) else 2 * ulpOf x
        narrow sg x b (free c)
/-- `vrcp` with given free values. -/
def rcpWith (free : W32 → Option W32) (c : W32) : W32 :=
  match f32 c with
  | .nan => nan32
  | .inf neg => signed32 neg 0#32
  | .fin neg m e =>
    if m = 0 then signed32 neg pinf32
    else
      let x := rcpEncl m e
      let other := narrow neg x (ulpOf x) (free c)
      match pow2Of m e with
      | some k => if -127 ≤ k && k ≤ 149 then toF32 .rne (.fin neg 1 (-k)) else other
      | none => other
/-- `vrsqrt` with given free values. -/
def rsqrtWith (free : W32 → Option W32) (c : W32) : W32 :=
  match f32 c with
  | .nan => nan32
  | .inf neg => if neg then nan32 else 0#32
  | .fin neg m e =>
    if m = 0 then signed32 neg pinf32
    else if neg then nan32
    else
      let x := rsqrtEncl m e
      let other := narrow false x (2 * ulpOf x) (free c)
      match pow2Of m e with
      | some k => if k % 2 = 0 then toF32 .rne (.fin false 1 (-(k / 2))) else other
      | none => other
/-- `vtanh` with given free values: an odd function. -/
def tanhWith (free : W32 → Option W32) (c : W32) : W32 :=
  match f32 c with
  | .nan => nan32
  | .inf neg => signed32 neg one32
  | .fin neg m e =>
    if !magLt 1 (-12) m e then c
    else if !magLt m e 9 0 then signed32 neg one32
    else
      let x := tanhEncl m e
      signed32 neg (narrow false x (2 * ulpOf x) (free (c &&& 0x7FFFFFFF#32)))

/-- Whether p holds of every number below n. -/
def allBelow : Nat → (Nat → Bool) → Bool
  | 0, _ => true
  | n + 1, p => p n && allBelow n p
/-- Whether a function of FP32 codes rises, or falls on each side of zero, with its argument; arguments that give NaN
have no place in the order (R267). -/
def steady (falls : Bool) (f : W32 → W32) : Bool :=
  allBelow (2 ^ 32 - 1) fun k =>
    let x := f (unord32 k)
    let y := f (unord32 (k + 1))
    isNan32 x || isNan32 y || (falls && k + 1 == 2 ^ 31)
      || (if falls then decide ((ord32 y).toNat ≤ (ord32 x).toNat) else decide ((ord32 x).toNat ≤ (ord32 y).toNat))
/-- The part's free values for function `op`, which `f` narrows; none when they would not make it monotonic. -/
def partOf (op : Nat) (falls : Bool) (f : (W32 → Option W32) → W32 → W32) (c : W32) : Option W32 :=
  if steady falls (f fun x => some (Config.transc op x)) then some (Config.transc op c) else none
/-- `vexp2` of an element (R267). -/
def exp2F (c : W32) : W32 := exp2With (partOf 0 false exp2With) c
/-- `vlog2` of an element. -/
def log2F (c : W32) : W32 := log2With (partOf 1 false log2With) c
/-- `vrcp` of an element. -/
def rcpF (c : W32) : W32 := rcpWith (partOf 2 true rcpWith) c
/-- `vrsqrt` of an element. -/
def rsqrtF (c : W32) : W32 := rsqrtWith (partOf 3 true rsqrtWith) c
/-- `vtanh` of an element: an odd function. -/
def tanhF (c : W32) : W32 := tanhWith (partOf 4 false tanhWith) c

end Sys2Proof.Machine
end

