-- ==== Sys2Proof/Machine/Vector.lean ====
section
/-!
DEFINITION. Vector slot instructions (chapter 10). Every one but `vnop` leaves its operation in the v
slot's sticky state (R279).
-/
namespace Sys2Proof.Machine

/-- A binary element-wise instruction (R261, R263). -/
def vbin (s : State) (op : Instr) (d a b : VOp) (lat : Nat) (f : W32 → W32 → W32) : Outcome :=
  vexec s op d [a, b] lat fun e =>
    let x := rdVO s e a
    let y := rdVO s e b
    packV fun i => f (elemV x i) (elemV y i)
/-- A unary element-wise instruction. -/
def vun (s : State) (op : Instr) (d a : VOp) (lat : Nat) (f : W32 → W32) : Outcome :=
  vexec s op d [a] lat fun e =>
    let x := rdVO s e a
    packV fun i => f (elemV x i)

/-- R209: issues nothing and empties the sticky state. -/
def execVnop (s : State) : Outcome := .next (updH s fun h => { h with stV := none })
/-- R264. -/
def execViadd (d a b : VOp) (s : State) : Outcome := vbin s (.viadd d a b) d a b 2 (· + ·)
/-- R264. -/
def execVisub (d a b : VOp) (s : State) : Outcome := vbin s (.visub d a b) d a b 2 (· - ·)
/-- R264. -/
def execVimul (d a b : VOp) (s : State) : Outcome := vbin s (.vimul d a b) d a b 2 (· * ·)
/-- R264. -/
def execVand (d a b : VOp) (s : State) : Outcome := vbin s (.vand d a b) d a b 2 (· &&& ·)
/-- R264. -/
def execVor (d a b : VOp) (s : State) : Outcome := vbin s (.vor d a b) d a b 2 (· ||| ·)
/-- R264. -/
def execVxor (d a b : VOp) (s : State) : Outcome := vbin s (.vxor d a b) d a b 2 (· ^^^ ·)
/-- R264: shift amount B[4:0]. -/
def execVshl (d a b : VOp) (s : State) : Outcome :=
  vbin s (.vshl d a b) d a b 2 fun x y => x <<< (y.toNat % 32)
/-- R264. -/
def execVshr (d a b : VOp) (s : State) : Outcome :=
  vbin s (.vshr d a b) d a b 2 fun x y => x >>> (y.toNat % 32)
/-- R264. -/
def execVsra (d a b : VOp) (s : State) : Outcome :=
  vbin s (.vsra d a b) d a b 2 fun x y => x.sshiftRight (y.toNat % 32)
/-- R264. -/
def execVimin (d a b : VOp) (s : State) : Outcome :=
  vbin s (.vimin d a b) d a b 2 fun x y => if x.slt y then x else y
/-- R264. -/
def execVimax (d a b : VOp) (s : State) : Outcome :=
  vbin s (.vimax d a b) d a b 2 fun x y => if x.slt y then y else x
/-- R264. -/
def execViadds (d a b : VOp) (s : State) : Outcome :=
  vbin s (.viadds d a b) d a b 2 fun x y => sat32 (x.toInt + y.toInt)
/-- R264. -/
def execVisubs (d a b : VOp) (s : State) : Outcome :=
  vbin s (.visubs d a b) d a b 2 fun x y => sat32 (x.toInt - y.toInt)
/-- R265. -/
def execVadd (d a b : VOp) (s : State) : Outcome := vbin s (.vadd d a b) d a b 4 (fadd .rne)
/-- R265. -/
def execVsub (d a b : VOp) (s : State) : Outcome := vbin s (.vsub d a b) d a b 4 fsub
/-- R265. -/
def execVmul (d a b : VOp) (s : State) : Outcome := vbin s (.vmul d a b) d a b 4 fmul
/-- R265: A × B + D, rounded once. -/
def execVfma (d a b : VOp) (s : State) : Outcome :=
  vexec s (.vfma d a b) d [a, b, d] 4 fun e =>
    let x := rdVO s e a
    let y := rdVO s e b
    let z := rdVO s e d
    packV fun i => ffma (elemV x i) (elemV y i) (elemV z i)
/-- R265. -/
def execVmin (d a b : VOp) (s : State) : Outcome := vbin s (.vmin d a b) d a b 2 fminN
/-- R265. -/
def execVmax (d a b : VOp) (s : State) : Outcome := vbin s (.vmax d a b) d a b 2 fmaxN
/-- R265. -/
def execVabs (d a : VOp) (s : State) : Outcome :=
  vun s (.vabs d a) d a 2 fun x => canon32 (if isNan32 x then x else x &&& 0x7FFFFFFF#32)
/-- R265. -/
def execVneg (d a : VOp) (s : State) : Outcome :=
  vun s (.vneg d a) d a 2 fun x => canon32 (if isNan32 x then x else x ^^^ 0x80000000#32)

/-- The integral FP32 value under a mode (R266). -/
def rintF (rm : RM) (c : W32) : W32 :=
  match f32 c with
  | .nan => nan32
  | .inf _ => c
  | .fin neg m e => toF32 .rne (.fin neg (roundInt rm neg m e) 0)
/-- A value quantised to a format and written as FP32 (R266). -/
def quantF (f : Fmt) (rm : RM) (sat : Bool) (c : W32) : W32 :=
  toF32 .rne (fmtDecode f (convertS sat f rm (f32 c)) 0)
/-- A conversion of an element (R266, R83, R89). -/
def cvtElem (op : CvtOp) (rm : RM) (sat : Bool) (x : W32) : W32 :=
  match op with
  | .s32f32 => BitVec.ofInt 32 (toIntSat (-2147483648) 2147483647 rm (f32 x))
  | .u32f32 => BitVec.ofInt 32 (toIntSat 0 4294967295 rm (f32 x))
  | .f32s32 => toF32 rm (.ofInt x.toInt)
  | .f32u32 => toF32 rm (.ofInt x.toNat)
  | .rint => rintF rm x
  | .qfp16 => quantF .fp16 rm sat x
  | .qbf16 => quantF .bf16 rm sat x
  | .qe4m3 => quantF .e4m3 rm sat x
  | .qe5m2 => quantF .e5m2 rm sat x
  | .qe3m2 => quantF .e3m2 rm sat x
  | .qe2m3 => quantF .e2m3 rm sat x
  | .qe2m1 => quantF .e2m1 rm sat x
/-- R266: SAT is legal with the quantising forms only. -/
def execVcvt (op : CvtOp) (rm : RM) (sat : Bool) (d a : VOp) (s : State) : Outcome :=
  if sat && !op.quantises then raise s causeIllegal
  else vun s (.vcvt op rm sat d a) d a 4 (cvtElem op rm sat)
/-- R267. -/
def execVexp2 (d a : VOp) (s : State) : Outcome := vun s (.vexp2 d a) d a 8 exp2F
/-- R267. -/
def execVlog2 (d a : VOp) (s : State) : Outcome := vun s (.vlog2 d a) d a 8 log2F
/-- R267. -/
def execVrcp (d a : VOp) (s : State) : Outcome := vun s (.vrcp d a) d a 8 rcpF
/-- R267. -/
def execVrsqrt (d a : VOp) (s : State) : Outcome := vun s (.vrsqrt d a) d a 8 rsqrtF
/-- R267. -/
def execVtanh (d a : VOp) (s : State) : Outcome := vun s (.vtanh d a) d a 8 tanhF
/-- R268: D is read as a source. -/
def execVcmp (cc : VCond) (d a : VOp) (s : State) : Outcome :=
  vexec s (.vcmp cc d a) d [d, a] 2 fun e =>
    let x := rdVO s e d
    let y := rdVO s e a
    packV fun i => maskElem (vcondHolds cc (elemV x i) (elemV y i))
/-- R269: D is read as an element mask. -/
def execVsel (d a b : VOp) (s : State) : Outcome :=
  vexec s (.vsel d a b) d [d, a, b] 2 fun e =>
    let m := rdVO s e d
    let x := rdVO s e a
    let y := rdVO s e b
    packV fun i => if maskSet (elemV m i) then elemV x i else elemV y i
/-- A masked reduction to every element (R270, R101). -/
def vred (s : State) (op : Instr) (d a b : VOp) (f : W32 → W32 → W32) (none_ : W32) : Outcome :=
  vexec s op d [a, b] 8 fun e =>
    let x := rdVO s e a
    let m := rdVO s e b
    let r := treeReduce f 6 fun i => if maskSet (elemV m i) then some (elemV x i) else none
    packV fun _ => canon32 (r.getD none_)
/-- R270. -/
def execVredsum (d a b : VOp) (s : State) : Outcome := vred s (.vredsum d a b) d a b (fadd .rne) 0#32
/-- R270. -/
def execVredmax (d a b : VOp) (s : State) : Outcome := vred s (.vredmax d a b) d a b fmaxN ninf32
/-- R270. -/
def execVredmin (d a b : VOp) (s : State) : Outcome := vred s (.vredmin d a b) d a b fminN pinf32
/-- R271. -/
def execVperm (d a b : VOp) (s : State) : Outcome :=
  vexec s (.vperm d a b) d [a, b] 4 fun e =>
    let x := rdVO s e a
    let y := rdVO s e b
    packV fun i => elemV x ((elemV y i).toNat % 64)
/-- R271. -/
def execVbcast (d a : VOp) (idx : BitVec 6) (s : State) : Outcome :=
  vexec s (.vbcast d a idx) d [a] 4 fun e =>
    let x := rdVO s e a
    packV fun _ => elemV x idx.toNat
/-- R273: plane counts, the number of candidates, and zeros. -/
def execVbitpop (d a b : VOp) (s : State) : Outcome :=
  vexec s (.vbitpop d a b) d [a, b] 4 fun e =>
    let x := rdVO s e a
    let m := rdVO s e b
    packV fun j =>
      if j < 32 then
        BitVec.ofNat 32 (countBelow 64 fun i => maskSet (elemV m i) && bitOf j (elemV x i).toNat)
      else if j = 32 then BitVec.ofNat 32 (countBelow 64 fun i => maskSet (elemV m i))
      else 0#32
/-- Indices of the elements that count as nonzero: FP32 by R87, or INT32 (R274). -/
def nonzeroIdx (t : Bool) (x : VReg) : List Nat :=
  (List.range 64).filter fun i => if t then elemV x i != 0#32 else !isZero32 (elemV x i)
/-- R274: D and the register that follows it. -/
def execVnzscan (t : Bool) (d a : VOp) (s : State) : Outcome :=
  if !vgrpOk s d 2 then raise s causeBudget
  else
    withRegs s [a] <| withSettled s [vnum s a] <|
      let ws := (lanes s).flatMap fun e =>
        let l := nonzeroIdx t (rdVO s e a)
        [Wr.v e (vgrp s d 0) (packV fun i => match l[i]? with
            | some k => BitVec.ofNat 32 k
            | none => 0xFFFFFFFF#32),
         Wr.v e (vgrp s d 1) (packV fun _ => BitVec.ofNat 32 l.length)]
      .next (leave (addPend s 6 ws) .v (.vnzscan t d a) s.issuer.env.cap none 0)
/-- An INT32 clamped to a shape field (R196, R275). -/
def clampShape (f : MNK) (x : W32) : Nat :=
  let top := match f with
    | .m => 32
    | .n => 32
    | .k => 65535
  if x.toInt < 0 then 0 else min top x.toNat
/-- R275: latency 2. -/
def execVsetshp (j : ShpR) (f : ShpField) (a : VOp) (el : BitVec 6) (s : State) : Outcome :=
  withRegs s [a] <| withSettled s [vnum s a] <|
    let at_ := fun (e k : Nat) => elemV (rdVO s e a) ((el.toNat + k) % 64)
    let one := fun (e : Nat) (g : MNK) (k : Nat) => Wr.shp e j.toNat g (clampShape g (at_ e k))
    let ws := (lanes s).flatMap fun e =>
      match f with
      | .m => [one e .m 0]
      | .n => [one e .n 0]
      | .k => [one e .k 0]
      | .mnk => [one e .m 0, one e .n 1, one e .k 2]
    .next (leave (addPend s 2 ws) .v (.vsetshp j f a el) s.issuer.env.cap none 0)
/-- What a vector instruction captures of a scalar operand: one word (R219, R279). -/
def vcap (s : State) (v : Word) : Cap := ⟨[], capA s v, 0#64⟩
/-- R276: the mask is read as raw bytes. -/
def execVmaskf (d a : VOp) (r : SReg) (s : State) : Outcome :=
  let cap := vcap s (rdS s r)
  let la := laStep s (field 0 18 cap.a.toNat)
  withRegs s [d, a] <|
    if la % 8 != 0 || !inBank s s.issuer.gcn la 8 then raise s causeSpRange
    else if (lanes s).any fun e => pendingSp s e la 8 then raise s causePending
    else withSettled s [vnum s a] <|
      let ws := (lanes s).map fun e =>
        let m := rdSp s s.issuer.gcn e la 8
        let x := rdVO s e a
        Wr.v e (vnum s d) (packV fun i => if bitOf i m then elemV x i else ninf32)
      .next (leave (addPend s 4 ws) .v (.vmaskf d a r) cap none 0)
/-- R272. -/
def execVmov (d a : VOp) (s : State) : Outcome := vun s (.vmov d a) d a 2 fun x => x
/-- R272: S[31:0] in every element. -/
def execVmovs (d : VOp) (r : SReg) (s : State) : Outcome :=
  let cap := vcap s (rdS s r)
  withRegs s [d] <|
    let ws := (lanes s).map fun e => Wr.v e (vnum s d) (packV fun _ => cap.a.setWidth 32)
    .next (leave (addPend s 2 ws) .v (.vmovs d r) cap none 0)
/-- R272. -/
def execViota (lane : Bool) (d : VOp) (s : State) : Outcome :=
  vexec s (.viota lane d) d [] 2 fun e =>
    packV fun i => BitVec.ofNat 32 (if lane then e * 64 + i else i)

/-- LA := (A + sext(OFF10) × 256) mod 2^18 (R277). -/
def vldAddr (s : State) (a : SReg) (off : BitVec 10) : Word :=
  (rdS s a + sx64 off * 256#64) &&& 0x3FFFF#64
/-- R277: 256 raw bytes, latency 6. -/
def execVld (v : VOp) (a : SReg) (off : BitVec 10) (s : State) : Outcome :=
  let cap := vcap s (vldAddr s a off)
  let la := laStep s cap.a.toNat
  withRegs s [v] <|
    if la % 4 != 0 || !inBank s s.issuer.gcn la 256 then raise s causeSpRange
    else if (lanes s).any fun e => pendingSp s e la 256 then raise s causePending
    else
      let ws := (lanes s).map fun e =>
        Wr.v e (vnum s v) (BitVec.ofNat 2048 (rdSp s s.issuer.gcn e la 256))
      .next (leave (addPend s 6 ws) .v (.vld v a off) cap none 0)
/-- R277: 256 raw bytes, latency 1. -/
def execVst (v : VOp) (a : SReg) (off : BitVec 10) (s : State) : Outcome :=
  let cap := vcap s (vldAddr s a off)
  let la := laStep s cap.a.toNat
  withRegs s [v] <|
    if la % 4 != 0 || !inBank s s.issuer.gcn la 256 then raise s causeSpRange
    else withSettled s [vnum s v] <|
      let ws := (lanes s).map fun e => Wr.sp e la 256 (rdVO s e v).toNat
      .next (leave (addPend s 1 ws) .v (.vst v a off) cap none 0)

/-- Format and SCOFF of an SPFMT value (R57). -/
def fmtOf (x : Nat) : Fmt := (Fmt.ofCode? (field 0 5 x)).getD .raw
/-- First byte of a bank's scale array (R56). -/
def scoffOf (x : Nat) : Nat := field 16 8 x * 64
/-- Bytes of 64 elements, 0 where `vldc` and `vstc` are illegal (R278). -/
def groupBytes (f : Fmt) : Nat :=
  match f with
  | .raw => 0
  | .pair64 => 0
  | f => f.bits * 8
/-- Alignment of a group (R278). -/
def groupAlign (f : Fmt) : Nat :=
  match f with
  | .fp32 | .int32 => 4
  | .fp16 | .bf16 | .int16 => 2
  | .mx8 => 32
  | .mx4 => 16
  | .mx6 => 24
  | .int64 => 8
  | _ => 1
/-- Number of the MX block whose elements start at a byte of a bank (R56). -/
def mxBlock (f : Fmt) (off : Nat) : Nat := off * 8 / f.bits / 32
/-- The LA of each lane: OFF6 in groups of the format of the bank of A (R278). -/
def groupAddrs (s : State) (a : SReg) (off : BitVec 6) : List Word :=
  (List.range 16).map fun e =>
    let base := field 0 18 (rdS s a).toNat
    let g := groupBytes (fmtOf (spfmtOf s s.issuer.gcn e (base / 16384)))
    (rdS s a + sx64 off * BitVec.ofNat 64 g) &&& 0x3FFFF#64
/-- Whether a group access at la is in range under an SPFMT value (R52, R56, R278). The alignment of an MX group is taken
of its offset in the bank, where blocks start: "LA must be a multiple of 24" fails of MXINT6 blocks in banks whose number
is no multiple of 3 (DESIGN CHOICE, log entry 34). -/
def groupOk (s : State) (x la : Nat) : Bool :=
  let f := fmtOf x
  let n := groupBytes f
  let off := la % 16384
  let mx := off + n ≤ scoffOf x && scoffOf x + mxBlock f off + 2 ≤ 16384
  inBank s s.issuer.gcn la n && decide (la % groupAlign f = 0 ∨ f.isMx) &&
    (if f.isMx then off % groupAlign f == 0 && mx else true)
/-- Scale of element i of a group at a bank offset, 0 outside MX formats. -/
def groupScale (s : State) (e x la i : Nat) : Nat :=
  let f := fmtOf x
  if f.isMx then
    rdSp s s.issuer.gcn e (la / 16384 * 16384 + scoffOf x + mxBlock f (la % 16384) + i / 32) 1
  else 0
/-- The checks of `vldc` and `vstc`, then the access with each lane's LA (R278, R392). A base address A in a bank at or
above SPN, whose format R278 needs for G and no register gives, is the scratchpad-range trap, wherever OFF6 would move LA
(DESIGN CHOICE, log entry 34). -/
def withGroups (s : State) (v : VOp) (a : SReg) (las : List Word) (k : (Nat → Nat) → Outcome) : Outcome :=
  let g := s.issuer.gcn
  let laOf := fun e => laStep s (las.getD e 0#64).toNat
  let x := fun e => spfmtOf s g e (laOf e / 16384)
  let aBank := field 0 18 (rdS s a).toNat / 16384
  let spn := (ctxOf s (served s)).spn
  let aOut := !s.issuer.env.re && decide (spn ≤ aBank)
  let inPort := fun e => decide (laOf e / 16384 < spn)
  let badFmt := fun e => groupBytes (fmtOf (x e)) == 0 ||
    (!s.issuer.env.re && groupBytes (fmtOf (spfmtOf s g e aBank)) == 0)
  if !aOut && (lanes s).any (fun e => inPort e && badFmt e) then raise s causeIllegal
  else withRegs s [v] <|
    if aOut || (lanes s).any (fun e => !inPort e || !groupOk s (x e) (laOf e)) then raise s causeSpRange
    else k laOf
/-- R278: a converting load, latency 6. -/
def execVldc (t : Bool) (rm : RM) (v : VOp) (a : SReg) (off : BitVec 6) (s : State) : Outcome :=
  let g := s.issuer.gcn
  let cap : Cap := if s.issuer.env.re then s.issuer.env.cap else ⟨groupAddrs s a off, 0#64, 0#64⟩
  withGroups s v a cap.ks fun laOf =>
    let x := fun e => spfmtOf s g e (laOf e / 16384)
    let pend := (lanes s).any fun e =>
      let f := fmtOf (x e)
      pendingSp s e (laOf e) (groupBytes f) || (f.isMx && pendingSp s e
        (laOf e / 16384 * 16384 + scoffOf (x e) + mxBlock f (laOf e % 16384)) 2)
    if pend then raise s causePending
    else
      let ws := (lanes s).map fun e =>
        let f := fmtOf (x e)
        let raw := rdSp s g e (laOf e) (groupBytes f)
        let sc0 := groupScale s e (x e) (laOf e) 0
        let sc1 := groupScale s e (x e) (laOf e) 32
        Wr.v e (vnum s v) (packV fun i =>
          let y := fmtDecode f (field (f.bits * i) f.bits raw) (if i < 32 then sc0 else sc1)
          if t then BitVec.ofNat 32 (encodeInt 32 rm y) else toF32 rm y)
      .next (leave (addPend s 6 ws) .v (.vldc t rm v a off) cap none 0)
/-- The scratchpad writes of a group of 64 values under an SPFMT value (R278, R82). -/
def groupWrites (e x la : Nat) (rm : RM) (sat : Bool) (vals : Nat → FVal) : List Wr :=
  let f := fmtOf x
  if f.isMx then
    let b0 := mxEncode f.bits ((List.range 32).map fun i => vals i)
    let b1 := mxEncode f.bits ((List.range 32).map fun i => vals (32 + i))
    let code := fun i => if i < 32 then b0.2.getD i 0 else b1.2.getD (i - 32) 0
    [.sp e la (groupBytes f) (packNat f.bits 64 code),
     .sp e (la / 16384 * 16384 + scoffOf x + mxBlock f (la % 16384)) 2 (b0.1 + 256 * b1.1)]
  else [.sp e la (groupBytes f) (packNat f.bits 64 fun i => convertS sat f rm (vals i))]
/-- R278: a converting store, latency 1. -/
def execVstc (t : Bool) (rm : RM) (sat : Bool) (v : VOp) (a : SReg) (off : BitVec 6) (s : State) : Outcome :=
  let g := s.issuer.gcn
  let cap : Cap := if s.issuer.env.re then s.issuer.env.cap else ⟨groupAddrs s a off, 0#64, 0#64⟩
  withGroups s v a cap.ks fun laOf => withSettled s [vnum s v] <|
    let ws := (lanes s).flatMap fun e =>
      let y := rdVO s e v
      groupWrites e (spfmtOf s g e (laOf e / 16384)) (laOf e) rm sat fun i =>
        if t then .ofInt (elemV y i).toInt else f32 (elemV y i)
    .next (leave (addPend s 1 ws) .v (.vstc t rm sat v a off) cap none 0)

end Sys2Proof.Machine
end

