-- ==== Sys2Proof/Machine/Matrix.lean ====
section
/-!
DEFINITION. Matrix slot instructions (chapter 11): the checks of R281 in their order, what a command
captures at issue, and what it does when it completes in a lane.
-/
namespace Sys2Proof.Machine

/-- Commands of the context that are issued, not completed in a lane, and consume a tile (R59). -/
def outstandingIn (c : Ctx) (lane t : Nat) : Nat :=
  (c.cmds.filter fun c =>
    c.cls == .matrix && c.tile == t && c.jobs.any fun j => j.lane == lane && !j.fin).length
/-- Commands of the issuing context that consume a tile. -/
def outstanding (s : State) (lane t : Nat) : Nat := outstandingIn (cur s) lane t
/-- The tile an issue names (R219). -/
def tileOf (s : State) (a : Acc) : Nat :=
  if s.issuer.env.re then (a.tile.toNat + s.issuer.env.tileOff) % (cur s).acnt else a.tile.toNat
/-- The version an issue expects of a tile (R219). -/
def expected (s : State) (a : Acc) : Nat :=
  (a.ver.toNat + mget 0 s.issuer.env.counts (tileOf s a)) % 64
/-- d of R59. -/
def verDist (s : State) (a : Acc) (e : Nat) : Nat :=
  (expected s a + 64 - accver s s.issuer.gcn e (tileOf s a)) % 64
/-- The scratchpad words that commands on a tile wrote in the active lanes read as they stand, once a version check has
found those commands complete (R63, R169). -/
def coverTile (s : State) (t : Nat) : State :=
  expose s fun u => u.gcn == s.issuer.gcn && u.cls == .matrix && u.tile == t && inMask (am s) u.lane
/-- Stages 1 and 2 of R281: the tile within the budget, then the version check with its stall (R59);
`extra` is the further stall of `mread` (R295). -/
def withVersion (s : State) (a : Acc) (extra : Bool) (k : State → Outcome) : Outcome :=
  let t := tileOf s a
  if (cur s).acnt ≤ t then raise s causeBudget
  else if (curH s).verOk then k (coverTile s t)
  else if (lanes s).any fun e => 32 ≤ verDist s a e || outstanding s e t < verDist s a e then
    raise s causeVersion
  else if (lanes s).any fun e => verDist s a e != 0 || (extra && outstanding s e t != 0) then
    .next (waitAt s (.version t (expected s a) extra) true)
  else k (coverTile s t)
/-- Shape (M, N, K) of a lane (R196). -/
def shapeOf (s : State) (e : Nat) (j : ShpR) : Nat × Nat × Nat :=
  let x := shpOf s s.issuer.gcn e j.toNat
  (shpField .m x, shpField .n x, shpField .k x)
/-- Whether a lane with this shape does arithmetic (R197). -/
def works (x : Nat × Nat × Nat) : Bool := x.1 != 0 && x.2.1 != 0 && x.2.2 != 0
/-- SPFMT of the bank of la in a lane, `none` outside the portion. -/
def bankFmt (s : State) (e la : Nat) : Option Nat :=
  if la / 16384 < (ctxOf s (served s)).spn then some (spfmtOf s s.issuer.gcn e (la / 16384)) else none
/-- The bytes of n group registers of a lane as one number (R284). -/
def groupNat (s : State) (e : Nat) (o : VOp) (n : Nat) : Nat :=
  packNat 2048 n fun g => (rdV s s.issuer.gcn e (vgrp s o g)).toNat
/-- A lane's part of a command. -/
def LaneJob.start (e : Nat) (x : Nat × Nat × Nat) : LaneJob :=
  { lane := e, m := x.1, n := x.2.1, k := x.2.2, idx := [], vals := [], fmt := 0, fmt2 := 0, lf := [], wf := [],
    a := 0, asc := ascReset, done := 0, fin := false, prev := none, vrow := 0 }
/-- Queue a command of the issuing context; with no lane it completes at its issue (R280, R252). -/
def issueCmd (s : State) (cls : Cls) (op : Instr) (ks : List Word) (tile : Nat) (jobs : List LaneJob) :
    State :=
  addCmd s
    { id := 0, half := s.issuer.half, cls := cls, batch := none, op := op, ks := ks,
      urg := (cur s).urgent && !inHandler s, asid := (cur s).asid, splo := (ctxOf s (served s)).splo, launch := (ctxOf s (served s)).launch,
      team := (ctxOf s (served s)).team, tile := tile, jobs := jobs, flt := none,
      reported := false, stepped := false, outs := [], dests := [], fin := jobs.all fun j => j.fin }

/-- Group registers of an A tile of depth k (R284). -/
def aRegs (f : Fmt) (k : Nat) : Nat := ceilDiv (k * 4 * f.bits) 256
/-- KMAX (R285). -/
def kMax (f : Fmt) : Nat := 16384 / (4 * f.bits)
/-- Whether a span of a bank stays in it. -/
def bankFits (s : State) (la n : Nat) : Bool := n = 0 || inBank s s.issuer.gcn la n
/-- First element of an MX bank offset, counted in elements (R56). -/
def mxElem (f : Fmt) (off : Nat) : Nat := off * 8 / f.bits
/-- Whether `cnt` elements from element e0 of an MX bank and their scales are placed as R56 allows. -/
def mxPlaced (x e0 cnt : Nat) : Bool :=
  let f := fmtOf x
  cnt = 0 || (decide (ceilDiv ((e0 + cnt) * f.bits) 8 ≤ scoffOf x)
    && decide (scoffOf x + (e0 + cnt - 1) / 32 < 16384))
/-- The footprint check of a B operand in a lane that works (R288, R292). -/
def bFootprint (s : State) (x bla bstr n k : Nat) (rows : List Nat) : Bool :=
  let f := fmtOf x
  let off := bla % 16384
  if f.isMx then
    off % (4 * f.bits) == 0 && bstr % 32 == 0 &&
      (List.range n).all fun j => mxPlaced x (mxElem f off + j * bstr) k
  else
    let es := if f.bits = 16 then 2 else 1
    bla % es == 0 && bstr % es == 0 &&
      rows.all fun u => bankFits s (bla + u * bstr) (ceilDiv (n * f.bits) 8)
        && decide ((bla + u * bstr) / 16384 = bla / 16384)

/-- Fields of MMA0 (R290). -/
def mmaAreg (w : Nat) : VOp := VOp.ofBits (BitVec.ofNat 8 (field 56 8 w))
def mmaFmt (w : Nat) : Option Fmt := Fmt.ofCode? (field 51 5 w)
def mmaBstr (w : Nat) : Nat := field 30 18 w
def mmaBla (w : Nat) : Nat := field 0 18 w
/-- The operand latch of a lane (R286). -/
def latchOf (s : State) (e : Nat) : Option Latch := mget none (cur s).latch e
/-- Index of gathered position k (R292): `none` contributes nothing. -/
def gatherRow (u : W32) : Option Nat := if bitOf 31 u.toNat then none else some u.toNat

/-- `mma` and `mmag` (R289 to R292) past the syllable checks: `gat` is true for `mmag`. -/
def mmaIssue (s : State) (op : Instr) (acc : Acc) (shp : ShpR) (ks : List Word) (da db : BitVec 3)
    (reuse gat : Bool) : Outcome :=
  let g := s.issuer.gcn
  let w := blk ks 0
  let bla := laStep s (mmaBla w)
  let areg := mmaAreg w
  let ixop := VOp.ofBits (BitVec.ofNat 8 (field 0 8 (blk ks 1)))
  let ls := lanes s
  let sh := fun e => shapeOf s e shp
  let work := ls.filter fun e => works (sh e)
  match mmaFmt w with
  | none => raise s causeIllegal
  | some af =>
    match af.digits? with
    | none => raise s causeIllegal
    | some ad =>
      let badB := fun e =>
        match bankFmt s e bla with
        | none => false
        | some x =>
          match (fmtOf x).digits? with
          | none => true
          | some bd => decide (db.toNat < bd) || (gat && (fmtOf x).isMx)
      let badLatch := fun e =>
        match latchOf s e with
        | some l => l.fmt != field 51 5 w
        | none => false
      let kk := fun e => min (sh e).2.2 (kMax af)
      if field 48 3 w != 0 || field 18 12 w != 0 || (gat && field 8 56 (blk ks 1) != 0)
          || decide (da.toNat < ad) || ls.any badB || work.any badLatch then raise s causeIllegal
      else if !vgrpOk s areg 1 || (gat && !vgrpOk s ixop 1) || work.any (fun e => !vgrpOk s areg (aRegs af (kk e))
          || (gat && !vgrpOk s ixop (ceilDiv (sh e).2.2 64))) then raise s causeBudget
      else if ls.any (fun e => decide (kMax af < (sh e).2.2))
          || work.any (fun e => match latchOf s e with
            | some l => decide (l.ka < (sh e).2.2)
            | none => false) then raise s causeMatrix
      else
        let idxOf := fun e => if gat then
            (List.range (sh e).2.2).map fun k => elemV (rdV s g e (vgrp s ixop (k / 64))) (k % 64)
          else []
        let rowsOf := fun e => if gat then (idxOf e).filterMap gatherRow else List.range (sh e).2.2
        if work.any fun e => match bankFmt s e bla with
            | none => true
            | some x => !bFootprint s x bla (mmaBstr w) (sh e).2.1 (sh e).2.2 (rowsOf e) then
          raise s causeSpRange
        else
          let latchFor := fun e => (latchOf s e).getD
            { a := groupNat s e areg (aRegs af (sh e).2.2), fmt := field 51 5 w, ka := (sh e).2.2,
              asc := mget ascReset (cur s).ascl e }
          let job := fun e =>
            let j := LaneJob.start e (sh e)
            let j := { j with fmt := (bankFmt s e bla).getD 0, idx := idxOf e }
            if works (sh e) then { j with a := (latchFor e).a, asc := (latchFor e).asc } else j
          let eff := [BitVec.ofNat 64 (setField 0 18 bla w)]
          let cap : Cap := ⟨ks, 0#64, 0#64⟩
          let newLatch := work.foldl (fun m e =>
            mset none m e (if reuse then some (latchFor e) else none)) (cur s).latch
          let s' := issueCmd s .matrix op eff (tileOf s acc) (ls.map job)
          let s' := updCur s' fun c => { c with latch := newLatch }
          .next (leave s' .m op cap (some (tileOf s acc)) acc.ver.toNat)

/-- R209. -/
def execMnop (s : State) : Outcome := .next (updH s fun h => { h with stM := none })
/-- R289 to R291. -/
def execMma (acc : Acc) (shp : ShpR) (kb : KReg) (da db : BitVec 3) (reuse : Bool) (s : State) : Outcome :=
  match block s kb 1 with
  | none => raise s causeIllegal
  | some ks =>
    if inHandler s || !isDigits da || !isDigits db then raise s causeIllegal
    else withVersion s acc false fun s =>
      mmaIssue s (.mma acc shp kb da db reuse) acc shp ks da db reuse false
/-- R289 to R292: B rows gathered by index. -/
def execMmag (acc : Acc) (shp : ShpR) (kb : KReg) (da db : BitVec 3) (reuse : Bool) (s : State) : Outcome :=
  match block s kb 2 with
  | none => raise s causeIllegal
  | some ks =>
    if inHandler s || !isDigits da || !isDigits db then raise s causeIllegal
    else withVersion s acc false fun s =>
      mmaIssue s (.mmag acc shp kb da db reuse) acc shp ks da db reuse true
/-- A command that sets a whole tile from what it captures in each lane (R293, R294). -/
def tileCmd (s : State) (op : Instr) (acc : Acc) (val : Nat → Nat) : Outcome :=
  let jobs := (lanes s).map fun e => { LaneJob.start e (0, 0, 0) with a := val e }
  let s' := issueCmd s .matrix op [] (tileOf s acc) jobs
  .next (leave s' .m op ⟨[], 0#64, 0#64⟩ (some (tileOf s acc)) acc.ver.toNat)
/-- R293. -/
def execMzero (acc : Acc) (s : State) : Outcome :=
  if inHandler s then raise s causeIllegal
  else withVersion s acc false fun s => tileCmd s (.mzero acc) acc fun _ => 0
/-- R294. -/
def execMinit (acc : Acc) (a : VOp) (row : Bool) (s : State) : Outcome :=
  if inHandler s then raise s causeIllegal
  else withVersion s acc false fun s =>
    if !vgrpOk s a (if row then 1 else 16) then raise s causeBudget
    else tileCmd s (.minit acc a row) acc fun e =>
      if row then
        let x := rdV s s.issuer.gcn e (vgrp s a 0)
        packNat 32 1024 fun k => (elemV x (k % 32)).toNat
      else groupNat s e a 16
/-- R295: acts at issue; the 16 registers land together at latency 8. -/
def execMread (acc : Acc) (d : VOp) (clr : Bool) (s : State) : Outcome :=
  if inHandler s then raise s causeIllegal
  else withVersion s acc true fun s =>
    if !vgrpOk s d 16 then raise s causeBudget
    else
      let g := s.issuer.gcn
      let t := tileOf s acc
      let ws := (lanes s).flatMap fun e =>
        let x := (rdTile s g e t).toNat
        (List.range 16).map fun n => Wr.v e (vgrp s d n) (BitVec.ofNat 2048 (field (2048 * n) 2048 x))
      let s' := addPend s 8 ws
      let s' := (lanes s).foldl (fun s e =>
        let s := if clr then wrTile s g e t 0#32768 else s
        setAccver s g e t (accver s g e t + 1)) s'
      .next (leave s' .m (.mread acc d clr) ⟨[], 0#64, 0#64⟩ (some t) acc.ver.toNat)
/-- R296: byte j of the four registers is ASCL[j / 32][j mod 32]. -/
def execMscale (a : VOp) (s : State) : Outcome :=
  if inHandler s then raise s causeIllegal
  else if !vgrpOk s a 4 then raise s causeBudget
  else
    let new := (lanes s).foldl (fun m e => mset ascReset m e (BitVec.ofNat 8192 (groupNat s e a 4)))
      (cur s).ascl
    .next (leave (updCur s fun c => { c with ascl := new }) .m (.mscale a) ⟨[], 0#64, 0#64⟩ none 0)

/-- Fields of MST0 (R298). -/
def mstBreg (w : Nat) : VOp := VOp.ofBits (BitVec.ofNat 8 (field 56 8 w))
def mstDstr (w : Nat) : Nat := field 30 18 w
def mstDla (w : Nat) : Nat := field 0 18 w
/-- Bytes of a destination row of n elements (R299). -/
def rowBytes (f : Fmt) (n : Nat) : Nat :=
  if f.isMx then ceilDiv n 32 * (4 * f.bits) else ceilDiv (n * f.bits) 8
/-- The footprint check of a destination in a lane (R299). -/
def mstFootprint (s : State) (x dla dstr m n : Nat) : Bool :=
  let f := fmtOf x
  let off := dla % 16384
  let one := fun i => bankFits s (dla + i * dstr) (rowBytes f n)
    && decide ((dla + i * dstr) / 16384 = dla / 16384)
  if f.isMx then
    off % (4 * f.bits) == 0 && dstr % (4 * f.bits) == 0 &&
      (List.range m).all fun i => one i && mxPlaced x (mxElem f (off + i * dstr)) (ceilDiv n 32 * 32)
  else
    let es := if 16 ≤ f.bits then f.bits / 8 else 1
    dla % es == 0 && dstr % es == 0 && (List.range m).all one
/-- Whether a lane with this shape stores anything under `mstore`, which ignores K (R297, R299): R197 names K = 0 beside M
and N for every command, and the entry of `mstore` is followed (DEDUCED, log entry 34). -/
def stores (x : Nat × Nat × Nat) : Bool := x.1 != 0 && x.2.1 != 0
/-- `mstore` past its syllable and version checks (R297 to R299). In a lane that stores nothing it completes at issue, when
its turn on the tile has come (R282, R299). -/
def mstIssue (s : State) (op : Instr) (acc : Acc) (shp : ShpR) (ks : List Word) (clr bias : Bool) : Outcome :=
  let g := s.issuer.gcn
  let w := blk ks 0
  let dla := laStep s (mstDla w)
  let breg := mstBreg w
  let ls := lanes s
  let sh := fun e => shapeOf s e shp
  let t := tileOf s acc
  let work := ls.filter fun e => stores (sh e)
  let early := ls.filter fun e => !stores (sh e) && outstanding s e t == 0
  let badFd := fun e =>
    match bankFmt s e dla with
    | none => false
    | some x => groupBytes (fmtOf x) == 0
  if field 48 8 w != 0 || field 18 12 w != 0 || field 32 32 (blk ks 1) != 0 || ls.any badFd then
    raise s causeIllegal
  else if bias && !vgrpOk s breg 1 then raise s causeBudget
  else if work.any fun e => match bankFmt s e dla with
      | none => true
      | some x => !mstFootprint s x dla (mstDstr w) (sh e).1 (sh e).2.1 then raise s causeSpRange
  else
    let job := fun e =>
      { LaneJob.start e (sh e) with
        fmt := (bankFmt s e dla).getD 0, fin := early.any (· == e),
        a := if bias then (rdV s s.issuer.gcn e (vgrp s breg 0)).toNat else 0 }
    let eff := [BitVec.ofNat 64 (setField 0 18 dla w), ks.getD 1 0#64]
    let s' := issueCmd s .matrix op eff t (ls.map job)
    let s' := early.foldl (fun s e =>
      let s := if clr then wrTile s g e t 0#32768 else s
      setAccver s g e t (accver s g e t + 1)) s'
    .next (leave s' .m op ⟨ks, 0#64, 0#64⟩ (some t) acc.ver.toNat)
/-- R297 to R299. -/
def execMstore (acc : Acc) (shp : ShpR) (kb : KReg) (rm : RM) (sat clr relu bias scl : Bool) (s : State) :
    Outcome :=
  match block s kb 2 with
  | none => raise s causeIllegal
  | some ks =>
    if inHandler s then raise s causeIllegal
    else withVersion s acc false fun s =>
      mstIssue s (.mstore acc shp kb rm sat clr relu bias scl) acc shp ks clr bias

/-- One cell of a multiplication: its k-groups in increasing order (R96 to R99); a group in which no
position contributes leaves the accumulator. -/
def mmaCell (grp q depth : Nat) (pa : Nat → FVal) (pb : Nat → Option FVal) (sc : Nat → FVal → FVal)
    (acc : W32) : W32 :=
  (List.range (ceilDiv depth grp)).foldl (fun acc g =>
    let ps := (List.range grp).filterMap fun o =>
      let k := g * grp + o
      if k < depth then (pb k).map fun y => mulV (pa k) y else none
    match ps with
    | [] => acc
    | ps => accumulate acc (sc (g * grp) (groupSum q ps))) acc
/-- Element (k, i) of an A group (R284). -/
def aElem (f : Fmt) (a k i : Nat) : FVal :=
  fmtDecode f (field (k * 32 * f.bits + i * f.bits) f.bits a) 127
/-- What `mma` or `mmag` leaves in the tile of a lane (R291, R292). -/
def mmaTile (s : State) (g : Nat) (j : LaneJob) (w : Nat) (da db : BitVec 3) (gat : Bool) (t : Tile) : Tile :=
  let q := quads da.toNat db.toNat
  let grp := kGroup da.toNat db.toNat
  let af := (mmaFmt w).getD .raw
  let bf := fmtOf j.fmt
  let bla := mmaBla w
  let bank := bla / 16384 * 16384
  let bstr := mmaBstr w
  let row := fun u => rdSpRow s g j.lane (bla + u * bstr) (ceilDiv (j.n * bf.bits) 8)
  let rows := if bf.isMx then []
    else if gat then j.idx.map fun u => (gatherRow u).map row
    else (List.range j.k).map fun k => some (row k)
  let e0 := mxElem bf (bla % 16384)
  let cols := if bf.isMx then
      (List.range j.n).map fun c =>
        rdSpRow s g j.lane (bank + (e0 + c * bstr) * bf.bits / 8) (ceilDiv (j.k * bf.bits) 8)
    else []
  let bScale := fun c k => rdSpRow s g j.lane (bank + scoffOf j.fmt + (e0 + c * bstr + k) / 32) 1
  let bElem := fun k c =>
    if bf.isMx then some (fmtDecode bf (field (k * bf.bits) bf.bits (cols.getD c 0)) 127)
    else (rows.getD k none).map fun r => fmtDecode bf (field (c * bf.bits) bf.bits r) 127
  let scale := fun i c k x =>
    let x := if af.isMx then scaleBy (field (8 * (k / 32 * 32 + i)) 8 j.asc.toNat) x else x
    if bf.isMx then scaleBy (bScale c k) x else x
  packT fun i c =>
    if i < j.m && c < j.n then
      mmaCell grp q j.k (fun k => aElem af j.a k i) (fun k => bElem k c) (scale i c) (elemT t i c)
    else elemT t i c
/-- The portion of a command's lane: a handler's command keeps the one served at its issue (R306). -/
def cmdPlace (s : State) (g : Nat) (c : Cmd) (e : Nat) : Place :=
  ⟨podOf g, e, if isHandler g then c.splo else (ctxOf s g).splo, g, c.id⟩
/-- The value that `mstore` converts (R299). -/
def mstValue (scl bias relu : Bool) (scale b x : W32) : W32 :=
  let x := if scl then fmul x scale else x
  let x := if bias then fadd .rne x b else x
  if relu then fmaxN x 0#32 else x
/-- Write one block of 32 values of an MX format, its elements at la and its scale at `sc` (R54, R82, R93), as part of a
write that is remembered. -/
def wrBlock (s : State) (p : Place) (f : Fmt) (la sc : Nat) (vals : List FVal) : State :=
  let enc := mxEncode f.bits vals
  wrRaw (wrRaw s p la (4 * f.bits) (packNat f.bits 32 fun o => enc.2.getD o 0)) p sc 1 enc.1
/-- The rows that `mstore` writes in a lane, one write to every reader of a granule (R175, R299). -/
def mstRows (s : State) (g : Nat) (c : Cmd) (j : LaneJob) (rm : RM) (sat relu bias scl : Bool)
    (t : Tile) : State :=
  let ks := c.ks
  let p := cmdPlace s g c j.lane
  let w := blk ks 0
  let f := fmtOf j.fmt
  let dla := mstDla w
  let bank := dla / 16384 * 16384
  let scale := BitVec.ofNat 32 (blk ks 1)
  let val := fun i c => f32 (mstValue scl bias relu scale (BitVec.ofNat 32 (field (32 * c) 32 j.a)) (elemT t i c))
  let rowAt := fun i => dla + i * mstDstr w
  let scAt := fun i => bank + scoffOf j.fmt + mxElem f (rowAt i % 16384) / 32
  let nb := ceilDiv j.n 32
  if j.n = 0 then s else
  (List.range j.m).foldl (fun s i =>
    let la := rowAt i
    if f.isMx then
      (List.range nb).foldl (fun s b =>
        wrBlock s p f (la + b * 4 * f.bits) (scAt i + b) ((List.range 32).map fun o =>
          if b * 32 + o < j.n then val i (b * 32 + o) else .zero)) s
    else
      let n := rowBytes f j.n
      let old := rawPlace s p la n
      let new := setField 0 (j.n * f.bits) (packNat f.bits j.n fun c => convertS sat f rm (val i c)) old
      wrRaw s p la n new)
    (noteUnseen s p ((List.range j.m).flatMap fun i =>
      (rowAt i, rowBytes f j.n) :: if f.isMx then [(scAt i, nb)] else []))
/-- What a matrix command does in a lane when its turn on the tile comes (R282, R291 to R294, R299). -/
def matrixEffect (s : State) (g : Nat) (c : Cmd) (j : LaneJob) : State :=
  let t := rdTile s g j.lane c.tile
  match c.op with
  | .mma _ _ _ da db _ =>
    if works (j.m, j.n, j.k) then wrTile s g j.lane c.tile (mmaTile s g j (blk c.ks 0) da db false t) else s
  | .mmag _ _ _ da db _ =>
    if works (j.m, j.n, j.k) then wrTile s g j.lane c.tile (mmaTile s g j (blk c.ks 0) da db true t) else s
  | .mstore _ _ _ rm sat clr relu bias scl =>
    let s := mstRows s g c j rm sat relu bias scl t
    if clr then wrTile s g j.lane c.tile 0#32768 else s
  | _ => wrTile s g j.lane c.tile (BitVec.ofNat 32768 j.a)

end Sys2Proof.Machine
end

