-- ==== Sys2Proof/Machine/Transfer.lean ====
section
/-!
DEFINITION. Transfer slot instructions (chapter 12): the checks of R305 in their order, what a command
captures at issue, and what one element of it does (R307 to R322).
-/
namespace Sys2Proof.Machine

/-- A lane's element count: a shape field, or the staging field (R302, R304). A lane whose shape has M, N or K 0 reads and
writes nothing, whichever field the command names (R197). -/
def countOf (s : State) (e : Nat) (n : Cnt) (fld : Nat) : Nat :=
  match n with
  | .field => fld
  | .shape j f =>
    let x := shapeOf s e j
    if works x then shpField f (shpOf s s.issuer.gcn e j.toNat) else 0
/-- Element j of a register group of a lane (R304). -/
def grpElem (s : State) (e : Nat) (o : VOp) (j : Nat) : W32 :=
  elemV (rdV s s.issuer.gcn e (vgrp s o (j / 64))) (j % 64)
/-- The first n elements of a register group of a lane. -/
def grpElems (s : State) (e : Nat) (o : VOp) (n : Nat) : List W32 :=
  (List.range (ceilDiv n 64)).flatMap fun r =>
    let x := rdV s s.issuer.gcn e (vgrp s o r)
    (List.range (min 64 (n - 64 * r))).map fun i => elemV x i
/-- An index with bit 31 set is skipped (R304). -/
def skips (u : W32) : Bool := bitOf 31 u.toNat

/-- Fields of XT0 to XT3 (R311). -/
def xtRows (w : Nat) : Nat := field 48 16 w
def xtVa (w : Nat) : Word := BitVec.ofNat 64 (field 0 48 w)
def xtMstr (w : Nat) : Word := BitVec.ofInt 64 (sext 32 (field 32 32 w))
def xtEstr (w : Nat) : Word := BitVec.ofInt 64 (sext 32 (field 0 32 w))
def xtRb (w : Nat) : Nat := field 48 15 w
def xtLstr (w : Nat) : Nat := field 18 18 w
def xtLa (w : Nat) : Nat := field 0 18 w
def xtBad2 (w : Nat) : Bool := bitOf 63 w || field 36 12 w != 0 || xtRb w == 0 || decide (16384 < xtRb w)
def xtBad3 (w : Nat) : Bool := field 44 20 w != 0 || field 16 16 w != 0
/-- Memory address of row m of lane e (R312). -/
def rowVa (va mstr estr : Word) (e m : Nat) : Word :=
  va + BitVec.ofNat 64 e * estr + BitVec.ofNat 64 m * mstr
/-- Local address of row r (R312). -/
def rowLa (la lstr r : Nat) : Nat := (la + r * lstr) % 262144

/-- Whether an exposed result is a scratchpad store. -/
def Pend.isStore (p : Pend) : Bool := p.writes.any fun w =>
  match w with
  | .sp .. => true
  | _ => false
/-- Land the scratchpad stores of a context that have not landed: commands observe them (R169, R310). A half that is
still short of its bundle's m slot keeps them: its own v slot must not see them (R62), and no command of the bundle has
been issued. All have latency 1, so their order is that of issue. -/
def settleSp (s : State) (g : Nat) : State :=
  (ctxOf s g).halves.foldl (fun s h =>
    let x := (ctxOf s g).half h
    if x.begun && decide (x.slot ≤ 2) then s
    else
      (x.pend.filter Pend.isStore).foldl (fun s p => p.writes.foldl (fun s w =>
        match w with
        | .sp e la n v => landSp s g e la (bytesOf n v)
        | _ => s) s) (updHalf s g h fun x => { x with pend := x.pend.filter fun p => !p.isStore })) s

/-- Destination words of a command for the debug mode (R64). -/
def destsOf (s : State) (rows : List (Nat × Nat × Nat × Nat)) : List (Nat × Nat × Nat × Nat) :=
  if (cur s).dbgPend then rows.filter fun r => r.2.2.2 != 0 else []
/-- A destination in the command's own lane. -/
def inLane (r : Nat × Nat × Nat) : Nat × Nat × Nat × Nat := (r.1, r)
/-- Queue a transfer command; its lanes with no element complete at issue (R304, R306). -/
def issueX (s : State) (op : Instr) (ks : List Word) (jobs : List LaneJob)
    (dests : List (Nat × Nat × Nat × Nat)) : State :=
  let s := flushStores s s.issuer.gcn
  let jobs := jobs.map fun j => { j with fin := j.n == 0 }
  let id := (cur s).nextCmd
  let s := issueCmd s .transfer op ks 0 jobs
  let d := destsOf s dests
  updCur s fun c => { c with cmds := c.cmds.map fun x => if x.id == id then { x with dests := d } else x }
/-- A command's write of memory, or its emit of pairs, that overlaps held stack-cache lines: they are written back and
dropped at issue (R70). A line whose write-back must wait or fails is kept with the stores it holds, and takes the command's
bytes as they are written. -/
def dropStack (s : State) (rows : List (Nat × Nat)) : State :=
  if (cur s).stk.isEmpty then s
  else rows.foldl (fun s r =>
    updCur (stkClean s none s.issuer.gcn r.1 r.2).1 fun c =>
      { c with stk := c.stk.filter fun l => l.dirty || !(l.va < r.1 + r.2 && r.1 < l.va + 64) }) s

/-- What a row command captures, after the checks of R305: `ix` its index group, `klen` its staging
registers, `wr` whether it writes memory, `sp` whether it uses scratchpad (R311, R312). -/
def rowIssue (s : State) (op : Instr) (n : Cnt) (kb : KReg) (klen : Nat) (ix : Option VOp) (wr : Bool) :
    Outcome :=
  match block s kb klen with
  | none => raise s causeIllegal
  | some ks =>
    let w2 := blk ks 2
    let cnt := fun e => countOf s e n (xtRows (blk ks 0))
    let ls := lanes s
    let la := laStep s (xtLa w2)
    let va := vaStep s (xtVa (blk ks 0))
    let idx := fun e => match ix with
      | some v => grpElems s e v (cnt e)
      | none => []
    let live := fun e => match ix with
      | some _ => ((List.range (cnt e)).zip (idx e)).filterMap fun (x : Nat × W32) =>
          if skips x.2 then none else some (x.1, x.2.toNat)
      | none => (List.range (cnt e)).map fun r => (r, r)
    if xtBad2 w2 || (klen == 4 && xtBad3 (blk ks 3)) then raise s causeIllegal
    else if (match ix with
      | some v => ls.any fun e => !vgrpOk s v (ceilDiv (cnt e) 64)
      | none => false) then raise s causeBudget
    else if ix.isSome && ls.any (fun e => decide (4096 < cnt e)) then raise s causeTransfer
    else if ls.any fun e => (live e).any fun (r : Nat × Nat) =>
        !inBank s s.issuer.gcn (rowLa la (xtLstr w2) r.1) (xtRb w2) then raise s causeSpRange
    else
      let eff := [va, ks.getD 1 0#64, BitVec.ofNat 64 (setField 0 18 la w2), ks.getD 3 0#64]
      let mstr := xtMstr (blk ks 1)
      let estr := xtEstr (blk ks 1)
      let s' := if wr && klen == 3 then dropStack s (ls.flatMap fun e =>
          (live e).map fun (r : Nat × Nat) => ((rowVa va mstr estr e r.2).toNat, xtRb w2)) else s
      let dests := if wr || !(cur s).dbgPend then [] else ls.flatMap fun e =>
          (live e).map fun (r : Nat × Nat) => inLane (e, rowLa la (xtLstr w2) r.1, xtRb w2)
      let s' := issueX s' op eff
        (ls.map fun e => { LaneJob.start e (0, cnt e, 0) with idx := idx e }) dests
      .next (leave s' .x op ⟨ks, 0#64, 0#64⟩ none 0)

/-- R209. -/
def execXnop (s : State) : Outcome := .next (updH s fun h => { h with stX := none })
/-- R311, R312. -/
def execXld (n : Cnt) (kb : KReg) (ch : Hint) (s : State) : Outcome :=
  rowIssue s (.xld n kb ch) n kb 3 none false
/-- R311, R312. -/
def execXst (n : Cnt) (kb : KReg) (ch : Hint) (s : State) : Outcome :=
  rowIssue s (.xst n kb ch) n kb 3 none true
/-- R311, R312. -/
def execXgath (n : Cnt) (kb : KReg) (ch : Hint) (v : VOp) (s : State) : Outcome :=
  rowIssue s (.xgath n kb ch v) n kb 3 (some v) false
/-- R311, R312. -/
def execXscat (n : Cnt) (kb : KReg) (ch : Hint) (v : VOp) (s : State) : Outcome :=
  rowIssue s (.xscat n kb ch v) n kb 3 (some v) true
/-- R314. -/
def execXrld (n : Cnt) (kb : KReg) (ch : Hint) (s : State) : Outcome :=
  rowIssue s (.xrld n kb ch) n kb 4 none false
/-- R314. -/
def execXrst (n : Cnt) (kb : KReg) (ch : Hint) (s : State) : Outcome :=
  rowIssue s (.xrst n kb ch) n kb 4 none true

/-- Request the line of a piece into its home slice (R313); one that is on its way already needs no request, and with
every way of its set filling the request would wait: `none`. -/
def prefetchSeg (s : State) (sg : Seg) (ch : Hint) (urgent : Bool) : Option State :=
  if sg.mt == .host then some s
  else
    match segLine s sg with
    | some l => some (if l.st == .fill then s else updDie s sg.die fun x => linePut x (hitPolicy x l ch))
    | none => (allocate s sg ch urgent).map fun r => updDie r.2 sg.die fun x => linePut x { r.1 with st := .fill }
/-- Request the lines of the pieces of a row, all or none. -/
def prefetchSegs (ch : Hint) (urgent : Bool) : State → List Seg → Option State
  | s, [] => some s
  | s, sg :: l => (prefetchSeg s sg ch urgent).bind fun s => prefetchSegs ch urgent s l
/-- Prefetch one row; one that would fault, wait or read a pending granule is dropped whole (R313), and so is one that its
slices would not serve next (R110, log entry 9); an uncorrectable error that its translation finds is counted (R112). `s0` is the state before the instruction: the lines that its own earlier
rows have requested make no later row wait. -/
def prefetchRow (s0 s : State) (ag : Agent) (va n : Nat) (ch : Hint) : State :=
  match xlate ag .tread (pieces n) s va n with
  | .ok l s =>
    if l.any fun sg => isPending s sg.die sg.pa then s
    else
      (match segsReady s0 l with
      | .ok _ _ =>
        if serves s ag.urgent none l then (prefetchSegs ch ag.urgent (countServed s ag.urgent l) l).getD s else s
      | _ => s)
  | .fault _ s => s
  | .wait _ => s
/-- R313: completes at issue and joins no batch. -/
def execXpref (n : Cnt) (kb : KReg) (ch : Hint) (s : State) : Outcome :=
  match block s kb 3 with
  | none => raise s causeIllegal
  | some ks =>
    let w2 := blk ks 2
    if xtBad2 w2 then raise s causeIllegal
    else
      let va := vaStep s (xtVa (blk ks 0))
      let s' := match ch with
        | .na => s
        | _ => (lanes s).foldl (fun s' e =>
            (List.range (countOf s e n (xtRows (blk ks 0)))).foldl (fun s' r =>
              prefetchRow s s' (agentOf s s.issuer.gcn)
                (rowVa va (xtMstr (blk ks 1)) (xtEstr (blk ks 1)) e r).toNat (xtRb w2) ch) s') s
      .next (leave s' .x (.xpref n kb ch) ⟨ks, 0#64, 0#64⟩ none 0)

/-- Whether a run of `cnt` elements from la lies in one bank, at an element boundary, under an SPFMT
value (R315, R319). -/
def runOk (spn x la cnt : Nat) : Bool :=
  let f := fmtOf x
  let off := la % 16384
  decide (la / 16384 < spn) && off * 8 % f.bits == 0 &&
    (if f.isMx then mxPlaced x (mxElem f off) cnt else decide (off + ceilDiv (cnt * f.bits) 8 ≤ 16384))
/-- Whether n bytes from la lie in one bank. -/
def rawOk (spn la n : Nat) : Bool := decide (la / 16384 < spn) && decide (la % 16384 + n ≤ 16384)
/-- Whether a row starts at an element boundary of its bank's format, and within the element area of an MX bank
(R315). -/
def startOk (x la : Nat) : Bool :=
  la % 16384 * 8 % (fmtOf x).bits == 0 && (!(fmtOf x).isMx || decide (la % 16384 < scoffOf x))
/-- Whether a row's source, and its destination, is placed as R54, R93 and R315 ask. -/
def srcOk (spn xs xd la nel : Nat) : Bool :=
  startOk xs la &&
    if fmtOf xs == .raw || fmtOf xd == .raw then rawOk spn la nel else runOk spn xs la nel
def dstOk (spn xs xd la nel : Nat) : Bool :=
  startOk xd la &&
    if fmtOf xs == .raw || fmtOf xd == .raw then rawOk spn la nel
    else if (fmtOf xd).isMx then
      runOk spn xd la (ceilDiv nel 32 * 32) && mxElem (fmtOf xd) (la % 16384) % 32 == 0
    else runOk spn xd la nel
/-- The runs of bytes that a row's destination at la takes, by address and length, for the debug mode (R64): its elements,
and in an MX bank the scales of its blocks (R56, R93). -/
def dstRuns (xs xd la nel : Nat) : List (Nat × Nat) :=
  let f := fmtOf xd
  if fmtOf xs == .raw || f == .raw then [(la, nel)]
  else (la, rowBytes f nel) :: if f.isMx then
    [(la / 16384 * 16384 + scoffOf xd + mxElem f (la % 16384) / 32, ceilDiv nel 32)] else []

/-- Elements from la under an SPFMT value (R56, R75). -/
def rdRun (s : State) (p : Place) (x la cnt : Nat) : List FVal :=
  let f := fmtOf x
  let raw := rdPlace s p la (ceilDiv (cnt * f.bits) 8)
  let e0 := mxElem f (la % 16384)
  let b0 := la / 16384 * 16384 + scoffOf x
  let scs := if f.isMx then rdPlace s p (b0 + e0 / 32) ((e0 + cnt - 1) / 32 - e0 / 32 + 1) else 0
  (List.range cnt).map fun i =>
    fmtDecode f (field (i * f.bits) f.bits raw) (field (8 * ((e0 + i) / 32 - e0 / 32)) 8 scs)
/-- Write values from la under an SPFMT value, rounded by rne; an MX run as whole blocks (R54, R93). -/
def wrRun (s : State) (p : Place) (x la : Nat) (vals : List FVal) : State :=
  let f := fmtOf x
  let n := vals.length
  if f.isMx then
    let b0 := la / 16384 * 16384 + scoffOf x + mxElem f (la % 16384) / 32
    let nb := ceilDiv n 32
    (List.range nb).foldl (fun s b =>
      wrBlock s p f (la + b * 4 * f.bits) (b0 + b) ((List.range 32).map fun o => vals.getD (b * 32 + o) .zero))
      (noteUnseen s p [(la, nb * (4 * f.bits)), (b0, nb)])
  else
    let m := ceilDiv (n * f.bits) 8
    let new := packNat f.bits n fun i => convert f .rne (vals.getD i .zero)
    wrPlace s p la m (setField 0 (n * f.bits) new (rawPlace s p la m))
/-- Code bits that a copy keeps: E3M2 and E2M3 bytes store bits [7:6] as zero (R75). -/
def cleanCode (f : Fmt) (c : Nat) : Nat :=
  match f with
  | .e3m2 => c % 64
  | .e2m3 => c % 64
  | _ => c
/-- Copy one row: the source is read whole, then written (R54, R315). -/
def copyRow (s : State) (ps pd : Place) (xs xd sla dla nel : Nat) : State :=
  let fs := fmtOf xs
  if fs == .raw || fmtOf xd == .raw then wrPlace s pd dla nel (rdPlace s ps sla nel)
  else if fs == fmtOf xd && !fs.isMx then
    let n := ceilDiv (nel * fs.bits) 8
    let src := rdPlace s ps sla n
    let new := packNat fs.bits nel fun i => cleanCode fs (field (i * fs.bits) fs.bits src)
    wrPlace s pd dla n (setField 0 (nel * fs.bits) new (rawPlace s pd dla n))
  else wrRun s pd xd dla (rdRun s ps xs sla nel)

/-- Formats of the portion banks of a lane. -/
def laneFmts (s : State) (e : Nat) : List Nat :=
  (List.range (ctxOf s (served s)).spn).map fun b => spfmtOf s s.issuer.gcn e b
/-- Format of the bank of la in a list of bank formats. -/
def fmtAt (l : List Nat) (la : Nat) : Nat := l.getD (la / 16384) 0
/-- Fields of the `xcopy` registers (R315). -/
def xcNel (w : Nat) : Nat := field 32 16 w
/-- R315: copies within each lane. -/
def execXcopy (n : Cnt) (kb : KReg) (s : State) : Outcome :=
  match block s kb 2 with
  | none => raise s causeIllegal
  | some ks =>
    let w0 := blk ks 0
    let w1 := blk ks 1
    let nel := xcNel w0
    let dla := laStep s (field 0 18 w0)
    let sla := laStep s (field 0 18 w1)
    let spn := (ctxOf s (served s)).spn
    let cnt := fun e => countOf s e n (xtRows w0)
    let sAt := fun r => rowLa sla (field 18 18 w1) r
    let dAt := fun r => rowLa dla (field 36 18 w1) r
    let ls := lanes s
    if field 18 14 w0 != 0 || field 54 10 w1 != 0 || nel == 0 then raise s causeIllegal
    else if ls.any fun e =>
        let lf := laneFmts s e
        (List.range (cnt e)).any fun r =>
          let xs := fmtAt lf (sAt r)
          let xd := fmtAt lf (dAt r)
          !srcOk spn xs xd (sAt r) nel || !dstOk spn xs xd (dAt r) nel then raise s causeSpRange
    else
      let eff := [BitVec.ofNat 64 (setField 0 18 dla w0), BitVec.ofNat 64 (setField 0 18 sla w1)]
      let dests := if !(cur s).dbgPend then [] else ls.flatMap fun e =>
        let lf := laneFmts s e
        (List.range (cnt e)).flatMap fun r =>
          (dstRuns (fmtAt lf (sAt r)) (fmtAt lf (dAt r)) (dAt r) nel).map fun d => inLane (e, d)
      let s' := issueX s (.xcopy n kb) eff
        (ls.map fun e => { LaneJob.start e (0, cnt e, 0) with lf := laneFmts s e }) dests
      .next (leave s' .x (.xcopy n kb) ⟨ks, 0#64, 0#64⟩ none 0)

/-- Where a team window address leads for a team of a launch: `none` when POD names no pod of the team (R12). The place
is that of a command of context g. -/
def windowPlace (s : State) (launch : Option Nat) (team pod lane g id : Nat) : Option Place :=
  match (launch.bind (launchOf s)).bind fun l => l.tpods.find? fun t => t.team == team && t.tpod == pod with
  | some t => some ⟨t.pod, lane, t.splo, g, id⟩
  | none => none
/-- Whether the window side of a row may start at la in a bank of a format: at an element boundary (R315), and for an MX
destination, when neither bank is RAW, at the first element of a block (R93). -/
def winStart (xs xd la : Nat) (dst : Bool) : Bool :=
  if dst then
    startOk xd la && (!(fmtOf xd).isMx || fmtOf xs == .raw || mxElem (fmtOf xd) (la % 16384) % 32 == 0)
  else startOk xs la
/-- Window lane of lane e (R315). -/
def windowLane (w e : Nat) : Nat := (field 18 4 w + e * field 25 4 w) % 16
/-- Issue of `xwload` and `xwstore` (R315): `ld` is true for a load into the lane. Of the window side the start is checked
at issue, when it lies in a bank of the portion; the rest is left to the element (R12, R52). Without such a bank, or with a
POD that names no pod of the team, the local row takes its size and footprint from its own bank's format (DESIGN CHOICE,
log entry 34). -/
def windowIssue (s : State) (op : Instr) (n : Cnt) (kb : KReg) (ld : Bool) : Outcome :=
  match block s kb 2 with
  | none => raise s causeIllegal
  | some ks =>
    let w0 := blk ks 0
    let w1 := blk ks 1
    let nel := xcNel w0
    let la := laStep s (field 0 18 w1)
    let wla := laStep s (field 0 18 w0)
    let spn := (ctxOf s (served s)).spn
    let cnt := fun e => countOf s e n (xtRows w0)
    let at_ := fun r => rowLa la (field 36 18 w1) r
    let wat := fun r => rowLa wla (field 18 18 w1) r
    let ls := lanes s
    let v := ctxOf s (served s)
    let place := fun e => windowPlace s v.launch v.team (field 22 3 w0) (windowLane w0 e) s.issuer.gcn (cur s).nextCmd
    let wf := fun e => match place e with
      | some p => (List.range spn).map fun b => mget 0 s.spfmt (fkey p.pod p.lane (p.splo + b))
      | none => []
    if field 29 3 w0 != 0 || field 54 10 w1 != 0 || nel == 0 then raise s causeIllegal
    else if ls.any fun e =>
        let lf := laneFmts s e
        let wl := wf e
        (List.range (cnt e)).any fun r =>
          let own := fmtAt lf (at_ r)
          let far := decide (wat r / 16384 < wl.length)
          let win := if far then fmtAt wl (wat r) else own
          if ld then !dstOk spn win own (at_ r) nel || (far && !winStart win own (wat r) false)
          else !srcOk spn own win (at_ r) nel || (far && !winStart own win (wat r) true) then
      raise s causeSpRange
    else
      let eff := [BitVec.ofNat 64 (setField 0 18 wla w0), BitVec.ofNat 64 (setField 0 18 la w1)]
      let mine := fun e => match place e with
        | some p => p.pod == podOf s.issuer.gcn && p.splo == v.splo
        | none => false
      let dests := if !(cur s).dbgPend then [] else ls.flatMap fun e =>
        let lf := laneFmts s e
        let wl := wf e
        (List.range (cnt e)).flatMap fun r =>
          if ld then (dstRuns (fmtAt wl (wat r)) (fmtAt lf (at_ r)) (at_ r) nel).map fun d => inLane (e, d)
          else if mine e then
            (dstRuns (fmtAt lf (at_ r)) (fmtAt wl (wat r)) (wat r) nel).map fun d => (e, windowLane w0 e, d)
          else []
      let s' := issueX s op eff
        (ls.map fun e => { LaneJob.start e (0, cnt e, 0) with lf := laneFmts s e, wf := wf e }) dests
      .next (leave s' .x op ⟨ks, 0#64, 0#64⟩ none 0)
/-- R315: from the team window into the lane. -/
def execXwload (n : Cnt) (kb : KReg) (s : State) : Outcome := windowIssue s (.xwload n kb) n kb true
/-- R315: from the lane into the team window. -/
def execXwstore (n : Cnt) (kb : KReg) (s : State) : Outcome := windowIssue s (.xwstore n kb) n kb false

/-- Bytes of an emit width (R316). -/
def emitBytes : EmitW → Nat
  | .w2 => 2 | .w4 => 4 | .w8 => 8
/-- R316: pairs from vector registers. -/
def execXemitv (ew : EmitW) (cvt : Bool) (n : Cnt) (kb : KReg) (v : VOp) (s : State) : Outcome :=
  match block s kb 3 with
  | none => raise s causeIllegal
  | some ks =>
    let w2 := blk ks 2
    let vop := VOp.ofBits (BitVec.ofNat 8 (field 56 8 w2))
    let per := if ew == .w8 then 2 else 1
    let cnt := fun e => countOf s e n (xtRows (blk ks 0))
    let ls := lanes s
    if (cvt && ew != .w2) || field 0 56 w2 != 0 then raise s causeIllegal
    else if ls.any fun e => !vgrpOk s v (ceilDiv (cnt e) 64) || !vgrpOk s vop (ceilDiv (cnt e * per) 64) then
      raise s causeBudget
    else if ls.any fun e => (if ew == .w8 then 2048 else 4096) < cnt e then raise s causeTransfer
    else
      let va := vaStep s (xtVa (blk ks 0))
      let eff := [va, ks.getD 1 0#64, ks.getD 2 0#64]
      let s' := dropStack s (ls.flatMap fun e => (grpElems s e v (cnt e)).filterMap fun u =>
        if skips u then none
        else some ((rowVa va (xtMstr (blk ks 1)) (xtEstr (blk ks 1)) e u.toNat).toNat, emitBytes ew))
      let s' := issueX s' (.xemitv ew cvt n kb v) eff
        (ls.map fun e => { LaneJob.start e (0, cnt e, 0) with
          idx := grpElems s e v (cnt e), vals := grpElems s e vop (cnt e * per) }) []
      .next (leave s' .x (.xemitv ew cvt n kb v) ⟨ks, 0#64, 0#64⟩ none 0)
/-- R317: pairs from scratchpad rows. -/
def execXemitt (ew : EmitW) (ix : Option VOp) (n : Cnt) (kb : KReg) (s : State) : Outcome :=
  match block s kb 3 with
  | none => raise s causeIllegal
  | some ks =>
    let w2 := blk ks 2
    let cnt := fun e => countOf s e n (xtRows (blk ks 0))
    let ls := lanes s
    let la := laStep s (xtLa w2)
    let idx := fun e => match ix with
      | some v => grpElems s e v (cnt e)
      | none => []
    let live := fun e => match ix with
      | some _ => ((List.range (cnt e)).zip (idx e)).filterMap fun (x : Nat × W32) => if skips x.2 then none else some x.1
      | none => List.range (cnt e)
    if xtBad2 w2 || xtRb w2 % emitBytes ew != 0 then raise s causeIllegal
    else if (match ix with
      | some v => ls.any fun e => !vgrpOk s v (ceilDiv (cnt e) 64)
      | none => false) then raise s causeBudget
    else if ix.isSome && ls.any (fun e => decide (4096 < cnt e)) then raise s causeTransfer
    else if ls.any fun e => (live e).any fun (r : Nat) =>
        !inBank s s.issuer.gcn (rowLa la (xtLstr w2) r) (xtRb w2) then raise s causeSpRange
    else
      let va := vaStep s (xtVa (blk ks 0))
      let eff := [va, ks.getD 1 0#64, BitVec.ofNat 64 (setField 0 18 la w2)]
      let s' := dropStack s (ls.flatMap fun e => (live e).map fun r =>
        ((rowVa va (xtMstr (blk ks 1)) (xtEstr (blk ks 1)) e (match ix with
          | some _ => ((idx e).getD r 0#32).toNat
          | none => r)).toNat, xtRb w2))
      let s' := issueX s' (.xemitt ew ix n kb) eff
        (ls.map fun e => { LaneJob.start e (0, cnt e * (xtRb w2 / emitBytes ew), 0) with idx := idx e }) []
      .next (leave s' .x (.xemitt ew ix n kb) ⟨ks, 0#64, 0#64⟩ none 0)

/-- Whether `xnzscan` writes a lane: not where a shape field other than the count it names is 0 (R197); a count of 0 has its
word 0 written (R304, R319). -/
def scans (s : State) (e : Nat) (n : Cnt) : Bool :=
  match n with
  | .field => true
  | .shape j f =>
    let x := shapeOf s e j
    works x || shpField f (shpOf s s.issuer.gcn e j.toNat) == 0
/-- R319: the count and indices of the nonzero elements of a run. -/
def execXnzscan (n : Cnt) (kb : KReg) (s : State) : Outcome :=
  match block s kb 2 with
  | none => raise s causeIllegal
  | some ks =>
    let w0 := blk ks 0
    let dla := laStep s (field 18 18 w0)
    let sla := laStep s (field 0 18 w0)
    let spn := (ctxOf s (served s)).spn
    let cnt := fun e => countOf s e n (xtRows w0)
    let ls := lanes s
    if field 36 12 w0 != 0 || field 32 32 (blk ks 1) != 0 then raise s causeIllegal
    else if ls.any fun e => 4095 < cnt e then raise s causeTransfer
    else if (ls.filter fun e => scans s e n).any fun e => dla % 4 != 0 || !rawOk spn dla (4 * (cnt e + 1))
        || (cnt e != 0 && !runOk spn (fmtAt (laneFmts s e) sla) sla (cnt e)) then raise s causeSpRange
    else
      let eff := [BitVec.ofNat 64 (setField 18 18 dla (setField 0 18 sla w0)), ks.getD 1 0#64]
      let s' := issueX s (.xnzscan n kb) eff
        (ls.map fun e => { LaneJob.start e (cnt e, bit (scans s e n), 0) with lf := laneFmts s e })
        ((ls.filter fun e => scans s e n).map fun e => inLane (e, dla, 4 * (cnt e + 1)))
      .next (leave s' .x (.xnzscan n kb) ⟨ks, 0#64, 0#64⟩ none 0)
/-- R320: the index walker. -/
def execXwalk (kb : KReg) (ch : Hint) (s : State) : Outcome :=
  match block s kb 4 with
  | none => raise s causeIllegal
  | some ks =>
    let c := field 48 16 (blk ks 0)
    let la := laStep s (field 0 18 (blk ks 3))
    let spn := (ctxOf s (served s)).spn
    if field 48 16 (blk ks 1) != 0 || field 18 46 (blk ks 3) != 0 || c == 0 || decide (1024 < c) then
      raise s causeIllegal
    else if !(lanes s).isEmpty && (la % 4 != 0 || !rawOk spn la ((3 * c + 4) * 4)) then raise s causeSpRange
    else
      let eff := [vaStep s (xtVa (blk ks 0)), vaStep s (xtVa (blk ks 1)), ks.getD 2 0#64,
        BitVec.ofNat 64 la]
      let s' := issueX s (.xwalk kb ch) eff ((lanes s).map fun e => LaneJob.start e (0, c, 0))
        ((lanes s).map fun e => inLane (e, la, (3 * c + 4) * 4))
      .next (leave s' .x (.xwalk kb ch) ⟨ks, 0#64, 0#64⟩ none 0)
/-- R323: once; acts once for the context when AM ≠ 0. -/
def execXtend (kb : KReg) (s : State) : Outcome :=
  match block s kb 2 with
  | none => raise s causeIllegal
  | some ks =>
    if field 48 16 (blk ks 0) != 0 || field 0 6 (blk ks 0) != 0 || field 34 30 (blk ks 1) != 0 then
      raise s causeIllegal
    else
      let jobs := (firstLane' (am s)).map fun e => LaneJob.start e (0, 1, 0)
      let s' := issueX s (.xtend kb) ks jobs []
      .next (updH s' fun h => { h with stX := none })
where
  /-- The lowest active lane, if any. -/
  firstLane' (m : Mask) : List Nat := (lanesOf m).take 1

/-- What one element of a command met. -/
inductive ElemR where
  /-- The element took effect. -/
  | done (s : State) (j : LaneJob)
  /-- It waits, holding its lane's progress (R308), with the requests that its slices have refused (R110). -/
  | wait (l : List Ask)
  /-- It failed at an address (R307). -/
  | fail (s : State) (f : MFault) (kind va : Nat)

/-- The agent of a command, of the urgency that its context had at its issue (R14, R110, R306). -/
def cmdAgent (s : State) (g : Nat) (c : Cmd) : Agent :=
  { agentOf s g with asid := c.asid, urgent := c.urg, ask := none }
/-- A command's read of memory of a kind, for an owner: overlapping dirty stack-cache lines are written back first (R70).
The read waits with a line that must wait; a line whose write-back fails is laid over what is read. -/
def cmdReadAs (k : AKind) (s : State) (w : Who) (g : Nat) (c : Cmd) (va n : Nat) (ch : Hint) : MemR (List Byte) :=
  let ag := (cmdAgent s g c).asking w
  if isHandler g then memRead s ag k va n ch
  else
    let r := stkClean s (some w) g va n
    if r.2 then .wait (r.1.pkg.asks.filter fun a => a.who == w)
    else (memRead r.1 ag k va n ch).bind fun bs s =>
      .ok (((ctxOf s g).stk.filter fun l => l.dirty).foldl (fun b l => overlay va b l.va (bytesOf 64 l.data.toNat)) bs) s
/-- A transfer command's read of memory in a lane. -/
def cmdRead (s : State) (g : Nat) (c : Cmd) (lane va n : Nat) (ch : Hint) : MemR (List Byte) :=
  cmdReadAs .tread s (.elem g c.id lane) g c va n ch
/-- A command's write of memory of a kind; lines of the stack cache held there take the bytes too (R70), and a handler's
write drops those of frozen contexts (R71). -/
def cmdWriteAs (k : AKind) (s : State) (w : Who) (g : Nat) (c : Cmd) (va : Nat) (bs : List Byte) (ch : Hint) : MemR Unit :=
  (memWrite s ((cmdAgent s g c).asking w) k va bs ch).bind fun _ s =>
    .ok () (if isHandler g then handlerDrop s g va bs.length
      else updCtx s g fun c =>
        { c with stk := c.stk.map fun l =>
            { l with data := BitVec.ofNat 512 (ofBytes (overlay l.va (bytesOf 64 l.data.toNat) va bs)) } })
/-- A transfer command's write of memory in a lane. -/
def cmdWrite (s : State) (g : Nat) (c : Cmd) (lane va : Nat) (bs : List Byte) (ch : Hint) : MemR Unit :=
  cmdWriteAs .twrite s (.elem g c.id lane) g c va bs ch
/-- Finish an element's access. -/
def elemMem {α : Type} (r : MemR α) (kind : AKind) (va : Nat) (k : α → State → ElemR) : ElemR :=
  match r with
  | .ok a s => k a s
  | .wait l => .wait l
  | .fault f s => .fail s f kind.code va
/-- The lane's progress moves past its element. -/
def LaneJob.step (j : LaneJob) (by_ : Nat) : LaneJob :=
  { j with done := j.done + by_, fin := decide (j.n ≤ j.done + by_) }

/-- The port mask of a remote package, from the cached masks or the route table (R436). The table is read as its stack gives
it (R111, R116): while it must wait there is no mask. An entry in an uncorrectable sector, or in a stack that has Failed,
gives a free mask, and the error is counted: the manual names no consumer for it (DESIGN CHOICE, log entry 34). -/
def routeMask (s : State) (p : Nat) : Nat × State :=
  let keep := fun (s : State) (m : Nat) => (m, updPkg s fun q => { q with rmasks := mset none q.rmasks p (some m) })
  match mget none s.pkg.rmasks p with
  | some m => (m, s)
  | none =>
    match rdStack s (s.pkg.rtbase.toNat + 2 * p) 2 with
    | .ok bs s => keep s (ofBytes bs)
    | .wait _ => (0, s)
    | .fault _ s => keep { s with freeCtr := s.freeCtr + 1 } (field 0 16 (Config.freeWord s.freeCtr).toNat)
/-- The read of the route table that an element of a remote command makes (R436). -/
def routeRead (s : State) (c : Cmd) : State :=
  match c.op with
  | .xrld .. | .xrst .. => (routeMask s (field 0 16 (blk c.ks 3))).2
  | _ => s
/-- Whether a route to a package is up; a package numbered 0xFFFF sends no remote traffic (R435, R436). -/
def routeUp (s : State) (m : Nat) : Bool :=
  s.pkg.pkgid != 0xFFFF#64 && (List.range 16).any fun n =>
    bitOf n m && (mget Port.reset s.pkg.ports n).state == .up
/-- The fault that a number names among those a remote package may report for a row (R31, R39, R114): 0x0D, and those
behind the check of the address, with the walk level of 0x02, 0x03 and 0x0C. -/
def remoteMF (ld : Bool) (n : Nat) : MFault :=
  let lvl := 1 + n / 10 % 4
  match n % 10 with
  | 0 => tfault 0x0D 0
  | 1 => tfault 0x02 lvl
  | 2 => tfault 0x03 lvl
  | 3 => tfault 0x0C lvl
  | 4 => tfault 0x04 0
  | 5 => tfault 0x05 0
  | 6 => tfault 0x06 0
  | 7 => tfault (if ld then 0x09 else 0x07) 0
  | 8 => tfault 0x09 0
  | _ => if ld then mfault (n / 10 % 3) (if n / 10 % 3 = 0 then n / 30 % 64 else n / 30 % 16) else mfault 2 (n / 10 % 16)
/-- One element of `xrld` or `xrst`: it waits for a route, and what the remote package answers is a free value
(R314). Every page of a row is translated before a byte moves (R307): a row that runs past 2^48 fails with 0x01, unless a
page before fails (R13, R39). -/
def remoteRow (s : State) (g : Nat) (c : Cmd) (j : LaneJob) (va la rb : Nat) (ld : Bool) : ElemR :=
  let w3 := blk c.ks 3
  let p := field 0 16 w3
  let rasid := field 32 12 w3
  let kind := if ld then AKind.tread else .twrite
  let (m, s) := routeMask s p
  if !routeUp s m then .wait []
  else
    let n := s.freeCtr
    let s := { s with freeCtr := n + 1 }
    let f := Config.remoteFault p rasid va n
    if 0x1000000000000 ≤ va && f.all (fun x => x % 10 != 0) then .fail s (tfault 0x01 0) kind.code va
    else match if 0x1000000000000 < va + rb then f.filter (fun x => x % 10 != 9) else f with
    | some x => .fail s (remoteMF ld x) kind.code va
    | none =>
      if 0x1000000000000 < va + rb then .fail s (tfault 0x01 0) kind.code va
      else if ld then
        let x := packNat 8 rb fun i => (Config.remoteByte p rasid (va + i) n).toNat
        .done (wrPlace s (cmdPlace s g c j.lane) la rb x) (j.step 1)
      else .done s (j.step 1)

/-- One row of a row command (R312). Of the orders that R312 and R308 allow the model takes one: the rows of a lane go one by
one in rising r, and none above DONE is performed (DESIGN CHOICE, log entry 8). -/
def rowElem (s : State) (g : Nat) (c : Cmd) (j : LaneJob) (ld indexed : Bool) (remote : Bool) (ch : Hint) :
    ElemR :=
  let r := j.done
  let u := j.idx.getD r 0#32
  if indexed && skips u then .done s (j.step 1)
  else
    let m := if indexed then u.toNat else r
    let w2 := blk c.ks 2
    let rb := xtRb w2
    let va := (rowVa (c.ks.getD 0 0#64) (xtMstr (blk c.ks 1)) (xtEstr (blk c.ks 1)) j.lane m).toNat
    let la := rowLa (xtLa w2) (xtLstr w2) r
    let p := cmdPlace s g c j.lane
    if remote then remoteRow s g c j va la rb ld
    else if ld then
      elemMem (cmdRead s g c j.lane va rb ch) .tread va fun bs s =>
        .done (wrPlace s p la rb (ofBytes bs)) (j.step 1)
    else
      elemMem (cmdWrite s g c j.lane va (bytesOf rb (rdPlace s p la rb)) ch) .twrite va fun _ s =>
        .done s (j.step 1)
/-- One row of a window command (R12, R66, R315). A window row that does not lie in one bank of the portion fails like one
that leaves the portion, with code 0x0A: R315 asks for one bank and has the window side checked per element (DEDUCED, log
entry 34). -/
def windowElem (s : State) (g : Nat) (c : Cmd) (j : LaneJob) (ld : Bool) : ElemR :=
  let w0 := blk c.ks 0
  let w1 := blk c.ks 1
  let r := j.done
  let nel := xcNel w0
  let wla := rowLa (field 0 18 w0) (field 18 18 w1) r
  let la := rowLa (field 0 18 w1) (field 36 18 w1) r
  let lane := windowLane w0 j.lane
  let tw := field 22 3 w0 * 4194304 + lane * 262144 + wla
  let own := fmtAt j.lf la
  let win := fmtAt j.wf wla
  let kind := if ld then AKind.tread else .twrite
  match windowPlace s c.launch c.team (field 22 3 w0) lane g c.id with
  | none => .fail s (tfault 0x0A 0) kind.code tw
  | some p =>
    if !(if ld then srcOk j.wf.length win own wla nel else dstOk j.wf.length own win wla nel) then
      .fail s (tfault 0x0A 0) kind.code tw
    else if ld then .done (copyRow s p (cmdPlace s g c j.lane) win own wla la nel) (j.step 1)
    else .done (copyRow s (cmdPlace s g c j.lane) p own win la wla nel) (j.step 1)

/-- Generate a pair into the buffer of its engine's transfer port (R124, R140, R316). An index of 2^24 or more runs into the
lane of its element number (DESIGN CHOICE, log entry 34). -/
def sendPair (s : State) (g : Nat) (c : Cmd) (j : LaneJob) (va : Word) (w : Nat) (val : Nat) : State :=
  updPkg s fun p =>
    { p with
      nextPair := p.nextPair + 1
      pairs := p.pairs ++ [{ id := p.nextPair, gcn := g, cmd := c.id, lane := j.lane,
                             elemNo := j.lane * 16777216 + j.done, asid := c.asid,
                             va := va, w := w, val := BitVec.ofNat 64 (val % 2 ^ (8 * w)), stage := .buffered,
                             die := 0, pa := 0, rid := 0, op := 0, et := 0, permit := 0, again := false }] }
/-- The value of pair i of `xemitv` (R316). -/
def emitValue (ew : EmitW) (cvt : Bool) (vals : List W32) (i : Nat) : Nat :=
  match ew with
  | .w4 => (vals.getD i 0#32).toNat
  | .w8 => (vals.getD (2 * i) 0#32).toNat + 2 ^ 32 * (vals.getD (2 * i + 1) 0#32).toNat
  | .w2 =>
    let x := vals.getD i 0#32
    if cvt then convert .fp16 .rne (f32 x) else x.toNat % 65536
/-- One pair of `xemitv`. -/
def emitvElem (s : State) (g : Nat) (c : Cmd) (j : LaneJob) (ew : EmitW) (cvt : Bool) : ElemR :=
  let u := j.idx.getD j.done 0#32
  if skips u then .done s (j.step 1)
  else
    let va := rowVa (c.ks.getD 0 0#64) (xtMstr (blk c.ks 1)) (xtEstr (blk c.ks 1)) j.lane u.toNat
    .done (sendPair s g c j va (emitBytes ew) (emitValue ew cvt j.vals j.done)) (j.step 1)
/-- One pair of `xemitt` (R317); a skipped row passes whole. The element index counts on where rows and pairs make it reach
2^24, which the 24 bits that R307 gives it do not hold: the manual does not say what becomes of it (DESIGN CHOICE, log entry
34). -/
def emittElem (s : State) (g : Nat) (c : Cmd) (j : LaneJob) (ew : EmitW) (indexed : Bool) : ElemR :=
  let w2 := blk c.ks 2
  let w := emitBytes ew
  let per := xtRb w2 / w
  let r := j.done / per
  let k := j.done % per
  let u := j.idx.getD r 0#32
  if indexed && skips u then .done s (j.step (per - k))
  else
    let m := if indexed then u.toNat else r
    let va := rowVa (c.ks.getD 0 0#64) (xtMstr (blk c.ks 1)) (xtEstr (blk c.ks 1)) j.lane m
      + BitVec.ofNat 64 (k * w)
    let la := (rowLa (xtLa w2) (xtLstr w2) r + k * w) % 262144
    .done (sendPair s g c j va w (rdPlace s (cmdPlace s g c j.lane) la w)) (j.step 1)

/-- The scan of a lane (R319). -/
def nzscanElem (s : State) (g : Nat) (c : Cmd) (j : LaneJob) : ElemR :=
  let w0 := blk c.ks 0
  let base := field 0 32 (blk c.ks 1)
  let dla := field 18 18 w0
  let sla := field 0 18 w0
  let p := cmdPlace s g c j.lane
  let vals := if j.m = 0 then [] else rdRun s p (fmtAt j.lf sla) sla j.m
  let hits := ((List.range j.m).zip vals).filterMap fun (x : Nat × FVal) =>
    if x.2.isZero then none else some ((base + x.1) % 2 ^ 32)
  let words := hits.length :: hits ++ List.replicate (j.m - hits.length) 0xFFFFFFFF
  .done (wrPlace s p dla (4 * words.length) (packNat 32 words.length fun i => words.getD i 0)) (j.step 1)

/-- A 32-bit word of an array for `xwalk`. -/
def walkWord (s : State) (g : Nat) (c : Cmd) (lane : Nat) (ch : Hint) (base : Word) (i : Nat) : MemR Nat :=
  (cmdRead s g c lane (base + BitVec.ofNat 64 (4 * i)).toNat 4 ch).bind fun bs s => .ok (ofBytes bs) s
/-- The binary search of R321 over RP. The sum lo + hi + 1 is not reduced modulo 2^32, so that the row found is the one that
holds the entry also for NR above 2^31 (DESIGN CHOICE, log entry 34). -/
def walkRow (g : Nat) (c : Cmd) (lane : Nat) (ch : Hint) (rp : Word) (p : Nat) : Nat → State → Nat → Nat →
    State × Except (List Ask ⊕ MFault × Nat) Nat
  | 0, s, lo, _ => (s, .ok lo)
  | fuel + 1, s, lo, hi =>
    if lo < hi then
      let mid := (lo + hi + 1) / 2
      match walkWord s g c lane ch rp mid with
      | .ok x s => if x ≤ p then walkRow g c lane ch rp p fuel s mid hi else walkRow g c lane ch rp p fuel s lo (mid - 1)
      | .wait l => (s, .error (.inl l))
      | .fault f s => (s, .error (.inr (f, (rp + BitVec.ofNat 64 (4 * mid)).toNat)))
    else (s, .ok lo)
/-- Write word i of the walk block. -/
def walkPut (s : State) (p : Place) (la i x : Nat) : State := wrPlace s p (la + 4 * i) 4 (x % 2 ^ 32)
/-- The carry table and the padding of RROW, part of the last element (R321, R322). -/
def walkEnd (s : State) (g : Nat) (c : Cmd) (j : LaneJob) (ch : Hint) (start nnz first last nv : Nat)
    (p : Place) (la : Nat) : ElemR :=
  let cc := j.n
  let ne := countBelow cc fun i => decide ((start + i) % 2 ^ 32 < nnz)
  let rp := c.ks.getD 0 0#64
  let fin := fun (s : State) (fl : Nat) =>
    let s := (List.range (cc - nv)).foldl (fun s i => walkPut s p la (2 * cc + nv + i) 0xFFFFFFFF) s
    let s := walkPut s p la (3 * cc) ne
    let s := walkPut s p la (3 * cc + 1) nv
    let s := walkPut s p la (3 * cc + 2) fl
    ElemR.done (walkPut s p la (3 * cc + 3) 0) (j.step 1)
  if ne = 0 then fin s 0
  else
    let lastp := (last + 1) % 2 ^ 32
    elemMem (walkWord s g c j.lane ch rp first) .tread (rp + BitVec.ofNat 64 (4 * first)).toNat fun a s =>
      elemMem (walkWord s g c j.lane ch rp lastp) .tread (rp + BitVec.ofNat 64 (4 * lastp)).toNat fun b s =>
        fin s (bit (decide (a < start)) + 2 * bit (decide ((start + ne) % 2 ^ 32 < b)))
/-- Entry i of a lane's walk (R321, R322): `k` of the job holds nnz, `vals` the first row met, `prev` and
`vrow` the walker state. -/
def walkElem (s : State) (g : Nat) (c : Cmd) (j : LaneJob) (ch : Hint) : ElemR :=
  let rp := c.ks.getD 0 0#64
  let ci := c.ks.getD 1 0#64
  let nr := field 32 32 (blk c.ks 2)
  let base := field 0 32 (blk c.ks 2)
  let la := blk c.ks 3
  let i := j.done
  let cc := j.n
  let start := (base + j.lane * cc) % 2 ^ 32
  let p := (start + i) % 2 ^ 32
  let place := cmdPlace s g c j.lane
  let close := fun (s : State) (j : LaneJob) =>
    if i + 1 = cc then
      walkEnd s g c j ch start j.k (j.vals.getD 0 0#32).toNat (j.prev.getD 0) j.vrow place la
    else .done s (j.step 1)
  let withNnz := fun (k : Nat → State → ElemR) =>
    if i ≠ 0 then k j.k s
    else if nr = 0 then k 0 s
    else elemMem (walkWord s g c j.lane ch rp nr) .tread (rp + BitVec.ofNat 64 (4 * nr)).toNat k
  withNnz fun nnz s =>
    let j := { j with k := nnz }
    if nnz ≤ p then
      close (walkPut (walkPut s place la i 0xFFFFFFFF) place la (cc + i) 0xFFFFFFFF) j
    else
      match walkRow g c j.lane ch rp p 33 s 0 (nr - 1) with
      | (_, .error (.inl l)) => .wait l
      | (s, .error (.inr (f, va))) => .fail s f AKind.tread.code va
      | (s, .ok r) =>
        elemMem (walkWord s g c j.lane ch ci p) .tread (ci + BitVec.ofNat 64 (4 * p)).toNat fun col s =>
          let fresh := j.prev != some r
          let v := if fresh then j.vrow else j.vrow - 1
          let s := if fresh then walkPut s place la (2 * cc + v) r else s
          let s := walkPut (walkPut s place la i col) place la (cc + i) v
          let vals := if j.vals.isEmpty then [BitVec.ofNat 32 r] else j.vals
          close s { j with prev := some r, vrow := v + 1, vals := vals }

/-- One element of a transfer command in a lane (R312, R315 to R322, R336). -/
def transferElem (s : State) (g : Nat) (c : Cmd) (j : LaneJob) : ElemR :=
  match c.op with
  | .xld _ _ ch => rowElem s g c j true false false ch
  | .xst _ _ ch => rowElem s g c j false false false ch
  | .xgath _ _ ch _ => rowElem s g c j true true false ch
  | .xscat _ _ ch _ => rowElem s g c j false true false ch
  | .xrld _ _ ch => rowElem s g c j true false true ch
  | .xrst _ _ ch => rowElem s g c j false false true ch
  | .xcopy _ _ =>
    let w0 := blk c.ks 0
    let w1 := blk c.ks 1
    let sla := rowLa (field 0 18 w1) (field 18 18 w1) j.done
    let dla := rowLa (field 0 18 w0) (field 36 18 w1) j.done
    let p := cmdPlace s g c j.lane
    .done (copyRow s p p (fmtAt j.lf sla) (fmtAt j.lf dla) sla dla (xcNel w0)) (j.step 1)
  | .xwload _ _ => windowElem s g c j true
  | .xwstore _ _ => windowElem s g c j false
  | .xemitv ew cvt _ _ _ => emitvElem s g c j ew cvt
  | .xemitt ew ix _ _ => emittElem s g c j ew ix.isSome
  | .xnzscan _ _ => nzscanElem s g c j
  | .xwalk _ ch => walkElem s g c j ch
  | .gshuft _ _ =>
    let w := blk c.ks 0
    .done (wrPlace s (cmdPlace s g c j.lane) (field 18 18 w) (field 48 15 w) j.a) (j.step 1)
  | _ => .wait []

end Sys2Proof.Machine
end

