-- ==== Sys2Proof/Machine/Commands.lean ====
section
/-!
DEFINITION. How commands run after their issue: matrix commands complete by lane (R282, R291, R299), transfer
commands work through their elements (R307, R308, R312) and complete (R143, R308).
-/
namespace Sys2Proof.Machine

/-- Replace a command of a context. -/
def putCmd (s : State) (g : Nat) (x : Cmd) : State :=
  updCtx s g fun c => { c with cmds := c.cmds.map fun y => if y.id == x.id then x else y }
/-- Replace the part of a command in a lane; its destination words in that lane stop being pending when it
has completed there (R64). -/
def putJob (x : Cmd) (j : LaneJob) : Cmd :=
  { x with jobs := x.jobs.map (fun y => if y.lane == j.lane then j else y),
           dests := if j.fin then x.dests.filter fun d => d.1 != j.lane else x.dests }
/-- Whether the command's turn on its tile has come in a lane: no earlier command of the context on the tile
is still to complete there (R282). -/
def tileTurn (c : Ctx) (x : Cmd) (lane : Nat) : Bool :=
  !(c.cmds.any fun y => y.cls == .matrix && y.tile == x.tile && y.id < x.id
    && y.jobs.any fun j => j.lane == lane && !j.fin)
/-- Complete a matrix command in a lane: its effect, then the version of its tile (R58); a frozen context may then go on
with the steps of R396. -/
def matrixDone (s : State) (g : Nat) (x : Cmd) (j : LaneJob) : State :=
  let s := matrixEffect (settleSp { s with freeCtr := s.freeCtr + 1 } g) g x j
  let s := setAccver s g j.lane x.tile (accver s g j.lane x.tile + 1)
  let x := putJob x { j with fin := true }
  settleFrozen (refresh (putCmd s g { x with fin := x.jobs.all fun j => j.fin }) g) g
/-- Whether an operation is `mstore`. -/
def isMstore (i : Instr) : Bool :=
  match i with
  | .mstore .. => true
  | _ => false
/-- A matrix command completes in a lane, when its turn has come; `st` says which kind the event names. -/
def matrixEvent (s : State) (g id lane : Nat) (st : Bool) : State :=
  match cmdOf s g id with
  | none => s
  | some x =>
    match jobOf x lane with
    | none => s
    | some j =>
      if x.cls == .matrix && isMstore x.op == st && !j.fin && tileTurn (ctxOf s g) x lane then
        matrixDone s g x j
      else s
/-- R291 to R294: a matrix command other than an epilogue completes in a lane. -/
def execMatrixCommandComplete (g id lane : Nat) (s : State) : Outcome := .next (matrixEvent s g id lane false)
/-- R299: an epilogue's last store is accepted in a lane. -/
def execMstoreComplete (g id lane : Nat) (s : State) : Outcome := .next (matrixEvent s g id lane true)

/-- The ASID an element's access carries: the remote one for `xrld` and `xrst` (R307). -/
def elemAsid (x : Cmd) : Nat :=
  match x.op with
  | .xrld .. | .xrst .. => field 32 12 (blk x.ks 3)
  | _ => x.asid
/-- The record of a failed element (R307). -/
def elemFault (x : Cmd) (j : LaneJob) (f : MFault) (kind va : Nat) : CmdFault :=
  { felem := j.lane * 16777216 + j.done, asid := elemAsid x, kind := kind, merr := f.merr, src := f.src,
    code := if f.merr then f.unit else f.code, lvl := f.lvl, va := va, gcode := 0 }
/-- R312: the next element of a transfer command in a lane, after every earlier store of the context (R169). The
elements of a lane go in rising order, each after the one before it (DESIGN CHOICE, log entry 8). -/
def execTransferElement (g id lane : Nat) (s : State) : Outcome :=
  match cmdOf s g id with
  | none => .next s
  | some x =>
    match jobOf x lane with
    | none => .next s
    | some j =>
      if !mayElem s g x j then .next s
      else
        let s := routeRead (flushStores (settleSp { s with freeCtr := s.freeCtr + 1 } g) g) x
        if !storesDone s g then .next s
        else
          match transferElem s g x j with
          | .done s j => .next (putCmd s g (putJob x j))
          | .wait l => .next (noteAsks s l)
          | .fail s f kind va => .next (putCmd s g { x with flt := some (elemFault x j f kind va) })

/-- Whether pairs of a command have still to be accepted or dropped (R143). -/
def pairsOfCmd (s : State) (g id : Nat) : Bool := s.pkg.pairs.any fun p => p.gcn == g && p.cmd == id
/-- R143, R308: a transfer command whose lanes are done, or that has failed, completes. -/
def execTransferCommandComplete (g id : Nat) (s : State) : Outcome :=
  match cmdOf s g id with
  | none => .next s
  | some x =>
    if x.cls == .transfer && !x.fin && (x.flt.isSome || (x.jobs.all fun j => j.fin)) && !pairsOfCmd s g id then
      .next (refresh (putCmd s g { x with fin := true, dests := [] }) g)
    else .next s

end Sys2Proof.Machine
end

