-- ==== Sys2Proof/Machine/Scalar.lean ====
section
/-!
DEFINITION. Scalar slot instructions (chapter 09) but for CSR access: arithmetic, immediates, memory and
scratchpad words, atomics, control flow, ordering and synchronisation, traps and yielding.
-/
namespace Sys2Proof.Machine

/-- A value bound for register D, checked first when D is s63 (R233). -/
def check63 (s : State) (d : SReg) (v : Word) (k : State → Outcome) : Outcome :=
  if d = 63 then checkS63 s v k else k s
/-- Write a result that was interlocked: it has arrived, so no replay entry holds it, and the next bundle reads it, whatever
result issued before it lands then (R220, R233, R397, log entry 11). -/
def putArrived (s : State) (d : SReg) (v : Word) : Outcome :=
  if d = 0 then .next s else check63 s d v fun s => .next (addPend (dropS s d) 0 [.s d v])
/-- The change of program counter of the bundle, effective from the next (R213, R247). -/
def setPc (s : State) (v : Word) : State := updH s fun h => { h with nextPc := some v }
/-- The next program counter is FT (R247). -/
def fallThrough (s : State) : State := updH s fun h => { h with nextPc := none }
/-- A target with bits [1:0] cleared (R247). -/
def target (v : Word) : Word := v &&& ~~~3#64
/-- Address of the bundle plus 4 × OFF (R247). -/
def relTarget {n : Nat} (s : State) (off : BitVec n) : Word := target ((curH s).pc + sx64 off * 4#64)

/-- R209: `nop`. -/
def execNop (s : State) : Outcome := .next s
/-- R236. -/
def execAdd (d a b : SReg) (s : State) : Outcome := putS s d (rdS s a + rdS s b) 1
/-- R236. -/
def execSub (d a b : SReg) (s : State) : Outcome := putS s d (rdS s a - rdS s b) 1
/-- R236. -/
def execMul (d a b : SReg) (s : State) : Outcome := putS s d (rdS s a * rdS s b) 1
/-- R236: high half of the signed product. -/
def execMulhs (d a b : SReg) (s : State) : Outcome :=
  putS s d (BitVec.ofInt 64 (((rdS s a).toInt * (rdS s b).toInt) >>> 64)) 1
/-- R236: high half of the unsigned product. -/
def execMulhu (d a b : SReg) (s : State) : Outcome :=
  putS s d (BitVec.ofNat 64 (((rdS s a).toNat * (rdS s b).toNat) >>> 64)) 1
/-- R236. -/
def execAnd (d a b : SReg) (s : State) : Outcome := putS s d (rdS s a &&& rdS s b) 1
/-- R236. -/
def execOr (d a b : SReg) (s : State) : Outcome := putS s d (rdS s a ||| rdS s b) 1
/-- R236. -/
def execXor (d a b : SReg) (s : State) : Outcome := putS s d (rdS s a ^^^ rdS s b) 1
/-- R236: shift amount B[5:0]. -/
def execShl (d a b : SReg) (s : State) : Outcome := putS s d (rdS s a <<< ((rdS s b).toNat % 64)) 1
/-- R236: shift amount B[5:0]. -/
def execShr (d a b : SReg) (s : State) : Outcome := putS s d (rdS s a >>> ((rdS s b).toNat % 64)) 1
/-- R236: shift amount B[5:0]. -/
def execSra (d a b : SReg) (s : State) : Outcome :=
  putS s d ((rdS s a).sshiftRight ((rdS s b).toNat % 64)) 1
/-- R236: signed minimum. -/
def execMin (d a b : SReg) (s : State) : Outcome :=
  putS s d (if (rdS s a).slt (rdS s b) then rdS s a else rdS s b) 1
/-- R236: signed maximum. -/
def execMax (d a b : SReg) (s : State) : Outcome :=
  putS s d (if (rdS s a).slt (rdS s b) then rdS s b else rdS s a) 1
/-- R236: unsigned minimum. -/
def execMinu (d a b : SReg) (s : State) : Outcome :=
  putS s d (if (rdS s a).ult (rdS s b) then rdS s a else rdS s b) 1
/-- R236: unsigned maximum. -/
def execMaxu (d a b : SReg) (s : State) : Outcome :=
  putS s d (if (rdS s a).ult (rdS s b) then rdS s b else rdS s a) 1
/-- R237. -/
def execAddi (d a : SReg) (imm : BitVec 12) (s : State) : Outcome := putS s d (rdS s a + sx64 imm) 1
/-- R237. -/
def execAndi (d a : SReg) (imm : BitVec 12) (s : State) : Outcome := putS s d (rdS s a &&& sx64 imm) 1
/-- R237. -/
def execOri (d a : SReg) (imm : BitVec 12) (s : State) : Outcome := putS s d (rdS s a ||| sx64 imm) 1
/-- R237. -/
def execXori (d a : SReg) (imm : BitVec 12) (s : State) : Outcome := putS s d (rdS s a ^^^ sx64 imm) 1
/-- R237. -/
def execShli (d a : SReg) (imm : BitVec 6) (s : State) : Outcome := putS s d (rdS s a <<< imm.toNat) 1
/-- R237. -/
def execShri (d a : SReg) (imm : BitVec 6) (s : State) : Outcome := putS s d (rdS s a >>> imm.toNat) 1
/-- R237. -/
def execSrai (d a : SReg) (imm : BitVec 6) (s : State) : Outcome :=
  putS s d ((rdS s a).sshiftRight imm.toNat) 1
/-- R238. -/
def execCmp (cc : Cond) (d a b : SReg) (s : State) : Outcome :=
  putS s d (boolWord (condHolds cc (rdS s a) (rdS s b))) 1
/-- R238. -/
def execCmpi (cc : Cond) (d a : SReg) (imm : BitVec 9) (s : State) : Outcome :=
  putS s d (boolWord (condHolds cc (rdS s a) (sx64 imm))) 1
/-- R239. -/
def execSel (d a b c : SReg) (s : State) : Outcome :=
  putS s d (if rdS s c ≠ 0#64 then rdS s a else rdS s b) 1
/-- R240. -/
def execClz (d a : SReg) (s : State) : Outcome := putS s d (BitVec.ofNat 64 (clz64 (rdS s a))) 1
/-- R240. -/
def execCtz (d a : SReg) (s : State) : Outcome := putS s d (BitVec.ofNat 64 (ctz64 (rdS s a))) 1
/-- R240. -/
def execPopc (d a : SReg) (s : State) : Outcome := putS s d (BitVec.ofNat 64 (popc64 (rdS s a))) 1
/-- R240: bits above 63 read as 0. -/
def execBext (d a : SReg) (pos lm1 : BitVec 6) (s : State) : Outcome :=
  putS s d (BitVec.ofNat 64 (field pos.toNat (lm1.toNat + 1) (rdS s a).toNat)) 1
/-- R240: bits that would fall above 63 are discarded. -/
def execBins (d a : SReg) (pos lm1 : BitVec 6) (s : State) : Outcome :=
  putS s d (BitVec.ofNat 64 (setField pos.toNat (lm1.toNat + 1) (rdS s a).toNat (rdS s d).toNat)) 1
/-- R241. -/
def execMovi (d : SReg) (imm : BitVec 18) (s : State) : Outcome := putS s d (sx64 imm) 1
/-- R241. -/
def execMovx (d : SReg) (imm : Word) (s : State) : Outcome := putS s d imm 1
/-- R242. -/
def execKmov (k : KReg) (a : SReg) (s : State) : Outcome := .next (addPend s 1 [.k k (rdS s a)])
/-- R242. -/
def execKmovi (k : KReg) (imm : BitVec 19) (s : State) : Outcome := .next (addPend s 1 [.k k (sx64 imm)])
/-- R242. -/
def execMovk (d : SReg) (k : KReg) (s : State) : Outcome := putS s d (rdK s k) 1
/-- R242, R211: two issue cycles. -/
def execBmov (b : BReg) (a : SReg) (s : State) : Outcome :=
  .next (addPend s 2 [.b b ((rdS s a).setWidth 8)])
/-- R242, R211. -/
def execBmovi (b : BReg) (imm : Byte) (s : State) : Outcome := .next (addPend s 2 [.b b imm])
/-- R242, R211: modulo 256. -/
def execBadd (b : BReg) (imm : Byte) (s : State) : Outcome := .next (addPend s 2 [.b b (rdB s b + imm)])

/-- Zero- or sign-extend n loaded bytes (R243). -/
def extend (sx : Bool) (n v : Nat) : Word :=
  if sx then BitVec.ofInt 64 (sext (8 * n) v) else BitVec.ofNat 64 v
/-- Address A + sext(OFF) × size in 64 bits (R243, R245). -/
def offAddr {n : Nat} (s : State) (a : SReg) (off : BitVec n) (sz : Size) : Word := offAddrH (curH s) a off sz

/-- R243, R244: latency 3 through the stack cache, else interlocked. -/
def execLd (sz : Size) (sx : Bool) (ch : Hint) (d a : SReg) (off : BitVec 7) (s : State) : Outcome :=
  if sx && sz == .d then raise s causeIllegal
  else
    loadK s (.ld sz sx ch d a off) (offAddr s a off sz).toNat (sizeBytes sz) ch fun stk v s =>
      if stk then putS s d (extend sx (sizeBytes sz) v) 3 else putArrived s d (extend sx (sizeBytes sz) v)
/-- R243, R244. -/
def execSt (sz : Size) (ch : Hint) (r a : SReg) (off : BitVec 7) (s : State) : Outcome :=
  storeK s (.st sz ch r a off) (offAddr s a off sz).toNat (bytesOf (sizeBytes sz) (rdS s r).toNat) ch
    fun s => .next s

/-- Local address of `ldsp` and `stsp` (R245). -/
def spAddr (s : State) (a : SReg) (off : BitVec 4) (sz : Size) : Nat :=
  field 0 18 (offAddr s a off sz).toNat
/-- R245: reads lane LANE whatever AM holds. SX = 1 with SZ = 0b11 is taken as the reserved form that R243 makes it for
`ld`, which R245 does not say of `ldsp` (DESIGN CHOICE, log entry 34). -/
def execLdsp (sz : Size) (sx : Bool) (lane : BitVec 4) (d a : SReg) (off : BitVec 4) (s : State) :
    Outcome :=
  let n := sizeBytes sz
  let la := spAddr s a off sz
  if sx && sz == .d then raise s causeIllegal
  else if !inBank s s.issuer.gcn la n then raise s causeSpRange
  else if pendingSp s lane.toNat la n then raise s causePending
  else putS s d (extend sx n (rdSp s s.issuer.gcn lane.toNat la n)) 6
/-- R245: one lane whatever AM holds, or every active lane. -/
def execStsp (sz : Size) (all : Bool) (lane : BitVec 4) (r a : SReg) (off : BitVec 4) (s : State) :
    Outcome :=
  let n := sizeBytes sz
  let la := spAddr s a off sz
  if all && lane != 0 then raise s causeIllegal
  else if !inBank s s.issuer.gcn la n then raise s causeSpRange
  else
    let es := if all then lanes s else [lane.toNat]
    .next (addPend s 1 (es.map fun e => .sp e la n ((rdS s r).toNat % 2 ^ (8 * n))))

/-- Whether n bytes at va overlap the context's stack (R246). -/
def overlapsStack (s : State) (va n : Nat) : Bool :=
  let c := cur s
  !inHandler s && va < c.stktop.toNat && c.stklim.toNat < va + n && c.stklim.toNat < c.stktop.toNat
/-- An atomic at the home slice (R115, R246): `f` gives the new value from the old one, or none. -/
def atomic (s : State) (i : Instr) (wide : Bool) (d a : SReg) (f : Nat → Option Nat) : Outcome :=
  let w := if wide then 8 else 4
  let va := (rdS s a).toNat
  if d = 63 then raise s causeIllegal
  else if va % w ≠ 0 then raise s causeMisaligned
  else if overlapsStack s va w then raise s causeStack
  else
    let s := flushStores s s.issuer.gcn
    if !storesDone s s.issuer.gcn then .next (waitAt s (.access i) false)
    else
      let ag := agentOf s s.issuer.gcn
      withMem s i .atomic va
        ((xlate ag .atomic 1 s va w).bind fun l s =>
          if storeBefore s ag l then .wait []
          else atSlices s ag true l fun s =>
            (segsReady s l).bind fun _ s =>
              (rdSegs .normal ag.urgent s l).bind fun bs s =>
                let old := ofBytes bs
                match f old with
                | none => .ok old s
                | some v =>
                  (wrSegs .strm ag.urgent s (dealBytes l (bytesOf w v))).bind fun _ s => .ok old s)
        fun old s => putArrived (handlerStore s va w) d (BitVec.ofNat 64 old)
/-- The operand of an atomic of a width (R246). -/
def atOperand (wide : Bool) (x : Word) : Nat := if wide then x.toNat else x.toNat % 2 ^ 32
/-- R246, R115: compare with D, write B. -/
def execAtcas (wide : Bool) (d a b : SReg) (s : State) : Outcome :=
  atomic s (.atcas wide d a b) wide d a fun old =>
    if old = atOperand wide (rdS s d) then some (atOperand wide (rdS s b)) else none
/-- R246. -/
def execAtadd (wide : Bool) (d a b : SReg) (s : State) : Outcome :=
  atomic s (.atadd wide d a b) wide d a fun old => some (old + atOperand wide (rdS s b))
/-- R246. -/
def execAtswp (wide : Bool) (d a b : SReg) (s : State) : Outcome :=
  atomic s (.atswp wide d a b) wide d a fun _ => some (atOperand wide (rdS s b))
/-- R246. -/
def execAtand (wide : Bool) (d a b : SReg) (s : State) : Outcome :=
  atomic s (.atand wide d a b) wide d a fun old => some (old &&& atOperand wide (rdS s b))
/-- R246. -/
def execAtor (wide : Bool) (d a b : SReg) (s : State) : Outcome :=
  atomic s (.ator wide d a b) wide d a fun old => some (old ||| atOperand wide (rdS s b))
/-- R246. -/
def execAtxor (wide : Bool) (d a b : SReg) (s : State) : Outcome :=
  atomic s (.atxor wide d a b) wide d a fun old => some (old ^^^ atOperand wide (rdS s b))

/-- R247. -/
def execBr (nz : Bool) (a : SReg) (off : BitVec 17) (s : State) : Outcome :=
  if (rdS s a != 0#64) == nz then .next (setPc s (relTarget s off)) else .next (fallThrough s)
/-- R247. -/
def execJmp (off : W32) (s : State) : Outcome := .next (setPc s (relTarget s off))
/-- R247. -/
def execJr (a : SReg) (s : State) : Outcome := .next (setPc s (target (rdS s a)))
/-- R247: the new A decides the branch. -/
def execLoop (a : SReg) (off : BitVec 17) (s : State) : Outcome :=
  let v := rdS s a - 1#64
  check63 s a v fun s =>
    let s := if a = 0 then s else addPend s 1 [.s a v]
    if v ≠ 0#64 then .next (setPc s (relTarget s off)) else .next (fallThrough s)
/-- The push of FT and the jump of `call` and `callr` (R248). -/
def callTo (s : State) (i : Instr) (tgt : Word) : Outcome :=
  let addr := rdS s 63 - 8#64
  checkS63 s addr fun s =>
    storeK s i addr.toNat (bytesOf 8 (curH s).ft.toNat) .normal fun s =>
      .next (setPc (addPend s 1 [.s 63 addr]) tgt)
/-- R248. -/
def execCall (off : W32) (s : State) : Outcome := callTo s (.call off) (relTarget s off)
/-- R248. -/
def execCallr (a : SReg) (s : State) : Outcome := callTo s (.callr a) (target (rdS s a))
/-- R248. -/
def execRet (s : State) : Outcome :=
  let sp := rdS s 63
  checkS63 s (sp + 8#64) fun s =>
    loadK s .ret sp.toNat 8 .normal fun _ v s =>
      .next (setPc (addPend s 1 [.s 63 (sp + 8#64)]) (target (BitVec.ofNat 64 v)))

/-- R249, R156: interlocked, a switch point; FENCE_COMPLETE ends it. -/
def execFence (k : FenceKind) (sc : Scope) (s : State) : Outcome := .next (waitAt s (.fence k sc) true)

/-- Scope of a barrier kind (R162). -/
def barScope : BarKind → Scope
  | .team => .die
  | .die => .die
  | .grid => .pkg
/-- The co-residence flag of the issuing context's kernel (R184, R232). -/
def coResident (s : State) : Bool :=
  match (cur s).launch.bind (launchOf s) with
  | some l => l.kern.cores
  | none => false
/-- Cases in which `barr` and `barw` are illegal (R235, R250). -/
def barIllegal (s : State) (bk : BarKind) (id : BitVec 4) : Bool :=
  inHandler s || (cur s).spare.isSome || !isBarrier bk id.toNat || (bk != .team && !coResident s)
/-- Arrival state of the issuing context at a barrier (R250). -/
def arrivalOf (c : Ctx) (bk : BarKind) (id : Nat) : Option Nat :=
  (c.arrivals.find? fun x => x.1 == bk && x.2.1 == id).map (·.2.2)
/-- The barrier a context names. -/
def barNamed (s : State) (g : Nat) (bk : BarKind) (id : Nat) : Option Barrier :=
  ((ctxOf s g).launch.bind (launchOf s)).map fun l => barrierOf l bk (barUnit s g bk) id
/-- How far an ordering operation of a scope that leaves the store queue in place makes stores visible (R153). -/
def scopeVis : Scope → Vis
  | .pod => .pod
  | .die => .die
  | _ => .pkg
/-- R250, R162: the release, then the arrival is counted; not interlocked. -/
def execBarr (bk : BarKind) (id : BitVec 4) (s : State) : Outcome :=
  let g := s.issuer.gcn
  if barIllegal s bk id then raise s causeIllegal
  else
    match barNamed s g bk id.toNat with
    | none => raise s causeIllegal
    | some b =>
      if arrivalOf (cur s) bk id.toNat == some b.gen then raise s causeBarrier
      else
        let s := updCur (releaseTo s g s.issuer.half (scopeVis (barScope bk))) fun c =>
          { c with arrivals := (bk, id.toNat, b.gen) ::
              c.arrivals.filter fun x => !(x.1 == bk && x.2.1 == id.toNat) }
        match (cur s).launch with
        | none => .next s
        | some l => .next (updLaunch s l fun x => putBarrier x { b with arrived := b.arrived ++ [g] })
/-- Forget the arrival state at a barrier. -/
def dropArrival (c : Ctx) (bk : BarKind) (id : Nat) : Ctx :=
  { c with arrivals := c.arrivals.filter fun x => !(x.1 == bk && x.2.1 == id) }
/-- R250: wait for the generation joined, then an acquire; a switch point. -/
def execBarw (bk : BarKind) (id : BitVec 4) (s : State) : Outcome :=
  let g := s.issuer.gcn
  if barIllegal s bk id then raise s causeIllegal
  else
    match arrivalOf (cur s) bk id.toNat, barNamed s g bk id.toNat with
    | some n, some b =>
      if n = b.gen then .next (waitAt s (.barw bk id.toNat n) true)
      else
        .next (waitAt (updCur s fun c => dropArrival c bk id.toNat) (.fence .acq (barScope bk)) true)
    | _, _ => .next (waitAt s (.fence .acq (barScope bk)) true)
/-- R251, R163: interlocked until ARRINC_ACCEPTED. With LOCAL = 1 the DIE field is not looked at: the manual says
neither that it is ignored nor that it must be zero; and the own die is checked against the die mask like a named one, so a
context that a resume has put on a die outside it traps (DESIGN CHOICE, log entry 34). -/
def execArrinc (own : Bool) (dn : BitVec 3) (ctr : Byte) (a : SReg) (s : State) : Outcome :=
  let d := if own then dieOf s.issuer.gcn else dn.toNat
  let ok := match (cur s).launch.bind (launchOf s) with
    | some l => (recDies l).any (· == d)
    | none => false
  if inHandler s || !ok then raise s causeIllegal
  else .next (waitAt s (.arrinc d ctr.toNat ((rdS s a).setWidth 32)) false)
/-- R252: interlocked while 32,767 batches are open. D has latency 1: R220 lists none for `batch`, nor for the s63 that
`call`, `callr` and `ret` write, and the model gives them all one issue cycle (DESIGN CHOICE, log entry 34). -/
def execBatch (d : SReg) (s : State) : Outcome :=
  let c := cur s
  if 32767 ≤ (c.issued + 65536 - c.completed) % 65536 then .next (waitAt s .batch false)
  else
    let n := BitVec.ofNat 64 ((c.issued + 1) % 65536)
    check63 s d n fun s =>
      let s := refresh (closeOpen s s.issuer.gcn) s.issuer.gcn
      .next (if d = 0 then s else addPend s 1 [.s d n])
/-- R253: a switch point; WAITB_COMPLETE ends it. -/
def execWaitb (cm : BitVec 3) (last : Bool) (a : SReg) (s : State) : Outcome :=
  let c := cur s
  let n := if last then c.issued else (rdS s a).toNat % 65536
  if cm = 0 || (last && a != 0) then raise s causeIllegal
  else if !atOrBefore c.issued n then raise s causeBatch
  else .next (waitAt s (.waitb n cm) true)
/-- R254, R144: a switch point; UFENCE_COMPLETE ends it. -/
def execUfence (s : State) : Outcome := .next (waitAt s (.ufence (cur s).nextCmd) true)

/-- R257: the slot commits and the software trap is taken before slot sb. In a half that is being stopped for the freeze of
the other it does not commit, and issues again at the resume (R195, log entry 11). -/
def execTrap (code : BitVec 16) (s : State) : Outcome :=
  let s := if (cur s).stopBy.isSome then s else updH s fun h => { h with slot := 1 }
  .next (raiseW s causeSoftware code.toNat false)
/-- R257: the breakpoint trap, without committing. -/
def execBrk (s : State) : Outcome := raise s causeBreak
/-- R258, R401: the target resumes when the bundle ends; a wrong target is a handler error (R402). -/
def execTret (a : SReg) (s : State) : Outcome :=
  let g := s.issuer.gcn
  let n := (rdS s a).toNat % 4
  let t := ctxOf s (podOf g * 8 + n)
  let v := ctxOf s (servedOf s g)
  if !inHandler s then raise s causeIllegal
  else if t.phase == .frozen && t.launch == v.launch && t.team == v.team then
    .next (updCur s fun c => { c with tretTo := some n })
  else
    let s := markFatal s (servedOf s g) 0x03 (servedOf s g)
    .next (updCur s fun c => { c with phase := .frozen })
/-- R259, R387: a switch point; the contexts of the pod that are Ready now are chosen first, and with them those that are
Ready at the next choice of the picker. -/
def execYield (s : State) : Outcome :=
  let g := s.issuer.gcn
  if inHandler s then raise s causeIllegal
  else
    let others := [0, 1, 2, 3].filter fun n =>
      n != slotOfG g && (ctxOf s (podOf g * 8 + n)).phase == .ready
    let s := updH s fun h => { h with switchReq := true }
    .next (updCur s fun c => { c with yieldSet := others, yielded := true })

end Sys2Proof.Machine
end

