-- ==== Sys2Proof/Machine/Csr.lean ====
section
/-!
DEFINITION. Control and status registers (R57, R196, R218, R255, R256, R393), the handler's views of a
frozen context (R399, R400), and the landing of exposed results (R61, R398).
-/
namespace Sys2Proof.Machine

/-- Numbers that the map of R256 and R399 assigns. -/
def csrAssigned (c : Nat) : Bool :=
  (0x100 ≤ c && c ≤ 0x111) || c == 0x120 || c == 0x121 || c == 0x130 || (0x140 ≤ c && c ≤ 0x142)
    || c == 0x150 || c == 0x151 || c == 0x154 || c == 0x155 || (0x160 ≤ c && c ≤ 0x162)
    || (0x170 ≤ c && c ≤ 0x173) || c == 0x178 || (0x180 ≤ c && c ≤ 0x182) || c == 0x188
    || (0x190 ≤ c && c ≤ 0x193) || (0x200 ≤ c && c ≤ 0x2BF)
/-- Numbers whose fields are all RO or RO/H: a write of any kind is illegal (R255). -/
def csrReadOnly (c : Nat) : Bool :=
  c == 0x110 || c == 0x111 || c == 0x150 || c == 0x151 || c == 0x154 || c == 0x155
    || (0x160 ≤ c && c ≤ 0x162) || c == 0x178 || c == 0x188 || c == 0x190 || c == 0x191
    || c == 0x206 || c == 0x207 || (0x2AC ≤ c && c ≤ 0x2AE) || (0x2B0 ≤ c && c ≤ 0x2BF)
/-- Handler-only numbers (R57, R256). -/
def csrHandlerOnly (c : Nat) : Bool := (0x140 ≤ c && c ≤ 0x142) || 0x200 ≤ c
/-- SPFMT0 to SPFMT15. -/
def csrIsFmt (c : Nat) : Bool := 0x100 ≤ c && c ≤ 0x10F
/-- SHP0 to SHP3. -/
def csrIsShp (c : Nat) : Bool := 0x170 ≤ c && c ≤ 0x173
/-- A value that SPFMT or SHP refuses (R55, R196). -/
def csrBadValue (c x : Nat) : Bool :=
  if csrIsFmt c then
    x / 2 ^ 24 != 0 || field 5 11 x != 0 || (Fmt.ofCode? (field 0 5 x)).isNone
  else if csrIsShp c then
    field 48 16 x != 0 || field 22 10 x != 0 || field 6 10 x != 0 || decide (32 < field 0 6 x)
      || decide (32 < field 16 6 x)
  else false

/-- The context whose register an access of a handler slot reaches (R256). -/
def csrTarget (s : State) (g c : Nat) : Nat :=
  if c < 0x180 && !(0x140 ≤ c && c ≤ 0x142) then servedOf s g else g
/-- The lanes a per-engine access reaches: AM, or both AMs of the served context (R57, R256). -/
def csrLanes (s : State) : Mask :=
  if inHandler s then
    let c := ctxOf s (served s)
    match c.spare with
    | some h => c.prim.am ||| h.am
    | none => c.prim.am
  else am s
/-- The lowest-numbered lane of a mask. -/
def firstLane (m : Mask) : Option Nat := leastBelow 16 (inMask m)

/-- SPMAP (R57). -/
def spmapWord (c : Ctx) : Nat := setField 16 5 c.spn (setField 0 4 c.splo 0)
/-- BUDGET (R57). -/
def budgetWord (c : Ctx) : Nat :=
  setField 28 4 c.acnt (setField 24 3 c.abase (setField 8 9 c.vcnt (setField 0 8 c.vbase 0)))
/-- CTXID (R181). -/
def ctxidWord (g : Nat) (c : Ctx) : Nat :=
  setField 32 16 c.team (setField 26 2 c.role (setField 25 1 c.kind (setField 20 5 c.ridx
    (setField 17 3 c.tpod (setField 14 3 (dieOf g) (setField 0 11 g 0))))))
/-- BATCH (R252). -/
def batchWord (c : Ctx) : Nat := setField 16 16 c.issued (setField 0 16 c.completed 0)
/-- The half that TSW.HALF names (R393). -/
def tswHalf (c : Ctx) : HalfId := if bitOf 25 c.tsw.toNat && c.spare.isSome then .spare else .primary

/-- The context and half that HSEL selects: `none` when it shows no context of the served team, and no
half when the one it names does not exist (R399). -/
def hselCtx (s : State) (g : Nat) : Option (Nat × Option HalfId) :=
  if !hselValid s g then none
  else
    let t := hselG s g
    if bitOf 2 (ctxOf s g).hsel.toNat then
      some (t, if (ctxOf s t).spare.isSome then some .spare else none)
    else some (t, some .primary)
/-- The views that act on the selected half (R399). -/
def viewPerHalf (c : Nat) : Bool :=
  c == 0x202 || c == 0x203 || (0x208 ≤ c && c ≤ 0x2A8) || c == 0x2AC
/-- A stalk entry as its two words (R188). -/
def stalkWord (e : StalkEntry) (w : Nat) : Nat :=
  if w = 0 then setField 48 16 e.pend.toNat (setField 2 46 (e.rpc.toNat / 4) (bit e.split))
  else setField 48 16 e.saved.toNat (setField 2 46 (e.ppc.toNat / 4) 0)
/-- A view of the selected half (R399). -/
def readHalfView (c : Nat) (t : Ctx) (h : Half) : Nat :=
  if c = 0x202 then h.tpc.toNat
  else if c = 0x203 then h.am.toNat
  else if c < 0x248 then
    let i := (c - 0x208) / 2
    if i < h.stalk.length then
      match h.stalk[h.stalk.length - 1 - i]? with
      | some e => stalkWord e ((c - 0x208) % 2)
      | none => 0
    else 0
  else if c < 0x288 then (rdSH h (BitVec.ofNat 6 (c - 0x248))).toNat
  else if c < 0x2A8 then (mget 0#64 h.kreg (c - 0x288)).toNat
  else if c = 0x2A8 then packNat 8 4 fun i => (mget 0#8 h.breg i).toNat
  else if isFrozen t then h.pend.length else 0
/-- A handler view (R399). -/
def readView (s : State) (g c : Nat) : Nat :=
  if c = 0x200 then (ctxOf s g).hsel.toNat
  else
    match hselCtx s g with
    | none => 0
    | some (t, h) =>
      let x := ctxOf s t
      if viewPerHalf c then
        (match h with
        | some h => readHalfView c x (x.half h)
        | none => 0)
      else if c = 0x201 then x.tsw.toNat
      else if c = 0x204 then x.tctl.toNat
      else if c = 0x205 then x.tvec.toNat
      else if c = 0x206 then batchWord x
      else if c = 0x207 then
        setField 8 1 (bit x.spare.isSome) (match h with
          | some h => (x.half h).stalk.length
          | none => 0)
      else if c = 0x2A9 then
        packNat 6 x.acnt fun a => accver s t (field 4 4 (ctxOf s g).hsel.toNat) a
      else if c = 0x2AA then (ctxOf s g).hvwin.toNat
      else if c = 0x2AB then (ctxOf s g).htwin.toNat
      else if c = 0x2AD then x.hxflt.toNat
      else if c = 0x2AE then x.hxfva.toNat
      else if 0x2B0 ≤ c then mget 0 x.hlprog (c - 0x2B0)
      else 0
/-- Read a CSR that the access checks allow (R255, R256). -/
def readCsr (s : State) (c : Nat) : Word :=
  let g := s.issuer.gcn
  let tg := csrTarget s g c
  let x := ctxOf s tg
  let n :=
    if csrIsFmt c then
      (match firstLane (csrLanes s) with
      | some e => spfmtOf s g e (c - 0x100)
      | none => 0)
    else if csrIsShp c then
      (match firstLane (csrLanes s) with
      | some e => shpOf s g e (c - 0x170)
      | none => 0)
    else if c = 0x110 then spmapWord x
    else if c = 0x111 then budgetWord x
    else if c = 0x120 then x.stktop.toNat
    else if c = 0x121 then x.stklim.toNat
    else if c = 0x130 then bit x.dbgPend
    else if c = 0x140 then x.prvtop.toNat
    else if c = 0x141 then x.prvhw.toNat
    else if c = 0x142 then x.prvlo.toNat
    else if c = 0x150 then x.meva.toNat
    else if c = 0x151 then x.meinfo.toNat
    else if c = 0x154 then x.tfva.toNat
    else if c = 0x155 then x.tfinfo.toNat
    else if c = 0x160 then x.upfva.toNat
    else if c = 0x161 then x.upfval.toNat
    else if c = 0x162 then x.upfinfo.toNat
    else if c = 0x178 then ctxidWord tg x
    else if c = 0x180 then x.vstep.toNat
    else if c = 0x181 then x.mstep.toNat
    else if c = 0x182 then x.xstep.toNat
    else if c = 0x188 then batchWord x
    else if c = 0x190 then x.tsw.toNat
    else if c = 0x191 then (x.half (tswHalf x)).tpc.toNat
    else if c = 0x192 then x.tvec.toNat
    else if c = 0x193 then x.tctl.toNat
    else readView s g c
  BitVec.ofNat 64 n

/-- VA[47:6] of a word, VA[47:16], VA[47:2]. -/
def maskVa (lo : Nat) (x : Word) : Word := BitVec.ofNat 64 (field lo (48 - lo) x.toNat * 2 ^ lo)
/-- Clear every pending bit of a context (R65). -/
def clearPendingBits (c : Ctx) : Ctx :=
  let f := fun (h : Half) => { h with pend := h.pend.map fun p => { p with pb := false } }
  { c with prim := f c.prim, spare := c.spare.map f, cmds := c.cmds.map fun x => { x with dests := [] } }
/-- Write a per-context or per-engine CSR below 0x200; `lns` are the lanes of a per-engine write. -/
def writeCsrBase (s : State) (g c : Nat) (x : Word) (lns : Mask) : State :=
  let tg := csrTarget s g c
  if csrIsFmt c then
    (lanesOf lns).foldl (fun s e =>
      { s with spfmt := mset 0 s.spfmt (fkey (podOf g) e ((ctxOf s tg).splo + (c - 0x100))) x.toNat }) s
  else if csrIsShp c then
    updCtx s tg fun t =>
      { t with shp := (lanesOf lns).foldl (fun m e => mset shpReset m (e * 4 + (c - 0x170)) x.toNat) t.shp }
  else
    updCtx s tg fun t =>
      if c = 0x120 then { t with stktop := maskVa 6 x }
      else if c = 0x121 then { t with stklim := maskVa 6 x }
      else if c = 0x130 then
        (if bitOf 0 x.toNat then { t with dbgPend := true }
         else { clearPendingBits t with dbgPend := false })
      else if c = 0x140 then { t with prvtop := maskVa 16 x }
      else if c = 0x141 then { t with prvhw := maskVa 16 x }
      else if c = 0x142 then { t with prvlo := maskVa 16 x }
      else if c = 0x180 then { t with vstep := x &&& 0xFF03FFFF#64 }
      else if c = 0x181 then { t with mstep := x &&& 0x7FF03FFFF#64 }
      else if c = 0x182 then { t with xstep := x &&& 0x3FFFFFFFFFFFFFF#64 }
      else if c = 0x192 then { t with tvec := maskVa 2 x }
      else if c = 0x193 then { t with tctl := x &&& 1#64 }
      else t

/-- Write one word of an exposed result of a half (R61); a CSR write goes through `wcsr`. -/
def landWrWith (wcsr : State → Nat → Word → Mask → State) (s : State) (g : Nat) (h : HalfId) (w : Wr) :
    State :=
  match w with
  | .s n v => updHalf s g h fun x => wrSH x n v
  | .k n v => updHalf s g h fun x => { x with kreg := mset 0#64 x.kreg n.toNat v }
  | .b n v => updHalf s g h fun x => { x with breg := mset 0#8 x.breg n.toNat v }
  | .v lane n x => wrV s g lane n x
  | .sp lane la n x => landSp s g lane la (bytesOf n x)
  | .shp lane j f x =>
    updCtx s (servedOf s g) fun c =>
      { c with shp := mset shpReset c.shp (lane * 4 + j)
                        (setShpField f x (mget shpReset c.shp (lane * 4 + j))) }
  | .csr c x lns => wcsr s c x lns
/-- Insert a result behind those due no later. -/
def insPend (p : Pend) : List Pend → List Pend
  | [] => [p]
  | q :: l => if p.due < q.due then p :: q :: l else q :: insPend p l
/-- Results in order of due cycle, those due together in order of issue (R61). -/
def sortPend (l : List Pend) : List Pend := l.foldl (fun a p => insPend p a) []
/-- Land results. -/
def landList (wcsr : State → Nat → Word → Mask → State) (s : State) (g : Nat) (h : HalfId) (l : List Pend) :
    State :=
  (sortPend l).foldl (fun s p => p.writes.foldl (fun s w => landWrWith wcsr s g h w) s) s
/-- Drain the replay buffer of a half of an ordinary context (R400). -/
def drainReplay (s : State) (g : Nat) (h : HalfId) : State :=
  let l := ((ctxOf s g).half h).pend
  landList (fun s c x m => writeCsrBase s g c x m) (updHalf s g h fun x => { x with pend := [] }) g h l

/-- Discard the command whose fault was reported last (R400, R308). -/
def discardReported (s : State) (g : Nat) : State :=
  refresh (updCtx s g fun c =>
    { c with cmds := c.cmds.map fun x =>
        if some x.id == c.lastCmd && x.reported then
          { x with flt := none, fin := true, jobs := x.jobs.map fun j => { j with fin := true } }
        else x }) g
/-- A write of ACT to HCMD on the selected context (R400). -/
def hcmd (s : State) (t : Nat) (h : Option HalfId) (act : Nat) : State :=
  let frozen := isFrozen (ctxOf s t)
  if act = 1 then (if frozen then discardReported s t else s)
  else if act = 2 then
    (match h with
    | some h => if frozen then drainReplay s t h else s
    | none => s)
  else if act = 3 then updCtx s t fun c => { c with stopReq := true }
  else if act = 4 then markFatal s t 0x05 t
  else s
/-- Replace a word of stalk entry i, counted from the bottom; a state the part never produces is
refused (R399). -/
def setStalk (split : Bool) (l : List StalkEntry) (i w : Nat) (x : Word) : List StalkEntry :=
  let n := x.toNat
  if l.length ≤ i then l
  else
    let k := l.length - 1 - i
    let hi := BitVec.ofNat 16 (field 48 16 n)
    let va := BitVec.ofNat 64 (field 2 46 n * 4)
    match l[k]? with
    | none => l
    | some e =>
      if w = 0 then
        (if 2 ≤ field 0 2 n || (field 0 2 n == 1 && !split) then l
         else l.set k { e with pend := hi, rpc := va, split := field 0 2 n == 1 })
      else if field 0 2 n != 0 then l
      else l.set k { e with saved := hi, ppc := va }
/-- A write through a per-half view of a frozen context (R399). -/
def writeHalfView (s : State) (t : Nat) (h : HalfId) (c : Nat) (x : Word) : State :=
  let tc := ctxOf s t
  if c = 0x202 then
    let pc := maskVa 2 x
    let s := updHalf s t h fun y => { y with tpc := pc, pc := pc, slot := 0, rep := 0, nextPc := none }
    if tswHalf tc == h then
      updCtx s t fun y => { y with tsw := BitVec.ofNat 64 (setField 32 8 0 (setField 21 3 0 y.tsw.toNat)) }
    else s
  else if c = 0x203 then updHalf s t h fun y => { y with am := x.setWidth 16 }
  else if 0x208 ≤ c && c < 0x248 then
    updHalf s t h fun y =>
      { y with stalk := setStalk tc.spare.isSome y.stalk ((c - 0x208) / 2) ((c - 0x208) % 2) x }
  else if 0x248 ≤ c && c < 0x288 then updHalf s t h fun y => wrSH y (BitVec.ofNat 6 (c - 0x248)) x
  else if 0x288 ≤ c && c < 0x2A8 then
    updHalf s t h fun y => { y with kreg := mset 0#64 y.kreg (c - 0x288) x }
  else if c = 0x2A8 then
    updHalf s t h fun y =>
      { y with breg := (List.range 4).foldl (fun m i => mset 0#8 m i (BitVec.ofNat 8 (field (8 * i) 8 x.toNat)))
                         y.breg }
  else s
/-- A write through a handler view (R399, R400). A resume from slot sa issues the bundle's branch again, and nothing is left
of the one it took before (R216, R401). -/
def writeView (s : State) (g c : Nat) (x : Word) : State :=
  if c = 0x200 then updCtx s g fun y => { y with hsel := x &&& 0xF7#64 }
  else
    match hselCtx s g with
    | none => s
    | some (t, h) =>
      let tc := ctxOf s t
      if c = 0x2AF then hcmd s t h (field 0 4 x.toNat)
      else if !isFrozen tc then s
      else if c = 0x2AA then
        (if field 0 8 x.toNat < tc.vcnt then updCtx s g fun y => { y with hvwin := x &&& 0x1FF#64 } else s)
      else if c = 0x2AB then
        (if field 4 3 x.toNat < tc.acnt then updCtx s g fun y => { y with htwin := x &&& 0x17F#64 } else s)
      else if viewPerHalf c then
        (match h with
        | some h => writeHalfView s t h c x
        | none => s)
      else if c = 0x201 then
        let slot := field 21 3 x.toNat
        let rep := field 32 8 x.toNat
        if 6 ≤ slot then s
        else
          let s := updHalf s t (tswHalf tc) fun y =>
            { y with slot := slot, rep := rep, nextPc := if slot = 0 then none else y.nextPc }
          updCtx s t fun y =>
            { y with tsw := BitVec.ofNat 64 (setField 32 8 rep (setField 21 3 slot y.tsw.toNat)) }
      else if c = 0x204 then updCtx s t fun y => { y with tctl := x &&& 1#64 }
      else if c = 0x205 then updCtx s t fun y => { y with tvec := maskVa 2 x }
      else if c = 0x2A9 then
        (List.range tc.acnt).foldl (fun s a =>
          setAccver s t (field 4 4 (ctxOf s g).hsel.toNat) a (field (6 * a) 6 x.toNat)) s
      else s
/-- Write a CSR as a write lands. -/
def writeCsr (s : State) (g c : Nat) (x : Word) (lns : Mask) : State :=
  if 0x200 ≤ c then writeView s g c x else writeCsrBase s g c x lns

/-- Land the results of a half that are due at or before its issue cycle (R61). -/
def landDue (s : State) (g : Nat) (h : HalfId) : State :=
  let x := (ctxOf s g).half h
  let due := x.pend.filter fun p => p.due ≤ x.cycle
  landList (fun s c v m => writeCsr s g c v m)
    (updHalf s g h fun x => { x with pend := x.pend.filter fun p => !(p.due ≤ x.cycle) }) g h due
/-- Land every result of a half: a switch point (R61). -/
def landHalf (s : State) (g : Nat) (h : HalfId) : State :=
  let l := ((ctxOf s g).half h).pend
  landList (fun s c v m => writeCsr s g c v m) (updHalf s g h fun x => { x with pend := [] }) g h l

/-- How an instruction accesses a CSR. -/
inductive CsrHow where
  | read | write | set | clear
deriving DecidableEq, Repr
/-- The value an access writes (R255). -/
def csrNew (how : CsrHow) (old a : Word) : Word :=
  match how with
  | .read => old
  | .write => a
  | .set => old ||| a
  | .clear => old &&& ~~~a
/-- Whether a half's results of the present issue cycle write a CSR (R234). -/
def writesCsr (beat c : Nat) (p : Pend) : Bool :=
  p.beat == beat && p.writes.any fun w =>
    match w with
    | .csr n _ _ => n == c
    | _ => false
/-- Whether a write of a CSR by the spare half is without effect, since the primary half writes it in the same issue cycle
(R234). -/
def losesCsr (s : State) (c : Nat) : Bool :=
  s.issuer.half == .spare && (cur s).spare.isSome && !csrIsFmt c && !csrIsShp c
    && (cur s).prim.pend.any (writesCsr (cur s).beat c)
/-- A result without its write of a CSR. -/
def dropCsr (c : Nat) (p : Pend) : Pend :=
  { p with writes := p.writes.filter fun w =>
      match w with
      | .csr n _ _ => n != c
      | _ => true }
/-- A write of a CSR by the primary half stands over the spare half's of the same issue cycle (R234). -/
def takeCsr (s : State) (c : Nat) : State :=
  let b := (cur s).beat
  if s.issuer.half == .primary && (cur s).spare.isSome && !csrIsFmt c && !csrIsShp c then
    updHalf s s.issuer.gcn .spare fun x =>
      { x with pend := x.pend.map fun p => if writesCsr b c p then dropCsr c p else p }
  else s
/-- A CSR access with its checks in the order of R392 (R55, R57, R196, R255). -/
def csrAccess (how : CsrHow) (d : SReg) (num : BitVec 12) (a : Word) (s : State) : Outcome :=
  let c := num.toNat
  let g := s.issuer.gcn
  let out := csrIsFmt c && decide ((ctxOf s (csrTarget s g c)).spn ≤ c - 0x100)
  let old := if out then 0#64 else readCsr s c
  let new := csrNew how old a
  let writes := how != .read
  let toHs63 := writes && c == 0x287 && inHandler s &&
    (match hselCtx s g with
    | some (t, some _) =>
      let tc := ctxOf s t
      isFrozen tc && (decide (new < tc.stklim) || decide (tc.stktop < new))
    | _ => false)
  if !csrAssigned c || (writes && csrReadOnly c) || (writes && csrBadValue c new.toNat) then
    raise s causeIllegal
  else if csrHandlerOnly c && !inHandler s then raise s causePrivileged
  else if out then raise s causeSpRange
  else if toHs63 then raise s causeStack
  else
    let put := fun (s : State) (w : List Wr) =>
      if losesCsr s c then (if w.isEmpty then s else addPend s 1 w)
      else addPend (takeCsr s c) 1 (w ++ [.csr c new (csrLanes s)])
    match how with
    | .write => .next (put s [])
    | _ => check63 s d old fun s =>
      let w := if d = 0 then [] else [Wr.s d old]
      .next (if writes then put s w else if d = 0 then s else addPend s 1 w)

/-- R255. -/
def execCsrr (d : SReg) (c : BitVec 12) (s : State) : Outcome := csrAccess .read d c 0#64 s
/-- R255. -/
def execCsrw (c : BitVec 12) (a : SReg) (s : State) : Outcome := csrAccess .write 0 c (rdS s a) s
/-- R255. -/
def execCsrset (d : SReg) (c : BitVec 12) (a : SReg) (s : State) : Outcome :=
  csrAccess .set d c (rdS s a) s
/-- R255. -/
def execCsrclr (d : SReg) (c : BitVec 12) (a : SReg) (s : State) : Outcome :=
  csrAccess .clear d c (rdS s a) s

end Sys2Proof.Machine
end

