-- ==== Sys2Proof/Machine/Gang.lean ====
section
/-!
DEFINITION. Gang slot instructions (chapter 13): votes and masks, the stalk (R188 to R195), exchange of
registers and scratchpad runs between lanes. Stalk entries are held newest first.
-/
namespace Sys2Proof.Machine

/-- A gang instruction is illegal in the handler slot (R325). -/
def gang (s : State) (k : Outcome) : Outcome := if inHandler s then raise s causeIllegal else k
/-- Entries the issuing sequencer's stalk holds (R188, R192). -/
def stalkCap (s : State) : Nat := if s.issuer.half == .spare then 8 else 32
/-- Push a stalk entry with AM narrowed, or the stalk-overflow trap (R189, R330). -/
def pushStalk (s : State) (e : StalkEntry) (m : Mask) (k : State → Outcome) : Outcome :=
  if stalkCap s ≤ (curH s).stalk.length then raise s 0x0F
  else k (updH s fun h => { h with stalk := e :: h.stalk, am := m })
/-- Word C as a condition mask (R329). -/
def condMask (s : State) (c : SReg) : Mask := (rdS s c).setWidth 16
/-- R189: the divergent branch. -/
def diverge (s : State) (c : Mask) (tgt rpc : Word) (k : State → Outcome) : Outcome :=
  let t := am s &&& c
  let n := am s &&& ~~~c
  if t = 0 then k s
  else if n = 0 then k (setPc s tgt)
  else
    pushStalk s ⟨n, rpc, false, am s, maskVa 2 (curH s).ft⟩ t fun s => k (setPc s tgt)
/-- The reconvergence address of `gbr` and `gsplit`, none when it is reserved (R329). -/
def rpcOf (s : State) (off : W32) : Option Word :=
  let r := relTarget s off
  if 2 ^ 48 ≤ r.toNat then none else some r
/-- Whether the spare sequencer of the pod is taken by a context that is split or about to split (R191). -/
def spareTaken (s : State) (p : Nat) : Bool :=
  [0, 1, 2, 3].any fun n =>
    let c := ctxOf s (p * 8 + n)
    c.spare.isSome || (match c.prim.wait with
      | .split .. => true
      | _ => false)

/-- R209. -/
def execGnop (s : State) : Outcome := .next s
/-- R328: latency 4. -/
def execGvote (t : Bool) (d : SReg) (a : VOp) (el : BitVec 6) (s : State) : Outcome :=
  gang s <| withRegs s [a] <| withSettled s [vnum s a] <|
    let r := maskOf fun e => inMask (am s) e &&
      (let x := elemV (rdVO s e a) el.toNat
       if t then !isZero32 x else x != 0#32)
    putS s d (r.setWidth 64) 4
/-- R329, R189. -/
def execGbr (c : SReg) (off : BitVec 18) (rpc : W32) (s : State) : Outcome :=
  gang s <|
    match rpcOf s rpc with
    | none => raise s causeIllegal
    | some r => diverge s (condMask s c) (relTarget s off) r fun s => .next s
/-- R329, R191, R192: a switch point whether or not it splits. -/
def execGsplit (c : SReg) (off : BitVec 18) (rpc : W32) (s : State) : Outcome :=
  gang s <|
    match rpcOf s rpc with
    | none => raise s causeIllegal
    | some r =>
      let t := am s &&& condMask s c
      let n := am s &&& ~~~(condMask s c)
      if t = 0 || n = 0 || (cur s).spare.isSome || spareTaken s (podOf s.issuer.gcn) then
        diverge s (condMask s c) (relTarget s off) r fun s =>
          .next (updH s fun h => { h with switchReq := true })
      else if stalkCap s ≤ (curH s).stalk.length then raise s 0x0F
      else .next (waitAt s (.split t n (relTarget s off) (maskVa 2 (curH s).ft) r) true)
/-- R330: always pushes. -/
def execGpush (c : SReg) (off : BitVec 18) (s : State) : Outcome :=
  gang s <|
    pushStalk s ⟨0, maskVa 2 (relTarget s off), false, am s, 0⟩ (am s &&& condMask s c) fun s => .next s
/-- R331. -/
def execGpop (s : State) : Outcome :=
  gang s <|
    match (curH s).stalk with
    | [] => raise s 0x10
    | e :: l => if e.split then raise s 0x10 else .next (updH s fun h => { h with stalk := l, am := e.saved })
/-- R328: AM and the depth of the stalk, latency 4. -/
def execGmsave (d : SReg) (s : State) : Outcome :=
  gang s <|
    putS s d (BitVec.ofNat 64 (setField 16 6 (curH s).stalk.length (am s).toNat)) 4
/-- The lanes that `gmrest` may enable (R328). -/
def restLimit (h : Half) : Mask :=
  match h.stalk with
  | e :: _ => if e.split then h.own else e.saved &&& ~~~e.pend
  | [] => h.own
/-- R328. -/
def execGmrest (a : SReg) (s : State) : Outcome :=
  gang s <| .next (updH s fun h => { h with am := (rdS s a).setWidth 16 &&& restLimit h })

/-- The source lane that a permutation word names for lane j (R333). -/
def permLane (w : Word) (j : Nat) : Nat := field (4 * j) 4 w.toNat
/-- Lanes of `xs` in which a register is pending (R64). -/
def pendingIn (s : State) (xs : List Nat) (r : Nat) : Bool := xs.any fun e => pendingV s e r
/-- An exchange of registers: destination lane j receives what `f j` gives, if any, at latency 12; `src`
are the lanes whose A is read (R325, R333). An exchange that writes no lane leaves a replay entry without writes, which
HRPL counts: R397 and R399 do not say (DESIGN CHOICE, log entry 34). -/
def exchange (s : State) (d a : VOp) (src : List Nat) (f : Nat → Option VReg) : Outcome :=
  gang s <| withRegs s [d, a] <|
    if pendingIn s src (vnum s a) then raise s causePending
    else
      let ws := (lanes s).filterMap fun j => (f j).map fun x => Wr.v j (vnum s d) x
      .next (addPend s 12 ws)
/-- R333. -/
def execGshuf (d a : VOp) (p : SReg) (s : State) : Outcome :=
  let w := rdS s p
  let ok := fun j => inMask (am s) (permLane w j)
  exchange s d a (((lanes s).filter ok).map (permLane w)) fun j =>
    if ok j then some (rdVO s (permLane w j) a) else none
/-- R333. -/
def execGbcast (first : Bool) (lane : BitVec 4) (d a : VOp) (s : State) : Outcome :=
  if first && lane != 0 then raise s causeIllegal
  else
    let l := if first then (firstLane (am s)).getD 0 else lane.toNat
    let ok := inMask (am s) l
    exchange s d a (if ok then [l] else []) fun _ => if ok then some (rdVO s l a) else none
/-- A combination of `gred` on one element (R334). -/
def redOp (op : RedOp) (x y : W32) : W32 :=
  match op with
  | .fsum => fadd .rne x y
  | .fmax => fmaxN x y
  | .fmin => fminN x y
  | .isum => x + y
  | .imax => if x.slt y then y else x
  | .imin => if x.slt y then x else y
  | .and => x &&& y
  | .or => x ||| y
  | .xor => x ^^^ y
/-- A NaN result of a float operator is the canonical NaN (R334). -/
def redResult (op : RedOp) (x : W32) : W32 :=
  match op with
  | .fsum | .fmax | .fmin => canon32 x
  | _ => x
/-- Combine two lanes of which one or both may be absent (R334). -/
def redPair (op : RedOp) (x y : Option W32) : Option W32 :=
  match x, y with
  | some a, some b => some (redOp op a b)
  | some a, none => some a
  | none, y => y
/-- The tree of R334 over sixteen lanes. -/
def redTree (op : RedOp) (x : List (Option W32)) : Option W32 :=
  [8, 4, 2, 1].foldl (fun l n =>
    (List.range n).map fun i => redPair op (l.getD i none) (l.getD (i + n) none)) x |>.getD 0 none
/-- R334. -/
def execGred (op : RedOp) (d a : VOp) (s : State) : Outcome :=
  let src := (List.range 16).map fun e => if inMask (am s) e then some (rdVO s e a) else none
  let x := packV fun i =>
    redResult op ((redTree op (src.map fun (v : Option VReg) => v.map fun v => elemV v i)).getD 0#32)
  exchange s d a (lanes s) fun _ => some x

/-- Insert a lane by (key, lane). -/
def insKey (key : Nat → Nat) (e : Nat) : List Nat → List Nat
  | [] => [e]
  | x :: l => if key e < key x || (key e == key x && decide (e < x)) then e :: x :: l
              else x :: insKey key e l
/-- The order L of R335. -/
def groupOrder (m : Mask) (key : Nat → Nat) : List Nat :=
  (lanesOf m).foldl (fun l e => insKey key e l) [] ++ (List.range 16).filter fun e => !inMask m e
/-- The two words of R335. -/
def groupWords (m : Mask) (inv : Bool) (key : Nat → Nat) : Word × Word :=
  let l := groupOrder m key
  let n := (lanesOf m).length
  let w := if inv then packNat 4 16 fun e => (l.findIdx? (· == e)).getD 0
           else packNat 4 16 fun j => l.getD j 0
  let starts := packNat 1 16 fun j =>
    bit (decide (j < n) && (j == 0 || key (l.getD j 0) != key (l.getD (j - 1) 0)))
  (BitVec.ofNat 64 w, BitVec.ofNat 64 (setField 16 5 n starts))
/-- R335: both registers land together at latency 16. -/
def execGregroup (inv : Bool) (d : SReg) (a : VOp) (el : BitVec 6) (s : State) : Outcome :=
  if inHandler s || d = 0 || d = 63 then raise s causeIllegal
  else withRegs s [a] <| withSettled s [vnum s a] <|
    let r := groupWords (am s) inv fun e => (elemV (rdVO s e a) el.toNat).toNat
    check63 s (d + 1) r.2 fun s => .next (addPend s 16 [.s d r.1, .s (d + 1) r.2])

/-- R336: every source byte is read at issue, after the stores of the context; a transfer command. The manual leaves the
moment open between the issue and the first write (R170): the model reads at issue (DESIGN CHOICE, log entry 8). -/
def execGshuft (kb : KReg) (p : SReg) (s : State) : Outcome :=
  gang s <|
    let w := (rdK s kb).toNat
    let perm := rdS s p
    let rb := field 48 15 w
    let dla := field 18 18 w
    let sla := field 0 18 w
    let g := s.issuer.gcn
    let from_ := fun j => if inMask (am s) (permLane perm j) then some (permLane perm j) else none
    if bitOf 63 w || field 36 12 w != 0 || rb == 0 || decide (16384 < rb) then raise s causeIllegal
    else if !(lanes s).isEmpty && (!inBank s g sla rb || !inBank s g dla rb) then raise s causeSpRange
    else if (lanes s).any fun j => match from_ j with
        | some e => pendingSp s e sla rb
        | none => false then raise s causePending
    else
      let s := settleSp s g
      let job := fun j => match from_ j with
        | some e => { LaneJob.start j (0, 1, 0) with a := rdSpRow s g e sla rb }
        | none => LaneJob.start j (0, 0, 0)
      let dests := (lanes s).filterMap fun j => (from_ j).map fun _ => inLane (j, dla, rb)
      .next (issueX s (.gshuft kb p) [rdK s kb] ((lanes s).map job) dests)

end Sys2Proof.Machine
end

