-- ==== Sys2Proof/Machine/Grammar.lean ====
section
/-!
DEFINITION. The grammar unit (chapter 14): the checks of grammar instructions at issue (R352), images,
walks and masks (R340 to R349), and the slot step and completion of a grammar command (R353 to R361).
-/
namespace Sys2Proof.Machine

/-- Where a grammar command may write memory, as bytes from an address: the start of a bound arena, the arenas its advances
push nodes in, those of binds still to be made among them, or a save record (R355, R358, R361). -/
def gramStores (c : Ctx) (op : Instr) (ks : List Word) : List (Nat × Nat) :=
  match op with
  | .pdabind .. => [(blk ks 2, 32)]
  | .pdaadv .. =>
    (c.handles.filterMap fun x => x.2.map fun sl => (sl.arenava, 16 * sl.alim))
      ++ c.cmds.filterMap fun x =>
        match x.op with
        | .pdabind .. => if x.stepped || x.fin then none else some (blk x.ks 2, 16 * field 0 32 (blk x.ks 0))
        | _ => none
  | .pdasave .. => [(blk ks 1, 320)]
  | _ => []
/-- Issue of a grammar instruction (R350 to R353); the stack-cache lines it may write go (R70): `ks` its staging block,
`w0` to `w2` the widths of P, GA1 and GA2, `bad` the cases of check 3, `mk` the SPREAD of a `pdamask`. -/
def gramIssue (s : State) (op : Instr) (ks : Option (List Word)) (res : Bool) (w0 w1 w2 : Nat)
    (bad : Nat → Nat → Nat → Bool) (mk : Option Bool) : Outcome :=
  match ks with
  | none => raise s causeIllegal
  | some ks =>
    let g := s.issuer.gcn
    let g0 := blk ks 0
    let g1 := blk ks 1
    let g2 := blk ks 2
    let lane := field 60 4 g0
    let rla := field 40 18 g0
    let dla := field 0 18 g1
    let n := field 36 18 g1 / 8
    if inHandler s || field 58 2 g0 != 0 || field 0 40 g0 / 2 ^ w0 != 0 || g1 / 2 ^ w1 != 0
        || g2 / 2 ^ w2 != 0 || bad g0 g1 g2
        || (am s != 0 && (res || mk == some false) && !inMask (am s) lane) then raise s causeIllegal
    else if rla % 8 != 0 || (mk.isSome && dla % 8 != 0)
        || (am s != 0 && ((res && !inBank s g rla 8) || (mk.isSome && !inBank s g dla n))) then raise s causeSpRange
    else
      let s := flushStores (settleSp s g) g
      let s := if am s = 0 then s else dropStack s (gramStores (cur s) op ks)
      let id := (cur s).nextCmd
      let s := issueCmd s .grammar op ks 0 ((lanes s).map fun e => LaneJob.start e (0, 1, 0))
      let d := destsOf s (((if res then [(lane, rla, 8)] else []) ++ (match mk with
        | none => []
        | some true => (lanes s).map fun e => (e, dla, n)
        | some false => [(lane, dla, n)])).map inLane)
      let s := updCur s fun c =>
        { c with cmds := c.cmds.map fun x => if x.id == id then { x with dests := d } else x }
      .next (updH s fun h => { h with stX := none })

/-- R355: KB length 3; P is ALIM, at least 2; IMGVA and ARENAVA multiples of 64. -/
def execPdabind (h : Handle) (res : Bool) (kb : KReg) (s : State) : Outcome :=
  gramIssue s (.pdabind h res kb) (block s kb 3) res 32 48 48
    (fun a b c => decide (field 0 32 a < 2) || b % 64 != 0 || c % 64 != 0) none
/-- R356: reads no staging register. -/
def execPdaunbind (h : Handle) (s : State) : Outcome :=
  gramIssue s (.pdaunbind h) (some []) false 0 0 0 (fun _ _ _ => false) none
/-- R356. -/
def execPdaunbindRes (h : Handle) (kb : KReg) (s : State) : Outcome :=
  gramIssue s (.pdaunbindRes h kb) (block s kb 1) true 0 0 0 (fun _ _ _ => false) none
/-- R357: TOK0 and NTOK multiples of 64, NTOK 64 to 131,072. -/
def execPdamask (spread : Bool) (h : Handle) (res : Bool) (kb : KReg) (s : State) : Outcome :=
  gramIssue s (.pdamask spread h res kb) (block s kb 2) res 0 54 0
    (fun _ b _ => field 18 18 b % 64 != 0 || field 36 18 b % 64 != 0 || field 36 18 b == 0
      || decide (131072 < field 36 18 b)) (some spread)
/-- R358. -/
def execPdaadv (h : Handle) (res : Bool) (kb : KReg) (s : State) : Outcome :=
  gramIssue s (.pdaadv h res kb) (block s kb 1) res 18 0 0 (fun _ _ _ => false) none
/-- R359. -/
def execPdafork (h : Handle) (res : Bool) (kb : KReg) (s : State) : Outcome :=
  gramIssue s (.pdafork h res kb) (block s kb 1) res 3 0 0 (fun _ _ _ => false) none
/-- R360. -/
def execPdamark (h : Handle) (res : Bool) (kb : KReg) (s : State) : Outcome :=
  gramIssue s (.pdamark h res kb) (block s kb 1) res 0 0 0 (fun _ _ _ => false) none
/-- R360. -/
def execPdaroll (h : Handle) (res : Bool) (kb : KReg) (s : State) : Outcome :=
  gramIssue s (.pdaroll h res kb) (block s kb 1) res 4 0 0 (fun _ _ _ => false) none
/-- R361: SVA a multiple of 64. -/
def execPdasave (h : Handle) (res : Bool) (kb : KReg) (s : State) : Outcome :=
  gramIssue s (.pdasave h res kb) (block s kb 2) res 0 48 0 (fun _ b _ => b % 64 != 0) none
/-- R361. -/
def execPdarest (h : Handle) (res : Bool) (kb : KReg) (s : State) : Outcome :=
  gramIssue s (.pdarest h res kb) (block s kb 2) res 0 48 0 (fun _ b _ => b % 64 != 0) none

/-- Result of work of the grammar unit: done, waits with the requests that its slices have refused (R110), a CODE of R354,
or a failed access; the state of the last two holds what the reads before them repaired and counted (R111). -/
inductive GR (α : Type) where
  | ok (a : α) (s : State)
  | wait (l : List Ask)
  | code (n : Nat) (s : State)
  | access (f : MFault) (va : Nat) (s : State)
/-- Go on after work that is done. -/
def GR.bind {α β : Type} (x : GR α) (k : α → State → GR β) : GR β :=
  match x with
  | .ok a s => k a s
  | .wait l => .wait l
  | .code n s => .code n s
  | .access f va s => .access f va s

/-- CODEs of R354. -/
def gRejected : Nat := 1
def gEnd : Nat := 2
def gUnbound : Nat := 8
def gImage : Nat := 9
def gArena : Nat := 0xA
def gDepth : Nat := 0xB
def gNoMark : Nat := 0xC
def gAccess : Nat := 0xD
def gRecord : Nat := 0xE

/-- A grammar read of n bytes as a number (R339, R70). -/
def gRead (g : Nat) (c : Cmd) (s : State) (va n : Nat) : GR Nat :=
  match cmdReadAs .gread s (.gram g c.id) g c va n .normal with
  | .ok bs s => .ok (ofBytes bs) s
  | .wait l => .wait l
  | .fault f s => .access f va s
/-- Every write of a step is translated and checked before the first takes effect, since a step that fails at a write has
written nothing (R354); what the checks repair and count stays (R111). -/
def gCheckWrites (g : Nat) (c : Cmd) : State → List (Nat × List Byte) → GR Unit
  | s, [] => .ok () s
  | s, (va, bs) :: l =>
    match (xlate (cmdAgent s g c) .gwrite (pieces bs.length) s va bs.length).bind fun l s => segsReady s l with
    | .ok _ s => gCheckWrites g c s l
    | .wait l => .wait l
    | .fault f s => .access f va s
/-- Grammar writes in order, each a VA with its bytes, from the state before the first (R339, R70). -/
def gWrites (g : Nat) (c : Cmd) (s0 : State) : State → List (Nat × List Byte) → GR Unit
  | s, [] => .ok () s
  | s, (va, bs) :: l =>
    match cmdWriteAs .gwrite s (.gram g c.id) g c va bs .normal with
    | .ok _ s => gWrites g c s0 s l
    | .wait l => .wait l
    | .fault f _ => .access f va s0

/-- An image header (R340). -/
structure GImg where
  va : Nat
  ns : Nat
  nt : Nat
  eos : Nat
  start : Nat
  bot : Nat
  size : Nat
  stoff : Nat
  trie : Nat
  tok : Nat
deriving DecidableEq, Repr
/-- Read the header at a VA. -/
def gHeader (g : Nat) (c : Cmd) (s : State) (va : Nat) : GR (GImg × Nat) :=
  (gRead g c s va 64).bind fun w s =>
    let f := fun i => field (32 * i) 32 w
    .ok (⟨va, f 2, f 3, f 4, f 5, f 6, f 8, f 9, f 10, f 11⟩, w) s
/-- The checks of R344 on a header and its tables. A TRIEOFF at or above SIZE is found where a node is read, although R340 has
SIZE bound every offset: R344 names the state table and the token table alone (DESIGN CHOICE, log entry 34). -/
def gHeaderOk (m : GImg) (w : Nat) : Bool :=
  m.va % 64 == 0 && field 0 32 w == 0x52475053 && field 32 32 w == 0x00010000
    && 1 ≤ m.ns && m.ns ≤ 1048576 && 1 ≤ m.nt && m.nt ≤ 262144
    && (m.eos < m.nt || m.eos == 0xFFFFFFFF) && m.start < m.ns && (m.bot < m.ns || m.bot == 0xFFFFFFFF)
    && field 224 32 w == 0 && field 384 128 w == 0 && 64 ≤ m.size && m.stoff % 32 == 0 && m.trie % 8 == 0
    && m.tok % 4 == 0 && m.stoff + 32 * m.ns ≤ m.size && m.tok + 4 * m.nt ≤ m.size
/-- Read and check a header (R344). -/
def gChecked (g : Nat) (c : Cmd) (s : State) (va : Nat) : GR GImg :=
  if va % 64 ≠ 0 then .code gImage s
  else (gHeader g c s va).bind fun x s => if gHeaderOk x.1 x.2 then .ok x.1 s else .code gImage s

/-- Read n bytes at an offset of an image; SIZE bounds every offset (R340, R344). -/
def gGet (g : Nat) (c : Cmd) (m : GImg) (s : State) (off n : Nat) : GR Nat :=
  if m.size < off + n then .code gImage s else gRead g c s (m.va + off) n
/-- A state record (R341). -/
structure GState where
  troff : Nat
  trn : Nat
  allow : Nat
  rej : Nat
  cdl : Nat
  cdln : Nat
/-- Read the record of state q. A state at or above NSTATE, an arena node's SYM among them, a TRN above 257, and an offset
that is not aligned are the fault IMAGE, which R344 and R349 do not say (DESIGN CHOICE, log entry 34). -/
def gState (g : Nat) (c : Cmd) (m : GImg) (s : State) (q : Nat) : GR GState :=
  if m.ns ≤ q then .code gImage s
  else (gGet g c m s (m.stoff + 32 * q) 32).bind fun w s =>
    let f := fun i => field (32 * i) 32 w
    let r : GState := ⟨f 0, f 1, f 2, f 3, f 4, f 5⟩
    if w / 2 ^ 192 != 0 || r.troff % 8 != 0 || decide (257 < r.trn) || r.allow % 8 != 0
        || (r.cdln != 0 && r.cdl % 4 != 0) then .code gImage s
    else .ok r s
/-- Whether token t is in the mask at an offset (R341). -/
def gInMask (g : Nat) (c : Cmd) (m : GImg) (s : State) (off t : Nat) : GR Bool :=
  if off = 0 then .ok false s
  else (gGet g c m s (off + t / 8) 1).bind fun b s => .ok (bitOf (t % 8) b) s
/-- Whether token t is in the list of a state (R341). The whole list is read as one access, also behind a token that is found,
like a header or record: the manual does not say how the unit splits its reads, so TFVA or MEVA of one that fails is its first
address (DESIGN CHOICE, log entry 13). -/
def gInList (g : Nat) (c : Cmd) (m : GImg) (s : State) (r : GState) (t : Nat) : GR Bool :=
  if r.cdln = 0 then .ok false s
  else (gGet g c m s r.cdl (4 * r.cdln)).bind fun w s =>
    .ok ((List.range r.cdln).any fun i => field (32 * i) 32 w == t) s
/-- The transition for symbol x among n records from an offset: ACT, TARGET, RET (R342, R344). LO or HI above 256 is the
fault IMAGE, which R344 does not say, and so is a defect of a transition that is read before the first match and does not
cover x: R344 leaves open whether it is met (DESIGN CHOICE, log entry 34). -/
def gTrans (g : Nat) (c : Cmd) (m : GImg) (x : Nat) : Nat → Nat → State → GR (Option (Nat × Nat × Nat))
  | 0, _, s => .ok none s
  | n + 1, off, s =>
    (gGet g c m s off 8).bind fun w s =>
      let act := field 18 2 w
      let lo := field 0 9 w
      let hi := field 9 9 w
      let tgt := field 20 20 w
      let ret := field 40 20 w
      if w / 2 ^ 60 != 0 || decide (256 < lo) || decide (256 < hi) || (act != 1 && ret != 0)
          || (decide (1 < act) && tgt != 0) || (decide (act < 2) && decide (m.ns ≤ tgt))
          || (act == 1 && decide (m.ns ≤ ret)) then .code gImage s
      else if lo ≤ x && x ≤ hi then .ok (some (act, tgt, ret)) s
      else gTrans g c m x n (off + 8) s

/-- The path from trie node n to the root, before the bytes read so far; `d` is the DEPTH of the node
below, 0 for none (R343). -/
def gPath (g : Nat) (c : Cmd) (m : GImg) : Nat → Nat → Nat → List Nat → State → GR (List Nat)
  | 0, _, _, _, s => .code gImage s
  | fuel + 1, n, d, acc, s =>
    (gGet g c m s (m.trie + 8 * n) 8).bind fun w s =>
      let dep := field 40 8 w
      let up := field 0 32 w
      if w / 2 ^ 48 != 0 || dep == 0 || decide (64 < dep) || (d != 0 && dep + 1 != d)
          || (up == 0 && dep != 1) then .code gImage s
      else if up = 0 then .ok (field 32 8 w :: acc) s
      else gPath g c m fuel up dep (field 32 8 w :: acc) s
/-- The trie node of a token (R343). -/
def gNode (g : Nat) (c : Cmd) (m : GImg) (s : State) (t : Nat) : GR Nat := gGet g c m s (m.tok + 4 * t) 4
/-- The symbols of token t; none when it has no string (R343). -/
def gString (g : Nat) (c : Cmd) (m : GImg) (s : State) (t : Nat) : GR (Option (List Nat)) :=
  if t = m.eos then .ok (some [256]) s
  else (gNode g c m s t).bind fun n s =>
    if n = 0 then .ok none s
    else (gPath g c m 65 n 0 [] s).bind fun l s => .ok (some l) s

/-- A configuration within a walk (R345): nodes pushed by the walk, newest first, as (index, SYM, NEXT),
and the CURSOR once an advance has read it (R348). -/
structure GWalk where
  state : Nat
  top : Nat
  depth : Nat
  new : List (Nat × Nat × Nat)
  cursor : Option Nat
/-- What a step or walk gives. -/
inductive GStepR where
  | reject
  | ok (w : GWalk)
  | accepted
/-- A node below the walk's own pushes, from the arena (R345, R348). -/
def gTop (g : Nat) (c : Cmd) (arena : Nat) (w : GWalk) (s : State) : GR (Nat × Nat) :=
  match w.new.find? fun x => x.1 == w.top with
  | some x => .ok x.2 s
  | none => (gRead g c s (arena + 16 * w.top) 8).bind fun v s => .ok (field 0 32 v, field 32 32 v) s
/-- A push: of a mask's walk within the walk, of an advance onto node CURSOR (R345, R348, R358). -/
def gPush (g : Nat) (c : Cmd) (sl : GSlot) (alloc : Bool) (w : GWalk) (ret tgt : Nat) (s : State) : GR GStepR :=
  if w.depth = 65535 then (if alloc then .code gDepth s else .ok .reject s)
  else if !alloc then
    let i := 2 ^ 32 + w.new.length
    .ok (.ok { w with state := tgt, top := i, depth := w.depth + 1, new := (i, ret, w.top) :: w.new }) s
  else
    let go := fun (i : Nat) (s : State) =>
      if sl.alim ≤ i then GR.code gArena s
      else .ok (GStepR.ok { w with state := tgt, top := i, depth := w.depth + 1,
                                   new := (i, ret, w.top) :: w.new, cursor := some (i + 1) }) s
    match w.cursor with
    | some i => go i s
    | none => (gRead g c s sl.arenava 4).bind go
/-- Process one symbol (R345); the fuel is the pops left plus one. -/
def gStepSym (g : Nat) (c : Cmd) (m : GImg) (sl : GSlot) (alloc : Bool) (x : Nat) :
    Nat → GWalk → State → GR GStepR
  | 0, _, s => .ok .reject s
  | fuel + 1, w, s =>
    (gState g c m s w.state).bind fun r s =>
      (gTrans g c m x r.trn r.troff s).bind fun t s =>
        match t with
        | none => .ok .reject s
        | some (act, tgt, ret) =>
          if act = 0 then (if x = 256 then .ok .reject s else .ok (.ok { w with state := tgt }) s)
          else if act = 1 then (if x = 256 then .ok .reject s else gPush g c sl alloc w ret tgt s)
          else if act = 2 then
            (if w.depth = 0 || fuel = 0 then .ok .reject s
             else (gTop g c sl.arenava w s).bind fun n s =>
               gStepSym g c m sl alloc x fuel { w with state := n.1, top := n.2, depth := w.depth - 1 } s)
          else if x = 256 then .ok .accepted s else .ok .reject s
/-- A walk over symbols (R345): the last must be ok, or for the end accepted. -/
def gWalk (g : Nat) (c : Cmd) (m : GImg) (sl : GSlot) (alloc : Bool) : List Nat → GWalk → State → GR GStepR
  | [], w, s => .ok (.ok w) s
  | x :: l, w, s =>
    (gStepSym g c m sl alloc x 65 w s).bind fun r s =>
      match r with
      | .ok w => gWalk g c m sl alloc l w s
      | .accepted => .ok .accepted s
      | .reject => .ok .reject s
/-- A walk starts at the slot's configuration. -/
def gWalkStart (sl : GSlot) : GWalk := ⟨sl.state, sl.top, sl.depth, [], none⟩
/-- Whether a walk succeeded. -/
def GStepR.good : GStepR → Bool
  | .reject => false
  | _ => true
/-- Bit t of the mask of a configuration, tested in the order of R346. -/
def gBit (g : Nat) (c : Cmd) (m : GImg) (sl : GSlot) (t : Nat) (s : State) : GR Bool :=
  if m.nt ≤ t || sl.fin then .ok false s
  else (gState g c m s sl.state).bind fun r s =>
    (gInMask g c m s r.rej t).bind fun inRej s =>
      if inRej then .ok false s
      else (gInMask g c m s r.allow t).bind fun inAllow s =>
        if inAllow then
          (if t = m.eos then .ok true s else (gNode g c m s t).bind fun n s => .ok (n != 0) s)
        else (gInList g c m s r t).bind fun inList s =>
          if !inList then .ok false s
          else (gString g c m s t).bind fun l s =>
            match l with
            | none => .ok false s
            | some l => (gWalk g c m sl false l (gWalkStart sl) s).bind fun x s => .ok x.good s
/-- Bits base to base + n − 1 of a mask as a number (R357). Where several tokens fault, the first in the order of lanes and
tokens gives CODE and the record: the manual does not say which (DESIGN CHOICE, log entry 13). -/
def gBits (g : Nat) (c : Cmd) (m : GImg) (sl : GSlot) (base : Nat) : Nat → State → GR Nat
  | 0, s => .ok 0 s
  | n + 1, s =>
    (gBits g c m sl base n s).bind fun v s =>
      (gBit g c m sl (base + n) s).bind fun b s => .ok (v + bit b * 2 ^ n) s
/-- The mask bytes of each lane (R357). -/
def gMasks (g : Nat) (c : Cmd) (m : GImg) (sl : GSlot) (dla n : Nat) :
    List (Nat × Nat) → State → GR (List (Nat × Nat × List Byte))
  | [], s => .ok [] s
  | (e, base) :: l, s =>
    (gBits g c m sl base n s).bind fun v s =>
      (gMasks g c m sl dla n l s).bind fun r s => .ok ((e, dla, bytesOf (n / 8) v) :: r) s

/-- What a slot step does: its CODE, the new binding of H if it changes, memory writes, mask bytes. -/
structure GEffect where
  code : Nat
  slot : Option (Option GSlot)
  writes : List (Nat × List Byte)
  outs : List (Nat × Nat × List Byte)
/-- The configuration of a slot as a mark (R360). -/
def gMarkOf (sl : GSlot) : GMark := ⟨sl.state, sl.fin, sl.top, sl.depth, sl.pos⟩
/-- A slot at a mark. -/
def gAt (sl : GSlot) (k : GMark) (ring : List GMark) : GSlot :=
  { sl with state := k.state, fin := k.fin, top := k.top, depth := k.depth, pos := k.pos, marks := ring }
/-- The save record as 40 words (R361). -/
def gRecordWords (sl : GSlot) : List Nat :=
  [sl.imgva, sl.arenava, sl.alim, setField 20 1 (bit sl.fin) sl.state,
    setField 48 5 sl.marks.length (setField 32 16 sl.depth sl.top), sl.pos, 0, 0]
  ++ (List.range 16).flatMap fun i =>
    match sl.marks[i]? with
    | some k => [setField 32 32 k.top (setField 20 1 (bit k.fin) k.state), setField 32 16 k.depth k.pos]
    | none => [0, 0]
/-- A ring entry of a record (R361). -/
def gMarkAt (w : Nat → Nat) (i : Nat) : GMark :=
  ⟨field 0 20 (w (8 + 2 * i)), bitOf 20 (w (8 + 2 * i)), field 32 32 (w (8 + 2 * i)),
    field 32 16 (w (9 + 2 * i)), field 0 32 (w (9 + 2 * i))⟩
/-- The RECORD checks that need no header (R361). -/
def gRecordOk (w : Nat → Nat) : Bool :=
  let n := field 48 5 (w 4)
  field 48 16 (w 0) == 0 && field 48 16 (w 1) == 0 && field 32 32 (w 2) == 0 && w 3 / 2 ^ 21 == 0
    && w 4 / 2 ^ 53 == 0 && field 32 32 (w 5) == 0 && w 6 == 0 && w 7 == 0 && n ≤ 16 && 2 ≤ w 2
    && (List.range n).all fun i => field 21 11 (w (8 + 2 * i)) == 0 && field 48 16 (w (9 + 2 * i)) == 0

/-- The handle, RES and staging of a grammar command. -/
def gParts (i : Instr) : Option (Handle × Bool) :=
  match i with
  | .pdabind h r _ => some (h, r)
  | .pdaunbind h => some (h, false)
  | .pdaunbindRes h _ => some (h, true)
  | .pdamask _ h r _ => some (h, r)
  | .pdaadv h r _ => some (h, r)
  | .pdafork h r _ => some (h, r)
  | .pdamark h r _ => some (h, r)
  | .pdaroll h r _ => some (h, r)
  | .pdasave h r _ => some (h, r)
  | .pdarest h r _ => some (h, r)
  | _ => none
/-- The binding of a handle. -/
def gSlot (s : State) (g : Nat) (h : Handle) : Option GSlot := mget none (ctxOf s g).handles h.toNat
/-- Lanes and first tokens of a mask (R357). -/
def gLanes (c : Cmd) (spread : Bool) : List (Nat × Nat) :=
  let n := field 36 18 (blk c.ks 1)
  let t := field 18 18 (blk c.ks 1)
  if spread then c.jobs.map fun j => (j.lane, t + j.lane * n) else [(field 60 4 (blk c.ks 0), t)]

/-- R355: bind. -/
def gBind (g : Nat) (c : Cmd) (s : State) : GR GEffect :=
  let arena := blk c.ks 2
  (gChecked g c s (blk c.ks 1)).bind fun m s =>
    let b := m.bot != 0xFFFFFFFF
    .ok ⟨0, some (some ⟨m.va, arena, field 0 32 (blk c.ks 0), m.start, false, bit b, bit b, 0, []⟩),
      (arena, bytesOf 4 (if b then 2 else 1)) :: (if b then [(arena + 16, bytesOf 16 m.bot)] else []), []⟩ s
/-- R347, R358: advance by a token. -/
def gAdvance (g : Nat) (c : Cmd) (sl : GSlot) (s : State) : GR GEffect :=
  let t := field 0 18 (blk c.ks 0)
  (gHeader g c s sl.imgva).bind fun x s =>
    let m := x.1
    (gBit g c m sl t s).bind fun b s =>
      if !b then .ok ⟨gRejected, none, [], []⟩ s
      else
        let pos := (sl.pos + 1) % 2 ^ 32
        (gString g c m s t).bind fun l s =>
          (gWalk g c m sl true (l.getD []) (gWalkStart sl) s).bind fun r s =>
            match r with
            | .reject => .code gImage s
            | .accepted => .ok ⟨gEnd, some (some { sl with fin := true, pos := pos }), [], []⟩ s
            | .ok w =>
              let nodes := w.new.reverse.map fun n =>
                (sl.arenava + 16 * n.1, bytesOf 16 (n.2.1 + 2 ^ 32 * n.2.2))
              let cur := match w.cursor with
                | some i => [(sl.arenava, bytesOf 4 i)]
                | none => []
              .ok ⟨0, some (some { sl with state := w.state, top := w.top, depth := w.depth, pos := pos }),
                nodes ++ cur, []⟩ s
/-- R361: restore. -/
def gRestore (g : Nat) (c : Cmd) (s : State) : GR GEffect :=
  (gRead g c s (blk c.ks 1) 320).bind fun x s =>
    let w := fun i => field (64 * i) 64 x
    if !gRecordOk w then .code gRecord s
    else (gChecked g c s (w 0)).bind fun m s =>
      if m.ns ≤ field 0 20 (w 3) then .code gRecord s
      else
        let ring := (List.range (field 48 5 (w 4))).map (gMarkAt w)
        .ok ⟨0, some (some ⟨w 0, w 1, w 2, field 0 20 (w 3), bitOf 20 (w 3), field 0 32 (w 4),
          field 32 16 (w 4), w 5, ring⟩), [], []⟩ s
/-- An operation on a bound handle, or UNBOUND (R354). -/
def gBound (s : State) (x : Option GSlot) (k : GSlot → GR GEffect) : GR GEffect :=
  match x with
  | none => .code gUnbound s
  | some sl => k sl
/-- The slot step of a command (R353). -/
def gEffect (g : Nat) (c : Cmd) (s : State) : GR GEffect :=
  match c.op with
  | .pdabind _ _ _ => gBind g c s
  | .pdaunbind h => gBound s (gSlot s g h) fun _ => .ok ⟨0, some none, [], []⟩ s
  | .pdaunbindRes h _ => gBound s (gSlot s g h) fun _ => .ok ⟨0, some none, [], []⟩ s
  | .pdamask spread h _ _ =>
    gBound s (gSlot s g h) fun sl =>
      (gHeader g c s sl.imgva).bind fun x s =>
        (gMasks g c x.1 sl (field 0 18 (blk c.ks 1)) (field 36 18 (blk c.ks 1)) (gLanes c spread) s).bind
          fun o s => .ok ⟨0, none, [], o⟩ s
  | .pdaadv h _ _ => gBound s (gSlot s g h) fun sl => gAdvance g c sl s
  | .pdafork _ _ _ =>
    gBound s (gSlot s g (BitVec.ofNat 3 (blk c.ks 0))) fun sl => .ok ⟨0, some (some sl), [], []⟩ s
  | .pdamark h _ _ =>
    gBound s (gSlot s g h) fun sl =>
      .ok ⟨0, some (some { sl with marks := (gMarkOf sl :: sl.marks).take 16 }), [], []⟩ s
  | .pdaroll h _ _ =>
    gBound s (gSlot s g h) fun sl =>
      let n := field 0 4 (blk c.ks 0)
      match sl.marks[n]? with
      | none => .code gNoMark s
      | some k => .ok ⟨0, some (some (gAt sl k (sl.marks.drop (n + 1)))), [], []⟩ s
  | .pdasave h _ _ =>
    gBound s (gSlot s g h) fun sl =>
      .ok ⟨0, none, [(blk c.ks 1, (gRecordWords sl).flatMap (bytesOf 8))], []⟩ s
  | .pdarest _ _ _ => gRestore g c s
  | _ => .wait []

/-- The result word (R354). Of a handle that a failed bind or restore leaves unbound, POS, MCNT and STATE are 0, which R354
says of UNBOUND and `pdaunbind` alone (DESIGN CHOICE, log entry 34). -/
def gResult (code : Nat) (x : Option GSlot) : Nat :=
  match x with
  | some sl => setField 32 32 sl.pos (setField 27 5 sl.marks.length (setField 20 4 code sl.state))
  | none => setField 20 4 code 0
/-- Record a step: the binding, the scratchpad bytes to come, the fault (R354). -/
def gCommit (s : State) (g : Nat) (c : Cmd) (h : Handle) (res : Bool) (code : Nat)
    (slot : Option (Option GSlot)) (outs : List (Nat × Nat × List Byte)) (flt : Option CmdFault) : State :=
  let s := match slot with
    | some x => updCtx s g fun t => { t with handles := mset none t.handles h.toNat x }
    | none => s
  let g0 := blk c.ks 0
  let word := if res then [(field 60 4 g0, field 40 18 g0, bytesOf 8 (gResult code (gSlot s g h)))] else []
  updCtx s g fun t =>
    { t with cmds := t.cmds.map fun x =>
        if x.id == c.id then { x with stepped := true, outs := outs ++ word, flt := flt } else x }
/-- A step that fails: the slot keeps its state, except that a bind leaves its handle unbound, and a mask
is written as zero bytes (R354, R355, R361). -/
def gFail (s : State) (g : Nat) (c : Cmd) (h : Handle) (res : Bool) (code : Nat) (flt : CmdFault) : State :=
  let slot := if gBinds c.op then some none else none
  let outs := match c.op with
    | .pdamask spread _ _ _ =>
      (gLanes c spread).map fun x =>
        (x.1, field 0 18 (blk c.ks 1), List.replicate (field 36 18 (blk c.ks 1) / 8) 0#8)
    | _ => []
  gCommit s g c h res code slot outs (some flt)
/-- A grammar fault of a command (R354). -/
def gFault (asid code : Nat) : CmdFault := ⟨0, asid, 0, false, 0, 0, 0, 0, code⟩
/-- Take the slot step of a command; a step that must wait changes nothing but the requests that stand (R110). -/
def gTake (s : State) (g : Nat) (c : Cmd) (h : Handle) (res : Bool) : State :=
  match (gEffect g c s).bind fun e s => (gCheckWrites g c s e.writes).bind fun _ s =>
    (gWrites g c s s e.writes).bind fun _ s => .ok e s with
  | .wait l => noteAsks s l
  | .ok e s => gCommit s g c h res e.code e.slot e.outs none
  | .code n s => gFail s g c h res n (gFault c.asid n)
  | .access f va s =>
    gFail s g c h res gAccess
      { felem := 0, asid := c.asid, kind := AKind.gread.code, merr := f.merr, src := f.src,
        code := if f.merr then f.unit else f.code, lvl := f.lvl, va := va % 2 ^ 48, gcode := gAccess }
/-- R353: the step of the context's first grammar command that has not stepped, once what it must wait
for is done, and the grammar unit of its die is ready (R443). -/
def execGrammarStep (g : Nat) (s : State) : Outcome :=
  match nextGram s g with
  | none => .next s
  | some c =>
    match gParts c.op with
    | none => .next s
    | some (h, res) =>
      let s := flushStores (settleSp s g) g
      if !mayStep s g c then .next s
      else .next (gTake s g c h res)
/-- Write the scratchpad bytes of a stepped command and complete it. -/
def gComplete (s : State) (g id : Nat) (mask : Bool) : Outcome :=
  match (ctxOf s g).cmds.find? fun c =>
      c.id == id && c.cls == .grammar && c.stepped && !c.fin && gIsMask c.op == mask with
  | none => .next s
  | some c =>
    let s := c.outs.foldl (fun s o => wrPlace s (cmdPlace s g c o.1) o.2.1 o.2.2.length (ofBytes o.2.2)) (settleSp s g)
    .next (refresh (updCtx s g fun t =>
      { t with cmds := t.cmds.map fun x => if x.id == id then { x with fin := true, dests := [] } else x }) g)
/-- R365: a mask is written. -/
def execMaskComplete (g id : Nat) (s : State) : Outcome := gComplete s g id true
/-- R353: any other grammar command completes. -/
def execGrammarCommandComplete (g id : Nat) (s : State) : Outcome := gComplete s g id false

end Sys2Proof.Machine
end

