-- ==== Sys2Proof/Machine/Halt.lean ====
section
/-!
DEFINITION. `halt` and `halt.next` (R167, R260).
-/
namespace Sys2Proof.Machine

/-- The end of `halt` and `halt.next` (R167, R260): a switch point that lands every result (R61). -/
def haltWith (s : State) (next : Bool) : Outcome :=
  let c := cur s
  if inHandler s || c.spare.isSome then raise s causeIllegal
  else
    let g := s.issuer.gcn
    let s := if c.cmds.any (fun x => x.batch.isNone) then refresh (closeOpen s g) g else s
    haltStep (landHalf s s.issuer.gcn s.issuer.half) s.issuer.gcn s.issuer.half next
/-- R260. -/
def execHalt (s : State) : Outcome := haltWith s false
/-- R260. -/
def execHaltNext (s : State) : Outcome := haltWith s true

end Sys2Proof.Machine
end

