-- ==== Sys2Proof/Machine/Slots.lean ====
section
/-!
DEFINITION. The meaning of a slot instruction, for the sequencer that issues it as part of a bundle (R213,
R214); an event is no slot instruction and does nothing here.
-/
namespace Sys2Proof.Machine

/-- What the instruction in a slot does when it issues. -/
def slotMeaning (i : Instr) (s : State) : Outcome :=
  match i with
  | .add d a b => execAdd d a b s
  | .sub d a b => execSub d a b s
  | .mul d a b => execMul d a b s
  | .mulhs d a b => execMulhs d a b s
  | .mulhu d a b => execMulhu d a b s
  | .and d a b => execAnd d a b s
  | .or d a b => execOr d a b s
  | .xor d a b => execXor d a b s
  | .shl d a b => execShl d a b s
  | .shr d a b => execShr d a b s
  | .sra d a b => execSra d a b s
  | .min d a b => execMin d a b s
  | .max d a b => execMax d a b s
  | .minu d a b => execMinu d a b s
  | .maxu d a b => execMaxu d a b s
  | .addi d a imm => execAddi d a imm s
  | .andi d a imm => execAndi d a imm s
  | .ori d a imm => execOri d a imm s
  | .xori d a imm => execXori d a imm s
  | .shli d a imm => execShli d a imm s
  | .shri d a imm => execShri d a imm s
  | .srai d a imm => execSrai d a imm s
  | .cmp cc d a b => execCmp cc d a b s
  | .cmpi cc d a imm => execCmpi cc d a imm s
  | .sel d a b c => execSel d a b c s
  | .clz d a => execClz d a s
  | .ctz d a => execCtz d a s
  | .popc d a => execPopc d a s
  | .bext d a pos lm1 => execBext d a pos lm1 s
  | .bins d a pos lm1 => execBins d a pos lm1 s
  | .movi d imm => execMovi d imm s
  | .movx d imm => execMovx d imm s
  | .kmov k a => execKmov k a s
  | .kmovi k imm => execKmovi k imm s
  | .movk d k => execMovk d k s
  | .bmov b a => execBmov b a s
  | .bmovi b imm => execBmovi b imm s
  | .badd b imm => execBadd b imm s
  | .ld sz sx ch d a off => execLd sz sx ch d a off s
  | .st sz ch rs a off => execSt sz ch rs a off s
  | .ldsp sz sx lane d a off => execLdsp sz sx lane d a off s
  | .stsp sz all lane rs a off => execStsp sz all lane rs a off s
  | .atcas wide d a b => execAtcas wide d a b s
  | .atadd wide d a b => execAtadd wide d a b s
  | .atswp wide d a b => execAtswp wide d a b s
  | .atand wide d a b => execAtand wide d a b s
  | .ator wide d a b => execAtor wide d a b s
  | .atxor wide d a b => execAtxor wide d a b s
  | .br nz a off => execBr nz a off s
  | .jmp off => execJmp off s
  | .jr a => execJr a s
  | .call off => execCall off s
  | .callr a => execCallr a s
  | .loop a off => execLoop a off s
  | .fence k sc => execFence k sc s
  | .barr bk id => execBarr bk id s
  | .barw bk id => execBarw bk id s
  | .arrinc own die ctr a => execArrinc own die ctr a s
  | .batch d => execBatch d s
  | .waitb cm last a => execWaitb cm last a s
  | .csrr d c => execCsrr d c s
  | .csrw c a => execCsrw c a s
  | .csrset d c a => execCsrset d c a s
  | .csrclr d c a => execCsrclr d c a s
  | .trap code => execTrap code s
  | .tret a => execTret a s
  | .viadd d a b => execViadd d a b s
  | .visub d a b => execVisub d a b s
  | .vimul d a b => execVimul d a b s
  | .vand d a b => execVand d a b s
  | .vor d a b => execVor d a b s
  | .vxor d a b => execVxor d a b s
  | .vshl d a b => execVshl d a b s
  | .vshr d a b => execVshr d a b s
  | .vsra d a b => execVsra d a b s
  | .vimin d a b => execVimin d a b s
  | .vimax d a b => execVimax d a b s
  | .viadds d a b => execViadds d a b s
  | .visubs d a b => execVisubs d a b s
  | .vadd d a b => execVadd d a b s
  | .vsub d a b => execVsub d a b s
  | .vmul d a b => execVmul d a b s
  | .vfma d a b => execVfma d a b s
  | .vmin d a b => execVmin d a b s
  | .vmax d a b => execVmax d a b s
  | .vabs d a => execVabs d a s
  | .vneg d a => execVneg d a s
  | .vcvt op rm sat d a => execVcvt op rm sat d a s
  | .vexp2 d a => execVexp2 d a s
  | .vlog2 d a => execVlog2 d a s
  | .vrcp d a => execVrcp d a s
  | .vrsqrt d a => execVrsqrt d a s
  | .vtanh d a => execVtanh d a s
  | .vcmp cc d a => execVcmp cc d a s
  | .vsel d a b => execVsel d a b s
  | .vredsum d a b => execVredsum d a b s
  | .vredmax d a b => execVredmax d a b s
  | .vredmin d a b => execVredmin d a b s
  | .vperm d a b => execVperm d a b s
  | .vbcast d a idx => execVbcast d a idx s
  | .vbitpop d a b => execVbitpop d a b s
  | .vnzscan t d a => execVnzscan t d a s
  | .vsetshp j f a elem => execVsetshp j f a elem s
  | .vmaskf d a rs => execVmaskf d a rs s
  | .vmov d a => execVmov d a s
  | .vmovs d rs => execVmovs d rs s
  | .viota lane d => execViota lane d s
  | .vld v a off => execVld v a off s
  | .vst v a off => execVst v a off s
  | .vldc t rm v a off => execVldc t rm v a off s
  | .vstc t rm sat v a off => execVstc t rm sat v a off s
  | .mma acc shp kb da db reuse => execMma acc shp kb da db reuse s
  | .mmag acc shp kb da db reuse => execMmag acc shp kb da db reuse s
  | .mzero acc => execMzero acc s
  | .minit acc a row => execMinit acc a row s
  | .mread acc d clr => execMread acc d clr s
  | .mscale a => execMscale a s
  | .mstore acc shp kb rm sat clr relu bias scl => execMstore acc shp kb rm sat clr relu bias scl s
  | .xld n kb ch => execXld n kb ch s
  | .xst n kb ch => execXst n kb ch s
  | .xcopy n kb => execXcopy n kb s
  | .xwload n kb => execXwload n kb s
  | .xwstore n kb => execXwstore n kb s
  | .xgath n kb ch v => execXgath n kb ch v s
  | .xscat n kb ch v => execXscat n kb ch v s
  | .xpref n kb ch => execXpref n kb ch s
  | .xemitv ew cvt n kb v => execXemitv ew cvt n kb v s
  | .xemitt ew ix n kb => execXemitt ew ix n kb s
  | .xwalk kb ch => execXwalk kb ch s
  | .xnzscan n kb => execXnzscan n kb s
  | .xrld n kb ch => execXrld n kb ch s
  | .xrst n kb ch => execXrst n kb ch s
  | .xtend kb => execXtend kb s
  | .pdabind h res kb => execPdabind h res kb s
  | .pdaunbind h => execPdaunbind h s
  | .pdaunbindRes h kb => execPdaunbindRes h kb s
  | .pdamask spread h res kb => execPdamask spread h res kb s
  | .pdaadv h res kb => execPdaadv h res kb s
  | .pdafork h res kb => execPdafork h res kb s
  | .pdamark h res kb => execPdamark h res kb s
  | .pdaroll h res kb => execPdaroll h res kb s
  | .pdasave h res kb => execPdasave h res kb s
  | .pdarest h res kb => execPdarest h res kb s
  | .gvote t d a elem => execGvote t d a elem s
  | .gbr c off rpc => execGbr c off rpc s
  | .gsplit c off rpc => execGsplit c off rpc s
  | .gpush c off => execGpush c off s
  | .gmsave d => execGmsave d s
  | .gmrest a => execGmrest a s
  | .gshuf d a rs => execGshuf d a rs s
  | .gshuft kb rs => execGshuft kb rs s
  | .gred op d a => execGred op d a s
  | .gbcast first lane d a => execGbcast first lane d a s
  | .gregroup inv d a elem => execGregroup inv d a elem s
  | .nop => execNop s
  | .ret => execRet s
  | .ufence => execUfence s
  | .yield => execYield s
  | .halt => execHalt s
  | .haltNext => execHaltNext s
  | .brk => execBrk s
  | .vnop => execVnop s
  | .mnop => execMnop s
  | .xnop => execXnop s
  | .gnop => execGnop s
  | .gpop => execGpop s
  | .bundleIssue .. => .next s
  | .resultLand .. => .next s
  | .parkEnd .. => .next s
  | .pickerChoice .. => .next s
  | .forcedRunEnd .. => .next s
  | .interlockedAccessComplete .. => .next s
  | .stackCacheFill .. => .next s
  | .stackCacheBackgroundFill .. => .next s
  | .fenceComplete .. => .next s
  | .waitbComplete .. => .next s
  | .ufenceComplete .. => .next s
  | .barrierGenerationComplete .. => .next s
  | .versionCheckRelease .. => .next s
  | .arrincAccepted .. => .next s
  | .splitStart .. => .next s
  | .join .. => .next s
  | .matrixCommandComplete .. => .next s
  | .mstoreComplete .. => .next s
  | .transferElement .. => .next s
  | .transferCommandComplete .. => .next s
  | .rangeTableLoad .. => .next s
  | .rngsyncWrite .. => .next s
  | .sliceAccess .. => .next s
  | .lineFillComplete .. => .next s
  | .pageWalkComplete .. => .next s
  | .shootdownPageRange .. => .next s
  | .shootdownAsid .. => .next s
  | .shootdownAll .. => .next s
  | .shootdownComplete .. => .next s
  | .patrolScrub .. => .next s
  | .stackTrainingStart .. => .next s
  | .stackTrainingEnd .. => .next s
  | .stackChannelLoss .. => .next s
  | .pairHomeDieCheck .. => .next s
  | .permitGrant .. => .next s
  | .pairFilterPass .. => .next s
  | .pairBinAccept .. => .next s
  | .pendingGranuleAccess .. => .next s
  | .earlyApply .. => .next s
  | .contextKillMessage .. => .next s
  | .uprgnWrite .. => .next s
  | .updrainWrite .. => .next s
  | .drainComplete .. => .next s
  | .podSelfTest .. => .next s
  | .handlerEntry .. => .next s
  | .stopRequestFreeze .. => .next s
  | .fatalStop .. => .next s
  | .hprvhwWrite .. => .next s
  | .podctlHres .. => .next s
  | .dspresRes .. => .next s
  | .dispatcherHighWaterFault .. => .next s
  | .startVectorSubmit .. => .next s
  | .closeVector .. => .next s
  | .nestRecordRead .. => .next s
  | .arrivalCounterIncrement .. => .next s
  | .arrcntWrite .. => .next s
  | .launchFire .. => .next s
  | .xtendAccept .. => .next s
  | .teamPlacement .. => .next s
  | .iterationHandout .. => .next s
  | .urgencyHoldBack .. => .next s
  | .launchComplete .. => .next s
  | .preempt .. => .next s
  | .resume .. => .next s
  | .sizeQuery .. => .next s
  | .lkill .. => .next s
  | .grammarStep .. => .next s
  | .maskComplete .. => .next s
  | .apertureRead .. => .next s
  | .apertureWrite .. => .next s
  | .extendMeasurement .. => .next s
  | .fieldDataSelect .. => .next s
  | .portStateChange .. => .next s
  | .remoteAccessArrival .. => .next s
  | .thermalThrottle .. => .next s
  | .thermalStop .. => .next s
  | .islandSettingChange .. => .next s
  | .pwrcapWrite .. => .next s
  | .bootVerification .. => .next s
  | .functionReady .. => .next s
  | .mmioRegisterWrite .. => .next s
  | .thermalThrottleEnd .. => .next s
  | .refreshRateChange .. => .next s
  | .supplyDroop .. => .next s
  | .grammarCommandComplete .. => .next s
  | .rngsyncComplete => .next s
  | .launchDispatch => .next s
  | .preemptComplete => .next s
  | .copyStart => .next s
  | .copyComplete => .next s
  | .attestReport => .next s
  | .getCertificates => .next s
  | .securityCommandComplete => .next s
  | .fieldDataSave => .next s
  | .rtsyncWrite => .next s
  | .rtsyncComplete => .next s
  | .moduleReset => .next s
  | .powerOnSecond => .next s

end Sys2Proof.Machine
end

