-- ==== Sys2Proof/Machine/Issue.lean ====
section
/-!
DEFINITION. The issue of bundles: the comparison with the stalk (R190), fetch and header checks (R204 to
R206), slots in commit order with fresh and sticky issues (R213 to R219), repeats and resumes (R215, R216,
R405), switch points (R61, R185), single-step (R404).
-/
namespace Sys2Proof.Machine

/-- Number of a slot in commit order (R393). -/
def slotNum : Slot → Nat
  | .sa => 0 | .sb => 1 | .v => 2 | .m => 3 | .x => 4 | .g => 5
/-- The slots in commit order (R204). -/
def allSlots : List Slot := [.sa, .sb, .v, .m, .x, .g]
/-- Whether a half may issue: it waits for nothing. -/
def Wait.isNone : Wait → Bool
  | .none => true
  | _ => false
/-- Whether a context has a half. -/
def Ctx.has (c : Ctx) (h : HalfId) : Bool := h == .primary || c.spare.isSome
/-- Whether a result writes scratchpad alone. -/
def onlySp (p : Pend) : Bool := p.writes.all fun w =>
  match w with
  | .sp .. => true
  | _ => false
/-- Whether a half stalls at a version check. -/
def Wait.isVersion : Wait → Bool
  | .version .. => true
  | _ => false
/-- Whether a switch point in the middle of a bundle writes a result of a half at once: scratchpad, which others share;
and at a version check the results of earlier issue cycles, since stages 3 to 6 of the check, and the slots behind it, go
on in the issue cycle that follows the stall (R281). -/
def landsNow (x : Half) (p : Pend) : Bool := onlySp p || (x.wait.isVersion && p.born != x.cycle)
/-- The results of a half that a switch point in the middle of a bundle lands. Registers that it does not write at once are
written when the next issue cycle begins, or at a freeze before, so that the rest of the bundle reads what its own cycle
began with (R61, R213, log entry 11). -/
def redue (s : State) (g : Nat) (h : HalfId) : State :=
  let x := (ctxOf s g).half h
  landList (fun s c v m => writeCsr s g c v m)
    (updHalf s g h fun y =>
      { y with pend := ((sortPend y.pend).filter fun p => !landsNow x p).map fun p => { p with due := min p.due y.cycle } })
    g h (x.pend.filter (landsNow x))
/-- A switch point of a half lands every result (R61). -/
def landSwitch (s : State) (g : Nat) (h : HalfId) : State :=
  if ((ctxOf s g).half h).begun then redue s g h else landHalf s g h
/-- Whether nothing is left for a switch point to land. -/
def landed (x : Half) : Bool := x.pend.all fun p => x.begun && !landsNow x p && decide (p.due ≤ x.cycle)
/-- At a freeze, results due at or before the issue cycle have landed (R397), and the steps of R396 are made as far as
they go. -/
def landFrozen (s : State) (g : Nat) : State :=
  if (ctxOf s g).phase == .frozen then
    settleFrozen ((ctxOf s g).halves.foldl (fun s h => landDue s g h) s) g
  else s

/-- What the comparison before a bundle finds (R190, R193). -/
inductive Cmp where
  /-- Issue goes on at the half's program counter. -/
  | go (s : State)
  /-- The half reaches the RPC of its split. -/
  | join
/-- RPC of the split entry of the primary half's stalk. -/
def splitRpc (c : Ctx) : Option Word := (c.prim.stalk.find? fun e => e.split).map fun e => e.rpc
/-- Compare with the top entry; after a jump to the pending path the same entry is compared once more
(R190, R329). -/
def compare (s : State) : Nat → Cmp
  | 0 => .go s
  | fuel + 1 =>
    let x := curH s
    match x.stalk with
    | [] => if s.issuer.half == .spare && splitRpc (cur s) == some x.pc then .join else .go s
    | e :: l =>
      if e.rpc != x.pc then .go s
      else if e.split then .join
      else if e.pend != 0 then
        compare (updH s fun h => { h with am := e.pend, stalk := { e with pend := 0 } :: l, pc := e.ppc }) fuel
      else .go (updH s fun h => { h with am := e.saved, stalk := l })

/-- What a fetch gives (R41, R204). -/
inductive Fetch where
  | ok (h : W32) (ws : List W32) (s : State)
  | wait (l : List Ask)
  | fault (f : MFault) (va : Nat) (s : State)
/-- Fetch the bundle at an address: its header, then the words it states. A fault on a word behind the header names the
address of the first of them, the bundle's plus 4: the manual does not say how a fetch splits into accesses (DESIGN
CHOICE, log entry 31). -/
def fetchAt (s : State) (g : Nat) (pc : Word) : Fetch :=
  let ag := (agentOf s g).asking (.fetch g pc.toNat)
  match memRead s ag .fetch pc.toNat 4 .normal with
  | .wait l => .wait l
  | .fault f s => .fault f pc.toNat s
  | .ok bs s =>
    let hdr := BitVec.ofNat 32 (ofBytes bs)
    let n := headerWords hdr
    if n = 0 then .ok hdr [] s
    else
      let va := (pc + 4#64).toNat
      match memRead s ag .fetch va (4 * n) .normal with
      | .wait l => .wait l
      | .fault f s => .fault f va s
      | .ok bs s =>
        match takeWords n bs with
        | some (ws, _) => .ok hdr ws s
        | none => .wait []

/-- An issue cycle of a half of a split context is one of the context: a new one, or for the spare half the one that the
primary half began last and has had to itself, a free choice (R234, log entry 33). Of two issues of one cycle the primary's
is made first, so its batch, and its grammar command, come first (R192, R353). -/
def nextBeat (h : HalfId) (n : Nat) (c : Ctx) : Ctx :=
  if c.spare.isNone then c
  else if h == .spare && c.beatOf == some .primary && Config.sameCycle n then { c with beatOf := none }
  else { c with beat := c.beat + 1, beatOf := some h }
/-- A new issue cycle begins and results due land, unless a stopped issue is completed in its own cycle (R60, R61, R398).
The reads of its slots take free values of their own (R63). -/
def beginIssue (s : State) : State :=
  let s := { s with freeCtr := s.freeCtr + 1 }
  if (curH s).begun then updH s fun h => { h with live := true }
  else
    let s := updCur (updH s fun h =>
      { h with begun := true, live := true, cycle := h.cycle + 1, run := h.run + 1 }) (nextBeat s.issuer.half s.freeCtr)
    landDue s s.issuer.gcn s.issuer.half

/-- What a slot does in this issue (R215, R217). -/
inductive Work where
  | nothing
  | illegal
  | fresh (i : Instr)
  | again (k : StickySlot) (st : Sticky)
/-- The sticky slot of a slot. -/
def stickySlot : Slot → Option StickySlot
  | .v => some .v
  | .m => some .m
  | .x => some .x
  | _ => none
/-- The work of a slot of a bundle: repeat 0 of a present sticky syllable is a fresh issue, later repeats
and bundles without one re-issue a state that is not empty (R217, R218). -/
def workOf (b : Bundle) (x : Half) (k : Slot) : Work :=
  let present := b.slots.find? fun y => y.1 == k
  let freshly := fun (y : Slot × W32 × List W32) =>
    match decodeSyllable k y.2.1 y.2.2 with
    | .ok i => Work.fresh i
    | .error _ => .illegal
  match stickySlot k, present with
  | none, some y => freshly y
  | none, none => .nothing
  | some t, y =>
    match y, x.rep with
    | some y, 0 => freshly y
    | _, _ =>
      match getSticky x t with
      | some st => .again t st
      | none => .nothing
/-- Whether a slot has work. -/
def Work.some : Work → Bool
  | .nothing => false
  | _ => true
/-- Stand at a slot with an environment. -/
def atSlot (s : State) (g : Nat) (h : HalfId) (k : Slot) (env : Env) : State :=
  updHalf { s with issuer := ⟨g, h, k, env⟩ } g h fun x => { x with slot := slotNum k }
/-- Whether issue goes on after a slot: the context still issues and the half does not wait. -/
def goesOn (s : State) (g : Nat) (h : HalfId) : Bool :=
  (ctxOf s g).phase == .issuing && ((ctxOf s g).half h).wait.isNone
/-- Issue the work of one slot. -/
def runWork (s : State) (g : Nat) (h : HalfId) (k : Slot) (w : Work) : Outcome :=
  match w with
  | .nothing => .next s
  | .illegal => raise (atSlot s g h k Env.fresh) causeIllegal
  | .fresh i => slotMeaning i (atSlot s g h k Env.fresh)
  | .again t st =>
    let acnt := (ctxOf s g).acnt
    slotMeaning st.op (atSlot s g h k (reissueEnv t st (vcntOf s g) acnt))
/-- Issue slots in commit order, until one traps or waits (R214). -/
def runSlots (b : Bundle) (g : Nat) (h : HalfId) : List Slot → State → Outcome
  | [], s => .next s
  | k :: l, s =>
    match runWork s g h k (workOf b ((ctxOf s g).half h) k) with
    | .next s =>
      if goesOn s g h then
        runSlots b g h l (updHalf s g h fun x => { x with slot := slotNum k + 1, verOk := false })
      else .next s
    | o => o

/-- Another context of the pod, or its handler slot, is Ready (R186, R194). -/
def otherReady (s : State) (g : Nat) : Bool :=
  [0, 1, 2, 3, 4].any fun n => n != slotOfG g && (ctxOf s (podOf g * 8 + n)).phase == .ready
/-- Whether a freeze, stop request or pre-emption of a context waits for its halves to reach a boundary (R195, R394,
R407). -/
def stopping (s : State) (g : Nat) : Bool :=
  let c := ctxOf s g
  c.stopReq || c.stopBy.isSome || pausing s g
/-- A half of a split context at a switch point is held when another context is Ready, and the context parks once both
halves stand at a switch point or have stopped (R194). A half in the middle of a bundle goes on to its boundary when the
context must stop (R195). -/
def holdHalf (s : State) (g : Nat) (h : HalfId) : State :=
  let c := ctxOf s g
  if c.spare.isSome && c.phase == .issuing && otherReady s g && !((c.half h).begun && stopping s g) then
    updCtx (updHalf s g h fun x => { x with wait := .held }) g parkIfDone
  else s
/-- A switch point between bundles: the context parks, or a half of a split context may be held (R185, R194). -/
def switchAt (s : State) (g : Nat) (h : HalfId) : State :=
  if (ctxOf s g).spare.isNone then
    updCtx s g fun c => { c with phase := .parked, prim := { c.prim with run := 0 } }
  else
    let s := updHalf (landHalf s g h) g h fun x => { x with run := 0 }
    holdHalf (updCtx s g fun c => { c with beatOf := none }) g h
/-- R401, R308: a kept command resumes from DONE; the step of a grammar command stays taken (R353). -/
def resumeReported (s : State) (g : Nat) : State :=
  refresh (updCtx s g fun c =>
    { c with cmds := c.cmds.map fun x =>
        if some x.id == c.lastCmd && x.reported then
          { x with flt := none, reported := false, fin := x.cls == .grammar }
        else x }) g
/-- The end of a bundle with `tret`: the handler's results land and its stores are ordered before the resumed context
(R168). The handler's run ends once its stores have taken effect, and the context resumes then; a store that was lost is a
trap of the handler slot instead (R117, R402, log entry 9). -/
def endTret (s : State) (g : Nat) (h : HalfId) (n : Nat) : State :=
  let s := flushStores (releaseCtx (landHalf s g h) g .pod) g
  match takeLost { s with issuer := ⟨g, h, .sa, Env.fresh⟩ } with
  | some t => t
  | none =>
    if !storesDone s g then s
    else handlerReturn (resumeReported s (podOf g * 8 + n)) g n
/-- The end of one issue of a bundle: the next repeat, or the next bundle with the bundle's switch
point, single-step stop or handler return (R213, R215, R258, R404). -/
def endIssue (b : Bundle) (s : State) (g : Nat) (h : HalfId) : State :=
  let x := (ctxOf s g).half h
  let done := fun (y : Half) =>
    { y with slot := 0, begun := false, live := false, verOk := false }
  if x.rep < headerRep b.header then updHalf s g h fun y => { done y with rep := y.rep + 1 }
  else
    let sw := headerSw b.header || x.switchReq
    let s := updHalf s g h fun y =>
      { done y with rep := 0, pc := y.nextPc.getD y.ft, nextPc := none, switchReq := false }
    match (ctxOf s g).tretTo with
    | some n => endTret s g h n
    | none =>
      if bitOf 0 (ctxOf s g).tctl.toNat then
        let s := if sw then landHalf s g h else s
        if isHandler g then raiseW s causeStep 0 false else freeze s g h causeStep 0 false true
      else if sw then switchAt s g h
      else s
/-- A resume that leaves nothing of the issue: the next repeat or bundle, without the ends of a whole
issue; `past` when REP is past the last repeat, so that the half goes on at FT (R405). The bundle's switch marker and a
single-step stop have no effect then, which neither R185 nor R405 says (DESIGN CHOICE, log entry 34). -/
def skipIssue (s : State) (g : Nat) (h : HalfId) (more past : Bool) : State :=
  updHalf s g h fun y =>
    let y := { y with slot := 0, begun := false, live := false, verOk := false }
    if more then { y with rep := y.rep + 1 }
    else { y with rep := 0, pc := if past then y.ft else y.nextPc.getD y.ft, nextPc := none,
                  switchReq := false }

/-- A bundle that may not issue although its header is legal: `halt` not alone (R260), or `gbr` or `gsplit`
beside certain sa instructions (R327). -/
def badMix (b : Bundle) : Bool :=
  match b.slots.find? fun y => y.1 == .sa with
  | none => false
  | some y =>
    let op := opcode y.2.1
    let withG := b.slots.any fun z => z.1 == .g && (opcode z.2.1 == 0x02 || opcode z.2.1 == 0x03)
    (op == 0x6B && b.slots.length != 1)
      || (withG && ((0x40 ≤ op && op ≤ 0x46) || op == 0x68 || op == 0x69 || op == 0x6B || op == 0x6C))
/-- Whether a bundle holds `halt` or `halt.next`: no sticky slot issues in it (R260). -/
def isHalt (b : Bundle) : Bool := b.slots.any fun y => y.1 == .sa && opcode y.2.1 == 0x6B
/-- The slots of a bundle that are left to issue. -/
def restOf (b : Bundle) (x : Half) : List Slot :=
  if isHalt b then (allSlots.drop x.slot).take (1 - x.slot) else allSlots.drop x.slot
/-- Whether a resume leaves nothing of the issue: whether the next repeat follows, and whether REP is past the last (R405). -/
def skipOf (b : Bundle) (x : Half) : Option (Bool × Bool) :=
  if headerRep b.header < x.rep then some (false, true)
  else if !x.live && x.slot != 0 && !((restOf b x).any fun k => (workOf b x k).some) then
    some (decide (x.rep < headerRep b.header), false)
  else none
/-- Issue a fetched bundle from the slot and repeat at which the half stands. -/
def issueBundle (b : Bundle) (s : State) (g : Nat) (h : HalfId) : Outcome :=
  let x := (ctxOf s g).half h
  if x.slot = 0 && badMix b then raise (atSlot s g h .sa Env.fresh) causeIllegal
  else
    match runSlots b g h (restOf b x) s with
    | .next s => .next (if goesOn s g h then landFrozen (enterFrozen (endIssue b s g h) g) g else landFrozen s g)
    | o => o
/-- Whether a half stands at a boundary between bundles with no result outstanding, or waits at a switch point with
nothing left to land. -/
def quietHalf (x : Half) : Bool :=
  if x.wait.isNone then atBoundary x && x.rep == 0 && x.pend.all (fun p => decide (p.due ≤ x.cycle)) else x.wait.isSwitch && landed x
/-- Whether the run of a context must end: a quiet point, behind 4,096 issue cycles, with another context Ready (R186). Of a
split context either half's own run may have come so far: R186 counts a context's and R192 each half's (DESIGN CHOICE, log
entry 11). -/
def runOver (s : State) (g : Nat) : Bool :=
  let c := ctxOf s g
  c.phase == .issuing && (c.halves.all fun h => quietHalf (c.half h))
    && (c.halves.any fun h => decide (4096 ≤ (c.half h).run)) && otherReady s g
/-- Whether a half may issue a bundle now; a stop request or pre-emption is taken first at a boundary
(R394, R407), and so is the forced end of a run (R186). A half held in the middle of a bundle goes on to its boundary
when its context must stop (R195). -/
def mayIssue (s : State) (g : Nat) (h : HalfId) : Bool :=
  let c := ctxOf s g
  let x := c.half h
  c.phase == .issuing && c.has h && (x.wait.isNone || (x.wait == .held && x.begun && stopping s g))
    && !(atBoundary x && (stopping s g || runOver s g))
/-- The slot that a `tret` of a finished bundle resumes, when the handler's run has still to end (R258). -/
def tretLeft (s : State) (g : Nat) (h : HalfId) : Option Nat :=
  if atBoundary ((ctxOf s g).half h) then (ctxOf s g).tretTo else none
/-- R213: one issue of one bundle. A context chosen while it still waits for an iteration parks again (R379). -/
def execBundleIssue (g : Nat) (h : HalfId) (s : State) : Outcome :=
  if (ctxOf s g).phase == .issuing && (ctxOf s g).prim.wait == .iter then
    .next (updCtx s g fun c => { c with phase := .parked })
  else if !mayIssue s g h then .next s
  else match tretLeft s g h with
  | some n => .next (endTret s g h n)
  | none =>
    let s0 := s
    withLost (updH { s with issuer := ⟨g, h, .sa, Env.fresh⟩ } fun x => { x with wait := .none }) fun s =>
    let x := curH s
    match (if x.rep = 0 && x.slot = 0 && !x.live then compare s 2 else Cmp.go s) with
    | .join => .next (enterFrozen (waitAt (updH s fun y => { y with run := 0 }) .join true) g)
    | .go s =>
      let pc := (curH s).pc
      match fetchAt s g pc with
      | .wait l => .next (noteAsks s0 l)
      | .fault f va s =>
        let s := beginIssue s
        .next (landFrozen (raiseW (recordFault s (servedOf s g) f AKind.fetch.code va 0 (cur s).asid)
          (memCause f) 0 false) g)
      | .ok hdr ws s =>
        let s := updH s fun y => { y with ft := pc + BitVec.ofNat 64 (4 * (1 + ws.length)) }
        match makeBundle hdr ws with
        | none =>
          .next (landFrozen (raiseW (updH (beginIssue s) fun y => { y with slot := 0, rep := 0 }) causeIllegalBundle 0
            false) g)
        | some b =>
          match skipOf b (curH s) with
          | some k => .next (enterFrozen (skipIssue s g h k.1 k.2) g)
          | none => issueBundle b (beginIssue s) g h

/-- R61: the results of a half at a switch point land; the steps of R396 of a context that has frozen go on. Those of a half
that has stopped for a freeze stay in its replay buffer (R397). -/
def execResultLand (g : Nat) (h : HalfId) (s : State) : Outcome :=
  let c := ctxOf s g
  if c.phase == .frozen then .next (settleFrozen s g)
  else if c.has h && (c.half h).wait != .stopped
      && (c.phase == .parked || (c.phase == .issuing && (c.half h).wait.isSwitch)) then
    .next (landSwitch s g h)
  else .next s
/-- A half of a parked context that may go on. -/
def mayGo (x : Half) : Bool := x.wait == .none || x.wait == .held
/-- Whether a half keeps no interlocked wait that its parked context must wait for: it may go on, it has stopped for a
freeze, or it stands at its join, where the other half still has to come (R180, R193, R195). -/
def parkOver (x : Half) : Bool := mayGo x || x.wait == .stopped || x.wait == .join
/-- R180: Parked to Ready, once no interlocked wait of either half remains. -/
def execParkEnd (g : Nat) (s : State) : Outcome :=
  let c := ctxOf s g
  if c.phase == .parked && c.halves.all (fun h => (c.half h).wait == .stopped || landed (c.half h))
      && c.halves.all (fun h => parkOver (c.half h)) && c.halves.any (fun h => mayGo (c.half h))
  then .next (updCtx s g fun c => { c with phase := .ready, age := 0 })
  else .next s
/-- R186: the end of a run of 4,096 issue cycles at a quiet point. -/
def execForcedRunEnd (g : Nat) (s : State) : Outcome :=
  if runOver s g then
    .next (updCtx s g fun c =>
      { c with phase := .parked, prim := { c.prim with run := 0 },
               spare := c.spare.map fun x => { x with run := 0 } })
  else .next s
/-- Run an interlocked slot again, and pass it when it completes (R244). -/
def retry (s : State) (g : Nat) (h : HalfId) (i : Instr) : Outcome :=
  let s := { s with issuer := ⟨g, h, .sa, Env.fresh⟩ }
  match slotMeaning i (updH s fun x => { x with wait := .none }) with
  | .next s => .next (if goesOn s g h then updHalf s g h passSlot else landFrozen s g)
  | o => o
/-- R244: an interlocked access is tried again and completes, faults or goes on waiting, under the urgency of its context
when it was issued and in the order in which it arrived (R105, R110). -/
def execInterlockedAccessComplete (g : Nat) (h : HalfId) (s : State) : Outcome :=
  let c := ctxOf s g
  match (c.half h).wait with
  | .access i =>
    if !(c.phase == .issuing && c.has h) then .next s
    else
      (match retry (updCtx s g fun x => { x with urgent := (c.half h).urgAt }) g h i with
      | .next t => .next (updCtx t g fun x => { x with urgent := c.urgent })
      | o => o)
  | _ => .next s

end Sys2Proof.Machine
end

