-- ==== Sys2Proof/Machine/MemEvents.lean ====
section
/-!
DEFINITION. What the memory side does by itself or for the driver: range tables (R20, R46), stores at their
slices (R105, R155), fills (R106), walks (R32), shootdowns (R37), stacks (R111, R116, R117, R119), the device
memory aperture (R431) and the copy engine (R432).
-/
namespace Sys2Proof.Machine

/-- The state an access leaves; one that waits or fails changes nothing here. -/
def MemR.after {α : Type} (x : MemR α) (s : State) : State :=
  match x with
  | .ok _ s => s
  | _ => s
/-- R20: a placement unit reads the range table of an ASID that it has not cached. -/
def execRangeTableLoad (u asid : Nat) (s : State) : Outcome := .next ((loadRange s u asid).after s)
/-- Every placement unit drops an ASID's cached table (R20). -/
def dropTables (s : State) (asid : Nat) : State :=
  updPkg s fun p => { p with rtabs := p.rtabs.filter fun t => t.asid != asid }
/-- R20, R46: a write of RNGSYNC starts a synchronisation, or waits behind the earlier ones. -/
def execRngsyncWrite (asid : Nat) (s : State) : Outcome :=
  let q := s.pkg.rngq
  let s := updPkg s fun p => { p with rngq := p.rngq ++ [asid] }
  .next (if q.isEmpty then dropTables s asid else s)
/-- Translated pieces of an access that are still in flight: stores in queues. -/
def segsInFlight (s : State) (p : Seg → Bool) : Bool :=
  s.ctxs.any fun x => x.2.halves.any fun h => (x.2.half h).stq.any fun e => e.segs.any fun y => p y.1
/-- Pairs translated and not yet in bins. -/
def pairsInFlight (s : State) (p : Pair → Bool) : Bool :=
  s.pkg.pairs.any fun x => (x.stage == .ingress || x.stage == .filtered) && p x
/-- R20: no access placed with the dropped table is in flight; the next write of RNGSYNC starts. -/
def execRngsyncComplete (s : State) : Outcome :=
  match s.pkg.rngq with
  | [] => .next s
  | a :: l =>
    if segsInFlight s (fun y => y.asid == a) || pairsInFlight s (fun p => p.asid == a) then .next s
    else
      let s := updPkg s fun p => { p with rngq := l }
      match l with
      | [] => .next s
      | b :: _ => .next (dropTables s b)

/-- R105, R110, R155: a queued store takes effect when its slices serve it; an older store of the queue to the same line
goes first. -/
def execSliceAccess (g : Nat) (h : HalfId) (n : Nat) (s : State) : Outcome :=
  let c := ctxOf s g
  let q := (c.half h).stq
  match q[n]? with
  | none => .next s
  | some e =>
    if (h == .spare && c.spare.isNone) || (q.take n).any fun x => sameLine x e then .next s
    else .next (serveNth s g h n)
/-- The line of an address whose fill is in flight: the first memory type's that has one (R103, R106). -/
def fillFind (d : Die) (asid ln : Nat) : Option Line :=
  [MemType.normal, .update, .grammar, .host].findSome? fun mt => (lineFind d asid ln mt).filter fun l => l.st == .fill
/-- R106, R112: a line in state F takes its bytes from DRAM; a fill that finds an uncorrectable error is
discarded and counted. -/
def execLineFillComplete (d asid ln : Nat) (s : State) : Outcome :=
  match fillFind (die s d) asid ln with
  | none => .next s
  | some l =>
    let n := stackOf (l.pln * 128)
    if stackState s n != msReady then .next s
    else if !(badIn s l.pln).isEmpty then .next (countBad (updDie s d fun x => lineDrop x asid ln l.mt) 1 n)
    else
      let data := BitVec.ofNat 1024 (ofBytes (rdPhys s (l.pln * 128) 128))
      .next (repair (updDie s d fun x => linePut x { l with st := .clean, data := data }) (l.pln * 128) 128)
/-- Whether a leaf that a walk for an address gives on a die may be kept: no access to the address ends in a fault for its
place (R23, R31, R32). -/
def leafKeeps (d va : Nat) (e : TlbEnt) : Bool :=
  match leafMt e.leaf.toNat with
  | none => false
  | some mt => (leafPlace d (paOf e va) mt).isNone && (mt != .host || inHost (paOf e va))
/-- R24, R32: a walk for an address ends on its home die, which alone translates it, and installs its entry, unless it ends in
a fault, which is left to the access that needs the page. -/
def execPageWalkComplete (d asid va : Nat) (s : State) : Outcome :=
  .next (((loadRange s d asid).bind fun es s =>
    if va < 0x1000000000000 && dieReady s d && placeIn s es va == (d, false) then
      (leafFor s d asid va).bind fun e s => .ok () (if leafKeeps d va e.1 then keepLeaf s d e else s)
    else .ok () s).after s)

/-- The pending granules of a die whose pending bit was set under the pages of its shootdown (R37). -/
def shotGrans (x : Die) : List Gran := x.grans.filter fun g => shotBy x g.asid g.va
/-- The part of a shootdown's steps 3 and 6 that applies the granules whose pending bit was set under its pages (R37).
The apply of a granule with pairs on their way to its bins stands behind them (R125, R130): it is made in step 6. -/
def shootApply (s : State) (d : Nat) : State :=
  ((shotGrans (die s d)).filter fun g => !betweenBins s g.gran).foldl (fun s g => applyGran s d g.gran) s
/-- Whether a line has a byte in the pages of a shootdown. -/
def shotLine (x : Die) (l : Line) : Bool := shotBy x l.asid (l.ln * 128)
/-- Whether a TLB entry maps any part of the pages of a shootdown (R37). -/
def shotTlb (x : Die) (e : TlbEnt) : Bool :=
  match x.shoot with
  | none => false
  | some y =>
    match y.scope with
    | .page => y.asid == e.asid && e.va < y.va + y.pages * 65536 && y.va < e.va + e.size
    | .asid => y.asid == e.asid
    | .all => true
/-- Write back and invalidate every slice line of the pages of a shootdown (R37, R38). -/
def shootEvict (s : State) (d : Nat) : State :=
  let x := die s d
  (x.lines.filter (shotLine x)).foldl (fun s l => evict s d l) s
/-- A write of TLBINVC: refused while one runs, else steps 1 to 5 of R37. -/
def shootStart (s : State) (d : Nat) (scope : ShootScope) (asid count : Nat) : State :=
  if (die s d).shoot.isSome then updDie s d fun x => { x with tlberr := true }
  else
    let code := match scope with
      | .page => 0
      | .asid => 1
      | .all => 2
    let w := BitVec.ofNat 32 (setField 30 2 code (setField 16 12 asid (count % 65536)))
    let va := (die s d).tlbinva.toNat
    let s := updDie s d fun x => { x with tlbinvc := w, shoot := some ⟨scope, asid, va, count + 1⟩ }
    let s := shootEvict (shootApply s d) d
    updDie s d fun x => { x with tlb := x.tlb.filter fun e => !shotTlb x e }
/-- R37: scope 0b00. -/
def execShootdownPageRange (d asid count : Nat) (s : State) : Outcome := .next (shootStart s d .page asid count)
/-- R37: scope 0b01. -/
def execShootdownAsid (d asid : Nat) (s : State) : Outcome := .next (shootStart s d .asid asid 0)
/-- R37: scope 0b10. -/
def execShootdownAll (d : Nat) (s : State) : Outcome := .next (shootStart s d .all 0 0)
/-- R37 step 6: no access translated under the old entries is in flight; the lines that the last of them allocated go as
in step 4, since no access finds an old line afterwards (R38). -/
def execShootdownComplete (d : Nat) (s : State) : Outcome :=
  let x := die s d
  if x.shoot.isNone || segsInFlight s (fun y => y.die == d && shotBy x y.asid y.va)
      || pairsInFlight s (fun p => p.die == d && shotBy x p.asid p.va.toNat)
      || (shotGrans x).any (fun g => betweenBins s g.gran) then .next s
  else .next (updDie (shootApply (shootEvict s d) d) d fun x => { x with shoot := none })

/-- Set the state of a stack (R116). -/
def setStack (s : State) (n st : Nat) : State := updPkg s fun p => { p with msstate := mset 0 p.msstate n st }
/-- R111: the scrubber reads a sector and repairs a correctable error; an uncorrectable one is recorded. -/
def execPatrolScrub (n sector : Nat) (s : State) : Outcome :=
  let pa := n * 0x2000000000 + sector * 32
  if !populated pa || stackOf pa != n || stackState s n != msReady then .next s
  else if s.pkg.badSectors.any fun b => b == pa / 32 then .next (countBad s 1 n)
  else .next (repair s pa 32)
/-- R116: Off to Training. -/
def execStackTrainingStart (n : Nat) (s : State) : Outcome :=
  .next (if stackState s n == msOff then setStack s n msTraining else s)
/-- R117: a stack fails: its slice lines go without write-back. -/
def failStack (s : State) (n : Nat) : State :=
  (List.range 8).foldl (fun s d => updDie s d fun x =>
    { x with lines := x.lines.filter fun l => stackOf (l.pln * 128) != n }) (setStack s n msFailed)
/-- R116: Training to Ready or Failed. -/
def execStackTrainingEnd (n : Nat) (ok : Bool) (s : State) : Outcome :=
  .next (if stackState s n != msTraining then s else if ok then setStack s n msReady else failStack s n)
/-- R116, R117: a Ready stack loses a channel. -/
def execStackChannelLoss (n : Nat) (s : State) : Outcome :=
  .next (if stackState s n == msReady then failStack s n else s)
/-- R119: MSSTAT.HOTREF. -/
def execRefreshRateChange (n : Nat) (hot : Bool) (s : State) : Outcome :=
  .next (updPkg s fun p => { p with hotref := mset false p.hotref n hot })

/-- Home die of a stack address (R23). -/
def dieOfPa (pa : Nat) : Nat := stackOf pa / 2
/-- Whether the host may reach stack bytes by physical address (R431). -/
def hostReach (s : State) (pa : Nat) : Bool := populated pa && stackState s (stackOf pa) == msReady
/-- Whether a host access to n bytes stands behind a pair that has passed the filter and is not in its bin (R125). -/
def hostWaits (s : State) (pa n : Nat) : Bool :=
  s.pkg.pairs.any fun p => p.stage == .filtered && decide (pa / 4096 ≤ p.pa / 4096)
    && decide (p.pa / 4096 ≤ (pa + n - 1) / 4096)
/-- Apply the granule of an address before the host reads or writes it (R431). -/
def hostApply (s : State) (pa : Nat) : State :=
  if isPending s (dieOfPa pa) pa then applyGran s (dieOfPa pa) (pa / 4096) else s
/-- n free bytes: what a host read of an uncorrectable sector gives (the manual does not say). -/
def freeBytes (s : State) (n : Nat) : List Byte × State :=
  ((List.range (ceilDiv n 8)).flatMap fun i => bytesOf 8 (Config.freeWord (s.freeCtr + i)).toNat,
    { s with freeCtr := s.freeCtr + ceilDiv n 8 })
/-- A host read of stack bytes by physical address (R431): the bytes of an uncorrectable sector are free, and each such sector
is counted; the bytes of the others are read (R111, R113). -/
def hostStackRead (s : State) (pa n : Nat) : List Byte × State :=
  let s := hostApply s pa
  let bad := s.pkg.badSectors.filter fun b => b * 32 < pa + n && pa < b * 32 + 32
  if bad.isEmpty then (rdPhys s pa n, repair s pa n)
  else
    let f := freeBytes s n
    ((List.range n).map fun i => if bad.any (· == (pa + i) / 32) then f.1.getD i 0#8 else rdByte s (pa + i),
      bad.foldl (fun s _ => countBad s 1 (stackOf pa)) (repair f.2 pa n))
/-- A host write of stack bytes by physical address (R431). -/
def hostStackWrite (s : State) (pa : Nat) (bs : List Byte) : State := wrStack (hostApply s pa) pa bs
/-- Set bits of HLERR (R430). -/
def setHlerr (s : State) (k : Nat) : State := updPkg s fun p => { p with hlerr := p.hlerr ||| (1#32 <<< k) }
/-- Address that the aperture shows at an offset (R431). -/
def aperturePa (s : State) (o : Nat) : Nat := field 23 21 s.pkg.apbase.toNat * 8388608 + o
/-- R431: a host read through the aperture. -/
def execApertureRead (o : Nat) (wide : Bool) (s : State) : Outcome :=
  let n := if wide then 8 else 4
  let pa := aperturePa s o
  let ones : Word := if wide then 0xFFFFFFFFFFFFFFFF#64 else 0xFFFFFFFF#64
  let answer := fun (s : State) (w : Word) => updPkg s fun p => { p with hostRead := w }
  if o % n != 0 then .next (answer (setHlerr s 1) ones)
  else if !hostReach s pa then .next (answer (setHlerr s 2) ones)
  else if hostWaits s pa n then .next s
  else
    let r := hostStackRead s pa n
    .next (answer r.2 (BitVec.ofNat 64 (ofBytes r.1)))
/-- R431: a host write through the aperture. -/
def execApertureWrite (o : Nat) (wide : Bool) (v : Word) (s : State) : Outcome :=
  let n := if wide then 8 else 4
  let pa := aperturePa s o
  if o % n != 0 then .next (setHlerr s 1)
  else if !hostReach s pa then .next (setHlerr s 2)
  else if hostWaits s pa n then .next s
  else .next (hostStackWrite s pa (bytesOf n v.toNat))

/-- Whether n bytes lie wholly in the host window, or wholly in the populated part of one Ready stack
(R432). -/
def copyRange (s : State) (pa n : Nat) : Bool :=
  (inHost pa && inHost (pa + n - 1))
    || (hostReach s pa && populated (pa + n - 1) && stackOf (pa + n - 1) == stackOf pa)
/-- Set CPYST bits at the end of a copy and its event (R432, R434). -/
def copyEnd (s : State) (err : Bool) : State :=
  raiseEvent (updPkg s fun p =>
    { p with copy := none, cpyst := p.cpyst ||| (if err then 6#32 else 4#32) }) 7
/-- R432: a write of 1 to CPYCMD.GO. -/
def execCopyStart (s : State) : Outcome :=
  let src := s.pkg.cpysrc.toNat
  let dst := s.pkg.cpydst.toNat
  let n := s.pkg.cpylen.toNat
  if s.pkg.copy.isSome then .next (updPkg s fun p => { p with cpyst := p.cpyst ||| 2#32 })
  else if n == 0 || n % 64 != 0 || src % 64 != 0 || dst % 64 != 0 || !copyRange s src n || !copyRange s dst n
      || (inHost src && inHost dst) then .next (copyEnd s true)
  else .next (updPkg s fun p => { p with copy := some ⟨src, dst, n⟩ })
/-- Move one 64-byte block (R432). -/
def copyBlock (s : State) (src dst : Nat) : State :=
  let r := if inHost src then rdHost s src 64 else hostStackRead s src 64
  if inHost dst then wrPhys r.2 dst r.1 else hostStackWrite r.2 dst r.1
/-- Move n blocks in increasing order (R432). -/
def copyBlocks : Nat → State → Nat → Nat → State
  | 0, s, _, _ => s
  | n + 1, s, src, dst => copyBlocks n (copyBlock s src dst) (src + 64) (dst + 64)
/-- Whether the stack of an address has Failed. -/
def stackLost (s : State) (pa : Nat) : Bool := inStacks pa && stackState s (stackOf pa) == msFailed
/-- R432: the copy ends; with a stack of either range Failed it has stopped with ERR after some of its blocks, a
free number of them. -/
def execCopyComplete (s : State) : Outcome :=
  match s.pkg.copy with
  | none => .next s
  | some c =>
    if hostWaits s c.src c.len || hostWaits s c.dst c.len then .next s
    else if stackLost s c.src || stackLost s c.dst then
      let n := (Config.freeWord s.freeCtr).toNat % (c.len / 64)
      .next (copyEnd (copyBlocks n { s with freeCtr := s.freeCtr + 1 } c.src c.dst) true)
    else .next (copyEnd (copyBlocks (c.len / 64) s c.src c.dst) false)

end Sys2Proof.Machine
end

