-- ==== Sys2Proof/Machine/Updates.lean ====
section
/-!
DEFINITION. The path of an update pair (chapter 05): checks at the home die (R124), permits (R140), filter
(R107, R125), bins (R126), early applies and the overflow area (R133 to R139), kills (R142), region tables
and drains (R122, R123).
-/
namespace Sys2Proof.Machine

/-- A pair in flight by its number. -/
def pairOf (s : State) (id : Nat) : Option Pair := s.pkg.pairs.find? fun p => p.id == id
/-- Replace a pair. -/
def putPair (s : State) (x : Pair) : State :=
  updPkg s fun p => { p with pairs := p.pairs.map fun y => if y.id == x.id then x else y }
/-- Remove a pair. -/
def dropPair (s : State) (id : Nat) : State :=
  updPkg s fun p => { p with pairs := p.pairs.filter fun y => y.id != id }
/-- The deferred fault of a dropped pair: the first is kept, the others counted (R145). A context that is
gone keeps none. -/
def deferPair (s : State) (x : Pair) (cls : Nat) (f : MFault) : State :=
  if (ctxOf s x.gcn).phase == .free && !isHandler x.gcn then s
  else
    let batch := (cmdOf s x.gcn x.cmd).bind fun c => c.batch
    updCtx s x.gcn fun c =>
      match c.deferred with
      | some _ => { c with drop := c.drop + 1 }
      | none =>
        { c with deferred := some { va := x.va.toNat, val := x.val, cls := cls, w := x.w, asid := x.asid,
                                    cmd := x.cmd, elemNo := x.elemNo, batch := batch, code := f.code, lvl := f.lvl,
                                    unit := f.unit } }
/-- Pairs of a context that wait in the ingress for a stack (R140). -/
def waitingFor (s : State) (g n : Nat) : Bool :=
  s.pkg.pairs.any fun p => p.gcn == g && p.stage == .ingress && stackOf p.pa == n
/-- Whether a permit of a context for a stack has a slot that is not used (R140). -/
def hasSlot (s : State) (g n : Nat) : Bool :=
  s.pkg.permits.any fun t => t.gcn == g && t.stack == n && decide (t.used < 64)
/-- The home die requests a permit for a context that waits in the ingress with no free slot, behind the requests that
arrived before (R140). -/
def requestPermit (s : State) (g n : Nat) : State :=
  if waitingFor s g n && !hasSlot s g n && !(s.pkg.permReqs.any fun k => k == (g, n)) then
    updPkg s fun p => { p with permReqs := p.permReqs ++ [(g, n)] }
  else s
/-- Permits that are done go back to their sorter, and a request that nothing waits for any more is withdrawn (R140). -/
def returnPermits (s : State) (g n : Nat) : State :=
  let more := waitingFor s g n
  updPkg s fun p =>
    { p with permits := p.permits.filter (fun t =>
               !(t.gcn == g && t.stack == n && t.freed == t.used && (t.used == 64 || !more))),
             permReqs := p.permReqs.filter fun k => !(k == (g, n) && !more) }
/-- The permit slot that a pair used becomes free (R140). -/
def freeSlot (s : State) (x : Pair) : State :=
  let more := fun (t : Permit) => { t with freed := t.freed + 1 }
  returnPermits (updPkg s fun p => { p with permits := updFirst (fun t => t.id == x.permit) more p.permits })
    x.gcn (stackOf x.pa)
/-- Whether a newly generated pair waits until the pairs that its context's husk kept, of every port, are sent (R141). -/
def behindHusk (s : State) (x : Pair) : Bool :=
  !x.again && s.pkg.pairs.any fun p => p.gcn == x.gcn && p.stage == .buffered && p.again
/-- Whether a buffered pair is the next that its engine's transfer port sends: the first of the port, past those of
contexts that a pre-emption holds and those behind the pairs of a husk (R140, R141). -/
def nextOfPort (s : State) (x : Pair) : Bool :=
  match s.pkg.pairs.find? fun p =>
      p.stage == .buffered && podOf p.gcn == podOf x.gcn && p.lane == x.lane && !pausing s p.gcn && !behindHusk s p with
  | some p => p.id == x.id
  | none => false

/-- The fields of a region table entry (R122). -/
def rgnV (w : W32) : Bool := bitOf 31 w.toNat
def rgnOp (w : W32) : Nat := field 4 4 w.toNat
def rgnEt (w : W32) : Nat := field 0 4 w.toNat
/-- R124: a pair leaves the buffer of its port, in the port's order, and is placed, translated and checked; the first
failing check drops it. Behind the checks it waits in the ingress, also for a stack that is not Ready (R116, R123). An
uncorrectable DRAM error met by its translation drops it with class 2, reported with SRC 0b10 like every pair's memory
error: no code of R39 covers it, and R145 gives no SRC (DESIGN CHOICE, log entry 18). -/
def execPairHomeDieCheck (id : Nat) (s0 : State) : Outcome :=
  match pairOf s0 id with
  | none => .next s0
  | some y =>
    let x := { y with stage := .sent }
    let s := if y.stage == .buffered then putPair s0 x else s0
    let ag : Agent := { agentOf s x.gcn with asid := x.asid }
    let drop := fun (s : State) (cls : Nat) (f : MFault) => Host.Outcome.next (dropPair (deferPair s x cls f) id)
    if !(y.stage == .sent || (y.stage == .buffered && nextOfPort s0 y)) then .next s0
    else
      match xlatePiece s ag .emit x.va.toNat x.w with
      | .wait _ => .next s
      | .fault f s => drop s (if f.merr then 2 else 1) f
      | .ok sg s =>
        let b := mget 0#32 (die s sg.die).uprgn sg.rid
        let st := stackState s (stackOf sg.pa)
        if !rgnV b then drop s 3 (tfault 0 0)
        else if bindWidth (rgnOp b) (rgnEt b) != x.w then drop s 4 (tfault 0 0)
        else if x.va.toNat % x.w != 0 then drop s 5 (tfault 0 0)
        else if st == msFailed then drop s 2 (mfault 2 (stackOf sg.pa))
        else .next (requestPermit (putPair s { x with stage := .ingress, die := sg.die, pa := sg.pa, rid := sg.rid,
                                                      op := rgnOp b, et := rgnEt b }) x.gcn (stackOf sg.pa))
/-- R140: a sorter grants the request that arrived first a permit of 64 slots: at most 1,024 a stack, 4 a context and
stack. -/
def execPermitGrant (g n : Nat) (s : State) : Outcome :=
  let mine := s.pkg.permits.filter fun t => t.gcn == g && t.stack == n
  let all := (s.pkg.permits.filter fun t => t.stack == n).length
  let first := (s.pkg.permReqs.find? fun k => k.2 == n) == some (g, n)
  if first && stackState s n == msReady && decide (mine.length < 4) && decide (all < 1024) then
    .next (updPkg s fun p =>
      { p with permits := p.permits ++ [⟨p.nextPermit, g, n, 0, 0⟩], nextPermit := p.nextPermit + 1,
               permReqs := p.permReqs.filter fun k => k != (g, n) })
  else .next s
/-- The pending bit of a granule is set: its lines are written back and invalidated (R107, R125). -/
def setPending (s : State) (x : Pair) : State :=
  let gran := x.pa / 4096
  if isPending s x.die x.pa then s
  else
    let s := updDie s x.die fun d => { d with grans := ⟨gran, x.rid, x.asid, x.va.toNat⟩ :: d.grans }
    ((die s x.die).lines.filter fun l => l.pln / 32 == gran).foldl (fun s l => evict s x.die l) s
/-- The stack cache of the sender of a pair as the pair passes the filter: a held dirty line that its element overlaps is
written back first, and the held line goes, since the element changes under it (R70); true when the line must wait. A line
whose write-back fails stays. -/
def emitClean (s : State) (x : Pair) : State × Bool :=
  let r := stkClean s (some (.pair x.id)) x.gcn x.va.toNat x.w
  (updCtx r.1 x.gcn fun c =>
    { c with stk := c.stk.filter fun l => l.dirty || !(l.va < x.va.toNat + x.w && x.va.toNat < l.va + 64) }, r.2)
/-- R125: a pair with a free permit slot enters the filter and is forwarded, behind a store to its element that is
visible to its sender (R158) and one that its sender's stack cache holds (R70). -/
def execPairFilterPass (id : Nat) (s : State) : Outcome :=
  match pairOf s id with
  | none => .next s
  | some x =>
    let n := stackOf x.pa
    let mine := fun (t : Permit) => t.gcn == x.gcn && t.stack == n && decide (t.used < 64)
    let sg : Seg := ⟨x.die, x.asid, x.va.toNat, x.pa, x.w, .update, x.rid⟩
    if x.stage != .ingress then .next s
    else if stackState s n == msFailed then
      .next (returnPermits (dropPair (deferPair s x 2 (mfault 2 n)) id) x.gcn n)
    else if stackState s n != msReady || storeBefore s (agentOf s x.gcn) [sg] then .next s
    else
      match s.pkg.permits.find? mine, emitClean s x with
      | none, _ => .next s
      | some _, (s, true) => .next s
      | some t, (s, false) =>
        let more := fun (t : Permit) => { t with used := t.used + 1 }
        let s := updPkg s fun p => { p with permits := updFirst (fun y => y.id == t.id) more p.permits }
        let s := putPair (setPending (overAccess s x.pa) x) { x with stage := .filtered, permit := t.id }
        .next (requestPermit s x.gcn n)

/-- Bins of a stack's sorter (R133). -/
def binMax : Nat := 2097152
/-- R126: a filtered pair is accepted into the bin of its element; with every bin occupied it waits
(R136). -/
def execPairBinAccept (id : Nat) (s : State) : Outcome :=
  match pairOf s id with
  | none => .next s
  | some x =>
    let n := stackOf x.pa
    let d := die s x.die
    let born := d.bins.foldl (fun a b => max a (b.born + 1)) 0
    let b : Bin := { pa := x.pa, op := x.op, et := x.et, val := toBin x.op x.val.toNat, born := born }
    if x.stage != .filtered then .next s
    else if stackState s n == msFailed then
      .next (freeSlot (clearGran (dropPair (deferPair s x 2 (mfault 2 n)) id) x.die (x.pa / 4096)) x)
    else if !(d.bins.any (sameBin b)) && decide (binMax ≤ binsOf d n) then .next s
    else
      let s := updDie s x.die fun d => { d with bins := addBin d.bins b }
      .next (freeSlot (dropPair (markBins s n) id) x)
/-- R130, R131: an access to a pending granule triggers its apply. -/
def execPendingGranuleAccess (gran : Nat) (s : State) : Outcome :=
  let pa := gran * 4096
  .next (if hostReach s pa then hostApply s pa else s)

/-- Granules of a stack that have entries in its overflow area (R138). -/
def overGrans (x : Die) (n : Nat) : List Nat :=
  ((x.spill.filter fun b => stackOf b.pa == n).map fun b => b.pa / 4096).eraseDups
/-- Whether the overflow area of a stack has room for a granule (R138). -/
def overRoom (x : Die) (n gran : Nat) : Bool :=
  let size := field 0 4 (x.upovf.getD (n % 2) 0#64).toNat
  let gs := overGrans x n
  decide (0 < size) && (gs.any (· == gran) || decide (gs.length < size * 8192))
/-- Whether an early apply frees a bin of a granule: add.f16e bins move, others are applied but for those in
uncorrectable sectors, which a later trigger tries again (R129, R134, R138). A granule with nothing to free is passed over
when the oldest is chosen, which R134 does not say (DESIGN CHOICE, log entry 18). -/
def mayEarly (s : State) (n gran : Nat) : Bool :=
  let mine := (die s (n / 2)).bins.filter fun b => b.pa / 4096 == gran
  ((mine.all fun b => b.op == 2) && overRoom (die s (n / 2)) n gran)
    || mine.any fun b => !(s.pkg.badSectors.any fun k => k == b.pa / 32)
/-- The oldest bin of a stack, of the granules that an early apply can serve: a granule's age is that of its first bin
(R134). -/
def oldestBin (s : State) (n : Nat) : Option Bin :=
  ((die s (n / 2)).bins.filter fun b => stackOf b.pa == n && mayEarly s n (b.pa / 4096)).foldl (fun a b =>
    match a with
    | none => some b
    | some c => if b.born < c.born then some b else a) none
/-- Early apply of a granule; bins of add.f16e move to the overflow area while it has room, else the apply
counts as a rounding one (R135, R138, R139). -/
def earlyGran (s : State) (n gran : Nat) : State :=
  let d := n / 2
  let mine := (die s d).bins.filter fun b => b.pa / 4096 == gran
  if mine.all fun b => b.op == 2 then
    if overRoom (die s d) n gran then
      updDie s d fun x => { x with bins := x.bins.filter (fun b => b.pa / 4096 != gran),
                                   spill := mine.foldl addBin x.spill }
    else
      applyGran (updDie s d fun x =>
        { x with f16rnd := x.f16rnd.set (n % 2) (min 0xFFFF (x.f16rnd.getD (n % 2) 0 + 1)) }) d gran
  else applyGran s d gran
/-- R134: above the high-water mark, one pending granule, the oldest, is applied early. -/
def execEarlyApply (n : Nat) (s : State) : Outcome :=
  if !(die s (n / 2)).hwm.getD (n % 2) false || stackState s n != msReady then .next s
  else
    match oldestBin s n with
    | none => .next s
    | some b => .next (markBins (earlyGran s n (b.pa / 4096)) n)

/-- R142: the kill message of a context reaches a home die behind its pairs; its unsent pairs are gone already. -/
def execContextKillMessage (g d : Nat) (s : State) : Outcome :=
  let due := s.pkg.kills.any fun k => k.1 == g && k.2 == d
  let left := s.pkg.pairs.any fun p => p.gcn == g && (p.stage == .sent || p.die == d)
  if !due || left then .next s
  else
    .next (updPkg s fun p =>
      { p with permits := p.permits.filter (fun t => !(t.gcn == g && t.stack / 2 == d)),
               permReqs := p.permReqs.filter (fun k => !(k.1 == g && k.2 / 2 == d)),
               kills := p.kills.filter fun k => !(k.1 == g && k.2 == d) })

/-- Whether a region is in use on a die (R123). -/
def regionBusy (s : State) (d rid : Nat) : Bool :=
  ((die s d).grans.any fun g => g.rid == rid)
    || pairsInFlight s fun p => p.die == d && p.rid == rid
/-- R122, R123: a write of UPRGNn. -/
def execUprgnWrite (d rid : Nat) (v : W32) (s : State) : Outcome :=
  if (rgnV v && bindWidth (rgnOp v) (rgnEt v) == 0) || regionBusy s d rid then
    .next (updDie s d fun x => { x with uperr := true })
  else .next (updDie s d fun x => { x with uprgn := mset 0#32 x.uprgn rid (v &&& 0x800000FF#32) })
/-- Apply every pending granule of a region on a die (R122). -/
def applyRegion (s : State) (d rid : Nat) : State :=
  ((die s d).grans.filter fun g => g.rid == rid).foldl (fun s g => applyGran s d g.gran) s
/-- R122: a write of UPDRAIN starts a drain. While one runs the write sets ERR and does nothing else: the manual states no
other effect of it (DESIGN CHOICE, log entry 18). -/
def execUpdrainWrite (d rid : Nat) (s : State) : Outcome :=
  if (die s d).drain.isSome then .next (updDie s d fun x => { x with uperr := true })
  else .next (applyRegion (updDie s d fun x => { x with drain := some rid }) d rid)
/-- R122: the drain ends once no pair of the region lies between the filter and the bins; what the bins took meanwhile is
applied. That a granule is applied at the write and again for those pairs is a DESIGN CHOICE (log entry 18). -/
def execDrainComplete (d : Nat) (s : State) : Outcome :=
  match (die s d).drain with
  | none => .next s
  | some rid =>
    if s.pkg.pairs.any fun p => p.stage == .filtered && p.die == d && p.rid == rid then .next s
    else .next (updDie (applyRegion s d rid) d fun x => { x with drain := none })

end Sys2Proof.Machine
end

