-- ==== Sys2Proof/Machine/Waits.lean ====
section
/-!
DEFINITION. What ends the waits of a context: fences (R156), batch waits (R253), `ufence` (R144), barriers
(R162, R250), version checks (R59), `arrinc` (R251), splits and joins (R192, R193), stack-cache fills (R69);
and the pod picker (R187, R387).
-/
namespace Sys2Proof.Machine

/-- What a half waits for while its context is Issuing or Parked. -/
def waitOf (s : State) (g : Nat) (h : HalfId) : Wait :=
  let c := ctxOf s g
  if c.has h && (c.phase == .issuing || c.phase == .parked) then (c.half h).wait else .none
/-- A half stands as the issuer. -/
def asIssuer (s : State) (g : Nat) (h : HalfId) : State := { s with issuer := ⟨g, h, .sa, Env.fresh⟩ }
/-- A wait at a switch point is over: results have landed, the half's run has ended (R185, R186) and issue goes on behind
the slot (R61), unless the half is held (R194). -/
def endWait (s : State) (g : Nat) (h : HalfId) : State :=
  holdHalf (updHalf (landSwitch s g h) g h fun x => { passSlot x with run := 0 }) g h
/-- The words that a wait of a context over the batches up to n and the classes `cm` covers read as they stand (R63,
R169). -/
def coverUnseen (s : State) (g n : Nat) (cm : BitVec 3) : State :=
  expose s fun u => u.gcn == g && cm.getLsbD u.cls.bit &&
    match u.batch with
    | some b => atOrBefore n b
    | none => false

/-- R156 to R159: an acquire orders loads that are already done. A release or full fence makes the half's stores, and
those of others that its context can see, visible in the instance of its scope and no further (R153); at system scope
they have all taken effect. -/
def execFenceComplete (g : Nat) (h : HalfId) (s : State) : Outcome :=
  match waitOf s g h with
  | .fence .acq _ => .next (endWait s g h)
  | .fence _ .sys =>
    let ag := agentOf s g
    let s := (visibleStores s ag).foldl (fun s x => flushStores s x.1) (flushStores s g)
    .next (if ((ctxOf s g).half h).stq.isEmpty && (visibleStores s ag).isEmpty then endWait s g h else s)
  | .fence _ sc => .next (endWait (releaseTo s g h (scopeVis sc)) g h)
  | _ => .next s
/-- R253, R43, R145: the covered commands are complete; a recorded fault is reported. -/
def execWaitbComplete (g : Nat) (h : HalfId) (s : State) : Outcome :=
  match waitOf s g h with
  | .waitb n cm =>
    if (covered (ctxOf s g) n cm).all fun x => x.fin then
      match reportOr (asIssuer (landSwitch s g h) g h) n cm (cm.getLsbD 1) fun s =>
        .next (endWait (coverUnseen s g n cm) g h) with
      | .next s => .next (landFrozen s g)
      | o => o
    else .next s
  | .halt next => haltStep (landSwitch s g h) g h next
  | _ => .next s
/-- R144, R145: every pair of the emit commands issued before the `ufence` is accepted or dropped; a deferred fault is
reported. -/
def execUfenceComplete (g : Nat) (h : HalfId) (s : State) : Outcome :=
  match waitOf s g h with
  | .ufence upto =>
    if pairsOut s g upto || emitsOut (ctxOf s g) upto then .next s
    else
      let s := asIssuer (landSwitch s g h) g h
      match (ctxOf s g).deferred with
      | none => .next (endWait s g h)
      | some f =>
        let r := if (ctxOf s g).stopBy.isSome then (s, causeUpdate, 0) else reportPair s f
        .next (landFrozen (raiseW r.1 r.2.1 r.2.2 true) g)
  | .halt next => haltStep (landSwitch s g h) g h next
  | _ => .next s

/-- A context's wait on a generation that has completed ends with an acquire (R250). -/
def wakeBar (s : State) (g : Nat) (bk : BarKind) (id gen : Nat) : State :=
  match waitOf s g .primary with
  | .barw k i n =>
    if k == bk && i == id && n == gen then
      updCtx (endWait s g .primary) g fun c => dropArrival c bk id
    else s
  | _ => s
/-- R162, R203, R250: every current participant has arrived. -/
def execBarrierGenerationComplete (l : Nat) (bk : BarKind) (unit id : Nat) (s : State) : Outcome :=
  match launchOf s l with
  | none => .next s
  | some x =>
    let b := barrierOf x bk unit id
    let ps := participants s l bk unit
    if ps.isEmpty || !(ps.all fun g => b.arrived.any (· == g)) then .next s
    else
      let s := updLaunch s l fun x => putBarrier x { b with gen := b.gen + 1, arrived := [] }
      .next (ps.foldl (fun s g => wakeBar s g bk id b.gen) s)
/-- R59, R295: every active lane has reached the version, or for the further stall of `mread` no command on the tile is
left there. -/
def execVersionCheckRelease (g : Nat) (h : HalfId) (s : State) : Outcome :=
  match waitOf s g h with
  | .version t v extra =>
    let c := ctxOf s g
    if (lanesOf (c.half h).am).all fun e =>
        if extra then outstandingIn c e t == 0 else accver s g e t == v then
      .next (holdHalf (updHalf (landSwitch s g h) g h fun x => { x with wait := .none, verOk := true, run := 0 }) g h)
    else .next s
  | _ => .next s
/-- R163, R251: the release is made and the die dispatcher adds, modulo 2^32; the launches admitted by now check the new
value (R376, R381). -/
def execArrincAccepted (g : Nat) (h : HalfId) (s : State) : Outcome :=
  match waitOf s g h with
  | .arrinc d ctr x =>
    let s := releaseTo s g h .pkg
    let v := mget 0#32 (die s d).arrcnt ctr + x
    let s := updDie s d fun y => { y with arrcnt := mset 0#32 y.arrcnt ctr v }
    let s := updPkg s fun p => { p with checks := p.checks ++ [(d, ctr, v, p.nextLaunch)] }
    .next (updHalf s g h passSlot)
  | _ => .next s

/-- R192: the split of a parked context whose accesses and results before it are done; a single-step stop
follows its bundle (R404). The spare half starts with the TPC of the last freeze, which stays the one to read (R393). -/
def execSplitStart (g : Nat) (s : State) : Outcome :=
  match waitOf s g .primary with
  | .split t n tgt ft rpc =>
    let s := flushStores s g
    if (ctxOf s g).spare.isSome || !storesDone s g then .next s
    else
      let s := landHalf s g .primary
      let s := updCtx s g fun c =>
        let p := c.prim
        let start := fun (x : Half) (pc : Word) (m : Mask) =>
          { x with am := m, own := m, pc := pc, nextPc := none, rep := 0, slot := 0, begun := false,
                   live := false, verOk := false, switchReq := false, wait := .none, run := 0 }
        { c with prim := start { p with stalk := ⟨n, rpc, true, p.am, ft⟩ :: p.stalk } tgt t,
                 spare := some (start { Half.reset with sreg := p.sreg, kreg := p.kreg, breg := p.breg, tpc := p.tpc } ft n) }
      .next (if bitOf 0 (ctxOf s g).tctl.toNat then freeze s g .primary causeStep 0 false true else s)
  | _ => .next s
/-- R193: both halves have parked at RPC. The spare half's queue is gone with it: the join waits until the spare's stores have
taken effect (the manual does not say what becomes of them: DESIGN CHOICE, log entry 9). When TSW names the spare half,
its TPC stays the one to read (R393). -/
def execJoin (g : Nat) (s : State) : Outcome :=
  match waitOf s g .primary, waitOf s g .spare, (ctxOf s g).prim.stalk with
  | .join, .join, e :: l =>
    let s := drainStq s g .spare ((ctxOf s g).half .spare).stq.length
    if !((ctxOf s g).half .spare).stq.isEmpty then .next s
    else
      let s := landHalf (landHalf s g .primary) g .spare
      .next (updCtx s g fun c =>
        { c with prim := { c.prim with stalk := l, am := e.saved, own := 0xFFFF#16, wait := .none, live := true,
                                       lost := c.prim.lost ++ (c.half .spare).lost,
                                       tpc := if tswHalf c == .spare then (c.half .spare).tpc else c.prim.tpc },
                 spare := none })
  | _, _, _ => .next s

/-- R69: the fill of the lines that an interlocked access misses; a fault is left to the access. -/
def execStackCacheFill (g : Nat) (h : HalfId) (s : State) : Outcome :=
  match waitOf s g h with
  | .access i =>
    let s' := asIssuer s g h
    (match accessBytes (curH s') i with
    | some (va, n) =>
      if stackPart s' va n == .inside then
        (match stkFills s' g h va n with
        | .ok s => .next s
        | .wait l => .next (noteAsks s l)
        | .fault _ _ _ => .next s)
      else .next s
    | none => .next s)
  | _ => .next s
/-- R69: up to two lines above the held lines are filled while the s63 of a half is within 256 bytes below the lowest
address above them; a fill that faults is discarded, and an error that it finds is counted (R112). A context that is
frozen fills nothing: its handler's stores have dropped the lines they hit (R71). -/
def execStackCacheBackgroundFill (g : Nat) (s : State) : Outcome :=
  let c := ctxOf s g
  let top := c.stk.foldl (fun a l => max a (l.va + 64)) 0
  let near := fun (x : Half) => decide (top ≤ (rdSH x 63).toNat + 256) && decide ((rdSH x 63).toNat < top)
  let fill := fun (s : State) (va : Nat) =>
    if va + 64 ≤ c.stktop.toNat && (ctxOf s g).stk.length < 64 then
      (match stkFill s g .primary va va with
      | .ok s => s
      | .fault _ _ s => s
      | .wait _ => s)
    else s
  let runs := c.phase == .issuing || c.phase == .ready || c.phase == .parked
  if runs && !c.stk.isEmpty && (c.halves.any fun h => near (c.half h)) then
    .next (fill (fill s top) (top + 64))
  else .next s

/-- The Ready context with the greatest key; equal keys go to the lower slot (R387). -/
def bestOf (s : State) (p : Nat) (key : Ctx → Nat) (l : List Nat) : Option Nat :=
  l.foldl (fun (a : Option Nat) n =>
    match a with
    | none => some n
    | some m => if key (ctxOf s (p * 8 + m)) < key (ctxOf s (p * 8 + n)) then some n else some m) none
/-- Whether the fetch of the bundle at which a half stands must wait (R19, R116). -/
def fetchStalls (s : State) (g : Nat) (x : Half) : Bool :=
  match fetchAt s g x.pc with
  | .wait _ => true
  | _ => false
/-- Whether no slot of an issue before the one at which a half stands has work. -/
def firstWork (s : State) (g : Nat) (x : Half) : Bool :=
  x.slot == 0 ||
    match fetchAt s g x.pc with
    | .ok hdr ws _ =>
      (makeBundle hdr ws).any fun b => (allSlots.take x.slot).all fun k => !(workOf b x k).some
    | _ => false
/-- Whether a half waits in an issue that has done nothing, so that it stands where the issue begins. -/
def unissued (s : State) (g : Nat) (x : Half) : Bool := !x.wait.isNone && firstWork s g x
/-- Whether a pre-emption can freeze a half where it stands, which loses nothing that has issued: at a boundary between
issues; in an issue that waits and has done nothing; or in one that a resume continues and whose fetch stalls. The access
or fetch is saved unissued (R19). Behind a slot of its issue that has done its work a half goes on to the boundary, since a
pre-emption is never taken within an issue (R392, R394, R407). -/
def preStop (s : State) (g : Nat) (x : Half) : Bool :=
  atBoundary x || unissued s g x || (!x.live && x.wait.isNone && fetchStalls s g x)
/-- The halves of a context that wait in an issue that has done nothing stand at its start, slot sa (R394). -/
def issueStart (s : State) (g : Nat) (c : Ctx) : Ctx :=
  let f := fun (x : Half) => if unissued s g x then { x with slot := 0 } else x
  { c with prim := f c.prim, spare := c.spare.map f }
/-- R407 step 2: a context of a launch that is pre-empted freezes once its halves stand where it may; one that is still
Loading is Frozen too, since only a Frozen context leaves its slot (R180, log entry 11). TSW takes SLOT,
REP and SPLIT as R394 gives; the manual names no CAUSE for it, and CAUSE, one of those of R391, and ARG take a free
value (log entry 4). It is not queued for the handler. -/
def preFreeze (s : State) (g : Nat) : State :=
  let c := ctxOf s g
  let live := c.phase == .issuing || c.phase == .ready || c.phase == .parked || c.phase == .loading
  if !live || !pausing s g || c.stopBy.isSome || !(c.halves.all fun h => preStop s g (c.half h)) then s
  else
    let f := (Config.freeWord s.freeCtr).toNat
    let s := c.halves.foldl (fun s h =>
      if c.phase == .parked || ((ctxOf s g).half h).wait.isSwitch then landSwitch s g h else s)
      (updCtx { s with freeCtr := s.freeCtr + 1 } g (issueStart s g))
    let c := issueStart s g c
    let w := tswWord (field 8 16 f) c.prim.rep c.spare.isSome .primary false (min c.prim.slot 5) (1 + field 0 6 f % 0x17)
    landFrozen (updCtx s g fun c =>
      { c with phase := .frozen, settling := true, preFrozen := true, tsw := w, prim := freezeHalf c.prim,
               spare := c.spare.map freezeHalf }) g
/-- The contexts of a pod that a pre-emption can freeze give up their sequencer (R407). -/
def standStill (s : State) (p : Nat) : State := [0, 1, 2, 3].foldl (fun s n => preFreeze s (p * 8 + n)) s
/-- A context that has executed `yield` since the last choice of a run waits also for the others that are Ready at this one
(R259, R387). -/
def markYields (s : State) (p : Nat) : State :=
  let ready := [0, 1, 2, 3].filter fun n => (ctxOf s (p * 8 + n)).phase == .ready
  [0, 1, 2, 3].foldl (fun s m =>
    if (ctxOf s (p * 8 + m)).yielded then
      updCtx s (p * 8 + m) fun c =>
        { c with yielded := false, yieldSet := c.yieldSet ++ ready.filter fun n => n != m && !c.yieldSet.contains n }
    else s) s
/-- The slot that the picker chooses, and whether by the credit of rule 3 (R187, R387). Where every Ready context is passed
over, since the contexts that they wait for are Ready no more, all are candidates again: the manual does not say (DESIGN
CHOICE, log entry 11). -/
def pickerSlot (s : State) (p : Nat) : Option (Nat × Bool) :=
  let c := fun n => ctxOf s (p * 8 + n)
  if (c 4).phase == .ready then some (4, false)
  else
    let ready := [0, 1, 2, 3].filter fun n => (c n).phase == .ready
    match bestOf s p (fun x => x.age) ready with
    | none => none
    | some o =>
      if 3 ≤ (c o).age then some (o, false)
      else
        let open_ := ready.filter fun n => (c n).yieldSet.isEmpty
        let cand := if open_.isEmpty then ready else open_
        match cand.find? fun n => (c n).urgent && (c n).credit != 0 with
        | some n => if ready.length ≤ 3 then some (n, true) else
            (bestOf s p (fun x => 2 * x.age + bit x.urgent) cand).map fun n => (n, false)
        | none => (bestOf s p (fun x => 2 * x.age + bit x.urgent) cand).map fun n => (n, false)
/-- R387: at a switch or quiet point of the primary sequencer the picker chooses the next run; AGE counts
runs chosen, those of the handler slot apart. -/
def execPickerChoice (p : Nat) (s : State) : Outcome :=
  let s := standStill s p
  if [0, 1, 2, 3, 4].any fun n => (ctxOf s (p * 8 + n)).phase == .issuing then .next s
  else
    match pickerSlot (markYields s p) p with
    | none => .next s
    | some (n, credit) =>
      let s := if n = 4 then s else markYields s p
      let free := fun (x : Half) => if x.wait == .held then { x with wait := .none, run := 0 } else { x with run := 0 }
      let s := if n = 4 then s
        else [0, 1, 2, 3].foldl (fun s m => updCtx s (p * 8 + m) fun c =>
          { c with age := if m != n && c.phase == .ready then c.age + 1 else c.age,
                   yieldSet := c.yieldSet.filter (· != n) }) s
      .next (updCtx s (p * 8 + n) fun c =>
        { c with phase := .issuing, age := 0, prim := free c.prim, spare := c.spare.map free,
                 urgentRuns := if c.urgent then c.urgentRuns + 1 else c.urgentRuns,
                 credit := if credit then 0 else if c.urgent && n != 4 && c.age < 3 then 1 else c.credit })
/-- R388: an urgent context that has had 65,536 runs without completing an iteration is held back. -/
def execUrgencyHoldBack (g : Nat) (s : State) : Outcome :=
  let c := ctxOf s g
  if c.urgent && !c.heldBack && decide (65536 ≤ c.urgentRuns) then
    let s := updCtx s g fun c => { c with heldBack := true, urgent := false, credit := 0 }
    match c.launch with
    | some l => .next (urgency s l c.team)
    | none => .next s
  else .next s

end Sys2Proof.Machine
end

