-- ==== Sys2Proof/Machine/Sched.lean ====
section
/-!
DEFINITION. Launch and hardware scheduling (chapter 15): start vectors and queues (R366 to R371), admission
(R374), triggers and bounds (R376, R377), placement (R182, R383), hand-out (R379), extension (R382),
completion (R385).
-/
namespace Sys2Proof.Machine

/-- The I-die as an agent under an ASID (R14, R16). -/
def idie (asid : Nat) : Agent :=
  { unit := 8, asid := asid, priv := false, urgent := false, ask := none, pod := none, die := none, pkg := true, who := none }
/-- The die dispatcher and walker of a C-die as an agent under an ASID (R152). -/
def dispatcher (d asid : Nat) : Agent :=
  { unit := d, asid := asid, priv := false, urgent := false, ask := none, pod := none, die := some d, pkg := true, who := none }
/-- Set a bit of LERR (R390). -/
def setLerr (s : State) (k : Nat) : State := updPkg s fun p => { p with lerr := p.lerr ||| (1#32 <<< k) }
/-- QCFG of a queue; its reset value has QUANTUM 0x40 (R390). -/
def qcfgOf (s : State) (q : Nat) : W32 := mget 0x40#32 s.pkg.qcfg q
/-- Replace the entries of a queue. -/
def putQueue (s : State) (q : Nat) (l : List QEntry) : State :=
  updPkg s fun p => { p with queues := mset [] p.queues q l }
/-- A queue leaves the scheduler's lists: its deficit is 0 and its visit ends (R369). -/
def leaveList (s : State) (q : Nat) : State :=
  updPkg s fun p =>
    { p with hi := p.hi.filter (· != q), lo := p.lo.filter (· != q), deficit := mset 0 p.deficit q 0,
             visit := p.visit.filter (· != q) }
/-- A queue joins the tail of its class's list (R368, R369). -/
def joinList (s : State) (q : Nat) : State :=
  updPkg s fun p =>
    if bitOf 16 (qcfgOf s q).toNat then { p with hi := p.hi ++ [q] } else { p with lo := p.lo ++ [q] }
/-- A vector is discarded (R367). -/
def discard (s : State) (q : Nat) : State := updPkg s fun p => { p with ovf := mset false p.ovf q true }

/-- Units of a launch that wait for an iteration that will never come end as by `halt` (R380). -/
def endWaiters (s : State) (l d : Nat) : State :=
  match launchOf s l with
  | none => s
  | some x =>
    if noMore s x d && x.pre == .running then
      ((x.waiting.filter fun u => u.1 == d).flatMap fun u => u.2).foldl freeCtx s
    else s
/-- The same on every die of its mask. -/
def endAllWaiters (s : State) (l : Nat) : State :=
  match launchOf s l with
  | none => s
  | some x => (recDies x).foldl (fun s d => endWaiters s l d) s
/-- Close an open launch (R381). -/
def closeLaunch (s : State) (l : Nat) : State :=
  match launchOf s l with
  | none => s
  | some x =>
    if alive x && isOpen x then endAllWaiters (updLaunch s l fun x => { x with closed := true }) l else s
/-- Admitted launches with an ASID and TAG, in the order of their admission. -/
def launchesOf (s : State) (asid : Nat) (tag : W32) : List Launch :=
  s.pkg.launches.filter fun x => x.asid == asid && x.tag == tag
/-- R381: a close vector; it is never queued. -/
def execCloseVector (q : Nat) (hi : Word) (s : State) : Outcome :=
  let lo := (mget 0#64 s.pkg.svlo q).toNat
  let asid := field 48 12 lo
  if !bitOf 0 hi.toNat then .next s
  else if asid == 0 || field 60 4 lo != 0 then .next (discard s q)
  else .next ((launchesOf s asid (BitVec.ofNat 32 (field 32 32 hi.toNat))).foldl (fun s x => closeLaunch s x.id) s)
/-- R366, R367: a start vector is appended to its queue or discarded. The host's stores before it are delivered first: the
write of the vector is a release of the host, in posted-write order (R166). -/
def execStartVectorSubmit (q : Nat) (hi : Word) (s : State) : Outcome :=
  let lo := (mget 0#64 s.pkg.svlo q).toNat
  let asid := field 48 12 lo
  let rva := field 0 48 lo
  let l := queueOf s q
  let e : QEntry := { asid := asid, rva := rva, tag := BitVec.ofNat 32 (field 32 32 hi.toNat),
                      stkva := field 1 31 hi.toNat * 131072, record := none }
  if bitOf 0 hi.toNat then .next s
  else
  let s := hostDeliver s.pkg.hostIn.length s
  if decide (1024 ≤ l.length) || asid == 0 || field 60 4 lo != 0 || rva % 64 != 0 then .next (discard s q)
  else
    let s := putQueue s q (l ++ [e])
    .next (if l.isEmpty then joinList s q else s)

/-- The words of a byte list. -/
def wordsOf : Nat → List Byte → List Word
  | 0, _ => []
  | n + 1, bs => BitVec.ofNat 64 (ofBytes (bs.take 8)) :: wordsOf n (bs.drop 8)
/-- Prefetch the lines of one range, on behalf of no context (R371). Of a range with a line that would fault, wait or touch a
pending granule that line alone is dropped: R371 does not say whether the range is dropped whole, as R313 drops a row
(DESIGN CHOICE, log entry 34). -/
def prefetchRange (asid : Nat) : Nat → State → Nat → State
  | 0, s, _ => s
  | n + 1, s, ln => prefetchRange asid n (prefetchRow s s (idie asid) (ln * 128) 128 .normal) (ln + 1)
/-- One entry of a prefetch list; a malformed one, or one whose read would fault, wait or touch a pending
granule, is skipped (R371), and the next entry is read: R371 does not say whether the list is one read (DESIGN CHOICE, log
entry 34). An uncorrectable error that its read finds stays counted (R112). -/
def prefetchEntry (s : State) (asid va : Nat) : State :=
  match xlate (idie asid) .tread 3 s va 16 with
  | .ok l s =>
    if l.any fun sg => isPending s sg.die sg.pa then s
    else
      (match memRead s (idie asid) .tread va 16 .normal with
      | .ok bs s =>
        let a := ofBytes (bs.take 8)
        let n := ofBytes (bs.drop 8)
        if field 48 16 a != 0 || n == 0 || decide (67108864 < n) then s
        else prefetchRange asid ((a + n - 1) / 128 - a / 128 + 1) s (a / 128)
      | .fault _ s => s
      | .wait _ => s)
  | .fault _ s => s
  | .wait _ => s
/-- R371, R372: the I-die reads the record of an entry of the head window, and its prefetch list, once. -/
def execNestRecordRead (q pos : Nat) (s : State) : Outcome :=
  let l := queueOf s q
  match l[pos]? with
  | none => .next s
  | some e =>
    if e.record.isSome || decide (4 ≤ pos) || notStarted s 0 then .next s
    else
      match memRead s ((idie e.asid).asking (.record q e.rva)) .sload e.rva 64 .normal with
      | .wait l => .next (noteAsks s l)
      | .fault _ s =>
        let s := putQueue (setLerr s 0) q (l.eraseIdx pos)
        .next (if l.length ≤ 1 then leaveList s q else s)
      | .ok bs s =>
        let w := wordsOf 8 bs
        let s := putQueue s q (l.set pos { e with record := some w })
        let pfva := field 0 48 (w.getD 2 0#64).toNat
        let pfn := field 48 4 (w.getD 3 0#64).toNat
        .next ((List.range pfn).foldl (fun s i => prefetchEntry s e.asid (pfva + 16 * i)) s)

/-- Word i of a record held as words. -/
def rw (w : List Word) (i : Nat) : Nat := (w.getD i 0#64).toNat
/-- The roles of a record: V, KIND, count, VCNT, ACNT (R372). -/
def rolesOf (w : List Word) : List (Bool × RoleD) :=
  [0, 1, 2, 3].map fun i =>
    let r := field (16 * i) 16 (rw w 7)
    (bitOf 15 r, ⟨field 14 1 r, field 9 5 r + 1, 16 * (field 5 4 r + 1), field 1 4 r⟩)
/-- The roles that are present. -/
def present (l : List (Bool × RoleD)) : List RoleD := (l.filter fun x => x.1).map fun x => x.2
/-- Contexts of a team, role by role. -/
def countOfRoles (l : List RoleD) : Nat := l.foldl (fun a r => a + r.count) 0
/-- R183 on the roles of a record. -/
def rolesOk (l : List RoleD) : Bool :=
  !l.isEmpty && decide (countOfRoles l ≤ 32) && l.all fun r => decide (r.acnt ≤ 8)
/-- The roles of a kernel header (R232). -/
def headRoles (w : List Word) : List (Bool × RoleD) :=
  [2, 3, 4, 5].map fun i =>
    let r := rw w i
    (bitOf 0 r, ⟨field 1 1 r, field 2 6 r, 16 * field 8 5 r, field 16 4 r⟩)
/-- The rules of R232 on a header at an address for a record's ENTRY. NAME is not looked at: the manual describes it as
zero-padded ASCII and does not say that another content breaks a rule (DESIGN CHOICE, log entry 34). -/
def headOk (w : List Word) (entry : Nat) : Bool :=
  let rs := headRoles w
  let ps := present rs
  entry % 128 == 0 && field 48 16 (rw w 0) == 0 && field 0 48 (rw w 0) == entry && field 32 32 (rw w 1) == 0
    && field 13 3 (rw w 1) == 0 && field 1 7 (rw w 1) == 0 && field 16 16 (rw w 1) != 0
    && decide (1 ≤ field 8 5 (rw w 1)) && decide (field 8 5 (rw w 1) ≤ 16)
    && [2, 3, 4, 5].all (fun i => field 20 44 (rw w i) == 0 && field 13 3 (rw w i) == 0)
    && !ps.isEmpty && ((rs.take ps.length).all fun x => x.1) && decide (countOfRoles ps ≤ 32)
    && ps.all (fun r => decide (1 ≤ r.count) && decide (r.count ≤ 32) && decide (16 ≤ r.vcnt)
        && decide (r.vcnt ≤ 256) && decide (r.acnt ≤ 8))
    && field 32 32 (rw w 6) == 0 && field 48 16 (rw w 7) == 0
    && (field 0 32 (rw w 6) != 0 || field 0 48 (rw w 7) == 0)
/-- Initial values of the staging registers that STGMASK names (R232). -/
def stgOf (mask : Nat) (w : List Word) : NMap Word :=
  (List.range 32).foldl (fun m i => if bitOf i mask then mset 0#64 m i (w.getD i 0#64) else m) []
/-- What the header gives (R232). -/
def kernOf (w : List Word) (stg : NMap Word) : Kern :=
  { entry := field 0 48 (rw w 0), stk := field 16 16 (rw w 1), spn := field 8 5 (rw w 1), cores := bitOf 0 (rw w 1),
    roles := present (headRoles w), stg := stg }
/-- A kernel of which nothing is known: the launch is refused. -/
def kernNone : Kern := { entry := 0, stk := 0, spn := 0, cores := false, roles := [], stg := [] }

/-- Room left on a pod: slots, registers, tiles, the places for a portion by number, a place being SPN banks, and the place
of the team being placed when it is on the pod. Portions of one SPN that fit anywhere fit at such places. -/
structure Room where
  slots : Nat
  v : Nat
  a : Nat
  free : List Nat
  mine : Option Nat
deriving DecidableEq, Repr
/-- Rooms of a die, pods of equal room counted together: those are interchangeable (R47, R48, R182). -/
abbrev Rooms := List (Room × Nat)
/-- One pod more of a room. -/
def addRoom : Rooms → Room → Nat → Rooms
  | [], r, n => [(r, n)]
  | x :: l, r, n => if x.1 = r then (r, x.2 + n) :: l else x :: addRoom l r n
/-- One pod fewer of a room. -/
def dropRoom : Rooms → Room → Rooms
  | [], _ => []
  | x :: l, r => if x.1 = r then (if x.2 ≤ 1 then l else (r, x.2 - 1) :: l) else x :: dropRoom l r
/-- Pods of the team being placed. -/
def minePods (l : Rooms) : Nat := (l.filter fun x => x.1.mine.isSome).foldl (fun n x => n + x.2) 0
/-- A new team starts with no pod of its own. -/
def freshTeam (l : Rooms) : Rooms := l.foldl (fun m x => addRoom m { x.1 with mine := none } x.2) []
/-- The places for the team's portion in a room: the team's own, the same on each of its at most eight pods (R47, R182). -/
def portionPlaces (l : Rooms) (r : Room) : List Nat :=
  match r.mine with
  | some k => [k]
  | none =>
    if 8 ≤ minePods l then []
    else match l.find? fun x => x.1.mine.isSome with
      | some x => r.free.filter fun k => x.1.mine == some k
      | none => r.free
/-- The rooms after a context of the given VCNT and ACNT takes a pod of each room that has a slot, the
registers and the tiles for it, and a place for the team's portion (R47, R48, R182). -/
def placements (v a : Nat) (l : Rooms) : List Rooms :=
  l.flatMap fun x =>
    let r := x.1
    if decide (1 ≤ r.slots) && decide (v ≤ r.v) && decide (a ≤ r.a) then
      (portionPlaces l r).map fun k =>
        addRoom (dropRoom l r) ⟨r.slots - 1, r.v - v, r.a - a, r.free.filter (· != k), some k⟩ 1
    else []
/-- The rooms that hold the same pods, whatever order lists them. -/
def sameRooms (l m : Rooms) : Bool :=
  l.length == m.length && l.all fun x => m.any fun y => decide (x = y)
/-- Each of the rooms once. -/
def distinctRooms (l : List Rooms) : List Rooms :=
  l.foldl (fun m x => if m.any (sameRooms x) then m else x :: m) []
/-- Whether taking the first room that serves places every context; contexts are (first of its team, VCNT,
ACNT). -/
def fitsFirst : List (Bool × Nat × Nat) → Rooms → Bool
  | [], _ => true
  | (fresh, v, a) :: l, m =>
    match placements v a (if fresh then freshTeam m else m) with
    | [] => false
    | x :: _ => fitsFirst l x
/-- Whether some choice of pods places every context. -/
def fitsSome : List (Bool × Nat × Nat) → List Rooms → Bool
  | [], ms => !ms.isEmpty
  | (fresh, v, a) :: l, ms =>
    !ms.isEmpty
      && fitsSome l (distinctRooms (ms.flatMap fun m => placements v a (if fresh then freshTeam m else m)))
/-- Whether the totals of slots, registers and tiles suffice. -/
def fitsTotals (l : List (Bool × Nat × Nat)) (m : Rooms) : Bool :=
  decide (l.length ≤ m.foldl (fun n x => n + x.2 * x.1.slots) 0)
    && decide (l.foldl (fun n x => n + x.2.1) 0 ≤ m.foldl (fun n x => n + x.2 * x.1.v) 0)
    && decide (l.foldl (fun n x => n + x.2.2) 0 ≤ m.foldl (fun n x => n + x.2 * x.1.a) 0)
/-- Whether contexts fit on pods, a team's portion on each of its at most eight pods (R47, R48, R182). What
the totals and the first choices decide is decided by them. -/
def fits (l : List (Bool × Nat × Nat)) (m : Rooms) : Bool :=
  fitsTotals l m && (fitsFirst l m || fitsSome l [m])
/-- The ready pods of a die. -/
def readyPods (s : State) (d : Nat) : List Nat :=
  ((List.range 32).map fun i => 32 * d + i).filter fun p => (pod s p).rdy
/-- Registers, tiles and banks of a pod in a lane (R200). -/
def podV (s : State) (p : Nat) : Nat := if (pod s p).degr then 128 else 256
def podA (s : State) (p : Nat) : Nat := if (pod s p).degr then 4 else 8
def podB (s : State) (p : Nat) : Nat := if (pod s p).degr then 8 else 16
/-- The budgets of a team's contexts in order. -/
def teamNeeds (l : List RoleD) : List (Bool × Nat × Nat) :=
  let all := l.flatMap fun r => List.replicate r.count (r.vcnt, r.acnt)
  ((List.range all.length).zip all).map fun (x : Nat × Nat × Nat) => (x.1 == 0, x.2.1, x.2.2)
/-- Check 0x0009 on one die, with its ready pods taken empty (R374). -/
def fitsOn (s : State) (d spn teams : Nat) (l : List RoleD) : Bool :=
  fits ((List.range teams).flatMap fun _ => teamNeeds l)
    ((readyPods s d).foldl (fun m p => addRoom m ⟨4, podV s p, podA s p, List.range (podB s p / spn), none⟩ 1) [])

/-- The first failing check of R374 that the record alone shows, 0x0001 to 0x0005 and R183. -/
def recordCheck (w : List Word) : Nat :=
  let ndm := field 0 2 (rw w 6)
  let order := fun f => field (48 + 2 * f) 2 (rw w 1)
  let pre := fun j => field (8 + 6 * j) 6 (rw w 6)
  let opn := field 56 4 (rw w 1)
  let inn := List.range (ndm + 1)
  let out := [0, 1, 2, 3].filter fun j => decide (ndm < j)
  if field 0 4 (rw w 1) != 0 || field 0 4 (rw w 2) != 0 || field 0 4 (rw w 3) != 0
      || [0, 1, 2, 3].any fun i => bitOf (16 * i) (rw w 7) then 0x0001
  else if !(inn.all fun j => inn.any fun f => order f == j) || out.any fun f => order f != 0 then 0x0002
  else if [0, 1, 2, 3].any (fun j => pre j == 63) || out.any (fun j => pre j != 0)
      || inn.any (fun i => inn.any fun j => decide (i < j) && pre i != 0 && pre i == pre j) then 0x0003
  else if opn != 0 && opn != 2 ^ order ndm then 0x0004
  else if field 48 8 (rw w 0) == 0 || field 56 8 (rw w 0) == 0 then 0x0005
  else if !rolesOk (present (rolesOf w)) then 0x0006
  else 0
/-- The checks 0x0008 to 0x000A (R374). -/
def fitCheck (s : State) (w : List Word) (k : Kern) (cls : Nat) : Nat :=
  let dies := (List.range 8).filter fun d => bitOf (56 + d) (rw w 0)
  let teams := if k.cores then field 48 8 (rw w 0) else 1
  let live := dies.filter fun d => !(readyPods s d).isEmpty
  if field 3 1 (rw w 6) != cls then 0x0008
  else if !(live.all fun d => fitsOn s d k.spn teams k.roles) then 0x0009
  else if live.length != dies.length then 0x000A
  else 0
/-- The checks of a kernel header against a record: DETAIL 0x0006 or 0x0007, 0 when all hold (R232, R374). -/
def headCheck (w h : List Word) : Nat :=
  if !headOk h (field 0 48 (rw w 0)) then 0x0007
  else if (List.range 4).any fun i =>
      let a := (rolesOf w).getD i (false, ⟨0, 0, 0, 0⟩)
      let b := (headRoles h).getD i (false, ⟨0, 0, 0, 0⟩)
      a.1 != b.1 || (a.1 && a.2 != b.2) then 0x0006
  else 0
/-- Read the header of a record's kernel, at ENTRY − 128 (R232). -/
def readHead (s : State) (ag : Agent) (w : List Word) : MemR (List Word) :=
  (memRead s ag .sload ((field 0 48 (rw w 0) + 2 ^ 64 - 128) % 2 ^ 64) 128 .normal).bind fun bs s =>
    .ok (wordsOf 16 bs) s
/-- The checks at admission, in order: DETAIL, 0 when all hold, and the kernel (R374). -/
def admitCheck (s : State) (q asid : Nat) (w : List Word) (cls : Nat) : MemR (Nat × Kern) :=
  let c := recordCheck w
  if c != 0 then .ok (c, kernNone) s
  else
    let ag := (idie asid).asking (.admission q)
    match readHead s ag w with
    | .wait l => .wait l
    | .fault _ s => .ok (0x0007, kernNone) s
    | .ok h s =>
      if headCheck w h != 0 then .ok (headCheck w h, kernNone) s
      else
        let mask := field 0 32 (rw h 6)
        if mask = 0 then .ok (fitCheck s w (kernOf h []) cls, kernOf h []) s
        else
          match memRead s ag .sload (field 0 48 (rw h 7)) 256 .normal with
          | .wait l => .wait l
          | .fault _ s => .ok (0x0007, kernNone) s
          | .ok bs s =>
            let k := kernOf h (stgOf mask (wordsOf 32 bs))
            .ok (fitCheck s w k cls, k) s

/-- Value of an arrival counter (R375). -/
def arrOf (s : State) (d c : Nat) : W32 := mget 0#32 (die s d).arrcnt c
/-- Fields of W2 and W6 (R372). -/
def recTrigEn (x : Launch) : Bool := bitOf 7 (recW x 6)
def recTrigCtr (x : Launch) : Nat := field 56 8 (recW x 2)
def recClsCtr (x : Launch) : Nat := field 48 8 (recW x 2)
def recThresh (x : Launch) : Nat := field 32 32 (recW x 6)
/-- A launch right after its admission, with the checks of R376 and R381 made. -/
def newLaunch (s : State) (q : Nat) (e : QEntry) (w : List Word) (detail : Nat) (k : Kern) : Launch :=
  let x : Launch :=
    { id := s.pkg.nextLaunch, asid := e.asid, tag := e.tag, q := q, rva := e.rva, stkva := e.stkva, record := w,
      kern := k, refused := detail, trig := false, fired := false, closed := false, bounds := [],
      exts := [none, none, none, none], next := [], handed := 0, placed := [], tpods := [], waiting := [],
      parkedNext := [], bars := [], pre := .running, fatal := none, killed := false }
  { x with
    trig := !recTrigEn x || decide (recThresh x ≤ (arrOf s (recTrigDie x) (recTrigCtr x)).toNat)
    closed := recOpen x != 0 && arrOf s (recTrigDie x) (recClsCtr x) != 0#32 }
/-- R369: one dispatch; it waits while 64 launches are admitted or the head's record has not been read. -/
def execLaunchDispatch (s : State) : Outcome :=
  let p := s.pkg
  let high := highNext p
  match nextList p with
  | [] => .next s
  | q :: rest =>
    match queueOf s q with
    | [] => .next s
    | e :: more =>
      match e.record with
      | none => .next s
      | some w =>
        if decide (64 ≤ p.launches.length) || notStarted s 0 then .next s
        else
          let cost := field 48 8 (rw w 0) * countBelow 8 fun d => bitOf (56 + d) (rw w 0)
          let def0 := mget 0 p.deficit q
          let def1 := if p.visit.any (· == q) then def0 else def0 + field 0 13 (qcfgOf s q).toNat
          let hrun := if high then p.hrun + 1 else 0
          if def1 < cost then
            .next (updPkg s fun p =>
              { p with hrun := hrun, deficit := mset 0 p.deficit q def1, visit := p.visit.filter (· != q),
                       hi := if high then rest ++ [q] else p.hi, lo := if high then p.lo else rest ++ [q] })
          else
            match admitCheck s q e.asid w (bit high) with
            | .ok (detail, k) s =>
              let x := newLaunch s q e w detail k
              let s := updPkg s fun p =>
                { p with hrun := hrun, deficit := mset 0 p.deficit q (def1 - cost),
                         visit := q :: p.visit.filter (· != q), launches := p.launches ++ [x],
                         nextLaunch := p.nextLaunch + 1 }
              let s := putQueue s q more
              .next (if more.isEmpty then leaveList s q else s)
            | .wait l => .next (noteAsks s l)
            | .fault _ s => .next s

/-- R376, R381: the check of an accepted change of a counter of a die to a value. It is a check of that value for the
launches admitted by then, those numbered below `upto`; a later one has had its own check at its admission. -/
def checkCounter (s : State) (d c : Nat) (v : W32) (upto : Nat) : State :=
  s.pkg.launches.foldl (fun s x =>
    if !alive x || recTrigDie x != d || decide (upto ≤ x.id) then s
    else
      let s := if recTrigEn x && recTrigCtr x == c && decide (recThresh x ≤ v.toNat) then
        updLaunch s x.id fun x => { x with trig := true } else s
      if recClsCtr x == c && v != 0#32 then closeLaunch s x.id else s) s
/-- Remove the first entry that satisfies p. -/
def dropFirst {α : Type} (p : α → Bool) : List α → List α
  | [] => []
  | a :: l => if p a then l else a :: dropFirst p l
/-- R376: the oldest accepted change of a counter of the die is checked, unless the die's dispatcher has stopped. -/
def execArrivalCounterIncrement (d : Nat) (s : State) : Outcome :=
  match s.pkg.checks.find? fun x => x.1 == d with
  | none => .next s
  | some (_, c, v, n) =>
    if dispatcherStopped s d then .next s
    else .next (checkCounter (updPkg s fun p =>
      { p with checks := dropFirst (fun x => x.1 == d) p.checks }) d c v n)
/-- R390: a driver write of an arrival counter counts as an increment. -/
def execArrcntWrite (d c : Nat) (v : W32) (s : State) : Outcome :=
  let s := updDie s d fun x => { x with arrcnt := mset 0#32 x.arrcnt c v }
  .next (updPkg s fun p => { p with checks := p.checks ++ [(d, c, v, p.nextLaunch)] })

/-- The largest iteration count (R374, R382). -/
def tMax : Nat := 2 ^ 48
/-- The product of the bounds other than j. -/
def otherProd (ndm j : Nat) (b : Nat → Nat) : Nat :=
  (List.range (ndm + 1)).foldl (fun a i => if i == j then a else a * b i) 1
/-- The largest bound up to n for which T, the product in 64 bits of R377, is at most 2^48; `o` is the product of the
others. -/
def fitBound (o : Nat) : Nat → Nat
  | 0 => 0
  | n + 1 => if o * (n + 1) % 2 ^ 64 ≤ tMax then n + 1 else fitBound o n
/-- An open bound raised to at least v, clamped so that T stays at most 2^48 (R377, R382); true when clamped. -/
def raiseTo (ndm j : Nat) (b : Nat → Nat) (v : Nat) : Nat × Bool :=
  let n := max (b j) v
  let o := otherProd ndm j b
  if o * n % 2 ^ 64 ≤ tMax then (n, false)
  else if o * n < 2 ^ 64 then (tMax / o, true)
  else (fitBound o n, true)
/-- The bounds that firing reads (R377): the values so far, or a wait, or a fault. -/
def readBounds (asid : Nat) (x : Launch) : List Nat → State → MemR (List Nat)
  | [], s => .ok [] s
  | j :: l, s =>
    let const := field (32 * (j % 2)) 32 (recW x (4 + j / 2))
    let one : MemR Nat :=
      if recNdm x < j || !recBmem x j then .ok const s
      else (memRead s ((idie asid).asking (.fire x.id)) .sload (field 0 48 (recW x 1) + 4 * j) 4 .normal).bind fun bs s =>
        .ok (ofBytes bs) s
    one.bind fun v s => (readBounds asid x l s).bind fun r s => .ok (v :: r) s
/-- R377: a launch fires: its bounds are read and fixed, with an earlier extension, or it is refused. -/
def execLaunchFire (l : Nat) (s : State) : Outcome :=
  match launchOf s l with
  | none => .next s
  | some x =>
    if !alive x || x.fired || !x.trig || dispatcherStopped s (recTrigDie x) then .next s
    else
      match readBounds x.asid x [0, 1, 2, 3] s with
      | .wait l => .next (noteAsks s l)
      | .fault _ s => .next (updLaunch s l fun x => { x with refused := 0x000C })
      | .ok bs s =>
        let j := recOrder x (recNdm x)
        let total := (List.range (recNdm x + 1)).foldl (fun a i => a * bs.getD i 0) 1 % 2 ^ 64
        if tMax < total then .next (updLaunch s l fun x => { x with refused := 0x000B })
        else
          match if recOpen x != 0 then x.exts.getD j none else none with
          | none => .next (updLaunch s l fun x => { x with fired := true, bounds := bs })
          | some e =>
            let r := raiseTo (recNdm x) j (fun i => bs.getD i 0) e
            let s := updLaunch s l fun x => { x with fired := true, bounds := bs.set j r.1 }
            .next (if r.2 then setLerr s 3 else s)

/-- An extension reaches the dispatchers of one launch (R382). -/
def extendLaunch (s : State) (x : Launch) (j v : Nat) : State :=
  if !alive x || !isOpen x || !bitOf j (recOpen x) then s
  else if !x.fired then
    updLaunch s x.id fun x => { x with exts := x.exts.set j (some (max v ((x.exts.getD j none).getD 0))) }
  else
    let r := raiseTo (recNdm x) j (boundOf x) v
    let s := updLaunch s x.id fun x => { x with bounds := x.bounds.set j r.1 }
    if r.2 then setLerr s 3 else s
/-- Whether an extension of a launch stands behind events that reached its die TRIGDIE before: a counter change whose
check is still to be made, or a trigger whose firing is (R376, R377, R382, R420). -/
def extBehind (s : State) (x : Launch) : Bool :=
  alive x && ((s.pkg.checks.any fun k => k.1 == recTrigDie x) || (x.trig && !x.fired))
/-- R323, R382: an `xtend` is translated, reaches the dispatchers of its launches, once none of them has stopped and what
came before it there is done, and completes; a fault fails its element 0. The stores before it are ordered first (R165). -/
def execXtendAccept (g id : Nat) (s : State) : Outcome :=
  match cmdOf s g id with
  | none => .next s
  | some c =>
    match c.jobs with
    | [] => .next s
    | j :: _ =>
      if !isXtend c.op || c.fin || c.flt.isSome then .next s
      else
        let va := field 6 42 (blk c.ks 0) * 64
        let named := s.pkg.launches.filter fun x => x.asid == c.asid && x.rva == va
        if named.any fun x => (recDies x).any (dispatcherStopped s) || extBehind s x then .next s
        else
          let s := releaseCtx (settleSp s g) g .pkg
          match xlate (cmdAgent s g c) .tread 3 s va 64 with
          | .wait _ => .next s
          | .fault f s => .next (putCmd s g { c with flt := some (elemFault c j f AKind.tread.code va) })
          | .ok _ s =>
            let n := field 32 2 (blk c.ks 1)
            let v := field 0 32 (blk c.ks 1)
            let s := named.foldl (fun s x => extendLaunch s x n v) s
            .next (refresh (putCmd s g { putJob c { j with done := 1, fin := true } with fin := true }) g)

/-- Intervals [base, base + size) in use. -/
abbrev Used := List (Nat × Nat)
/-- The least base at which n units fit below a limit beside the intervals in use. -/
def holeFor (used : Used) (limit n : Nat) : Option Nat :=
  leastBelow (limit + 1) fun b =>
    decide (b + n ≤ limit) && used.all fun (u : Nat × Nat) => decide (b + n ≤ u.1) || decide (u.1 + u.2 ≤ b) || u.2 == 0 || n == 0
/-- The resident contexts of a pod. -/
def residents (s : State) (p : Nat) : List Ctx :=
  ([0, 1, 2, 3].map fun n => ctxOf s (p * 8 + n)).filter fun c => c.phase != .free
/-- Portions in use on a pod: those of teams with a context left (R47). -/
def portionsOn (s : State) (p : Nat) : Used :=
  s.pkg.launches.flatMap fun x =>
    x.tpods.filterMap fun t =>
      match teamCtxs s x.id t.team with
      | g :: _ => if t.pod == p then some (t.splo, (ctxOf s g).spn) else none
      | [] => none
/-- Whether a slot may receive a context: Free, with no pair, kill message or store of an earlier one left. -/
def slotFree (s : State) (g : Nat) : Bool :=
  (ctxOf s g).phase == .free && !(s.pkg.pairs.any fun p => p.gcn == g) && !(s.pkg.kills.any fun k => k.1 == g)
    && !(s.pkg.permits.any fun t => t.gcn == g) && storesDone s g
/-- Clear a team's portion on a pod (R50); no earlier value of it is left to read. -/
def clearPortion (s : State) (p splo spn : Nat) : State :=
  let inB := fun (k : Nat) => decide (k / 262144 / 16 = p) && decide (splo * 16384 ≤ k % 262144)
    && decide (k % 262144 < (splo + spn) * 16384)
  let inF := fun (k : Nat) => decide (k / 16 / 16 = p) && decide (splo ≤ k % 16) && decide (k % 16 < splo + spn)
  { s with sp := s.sp.filter fun x => !inB x.1, unseen := withoutBytes (fun _ => inB) s.unseen,
           spfmt := s.spfmt.filter fun x => !inF x.1 }
/-- Clear a context's registers, tiles and versions in every lane (R50). -/
def clearBudget (s : State) (p vbase vcnt abase acnt : Nat) : State :=
  let inV := fun (k : Nat) => decide (k / 272 / 16 = p) && decide (vbase ≤ k % 272) && decide (k % 272 < vbase + vcnt)
  let inA := fun (k : Nat) => decide (k / 8 / 16 = p) && decide (abase ≤ k % 8) && decide (k % 8 < abase + acnt)
  { s with vregs := s.vregs.filter fun x => !inV x.1, tiles := s.tiles.filter fun x => !inA x.1,
           vers := s.vers.filter fun x => !inA x.1 }
/-- First byte of stack number n of a launch, modulo 2^48 (R68). -/
def stackAt (x : Launch) (n : Nat) : Word := BitVec.ofNat 64 ((x.stkva + n * (x.kern.stk * 64)) % 2 ^ 48)

/-- Role number and index within the role of each context of a team, in order. -/
def membersOf (l : List RoleD) : List (Nat × Nat × RoleD) :=
  ((List.range l.length).zip l).flatMap fun (x : Nat × RoleD) => (List.range x.2.count).map fun i => (x.1, i, x.2)
/-- The first bank of a team's portion: the run of banks is the same on every pod of the team (R47). -/
def commonBank (s : State) (pods : List Nat) (spn : Nat) : Option Nat :=
  holeFor (pods.flatMap (portionsOn s)) (pods.foldl (fun a p => min a (podB s p)) 16) spn
/-- A pod's place in a team's pod list, taken up with a cleared portion at bank b when it is new; `none` for a ninth pod
(R47, R182). -/
def takePod (s : State) (l team p b : Nat) : Option (State × TeamPod) :=
  match launchOf s l with
  | none => none
  | some x =>
    let mine := x.tpods.filter fun t => t.team == team
    match mine.find? fun t => t.pod == p with
    | some t => some (s, t)
    | none =>
      if 8 ≤ mine.length then none
      else
        let t : TeamPod := ⟨team, mine.length, p, b⟩
        some (clearPortion (updLaunch s l fun x => { x with tpods := x.tpods ++ [t] }) p b x.kern.spn, t)
/-- Place one context of a team on a pod and slot: budgets allocated and cleared, registers loaded (R48, R50,
R68, R232); `none` when it does not fit. -/
def placeCtx (s : State) (l team idx bank : Nat) (m : Nat × Nat × RoleD) (p n : Nat) : Option State :=
  let g := p * 8 + n
  if !slotFree s g || !(pod s p).rdy then none
  else
    (takePod s l team p bank).bind fun (r : State × TeamPod) =>
      let s := r.1
      let rs := residents s p
      (holeFor (rs.map fun c => (c.vbase, c.vcnt)) (podV s p) m.2.2.vcnt).bind fun vb =>
        (holeFor (rs.map fun c => (c.abase, c.acnt)) (podA s p) m.2.2.acnt).bind fun ab =>
          (launchOf s l).map fun x =>
            let n := team * countOfRoles x.kern.roles + idx
            let top := stackAt x (n + 1)
            let c : Ctx := { Ctx.reset with
              phase := .loading, asid := x.asid, launch := some l, team := team, role := m.1,
              kind := m.2.2.kind, ridx := m.2.1, tpod := r.2.tpod, spn := x.kern.spn, splo := r.2.splo,
              acnt := m.2.2.acnt, abase := ab, vcnt := m.2.2.vcnt, vbase := vb,
              stktop := top, stklim := stackAt x n,
              prim := { Half.reset with kreg := x.kern.stg, sreg := mset 0#64 [] 63 top,
                                        pc := BitVec.ofNat 64 x.kern.entry, wait := .iter } }
            setCtx (clearBudget s p vb m.2.2.vcnt ab m.2.2.acnt) g c
/-- Place the contexts of a team in order. -/
def placeAll (l team bank : Nat) : List (Nat × Nat × RoleD) → List (Nat × Nat) → Nat → State → Option State
  | [], [], _, s => some s
  | m :: ms, (p, n) :: ps, idx, s => (placeCtx s l team idx bank m p n).bind fun s => placeAll l team bank ms ps (idx + 1) s
  | _, _, _, _ => none
/-- Place a whole team on a die; its units begin to wait (R182, R379, R383). -/
def placeTeam (s : State) (l d team : Nat) (place : List (Nat × Nat)) : Option State :=
  match launchOf s l with
  | none => none
  | some x =>
    if place.any fun u => u.1 / 32 != d then none
    else (commonBank s (place.map (·.1)).eraseDups x.kern.spn).bind fun b =>
      (placeAll l team b (membersOf x.kern.roles) place 0 s).map fun s => updLaunch s l fun x => { x with placed := mset 0 x.placed d (mget 0 x.placed d + 1) }
/-- The units of a placed team, each with its die: every context, or the whole team (R379). -/
def unitsOf (s : State) (x : Launch) (team d : Nat) : List (Nat × List Nat) :=
  let gs := sortNat (teamCtxs s x.id team)
  if recMode x then [(d, gs)] else gs.map fun g => (d, [g])
/-- Insert a unit by its lowest global context number. -/
def insUnit (u : Nat × List Nat) : List (Nat × List Nat) → List (Nat × List Nat)
  | [] => [u]
  | y :: l => if u.2.headD 0 ≤ y.2.headD 0 then u :: y :: l else y :: insUnit u l
/-- The units of teams that are placed together begin to wait, lowest global context number first (R379); those without
an iteration end. -/
def startTeams (s : State) (l : Nat) (ts : List (Nat × Nat)) : State :=
  match launchOf s l with
  | none => s
  | some x =>
    ((ts.flatMap fun t => unitsOf s x t.1 t.2).foldr insUnit []).foldl (fun s u => waitUnit s l u.1 u.2) s
/-- What a die dispatcher finds in the kernel header as it starts a team: DETAIL of the refusal, 0 when the header is
well formed and fits the record, and the kernel, with the staging values read at admission (R232). -/
def startCheck (s : State) (x : Launch) (d : Nat) : MemR (Nat × Kern) :=
  match readHead s ((dispatcher d x.asid).asking (.start x.id d)) x.record with
  | .wait l => .wait l
  | .fault _ s => .ok (0x0007, x.kern) s
  | .ok h s =>
    .ok (headCheck x.record h, kernOf h (x.kern.stg.filter fun k => bitOf k.1 (field 0 32 (rw h 6)))) s
/-- The same on every die where a team starts: the first refusal, or the kernel. -/
def startChecks (x : Launch) : List Nat → State → MemR (Nat × Kern)
  | [], s => .ok (0, x.kern) s
  | d :: l, s => (startCheck s x d).bind fun r s => if r.1 != 0 || l.isEmpty then .ok r s else startChecks x l s
/-- A launch is refused at the start of a team: what still waits for an iteration ends (R232). -/
def refuseLaunch (s : State) (x : Launch) (detail : Nat) : State :=
  endAllWaiters (updLaunch s x.id fun y => { y with refused := detail }) x.id
/-- Place teams one after another; all or none. -/
def placeTeams (l : Nat) : List (Nat × Nat) → List (List (Nat × Nat)) → State → Option State
  | [], [], s => some s
  | (t, d) :: ts, p :: ps, s => (placeTeam s l d t p).bind fun s => placeTeams l ts ps s
  | _, _, _ => none
/-- The lowest global context number of a team's places. -/
def lowestOf (p : List (Nat × Nat)) : Nat := ((sortNat (p.map fun u => u.1 * 8 + u.2)).headD 0)
/-- Teams of a die that are placed together take their numbers in increasing order of their lowest global context number
(R383). -/
def inOrder : List (Nat × Nat) → List (List (Nat × Nat)) → Bool
  | t :: u :: ts, p :: q :: ps =>
    (t.2 != u.2 || decide (lowestOf p < lowestOf q)) && inOrder (u :: ts) (q :: ps)
  | _, _ => true
/-- R383: a team is placed on the pods and slots named, where its budgets fit, once its die's dispatcher has read the
kernel header (R232). A read of it for a team that then finds no room leaves no request (R110). -/
def execTeamPlacement (l d : Nat) (place : List (List (Nat × Nat))) (s : State) : Outcome :=
  match launchOf s l with
  | none => .next s
  | some x =>
    let ts := teamsFor x d
    if !mayPlace s x d || !inOrder ts place then .next s
    else
      match startChecks x (ts.map fun t => t.2).eraseDups s with
      | .ok (0, k) s1 =>
        (match placeTeams l ts place (updLaunch s1 l fun x => { x with kern := k }) with
        | none => .next (updPkg s fun p => { p with asks := s1.pkg.asks })
        | some s => .next (startTeams s l ts))
      | .ok (detail, _) s1 => .next (refuseLaunch s1 x detail)
      | .wait l => .next (noteAsks s l)
      | .fault _ s => .next s

/-- The state in which a context starts an iteration (R188, R196, R211, R217, R250, R286, R379). TPC describes the last
freeze (R393): only a context that is frozen, and so resumes at ENTRY, has it changed. -/
def startIter (c : Ctx) (x : Launch) (iter : Nat) : Ctx :=
  let regs := [0, 1, 2, 3].foldl (fun m j =>
    if recNdm x < j || recPre x j = 0 then m
    else mset 0#64 m (recPre x j) (BitVec.ofNat 64 (idxOf x j (recNdm x + 1) iter))) c.prim.sreg
  { c with
    phase := if c.phase == .frozen then .frozen else .ready, age := 0, shp := [], latch := [], arrivals := [], spare := none
    prim := { c.prim with
      sreg := mset 0#64 regs 63 c.stktop, breg := [], am := 0xFFFF#16, own := 0xFFFF#16, stalk := [],
      pc := BitVec.ofNat 64 x.kern.entry,
      tpc := if c.phase == .frozen then BitVec.ofNat 64 x.kern.entry else c.prim.tpc, nextPc := none, rep := 0, slot := 0, begun := false, live := false,
      switchReq := false, verOk := false, stV := none, stM := none, stX := none, run := 0, wait := .none } }
/-- A context receives an iteration: one that is Frozen stays so, and one that single-steps `halt.next` takes its stop
before its first bundle (R404, log entry 34). -/
def handOut (x : Launch) (iter : Nat) (s : State) (g : Nat) : State :=
  let s := updCtx (landHalf s g .primary) g fun c => startIter c x iter
  if (ctxOf s g).phase == .ready && bitOf 0 (ctxOf s g).tctl.toNat then freeze s g .primary causeStep 0 false true else s
/-- R379: the next iteration of the die goes to the unit that began waiting first; a context of it that has been chosen
parks before (R180). -/
def execIterationHandout (l d : Nat) (s : State) : Outcome :=
  match launchOf s l with
  | none => .next s
  | some x =>
    match x.waiting.find? fun u => u.1 == d with
    | none => .next s
    | some u =>
      if !alive x || !x.fired || x.pre != .running || dispatcherStopped s d || itersLeft x d == 0
          || u.2.any fun g => (ctxOf s g).phase == .issuing then .next s
      else
        let k := mget 0 x.next d
        let iter := k * (recDies x).length + diePos x d
        let s := u.2.foldl (handOut x iter) s
        let s := updLaunch s l fun x =>
          { x with next := mset 0 x.next d (k + 1), handed := x.handed + 1,
                   waiting := dropFirst (fun u => u.1 == d) x.waiting }
        .next (endWaiters s l d)

/-- STATUS and DETAIL of a launch's completion record (R385, R386). -/
def statusOf (x : Launch) : Nat × Nat :=
  match x.fatal with
  | some (cause, g) => (0x04, (cause % 32) * 2048 + g % 2048)
  | none => if x.killed then (0x05, 0) else if x.refused != 0 then (0x02, x.refused) else (0x01, 0)
/-- Write one word of the completion record: normal or host memory only (R385). -/
def recordWord (s : State) (x : Launch) (va : Nat) (w : Word) : MemR Unit :=
  let ag := (idie x.asid).asking (.finish x.id)
  (xlate ag .sstore 3 s va 8).bind fun l s =>
    if storeBefore s ag l then .wait []
    else if l.all fun sg => sg.mt == .normal || sg.mt == .host then
      atSlices s ag true l fun s =>
        (segsReady s l).bind fun _ s => wrSegs .normal false s (dealBytes l (bytesOf 8 w.toNat))
    else .fault (tfault 0x09 0) s
/-- Write the record, word 1 then word 0; a write that fails is the last (R385, R390). -/
def writeRecord (s : State) (x : Launch) : MemR Unit :=
  let st := statusOf x
  let w0 := BitVec.ofNat 64 (setField 32 32 x.tag.toNat (setField 16 16 st.2 st.1))
  let cva := field 0 48 (recW x 3)
  let fails := fun (r : MemR Unit) =>
    match r with
    | .fault _ s => MemR.ok () (setLerr s 1)
    | r => r
  match recordWord s x (cva + 8) (BitVec.ofNat 64 (if st.1 == 0x02 then 0 else x.handed)) with
  | .ok _ s => fails (recordWord s x cva w0)
  | r => fails r
/-- The launch's record is written, its interrupt sent, and its admission place given up (R368, R385). -/
def finishLaunch (s : State) (l : Nat) : State :=
  match launchOf s l with
  | none => s
  | some x =>
    match writeRecord s x with
    | .wait l => noteAsks s l
    | .fault _ s => s
    | .ok _ s =>
      let irq := bitOf 63 (recW x 3)
      updPkg s fun p =>
        { p with launches := p.launches.filter (fun y => y.id != l),
                 msgs := if irq then p.msgs ++ [field 52 11 (recW x 3)] else p.msgs }
/-- Whether a launch that runs to its end is complete (R377, R385). -/
def isComplete (s : State) (x : Launch) : Bool :=
  alive x && x.fired && !isOpen x && x.pre == .running && (launchCtxs s x.id).isEmpty
    && (recDies x).all fun d => itersLeft x d == 0
/-- R385: the I-die writes the record of a launch that is complete, refused, or stopped with its contexts
gone; none is written while a launch is pre-empted (R407). Its system-scope release lets every store visible to it take
effect first (R167). -/
def execLaunchComplete (l : Nat) (s : State) : Outcome :=
  match launchOf s l with
  | none => .next s
  | some x =>
    let ended := (x.refused != 0 || x.killed) && x.pre == .running && (launchCtxs s l).isEmpty
    .next (if (ended || isComplete s x) && (visibleStores s (idie x.asid)).isEmpty then finishLaunch s l else s)

end Sys2Proof.Machine
end

