-- ==== Sys2Proof/Machine/Pods.lean ====
section
/-!
DEFINITION. Pods and their handler slots: the engine map and readiness (R198, R199, R443), handler entry (R396,
R399, R74), stop requests (R394), the private regions (R72 to R74), and the stop of launches (R142, R386, R447).
-/
namespace Sys2Proof.Machine

/-- Engine and HALF that lane l names (R198). -/
def engineOf (x : Pod) (l : Nat) : Nat × Nat :=
  let f := field (8 * (l % 8)) 8 (if l < 8 then x.map0 else x.map1).toNat
  (f % 32, field 5 1 f)
/-- Whether an engine map is valid (R199). -/
def mapValid (x : Pod) : Bool :=
  let es := (List.range 16).map (engineOf x)
  es.all (fun e => x.work.getLsbD e.1 && (x.degr || e.2 == 0)) && decide (es.eraseDups.length = 16)
    && decide (8 ≤ countBelow 17 fun e => x.work.getLsbD e)
/-- An attempt to make a pod ready: it becomes ready, or sets MAPERR (R199); readiness only rises (R443). -/
def tryReady (s : State) (p : Nat) : State :=
  if (pod s p).rdy then s
  else if mapValid (pod s p) then raiseEvent (updPod s p fun x => { x with rdy := true, maperr := false }) 4
  else updPod s p fun x => { x with maperr := true }
/-- Bits of an engine map word that are not reserved (R198). -/
def mapMask : Word := 0x3F3F3F3F3F3F3F3F#64
/-- R199: the self-test result and the map that boot firmware writes from it. -/
def execPodSelfTest (p : Nat) (work : BitVec 17) (map0 map1 : Word) (degr : Bool) (s : State) : Outcome :=
  if (pod s p).rdy then .next s
  else .next (tryReady (updPod s p fun x =>
    { x with work := work, map0 := map0 &&& mapMask, map1 := map1 &&& mapMask, degr := degr }) p)

/-- A slot of the pod that the handler slot serves, with the fields of the descriptor's private region
(R74). -/
def privRegion (s : State) (p asid : Nat) : MemR (Nat × Nat) :=
  let tab := (die s (p / 32)).asidtab
  if !tabEn tab then .wait []
  else (rdStack s (descOf tab asid + 8) 16).bind fun bs s => .ok (ofBytes (bs.take 8), ofBytes (bs.drop 8)) s
/-- PRVTOP, PRVHW and PRVLO of pod p from HPRV0 and HPRV1 (R74). The reserved bits of the two words are ignored: R5 calls
nonzero ones an error, and no rule says what becomes of it (DESIGN CHOICE, log entry 14). -/
def privBounds (p h0 h1 : Nat) : Word × Word × Word :=
  let span := field 16 16 h1
  let size := span * 65536
  let top := field 16 32 h0 * 65536 + (p + 1) * size
  let w := fun (x : Nat) => BitVec.ofNat 64 (x % 2 ^ 48)
  if span = 0 then (0#64, 0#64, 0#64) else (w top, w (top + 2 ^ 48 - field 0 16 h1 * 65536), w (top - size))
/-- The handler slot as it starts for the context of slot n (R399, R74). -/
def handlerStart (h : Ctx) (n : Nat) (c : Ctx) (b : Word × Word × Word) : Ctx :=
  { h with
    phase := .ready, age := 0, asid := c.asid, serving := some n, tretTo := none
    hsel := BitVec.ofNat 64 (setField 2 1 (field 25 1 c.tsw.toNat) n)
    prvtop := b.1, prvhw := b.2.1, prvlo := b.2.2
    prim := { h.prim with
      sreg := mset 0#64 h.prim.sreg 63 b.1, am := 0xFFFF#16, own := 0xFFFF#16, stalk := [], pc := c.tvec,
      nextPc := none, rep := 0, slot := 0, begun := false, live := false, switchReq := false, verOk := false,
      stV := none, stM := none, stX := none, run := 0, wait := .none, ask := none, lost := [] } }
/-- R399: the idle handler slot takes the head of the queue, once the steps of R396 are done, which order what that context
has committed before the handler (R168). -/
def execHandlerEntry (p : Nat) (s : State) : Outcome :=
  let hg := p * 8 + 4
  match (pod s p).queue with
  | [] => .next s
  | n :: _ =>
    let g := p * 8 + n
    if (ctxOf s hg).phase != .free || (ctxOf s hg).serving.isSome || pausing s g then .next s
    else
      let s := settleFrozen s g
      if !isFrozen (ctxOf s g) then .next s
      else
        match privRegion s p (ctxOf s g).asid with
        | .ok r s =>
          let c := ctxOf s g
          .next (updCtx s hg fun h => handlerStart h n c (privBounds p r.1 r.2))
        | _ => .next s

/-- Whether a stop request can be taken: a half stands at a boundary between issues, and no other freeze is under way (R394,
R400). The other half then stops at its own (R195). -/
def stopPoint (c : Ctx) : Bool :=
  (c.phase == .issuing || c.phase == .ready || c.phase == .parked) && c.stopBy.isNone
    && c.halves.any fun h => atBoundary (c.half h)
/-- R394, R400: a stop request is taken at a boundary; the context is not queued for the handler. One that waits for an
iteration goes on waiting (R379). -/
def execStopRequestFreeze (g : Nat) (s : State) : Outcome :=
  let c := ctxOf s g
  if !c.stopReq || !stopPoint c then .next s
  else
    let s := if c.phase == .parked then c.halves.foldl (fun s h => landSwitch s g h) s else s
    let h := if atBoundary c.prim then HalfId.primary else .spare
    let iter := c.prim.wait == .iter
    .next (updCtx (landFrozen (freeze s g h causeStop 0 false false) g) g fun c =>
      { c with stopReq := false, prim := { c.prim with wait := if iter then .iter else c.prim.wait } })

/-- Whether a handler slot is frozen by a high-water fault (R72). -/
def isHighWater (c : Ctx) : Bool :=
  c.phase == .frozen && match c.prim.wait with
    | .highWater _ => true
    | _ => false
/-- R74: the driver's write of HPRVHW. -/
def execHprvhwWrite (p : Nat) (v : Word) (s : State) : Outcome :=
  let c := ctxOf s (p * 8 + 4)
  let x := v &&& 0x0000FFFFFFFF0000#64
  if isHighWater c && c.prvlo ≤ x && x ≤ c.prvtop then .next (updCtx s (p * 8 + 4) fun c => { c with prvhw := x })
  else .next s
/-- R72, R430: the frozen write is retried when the handler slot issues again. -/
def execPodctlHres (p : Nat) (s : State) : Outcome :=
  if isHighWater (ctxOf s (p * 8 + 4)) then
    .next (updCtx s (p * 8 + 4) fun c => { c with phase := .ready, prim := { c.prim with wait := .none } })
  else .next s
/-- R73, R430: the dispatcher and walker of a die go on; units that will get no iteration end now (R380). -/
def execDspresRes (d : Nat) (s : State) : Outcome :=
  let s := updDie s d fun x => { x with dspFrozen := false }
  .next (s.pkg.launches.foldl (fun s x => endWaiters s x.id d) s)
/-- R73: the dispatcher firmware takes a high-water fault: it has written its s63 with a value from PRVLO to below PRVHW, so
with none there is no such fault. A value outside PRVLO to PRVTOP stops the team that a handler serves (R72), and a
dispatcher serves none (log entry 8). -/
def execDispatcherHighWaterFault (d : Nat) (s : State) : Outcome :=
  if (die s d).dspFrozen || notStarted s 0 || !((die s d).prvlo < (die s d).prvhw) then .next s
  else
    let s := updDie s d fun x => { x with dspFrozen := true }
    .next (raiseEvent (updPkg s fun p => { p with dsppend := p.dsppend ||| (1#32 <<< d) }) 1)

/-- Discard the unsent pairs of a context and send its kill messages to every home die (R142). -/
def sendKills (s : State) (g : Nat) : State :=
  updPkg s fun p =>
    { p with pairs := p.pairs.filter (fun x => !(x.gcn == g && x.stage == .buffered)), kills := p.kills ++ (List.range 8).map fun d => (g, d) }
/-- Kill one context: its stores go on as far as nothing waits, those that others may have read drain later (R149), and
its commands are abandoned (R142). -/
def killCtx (s : State) (g : Nat) : State := freeCtx (sendKills (flushStores s g) g) g
/-- Release the handler slot of a pod that serves a launch (R447). -/
def releaseHandler (s : State) (l p : Nat) : State :=
  let hg := p * 8 + 4
  let mine := match (ctxOf s hg).serving with
    | some n => (ctxOf s (p * 8 + n)).launch == some l
    | none => false
  if !mine then s
  else
    updCtx (exposeCtx (sendKills (flushStores s hg) hg) hg) hg fun c =>
      { c with phase := .free, serving := none, tretTo := none, asid := 0, cmds := [], deferred := none,
               drop := 0,
               prim := { c.prim with stq := visibleQ c.prim, pend := [], lost := [], wait := .none } }
/-- A pre-emption or resume ends: BUSY clears (R406, R434). -/
def endBusy (s : State) : State :=
  raiseEvent (updPkg s fun p => { p with preBusy := none, prestat := p.prestat &&& 0xFFFFFFFFFFFFFFFE#64 }) 5
/-- Every context of a launch is killed, handler slots that serve it are released, husks are discarded, and its
iterations that were not handed out are gone (R386, R447). -/
def killLaunch (s : State) (l : Nat) : State :=
  let gs := launchCtxs s l
  let s := (gs.map podOf).eraseDups.foldl (fun s p => releaseHandler s l p) s
  let s := gs.foldl killCtx s
  let s := updLaunch s l fun x =>
    { x with killed := true, closed := true, waiting := [], parkedNext := [], pre := .running }
  if s.pkg.preBusy == some l then endBusy s else s
/-- Set bits of PRESTAT (R406). -/
def setPre (s : State) (k : Nat) : State := updPkg s fun p => { p with prestat := p.prestat ||| (1#64 <<< k) }
/-- The kill of every admitted launch with an ASID and TAG (R447). -/
def killTagged (s : State) (asid : Nat) (tag : W32) : State :=
  let ls := launchesOf s asid tag
  if ls.isEmpty then setPre s 2
  else ls.foldl (fun s x => if x.killed then s else finishLaunch (killLaunch s x.id) x.id) s
/-- R447: a write made while BUSY waits. -/
def execLkill (asid : BitVec 12) (tag : W32) (s : State) : Outcome :=
  if s.pkg.preBusy.isSome then .next (updPkg s fun p => { p with lkillq := p.lkillq ++ [(asid.toNat, tag)] })
  else .next (killTagged s asid.toNat tag)
/-- Carry out the LKILL writes that waited (R447). -/
def runLkills (s : State) : State :=
  if s.pkg.preBusy.isSome then s
  else
    let q := s.pkg.lkillq
    q.foldl (fun s k => killTagged s k.1 k.2) (updPkg s fun p => { p with lkillq := [] })
/-- R386: the stop of a launch with a fatal cause, and its record. -/
def execFatalStop (l : Nat) (s : State) : Outcome :=
  match launchOf s l with
  | none => .next s
  | some x => if x.fatal.isSome && !x.killed then .next (runLkills (finishLaunch (killLaunch s l) l)) else .next s

end Sys2Proof.Machine
end

