-- ==== Sys2Proof/Machine/Preempt.lean ====
section
/-!
DEFINITION. Pre-emption and resume of launches (R67, R141, R364, R384, R406 to R409).
-/
namespace Sys2Proof.Machine

/-- The launch a PRECTL write names: the first admitted with that ASID and TAG that satisfies p, also one that has been
refused and whose contexts still run (R232, R406). -/
def preLaunch (s : State) (asid : BitVec 12) (tag : W32) (p : Launch → Bool) : Option Launch :=
  (launchesOf s asid.toNat tag).find? p
/-- Whether a launch is saved. -/
def isSaved (x : Launch) : Bool :=
  match x.pre with
  | .saved .. => true
  | _ => false
/-- R406: PRESTAT.NEED. -/
def execSizeQuery (asid : BitVec 12) (tag : W32) (s : State) : Outcome :=
  if s.pkg.preBusy.isSome then .next (setPre s 1)
  else
    match preLaunch s asid tag fun _ => true with
    | none => .next (setPre s 2)
    | some x =>
      .next (updPkg s fun p =>
        { p with prestat := BitVec.ofNat 64 (setField 32 32 (Config.saveNeed x.record).toNat p.prestat.toNat) })
/-- R406, R407 steps 1 and 2: placement stops and the contexts freeze at their next boundary. Of several launches with the
ASID and TAG one that is not pre-empted is named before one that is. A launch that is pre-empted already, or whose kill has
only its record left to write, leaves nothing to do: the operation ends at once, and the area latched before stays (DESIGN
CHOICE, log entry 11). -/
def execPreempt (asid : BitVec 12) (tag : W32) (s : State) : Outcome :=
  if s.pkg.preBusy.isSome then .next (setPre s 1)
  else
    match preLaunch s asid tag fun x => !isSaved x && !x.killed with
    | none => .next (if (preLaunch s asid tag fun _ => true).isSome then endBusy s else setPre s 2)
    | some x =>
      let area := field 16 28 s.pkg.prearea.toNat * 65536
      let s := updLaunch s x.id fun x => { x with pre := .freezing area }
      let s := updPkg s fun p => { p with preBusy := some x.id }
      let gs := launchCtxs s x.id
      .next (gs.foldl preFreeze
        (gs.foldl (fun s g => updCtx s g fun c => { c with preempting := true }) (setPre s 0)))

/-- Whether a context may become a husk: Frozen with the steps of R396 done (R180); its commands at their
boundaries, its sent pairs accepted or dropped, its permits returned, no handler in its team (R141, R282, R309, R364,
R407). -/
def mayHusk (s : State) (g : Nat) : Bool :=
  let c := ctxOf s g
  let still := fun (x : Cmd) => x.fin || (x.cls == .transfer && !runsThrough x.op)
  isFrozen c && c.cmds.all still
    && !(s.pkg.pairs.any fun p => p.gcn == g && p.stage != .buffered) && !(s.pkg.permits.any fun t => t.gcn == g)
    && pausing s g
/-- Step 4 of R407 for one context: its stores are ordered at package scope and take effect, and its dirty stack-cache
lines are written back (R168, R71); true when a line must wait. -/
def settleCtx (s : State) (g : Nat) : State × Bool := stkCleanAll (flushStores (releaseCtx s g .pkg) g) g
/-- The same for the contexts of a launch. -/
def settleAll (gs : List Nat) (s : State) : State × Bool :=
  gs.foldl (fun r g => let q := settleCtx r.1 g; (q.1, r.2 || q.2)) (s, false)
/-- Entries of a map under keys that f keeps, renamed by f. -/
def renamed {α : Type} (m : NMap α) (f : Nat → Option Nat) : NMap α :=
  m.filterMap fun x => (f x.1).map fun k => (k, x.2)
/-- The registers of a budget, by lane and number in the budget. -/
def regKey (p base n per stride : Nat) (k : Nat) : Option Nat :=
  if k / per / 16 = p ∧ base ≤ k % per ∧ k % per < base + n then
    some ((k / per % 16) * stride + (k % per - base)) else none
/-- Place of a waiting context in its pod's handler queue. -/
def queuePlace (s : State) (g : Nat) : Option Nat :=
  (List.range (pod s (podOf g)).queue.length).find? fun i => (pod s (podOf g)).queue.getD i 9 == slotOfG g
/-- Unsent pairs of a context, in buffer order (R141). -/
def unsentOf (s : State) (g : Nat) : List Pair := s.pkg.pairs.filter fun p => p.gcn == g && p.stage == .buffered
/-- The husk of a context of a launch (R408). Its stack cache is empty (R407). -/
def huskOf (s : State) (g : Nat) : Husk :=
  let c := ctxOf s g
  let p := podOf g
  { gcn := g, queued := queuePlace s g
    ctx := { c with preempting := false, stk := [], yieldSet := [], yielded := false, credit := 0, age := 0 }
    vregs := renamed s.vregs (regKey p c.vbase c.vcnt 272 256)
    tiles := renamed s.tiles (regKey p c.abase c.acnt 8 8)
    vers := renamed s.vers (regKey p c.abase c.acnt 8 8)
    unsent := unsentOf s g }
/-- Banks of a team's portions. -/
def spnOf (s : State) (x : Launch) (team : Nat) : Nat :=
  match teamCtxs s x.id team with
  | g :: _ => (ctxOf s g).spn
  | [] => x.kern.spn
/-- A saved portion (R67). -/
def portionOf (s : State) (x : Launch) (t : TeamPod) : Portion :=
  let spn := spnOf s x t.team
  { team := t.team, tpod := t.tpod
    bytes := renamed s.sp (regKey t.pod (t.splo * 16384) (spn * 16384) 262144 262144)
    fmts := renamed s.spfmt (regKey t.pod t.splo spn 16 16) }
/-- A slot becomes Free without the end of its context, whose unsent pairs are in its husk (R180, R407). -/
def vacate (s : State) (g : Nat) : State :=
  let s := setCtx s g Ctx.reset
  let s := updPkg s fun p => { p with pairs := p.pairs.filter fun x => !(x.gcn == g && x.stage == .buffered) }
  let s := updPod s (podOf g) fun p => { p with queue := p.queue.filter (· != slotOfG g) }
  [0, 1, 2, 3].foldl (fun s n => updCtx s (podOf g * 8 + n) fun x =>
    { x with yieldSet := x.yieldSet.filter (· != slotOfG g) }) s
/-- R407 steps 2 to 5: contexts that stand where they may freeze do so; once every one of them can be a husk, their stores
and stack caches are written, their slots become Free and BUSY clears. -/
def execPreemptComplete (s : State) : Outcome :=
  match s.pkg.preBusy.bind (launchOf s) with
  | none => .next s
  | some x =>
    match x.pre with
    | .freezing area =>
      let gs := launchCtxs s x.id
      let s := gs.foldl settleFrozen (gs.foldl preFreeze s)
      if !(gs.all (mayHusk s)) then .next s
      else
        let r := settleAll gs s
        let s := r.1
        if r.2 || !(gs.all (storesDone s)) then .next s
        else
          let teams := (gs.map fun g => (ctxOf s g).team).eraseDups
          let ports := (x.tpods.filter fun t => teams.any (· == t.team)).map (portionOf s x)
          let husks := gs.map (huskOf s)
          let s := gs.foldl exposeCtx s
          let s := gs.foldl vacate s
          let s := updLaunch s x.id fun x => { x with pre := .saved area husks ports, tpods := [] }
          .next (runLkills (endBusy s))
    | _ => .next s

/-- Husks of a team in the order of its contexts. -/
def teamHusks (hs : List Husk) (team : Nat) : List Husk :=
  let mine := hs.filter fun h => h.ctx.team == team
  (sortNat (mine.map fun h => h.ctx.role * 32 + h.ctx.ridx)).filterMap fun k =>
    mine.find? fun h => h.ctx.role * 32 + h.ctx.ridx == k
/-- Put entries of a saved map back under new keys. -/
def putAll {α : Type} [DecidableEq α] (d : α) (m old : NMap α) (f : Nat → Nat) : NMap α :=
  old.foldl (fun m x => mset d m (f x.1) x.2) m
/-- A pod takes up place `t` of a team's pod list again, with its saved portion at bank b (R47, R67). -/
def retakePod (s : State) (l team t p spn b : Nat) (ports : List Portion) : Option (State × TeamPod) :=
  match launchOf s l with
  | none => none
  | some x =>
    let mine := x.tpods.filter fun y => y.team == team
    match mine.find? fun y => y.tpod == t with
    | some y => if y.pod == p then some (s, y) else none
    | none =>
      if mine.any fun y => y.pod == p then none
      else
        let y : TeamPod := ⟨team, t, p, b⟩
        let s := clearPortion (updLaunch s l fun x => { x with tpods := x.tpods ++ [y] }) p b spn
        match ports.find? fun q => q.team == team && q.tpod == t with
        | none => some (s, y)
        | some q =>
          some ({ s with sp := putAll 0#8 s.sp q.bytes fun k => skey p (k / 262144) (b * 16384 + k % 262144),
                         spfmt := putAll 0 s.spfmt q.fmts fun k => fkey p (k / 16) (b + k % 16) }, y)
/-- Unsent pairs of a husk, sent again from their context's new place before any newly generated one (R141). -/
def resend (s : State) (g : Nat) (l : List Pair) : State :=
  updPkg s fun p => { p with pairs := p.pairs ++ l.map fun x => { x with gcn := g, again := true } }
/-- A husk is restored on a pod and slot, of any die (R181, R364, R409): Frozen as it was, or Ready; a split one only where
no context is split or about to be (R195). -/
def restoreCtx (s : State) (l bank : Nat) (ports : List Portion) (h : Husk) (p n : Nat) : Option State :=
  let g := p * 8 + n
  let rs := residents s p
  let phase := if h.ctx.phase == .frozen && !h.ctx.preFrozen then Phase.frozen else .ready
  if !slotFree s g || !(pod s p).rdy || (h.ctx.spare.isSome && spareTaken s p) then none
  else
    (retakePod s l h.ctx.team h.ctx.tpod p h.ctx.spn bank ports).bind fun (r : State × TeamPod) =>
      let s := r.1
      (holeFor (rs.map fun c => (c.vbase, c.vcnt)) (podV s p) h.ctx.vcnt).bind fun vb =>
        (holeFor (rs.map fun c => (c.abase, c.acnt)) (podA s p) h.ctx.acnt).map fun ab =>
          let s := clearBudget s p vb h.ctx.vcnt ab h.ctx.acnt
          let s := resend s g h.unsent
          let s := setCtx s g { h.ctx with
            phase := phase, preFrozen := false, vbase := vb, abase := ab, splo := r.2.splo,
            cmds := h.ctx.cmds.map fun x => { x with splo := r.2.splo } }
          { s with vregs := putAll 0#2048 s.vregs h.vregs (fun k => vkey p (k / 256) (vb + k % 256)),
                   tiles := putAll 0#32768 s.tiles h.tiles (fun k => tkey p (k / 8) (ab + k % 8)),
                   vers := putAll 0 s.vers h.vers (fun k => tkey p (k / 8) (ab + k % 8)) }
/-- Restore the contexts of a team in order, then its pods that no context is left on. -/
def restoreAll (l bank : Nat) (ports : List Portion) : List Husk → List (Nat × Nat) → List (Nat × Nat × Nat) → State →
    Option State
  | h :: hs, (p, n) :: ps, os, s => (restoreCtx s l bank ports h p n).bind fun s => restoreAll l bank ports hs ps os s
  | [], (p, _) :: ps, (team, t, spn) :: os, s =>
    (retakePod s l team t p spn bank ports).bind fun (r : State × TeamPod) => restoreAll l bank ports [] ps os r.1
  | [], [], [], s => some s
  | _, _, _, _ => none
/-- Banks of the portions of a team of husks. -/
def huskSpn (hs : List Husk) (team : Nat) : Nat := ((teamHusks hs team).map fun h => h.ctx.spn).headD 0
/-- Pods of a team that no husk of it stands on, with the banks of its portions. -/
def orphanPods (hs : List Husk) (ports : List Portion) (team : Nat) : List (Nat × Nat × Nat) :=
  let spn := huskSpn hs team
  ((ports.filter fun q => q.team == team).filter fun q =>
    !(hs.any fun h => h.ctx.team == team && h.ctx.tpod == q.tpod)).map fun q => (team, q.tpod, spn)
/-- Restore the teams in increasing number, each on the pods of one die (R182) and in the same banks of each (R47). -/
def restoreTeams (l : Nat) (hs : List Husk) (ports : List Portion) : List Nat → List (List (Nat × Nat)) → State →
    Option State
  | t :: ts, p :: ps, s =>
    if p.any fun u => u.1 / 32 != (p.headD (0, 0)).1 / 32 then none
    else (commonBank s (p.map (·.1)).eraseDups (huskSpn hs t)).bind fun b =>
      (restoreAll l b ports (teamHusks hs t) p (orphanPods hs ports t) s).bind fun s => restoreTeams l hs ports ts ps s
  | [], [], s => some s
  | _, _, _ => none
/-- Old and new context numbers of the restored contexts. -/
def renumber (hs : List Husk) : List Nat → List (List (Nat × Nat)) → List (Nat × Nat)
  | t :: ts, p :: ps =>
    (((teamHusks hs t).zip p).map fun (x : Husk × Nat × Nat) => (x.1.gcn, x.2.1 * 8 + x.2.2)) ++ renumber hs ts ps
  | _, _ => []
/-- The new number of a context. -/
def newNum (m : List (Nat × Nat)) (g : Nat) : Nat :=
  match m.find? fun x => x.1 == g with
  | some x => x.2
  | none => g
/-- What a launch keeps by context number follows the contexts. -/
def renameLaunch (m : List (Nat × Nat)) (x : Launch) : Launch :=
  { x with
    pre := .running
    waiting := x.waiting.map fun u => (u.1, u.2.map (newNum m))
    parkedNext := x.parkedNext.map (newNum m)
    bars := x.bars.map fun b => { b with arrived := b.arrived.map (newNum m) } }
/-- Frozen contexts join their pod's queue in their saved order (R409). -/
def requeue (s : State) (hs : List Husk) (m : List (Nat × Nat)) : State :=
  (List.range 4).foldl (fun s i =>
    (hs.filter fun h => h.queued == some i).foldl (fun s h =>
      let g := newNum m h.gcn
      updPod s (podOf g) fun p => { p with queue := p.queue ++ [slotOfG g] }) s) s
/-- Uncorrectable sectors of a save area. -/
def badArea (s : State) (area need : Nat) : List Nat :=
  s.pkg.badSectors.filter fun b => decide (area ≤ b * 32) && decide (b * 32 < area + need * 65536)
/-- R409: every team of a saved launch is placed again and every husk restored, when the places named serve and the
dispatchers of their dies have not stopped (R73); an
uncorrectable sector of the save area is the fatal stop 0x06 (R402). BUSY clears. -/
def restoreLaunch (s : State) (x : Launch) (place : List (List (Nat × Nat))) : Option State :=
  match x.pre with
  | .saved area hs ports =>
    let teams := sortNat (hs.map fun h => h.ctx.team).eraseDups
    let m := renumber hs teams place
    if place.any fun p => p.any fun u => dispatcherStopped s (u.1 / 32) then none
    else (restoreTeams x.id hs ports teams place s).map fun s =>
      let s := requeue (updLaunch s x.id (renameLaunch m)) hs m
      let s := teams.foldl (fun s t => urgency s x.id t) s
      let s := match badArea s area (Config.saveNeed x.record).toNat with
        | [] => endAllWaiters s x.id
        | b :: _ =>
          let h := hs.getD (Config.saveOwner (b - area / 32) % hs.length) ⟨0, Ctx.reset, [], [], [], [], none⟩
          if hs.isEmpty then s else markFatal s (newNum m h.gcn) 0x06 (newNum m h.gcn)
      runLkills (endBusy s)
  | _ => none
/-- Place the launch whose resume runs, or go on waiting for room. -/
def tryRestore (s : State) (x : Launch) (place : List (List (Nat × Nat))) : State := (restoreLaunch s x place).getD s
/-- R406, R409: a PRECTL write of operation 0b10, whose operation runs until every team is placed on the pods
and slots named. Named again with places while it runs, it is the placing of the teams that waited for room;
with none, another write, which is ignored. -/
def execResume (asid : BitVec 12) (tag : W32) (place : List (List (Nat × Nat))) (s : State) : Outcome :=
  match s.pkg.preBusy with
  | some l =>
    (match launchOf s l with
    | some x =>
      if isSaved x && x.asid == asid.toNat && x.tag == tag && !place.isEmpty then .next (tryRestore s x place)
      else .next (setPre s 1)
    | none => .next (setPre s 1))
  | none =>
    match preLaunch s asid tag isSaved with
    | none => .next (setPre s 2)
    | some x => .next (tryRestore (setPre (updPkg s fun p => { p with preBusy := some x.id }) 0) x place)

end Sys2Proof.Machine
end

