-- ==== Sys2Proof/Machine/System.lean ====
section
/-!
DEFINITION. Host link, power, security, field data, readiness and reset of the package (chapter 20).
-/
namespace Sys2Proof.Machine

/-- Use n free values; the answer is the number of the first. -/
def drawFree (s : State) (n : Nat) : Nat × State := (s.freeCtr, { s with freeCtr := s.freeCtr + n })
/-- The k-th free value as a number. -/
def freeNat (k : Nat) : Nat := (Config.freeWord k).toNat

-- field data (R444, R445)
/-- Whether an FDSEL value names an assigned word (R445). -/
def fdAssigned (k : Nat) : Bool :=
  let c := field 24 8 k
  let i := field 8 16 k
  let w := field 0 8 k
  if c == 1 then decide (i < 16) && decide (w < 2)
  else if c == 2 then decide (i < 512) && decide (w < 2)
  else if c == 3 || c == 4 then decide (i < 280) && decide (w < 16)
  else if c == 5 then i == 0 && ((decide (1 ≤ w) && decide (w ≤ 23)) || (decide (25 ≤ w) && decide (w ≤ 31)))
  else if c == 6 then decide (i < 16) && w == 0
  else if c == 7 then i == 0 && decide (w < 4)
  else false
/-- A saturating 64-bit count (R444). -/
def fdSat (n : Nat) : Nat := min n (2 ^ 64 - 1)
/-- FDDATA for a selection: stored plus live count, all ones where nothing is assigned (R444, R445). -/
def fdData (s : State) (k : Nat) : Word :=
  if fdAssigned k then BitVec.ofNat 64 (fdSat (mget 0 s.pkg.fdStored k + mget 0 s.pkg.fdLive k))
  else 0xFFFFFFFFFFFFFFFF#64
/-- R445: a write of FDSEL. -/
def execFieldDataSelect (v : W32) (s : State) : Outcome := .next (updPkg s fun p => { p with fdsel := v })
/-- R444: live counts move to the store, which the error collector writes (R439). -/
def execFieldDataSave (s : State) : Outcome :=
  if notStarted s 2 then .next s else
  .next (updPkg s fun p =>
    { p with fdStored := p.fdLive.foldl (fun m (x : Nat × Nat) => mset 0 m x.1 (fdSat (mget 0 m x.1 + x.2))) p.fdStored
             fdLive := [] })

-- Gwepor Link (R435, R436)
/-- LINK of a port in RDYDIE (R443). -/
def portUp (s : State) (n : Nat) : Bool := (mget Port.reset s.pkg.ports n).state == .up
/-- R436: a port changes STATE; it trains or comes up only while LNKEN lets it. -/
def execPortStateChange (n : Nat) (st : PortState) (lanes : Nat) (s : State) : Outcome :=
  let old := mget Port.reset s.pkg.ports n
  if (st == .training || st == .up) && !bitOf n s.pkg.lnken.toNat then .next s
  else
    let again := old.state == .up && st == .training
    let new : Port := { state := st, lanes := lanes,
                        retrains := if again then min (2 ^ 32 - 1) (old.retrains + 1) else old.retrains }
    let s := updPkg s fun p => { p with ports := mset Port.reset p.ports n new }
    let s := if again then countFd s 6 n 0 1 else s
    let s := if old.state == st then s else raiseEvent s 3
    .next (if (old.state == .up) == (st == .up) then s else raiseEvent s 4)
/-- R436: a write of RTSYNC. -/
def execRtsyncWrite (s : State) : Outcome := .next (updPkg s fun p => { p with rmasks := [], rtbusy := true })
/-- R436: no access routed under the old masks is in flight. -/
def execRtsyncComplete (s : State) : Outcome := .next (updPkg s fun p => { p with rtbusy := false })
/-- Whether an ADM entry admits a package under an ASID (R436). -/
def admitted (s : State) (pkg rasid : Nat) : Bool :=
  (List.range 64).any fun n =>
    let e := (mget 0#64 s.pkg.adm n).toNat
    bitOf 63 e && field 32 12 e == rasid && field 0 16 e == pkg
/-- An agent of a remote package as this package sees it: placed like the I-die, in no pod, die or package (R152, R435). -/
def remoteAgent (asid : Nat) : Agent := { idie asid with pkg := false }
/-- Answer a remote request. -/
def remoteAnswer (s : State) (pkg rasid va : Nat) (bs : List Byte) (f : Option Nat) : State :=
  updPkg s fun p => { p with remote := p.remote ++ [(pkg, rasid, va, bs, f)] }
/-- The failure reported to the other package: the code of R39, or 64 plus SRC for a memory error. -/
def remoteCode (f : MFault) : Nat := if f.merr then 64 + f.src else f.code
/-- R314, R435, R436: a remote package's element, of as many bytes as `data`, is placed, translated and checked
here; one that must wait stays with the link. -/
def execRemoteAccessArrival (pkg : BitVec 16) (rasid : BitVec 12) (va : Word) (write : Bool) (data : List Byte)
    (s : State) : Outcome :=
  if s.pkg.pkgid == 0xFFFF#64 then .next s
  else if !admitted s pkg.toNat rasid.toNat then .next (remoteAnswer s pkg.toNat rasid.toNat va.toNat [] (some 0x0D))
  else if write then
    match memWrite s (remoteAgent rasid.toNat) .twrite va.toNat data .normal with
    | .wait _ => .next s
    | .fault f s => .next (remoteAnswer s pkg.toNat rasid.toNat va.toNat [] (some (remoteCode f)))
    | .ok _ s => .next (remoteAnswer s pkg.toNat rasid.toNat va.toNat [] none)
  else
    match memRead s (remoteAgent rasid.toNat) .tread va.toNat data.length .normal with
    | .wait _ => .next s
    | .fault f s => .next (remoteAnswer s pkg.toNat rasid.toNat va.toNat [] (some (remoteCode f)))
    | .ok bs s => .next (remoteAnswer s pkg.toNat rasid.toNat va.toNat bs none)

-- power and thermal (R437, R438)
/-- An island. -/
def islOf (s : State) (i : Nat) : Isl := mget Isl.reset s.pkg.isl i
/-- Update an island. -/
def updIsl (s : State) (i : Nat) (f : Isl → Isl) : State :=
  updPkg s fun p => { p with isl := mset Isl.reset p.isl i (f (mget Isl.reset p.isl i)) }
/-- Lowest frequency of an island in MHz (R437). -/
def islLow (i : Nat) : Nat := if i < 256 then 300 else if i < 264 then 800 else 1000
/-- Whether a setting lies within an island's bounds (R437). -/
def islBounds (i mhz mv : Nat) : Bool :=
  if i < 256 then
    decide (300 ≤ mhz) && decide (mhz ≤ 1050) && mhz % 25 == 0 && decide (550 ≤ mv) && decide (mv ≤ 900)
  else if i < 264 then decide (800 ≤ mhz) && decide (mhz ≤ 1600) && decide (650 ≤ mv) && decide (mv ≤ 850)
  else mhz == 1000 && decide (700 ≤ mv) && decide (mv ≤ 800)
/-- A reading of an island of a second that its throttling allows, the k-th free value: from 100 °C to below 120 °C while it
is throttled, below 105 °C else (R438). -/
def islReading (throttled : Bool) (k : Nat) : Nat := if throttled then 800 + freeNat k % 160 else freeNat k % 840
/-- An island reads t; the peak of the second follows (R445). -/
def islReads (x : Isl) (t : Nat) : Isl := { x with temp := t, peak := max x.peak t }
/-- R438: the junction reaches 105 °C; the reading is a free value from 840 to 959. -/
def execThermalThrottle (i : Nat) (s : State) : Outcome :=
  let (k, s) := drawFree s 1
  .next (updIsl s i fun x =>
    { islReads x (840 + freeNat k % 120) with throttled := true, mhz := if x.mhz = 0 then 0 else islLow i })
/-- R438: it falls below 100 °C; the reading is a free value below 800. How high it stood in this second before is a free
value too. -/
def execThermalThrottleEnd (i : Nat) (s : State) : Outcome :=
  if (islOf s i).throttled then
    let (k, s) := drawFree s 2
    .next (updIsl s i fun x =>
      { islReads (islReads x (islReading true (k + 1))) (freeNat k % 800) with throttled := false })
  else .next s
/-- R437: the power manager, if it has been started (R439), sets an island within its bounds; a throttled one stays at its
lowest frequency. -/
def execIslandSettingChange (i mhz mv : Nat) (s : State) : Outcome :=
  if !notStarted s 1 && islBounds i mhz mv && (!(islOf s i).throttled || mhz == islLow i) then
    .next (updIsl s i fun x => { x with mhz := mhz, mv := mv })
  else .next s
/-- R438: a write of PWRCAP. -/
def execPwrcapWrite (w : BitVec 16) (s : State) : Outcome :=
  if 1000 ≤ w.toNat && w.toNat ≤ 3300 then .next (updPkg s fun p => { p with pwrcap := w.setWidth 64 })
  else .next s
/-- R445: a supply droop is counted by its depth. -/
def execSupplyDroop (i mv : Nat) (s : State) : Outcome := .next (countFd s 4 i (min 15 (mv / 10)) 1)
/-- Word of class 0x03 for a reading: bin b covers 20 + 8b to 28 + 8b °C (R445). -/
def tempBin (t : Nat) : Nat := if t < 160 then 0 else min 15 ((t - 160) / 64)
/-- The second that has passed of one island, counted by its peak: the highest of its readings so far, of one at the end of
the second and of one between, both free values that its throttling allows (R438, R445). The next second's peak starts with
the reading at its end. -/
def islSecond (k0 : Nat) (s : State) (i : Nat) : State :=
  let x := islOf s i
  let t := islReading x.throttled (k0 + i)
  let y := islReads (islReads x (islReading x.throttled (k0 + 281 + i))) t
  countFd (updIsl s i fun x => { x with temp := t, peak := t }) 3 i (tempBin y.peak) 1
/-- R444: a second of power-on; PWRNOW and the readings take free values. -/
def execPowerOnSecond (s : State) : Outcome :=
  let (k, s) := drawFree s 561
  let s := (List.range 280).foldl (islSecond k) s
  .next (updPkg (countFd s 7 0 0 1) fun p => { p with pwrnow := BitVec.ofNat 64 (freeNat (k + 280) % 65536) })

-- reset
/-- The handler banks: vector registers that the part never zeroes (R51). -/
def handlerBank (m : NMap VReg) : NMap VReg := m.filter fun (x : Nat × VReg) => decide (256 ≤ x.1 % 272)
/-- A pair that has been sent is checked and combined into its bin, or dropped, as if its context ran on (R142); one whose
die or stack is not ready has nowhere to go. -/
def landPair (s : State) (id : Nat) : State :=
  let s := match execPairHomeDieCheck id s with
    | .next s => s
    | _ => s
  match pairOf s id with
  | none => s
  | some x =>
    if (x.stage == .ingress || x.stage == .filtered) && stackState s (stackOf x.pa) == msReady then
      let b : Bin := { pa := x.pa, op := x.op, et := x.et, val := toBin x.op x.val.toNat, born := 0 }
      updDie (dropPair (setPending s x) id) x.die fun d => { d with bins := addBin d.bins b }
    else s
/-- Every sent pair and every bin is applied (R142). -/
def landPairs (s : State) : State :=
  let sent := (s.pkg.pairs.filter fun x => x.stage != .buffered).map fun x => x.id
  let s := sent.foldl landPair s
  (List.range 8).foldl (fun s d => (die s d).grans.foldl (fun s g => applyGran s d g.gran) s) s
/-- The part at its reset state: what survives is stack contents, field data and the handler banks, and beside the part
the host's memory with the stores to it that are on their way. -/
def resetAll (s : State) : State :=
  { State.reset with
    agenda := s.agenda, mem := s.mem, freeCtr := s.freeCtr, vregs := handlerBank s.vregs
    pkg := { Pkg.reset with hostIn := s.pkg.hostIn, fdStored := s.pkg.fdStored, fdLive := s.pkg.fdLive, badSectors := s.pkg.badSectors,
                            softSectors := s.pkg.softSectors } }
/-- R369, R445: module reset or power-on. The sent pairs of the contexts that it kills are applied first (R142). -/
def execModuleReset (s : State) : Outcome := .next (countFd (resetAll (landPairs s)) 7 0 1 1)
/-- R438: an island reaches 120 °C: launches are lost as at module reset, the host link goes down. -/
def execThermalStop (i : Nat) (s : State) : Outcome :=
  let (k, s) := drawFree (countFd (resetAll (landPairs s)) 7 0 2 1) 1
  let s := updPkg s fun p => { p with thermalStop := true, linkUp := false }
  .next (updIsl s i fun x => islReads x (960 + freeNat k % 64576))

-- firmware, identity, attestation (R439 to R442)
/-- A byte list at a fixed length. -/
def sized (n : Nat) (l : List Byte) : List Byte := (l ++ List.replicate n 0#8).take n
/-- SHA3-512 (R440). -/
def sha (l : List Byte) : List Byte := sized 64 (Config.sha3 l)
/-- MEASn. -/
def measOf (p : Pkg) (n : Nat) : BitVec 512 := mget 0#512 p.meas n
/-- MEASn after a component (R440). -/
def extendBy (m : BitVec 512) (component : List Byte) : BitVec 512 :=
  BitVec.ofNat 512 (ofBytes (sha (bytesOf 64 m.toNat ++ sha component)))
/-- Set MEASn. -/
def setMeas (p : Pkg) (n : Nat) (v : BitVec 512) : Pkg :=
  { p with meas := mset 0#512 p.meas n v }
/-- Component n as boot measures it (R440). -/
def bootComponent (s : State) (n : Nat) : List Byte :=
  if n < 4 then Config.component n
  else
    Config.bootConfig ((List.range 256).flatMap fun p => [(pod s p).map0, (pod s p).map1]) s.pkg.plcmap
      ((List.range 8).flatMap fun d => (die s d).slcmap)
/-- Key seeds (R440). -/
def dikSeed : List Byte :=
  (sha ([0x47#8, 0x57#8, 0x45#8, 0x50#8, 0x4F#8, 0x52#8, 0x2D#8, 0x44#8, 0x49#8, 0x4B#8] ++ Config.fuseSecret)).take 32
def akSeed (p : Pkg) : List Byte :=
  (sha ([0x47#8, 0x57#8, 0x45#8, 0x50#8, 0x4F#8, 0x52#8, 0x2D#8, 0x41#8, 0x4B#8] ++ Config.fuseSecret
    ++ bytesOf 64 (measOf p 0).toNat)).take 32
/-- The AK public key. -/
def akPublic (p : Pkg) : List Byte := sized 2592 (Config.mldsaPublic (akSeed p))
/-- R439, R440: boot: the root firmware is verified, by its signature and its version; it measures every component and
starts those that verify; the DIK signs the AK public key. Nothing starts under a root firmware that does not verify,
and that is one verification failure (R445). -/
def execBootVerification (svn : W32) (fail : BitVec 3) (s : State) : Outcome :=
  if bitOf 0 s.pkg.bootst.toNat then .next s
  else if !Config.rootVerifies || decide (svn < Config.minSvn) then .next (countFd s 7 0 3 1)
  else
    let (k, s) := drawFree s 1
    let s := updPkg s fun p =>
      [0, 1, 2, 3, 4].foldl (fun p n => setMeas p n (extendBy (measOf p n) (bootComponent s n)))
        { p with bootst := BitVec.ofNat 64 (setField 32 32 svn.toNat (setField 4 3 fail.toNat 1)) }
    let s := updPkg s fun p => { p with akSig := sized 4627 (Config.mldsaSign k dikSeed (akPublic p)) }
    let bad := countBelow 3 fun k => fail.getLsbD k
    .next (if bad = 0 then s else countFd s 7 0 3 bad)
/-- Bytes 0 to 599 of a report (R442). -/
def reportBody (p : Pkg) (nonce : List Byte) : List Byte :=
  [0x47#8, 0x57#8, 0x45#8, 0x50#8, 0x41#8, 0x54#8, 0x54#8, 0x31#8] ++ bytesOf 8 Config.serial.toNat
    ++ bytesOf 4 (field 32 32 p.bootst.toNat) ++ [0#8, 0#8, 0#8, 0#8] ++ nonce
    ++ (List.range 8).flatMap fun n => bytesOf 64 (measOf p n).toNat
/-- A report (R442), with the n-th signature. -/
def reportOf (p : Pkg) (n : Nat) (nonce : List Byte) : List Byte :=
  let b := reportBody p nonce
  b ++ sized 4627 (Config.mldsaSign n (akSeed p) b)
/-- The DIK certificate, at most 8,192 bytes (R441). -/
def certBytes : List Byte := Config.dikCert.take 8192
/-- A write of ATTCMD: a command starts, or is ignored while one runs (R441). -/
def secStart (s : State) (c : SecCmd) : State :=
  if s.pkg.sec.isSome then updPkg s fun p => { p with attst := p.attst ||| 2#32 }
  else updPkg s fun p => { p with sec := some c, attst := p.attst ||| 1#32 }
/-- R441: ATTCMD 0x1. -/
def execAttestReport (s : State) : Outcome := .next (secStart s .report)
/-- R441: ATTCMD 0x2. -/
def execGetCertificates (s : State) : Outcome := .next (secStart s .certs)
/-- R441: ATTCMD 0x3. -/
def execExtendMeasurement (n : BitVec 3) (s : State) : Outcome := .next (secStart s (.extend n.toNat))
/-- Address of the security buffer. -/
def attPa (s : State) : Nat := field 14 30 s.pkg.attbuf.toNat * 16384
/-- What a security command does; `none` when it fails (R441). A failed host read still sets RDERR (R428). -/
def secRun (s : State) (c : SecCmd) : Option State × State :=
  let pa := attPa s
  if !inHost pa then (none, s)
  else
    match c with
    | .unassigned => (none, s)
    | .certs =>
      let s1 := wrPhys s pa (bytesOf 4 certBytes.length)
      let s2 := wrPhys s1 (pa + 8) certBytes
      (some (wrPhys s2 (pa + 8256) (akPublic s.pkg ++ sized 4627 s.pkg.akSig)), s)
    | .report =>
      let r := rdHost s pa 64
      if Config.hostReadFails s.freeCtr then (none, r.2)
      else
        let (k, s1) := drawFree r.2 1
        (some (wrPhys s1 pa (reportOf s.pkg k r.1)), s)
    | .extend n =>
      if n < 5 || 7 < n then (none, s)
      else
        let r := rdHost s pa 64
        if Config.hostReadFails s.freeCtr then (none, r.2)
        else (some (updPkg r.2 fun p => setMeas p n (extendBy (measOf p n) r.1)), s)
/-- R441: a security command ends. -/
def execSecurityCommandComplete (s : State) : Outcome :=
  match s.pkg.sec with
  | none => .next s
  | some c =>
    let done := fun (s : State) (e : W32) =>
      raiseEvent (updPkg s fun p => { p with sec := none, attst := (p.attst &&& 0xFFFFFFFE#32) ||| e }) 6
    match secRun s c with
    | (some s1, _) => .next (done s1 0#32)
    | (none, s1) => .next (done s1 4#32)

-- readiness (R443)
/-- Set a readiness bit, with its event when it rises. -/
def readyBit (s : State) (old : Bool) (f : Pkg → Pkg) : State := if old then s else raiseEvent (updPkg s f) 4
/-- R443, R439, R118: a function reports ready; a die does not while its dispatcher firmware has not started. -/
def execFunctionReady (f : ReadyFn) (s : State) : Outcome :=
  match f with
  | .die d =>
    if bitOf 0 s.pkg.bootst.toNat && !bitOf 4 s.pkg.bootst.toNat then
      .next (readyBit s (s.pkg.rdyDie.getLsbD d) fun p => { p with rdyDie := p.rdyDie ||| (1#8 <<< d) })
    else .next s
  | .grammar d => .next (readyBit s (s.pkg.rdyGram.getLsbD d) fun p => { p with rdyGram := p.rdyGram ||| (1#8 <<< d) })
  | .slice d i => .next (updDie s d fun x => { x with slcrdy := x.slcrdy ||| (1#64 <<< i) })
  | .pod p => .next (tryReady s p)

end Sys2Proof.Machine
end

