-- ==== Sys2Proof/Machine/Windows.lean ====
section
/-!
DEFINITION. The two host windows (R429, R430): which register an offset names, what a host write does to it and
what a host read returns (R45, R74, R119, R122, R198, R390, R406, R430 to R445, R447).
-/
namespace Sys2Proof.Machine

/-- A register of the windows. -/
inductive HReg where
  | svlo (q : Nat) | svhi (q : Nat) | qcfg (q : Nat) | qstat (q : Nat) | lerr | ladm | prectl | prearea | prestat
  | lkill
  | plcmap (n : Nat) | rngsync | rngsyncst | msstat (n : Nat) | rdypod (n : Nat) | rdydie | hlerr | apbase
  | evtstat | evtcfg | prvpend (n : Nat) | dsppend
  | pwrcap | pwrnow | isl (i : Nat)
  | pkgid | lnken | rtbase | rtsync | lnkst (n : Nat) | adm (n : Nat)
  | attbuf | attcmd | attst | bootst
  | fdsel | fddata
  | cpysrc | cpydst | cpylen | cpycmd | cpyst
  | asidtab (d : Nat) | tlbinva (d : Nat) | tlbinvc (d : Nat) | tlbinvst (d : Nat)
  | slcmap (d n : Nat) | slcrdy (d : Nat)
  | uprgn (d n : Nat) | updrain (d : Nat) | upst (d : Nat) | srtst (d j : Nat) | upovf (d j : Nat)
  | arrcnt (d c : Nat)
  | fwtop (d : Nat) | fwhw (d : Nat) | fwlo (d : Nat) | dspres (d : Nat)
  | podcfg (p : Nat) | engmap (p j : Nat) | podctl (p : Nat)
  | hprvtop (p : Nat) | hprvhw (p : Nat) | hprvlo (p : Nat) | hprvas (p : Nat)
deriving DecidableEq, Repr

/-- Number of a register in an array of n at a base with a stride. -/
def inArray (base stride n off : Nat) : Option Nat :=
  if base ≤ off && off < base + stride * n && (off - base) % stride == 0 then some ((off - base) / stride) else none
/-- The launch window (R390, R406, R447). -/
def launchReg (o : Nat) : Option HReg :=
  if o == 0x500 then some .lerr
  else if o == 0x504 then some .ladm
  else if o == 0x510 then some .prectl
  else if o == 0x518 then some .prearea
  else if o == 0x520 then some .prestat
  else if o == 0x528 then some .lkill
  else (inArray 0x000 0x10 32 o).map HReg.svlo <|> (inArray 0x008 0x10 32 o).map HReg.svhi
    <|> (inArray 0x400 4 32 o).map HReg.qcfg <|> (inArray 0x480 4 32 o).map HReg.qstat
/-- The I-die status block (R45, R119, R443, R430, R431). -/
def statusReg (o : Nat) : Option HReg :=
  if o == 0x120 then some .rngsync
  else if o == 0x124 then some .rngsyncst
  else if o == 0x320 then some .rdydie
  else if o == 0x400 then some .hlerr
  else if o == 0x410 then some .apbase
  else (inArray 0x100 4 8 o).map HReg.plcmap <|> (inArray 0x200 4 16 o).map HReg.msstat
    <|> (inArray 0x300 8 4 o).map HReg.rdypod
/-- The event block (R434). -/
def eventReg (o : Nat) : Option HReg :=
  if o == 0x000 then some .evtstat
  else if o == 0x008 then some .evtcfg
  else if o == 0x030 then some .dsppend
  else (inArray 0x010 8 4 o).map HReg.prvpend
/-- The power block (R438). -/
def powerReg (o : Nat) : Option HReg :=
  if o == 0x000 then some .pwrcap
  else if o == 0x008 then some .pwrnow
  else (inArray 0x100 8 280 o).map HReg.isl
/-- The link block (R436). -/
def linkReg (o : Nat) : Option HReg :=
  if o == 0x000 then some .pkgid
  else if o == 0x008 then some .lnken
  else if o == 0x010 then some .rtbase
  else if o == 0x018 then some .rtsync
  else (inArray 0x100 8 16 o).map HReg.lnkst <|> (inArray 0x200 8 64 o).map HReg.adm
/-- The security block (R441). -/
def securityReg (o : Nat) : Option HReg :=
  if o == 0x000 then some .attbuf
  else if o == 0x008 then some .attcmd
  else if o == 0x010 then some .attst
  else if o == 0x018 then some .bootst
  else none
/-- The field-data block (R445). -/
def fieldReg (o : Nat) : Option HReg :=
  if o == 0x000 then some .fdsel else if o == 0x008 then some .fddata else none
/-- The copy engine (R432). -/
def copyReg (o : Nat) : Option HReg :=
  if o == 0x000 then some .cpysrc
  else if o == 0x008 then some .cpydst
  else if o == 0x010 then some .cpylen
  else if o == 0x018 then some .cpycmd
  else if o == 0x020 then some .cpyst
  else none
/-- The control block of pod number p of the package (R198, R430, R74). -/
def podReg (p o : Nat) : Option HReg :=
  if o == 0x000 then some (.podcfg p)
  else if o == 0x008 then some (.engmap p 0)
  else if o == 0x010 then some (.engmap p 1)
  else if o == 0x018 then some (.podctl p)
  else if o == 0x020 then some (.hprvtop p)
  else if o == 0x028 then some (.hprvhw p)
  else if o == 0x030 then some (.hprvlo p)
  else if o == 0x038 then some (.hprvas p)
  else none
/-- The blocks of C-die d (R430). -/
def dieReg (d o : Nat) : Option HReg :=
  let r := o % 0x10000
  if o / 0x10000 == 0 then
    (if r == 0x000 then some (.asidtab d)
    else if r == 0x008 then some (.tlbinva d)
    else if r == 0x010 then some (.tlbinvc d)
    else if r == 0x018 then some (.tlbinvst d)
    else none)
  else if o / 0x10000 == 1 then
    (if r == 0x040 then some (.slcrdy d) else (inArray 0x000 8 8 r).map (HReg.slcmap d))
  else if o / 0x10000 == 2 then
    (if r == 0x1000 then some (.updrain d)
    else if r == 0x1004 then some (.upst d)
    else (inArray 0x0000 4 1024 r).map (HReg.uprgn d) <|> (inArray 0x1010 0x10 2 r).map (HReg.srtst d)
      <|> (inArray 0x1018 0x10 2 r).map (HReg.upovf d))
  else if o / 0x10000 == 3 then (inArray 0x000 4 256 r).map (HReg.arrcnt d)
  else if o / 0x10000 == 4 then
    (if r == 0x000 then some (.fwtop d)
    else if r == 0x008 then some (.fwhw d)
    else if r == 0x010 then some (.fwlo d)
    else if r == 0x018 then some (.dspres d)
    else none)
  else if o / 0x10000 == 8 && r / 0x100 < 32 then podReg (32 * d + r / 0x100) (r % 0x100)
  else none
/-- The management window without the aperture (R430). -/
def mgmtReg (o : Nat) : Option HReg :=
  let r := o % 0x10000
  if 0x1000000 ≤ o then
    (if o - 0x1000000 < 0x800000 then dieReg ((o - 0x1000000) / 0x100000) ((o - 0x1000000) % 0x100000) else none)
  else if o / 0x10000 == 0 then statusReg r
  else if o / 0x10000 == 1 then eventReg r
  else if o / 0x10000 == 2 then powerReg r
  else if o / 0x10000 == 3 then linkReg r
  else if o / 0x10000 == 4 then securityReg r
  else if o / 0x10000 == 5 then fieldReg r
  else if o / 0x10000 == 6 then copyReg r
  else none
/-- The register at an offset; none where nothing is assigned (R429). -/
def regAt (w : Window) (o : Nat) : Option HReg :=
  match w with
  | .launch => launchReg o
  | .mgmt => mgmtReg o

/-- Whether an access of 8 bytes (true) or 4 has the width of the register; where the tables give only low bits
and so no width, both do (R429; log entry 31). -/
def HReg.takes (r : HReg) (wide : Bool) : Bool :=
  match r with
  | .pkgid | .lnken | .rtsync | .pwrcap | .pwrnow => true
  | .qcfg _ | .qstat _ | .lerr | .ladm | .plcmap _ | .rngsync | .rngsyncst | .msstat _ | .rdydie | .hlerr
  | .evtstat | .evtcfg | .dsppend | .attcmd | .attst | .fdsel | .cpycmd | .cpyst | .tlbinvc _ | .tlbinvst _
  | .uprgn _ _ | .updrain _ | .upst _ | .arrcnt _ _ | .dspres _ | .podctl _ => !wide
  | _ => wide

/-- Whether a 4-byte access at an offset names the upper half of a register of 8 bytes: not its width (R429). -/
def upperHalf (w : Window) (o : Nat) (wide : Bool) : Bool :=
  !wide && o % 8 == 4 && (match regAt w (o - 4) with
    | some r => r.takes true && !r.takes false
    | none => false)
/-- Bits hi..lo of a word, the others 0. -/
def keep (lo len : Nat) (v : Word) : Word := BitVec.ofNat 64 (field lo len v.toNat * 2 ^ lo)
/-- W1C bits: those written 1 become 0. -/
def w1c32 (old : W32) (mask v : Nat) : W32 := old &&& ~~~(BitVec.ofNat 32 (mask &&& v))
/-- A write of TLBINVC that is not ignored; the register keeps all its fields (R37, R45). -/
def shootWritten (d v : Nat) (s : State) (o : State → Outcome) : Outcome :=
  if (die s d).shoot.isSome then o s
  else
    match o s with
    | .next t => .next (updDie t d fun x => { x with tlbinvc := BitVec.ofNat 32 v &&& 0xCFFFFFFF#32 })
    | o => o
/-- A write of TLBINVC (R37, R45). -/
def writeTlbinvc (d : Nat) (v : Nat) (s : State) : Outcome :=
  if field 30 2 v == 0 then shootWritten d v s (execShootdownPageRange d (field 16 12 v) (field 0 16 v))
  else if field 30 2 v == 1 then shootWritten d v s (execShootdownAsid d (field 16 12 v))
  else if field 30 2 v == 2 then shootWritten d v s (execShootdownAll d)
  else .next (updDie s d fun x => { x with tlberr := true })
/-- A write of PRECTL (R406). Operation 0b10 starts the resume, which the event RESUME carries on with the places
of the teams. -/
def writePrectl (v : Nat) (s : State) : Outcome :=
  let asid := BitVec.ofNat 12 (field 48 12 v)
  let tag := BitVec.ofNat 32 v
  if field 62 2 v == 1 then execPreempt asid tag s
  else if field 62 2 v == 2 then execResume asid tag [] s
  else if field 62 2 v == 3 then execSizeQuery asid tag s
  else .next (if s.pkg.preBusy.isSome then setPre s 1 else s)
/-- A write of ATTCMD (R441). -/
def writeAttcmd (v : Nat) (s : State) : Outcome :=
  if field 0 4 v == 1 then execAttestReport s
  else if field 0 4 v == 2 then execGetCertificates s
  else if field 0 4 v == 3 then execExtendMeasurement (BitVec.ofNat 3 (field 8 3 v)) s
  else .next (secStart s .unassigned)
/-- A write of QCFGq (R390). -/
def writeQcfg (q v : Nat) (s : State) : Outcome :=
  if field 0 13 v == 0 || 4096 < field 0 13 v then .next (setLerr s 2)
  else
    .next (updPkg s fun p =>
      { p with qcfg := mset 0x40#32 p.qcfg q (BitVec.ofNat 32 (field 0 13 v + field 16 1 v * 65536)) })
/-- A change of a pod's control block, made only while the pod is not ready (R198). -/
def writePod (p : Nat) (s : State) (f : Pod → Pod) : Outcome :=
  .next (if (pod s p).rdy then s else updPod s p f)
/-- A host write of a register: writable fields only; a register with a row of its own takes that row's step. -/
def HReg.write (r : HReg) (v : Word) (s : State) : Outcome :=
  let n := v.toNat
  let low := BitVec.ofNat 32 n
  let pk := fun (f : Pkg → Pkg) => (Host.Outcome.next (updPkg s f) : Outcome)
  let dk := fun (d : Nat) (f : Die → Die) => (Host.Outcome.next (updDie s d f) : Outcome)
  match r with
  | .svlo q => pk fun p => { p with svlo := mset 0#64 p.svlo q v }
  | .svhi q => if bitOf 0 n then execCloseVector q v s else execStartVectorSubmit q v s
  | .qcfg q => writeQcfg q n s
  | .qstat q => pk fun p => { p with ovf := if bitOf 16 n then mset false p.ovf q false else p.ovf }
  | .lerr => pk fun p => { p with lerr := w1c32 p.lerr 0xF n }
  | .prectl => writePrectl n s
  | .prearea => pk fun p => { p with prearea := keep 16 28 v }
  | .prestat => pk fun p => { p with prestat := p.prestat &&& ~~~(BitVec.ofNat 64 (6 &&& n)) }
  | .lkill =>
    if field 62 2 n == 1 then execLkill (BitVec.ofNat 12 (field 48 12 n)) (BitVec.ofNat 32 n) s else .next s
  | .plcmap k => pk fun p => { p with plcmap := p.plcmap.set k (low &&& 0x77777777#32) }
  | .rngsync => execRngsyncWrite (field 0 12 n) s
  | .rngsyncst => pk fun p => { p with rngBad := p.rngBad && !bitOf 1 n }
  | .hlerr => pk fun p => { p with hlerr := w1c32 p.hlerr 7 n }
  | .apbase => pk fun p => { p with apbase := keep 23 21 v }
  | .evtstat => pk fun p => { p with evtstat := w1c32 p.evtstat 0xFF n }
  | .evtcfg => pk fun p => { p with evtcfg := low &&& 0x800007FF#32 }
  | .prvpend k => pk fun p => { p with prvpend := mset 0#64 p.prvpend k (mget 0#64 p.prvpend k &&& ~~~v) }
  | .dsppend => pk fun p => { p with dsppend := w1c32 p.dsppend 0xFF n }
  | .pwrcap => execPwrcapWrite (BitVec.ofNat 16 n) s
  | .pkgid => pk fun p => { p with pkgid := keep 0 16 v }
  | .lnken => pk fun p => { p with lnken := keep 0 16 v }
  | .rtbase => pk fun p => { p with rtbase := keep 17 27 v }
  | .rtsync => execRtsyncWrite s
  | .adm k => pk fun p => { p with adm := mset 0#64 p.adm k (v &&& 0x80000FFF0000FFFF#64) }
  | .attbuf => pk fun p => { p with attbuf := keep 14 30 v }
  | .attcmd => writeAttcmd n s
  | .attst => pk fun p => { p with attst := w1c32 p.attst 6 n }
  | .fdsel => execFieldDataSelect low s
  | .cpysrc => pk fun p => { p with cpysrc := keep 6 38 v }
  | .cpydst => pk fun p => { p with cpydst := keep 6 38 v }
  | .cpylen => pk fun p => { p with cpylen := keep 0 32 v }
  | .cpycmd => if bitOf 0 n then execCopyStart s else .next s
  | .cpyst => pk fun p => { p with cpyst := w1c32 p.cpyst 6 n }
  | .asidtab d => dk d fun x => { x with asidtab := keep 23 21 v ||| keep 0 1 v }
  | .tlbinva d => dk d fun x => { x with tlbinva := keep 16 32 v }
  | .tlbinvc d => writeTlbinvc d n s
  | .tlbinvst d => dk d fun x => { x with tlberr := x.tlberr && !bitOf 1 n }
  | .slcmap d k => dk d fun x => { x with slcmap := x.slcmap.set k (v &&& 0x3F3F3F3F3F3F3F3F#64) }
  | .uprgn d k => execUprgnWrite d k low s
  | .updrain d => execUpdrainWrite d (field 0 10 n) s
  | .upst d => dk d fun x => { x with uperr := x.uperr && !bitOf 2 n }
  | .upovf d j => dk d fun x => { x with upovf := x.upovf.set j (keep 28 16 v ||| keep 0 4 v) }
  | .arrcnt d c => execArrcntWrite d c low s
  | .fwtop d => dk d fun x => { x with prvtop := keep 16 32 v }
  | .fwhw d => dk d fun x => { x with prvhw := keep 16 32 v }
  | .fwlo d => dk d fun x => { x with prvlo := keep 16 32 v }
  | .dspres d => if bitOf 0 n then execDspresRes d s else .next s
  | .podcfg p => writePod p s fun x => { x with degr := bitOf 1 n }
  | .engmap p j => writePod p s fun x =>
      if j = 0 then { x with map0 := v &&& mapMask } else { x with map1 := v &&& mapMask }
  | .podctl p => if bitOf 0 n then execPodctlHres p s else .next s
  | .hprvhw p => execHprvhwWrite p v s
  | .ladm | .msstat _ | .rdypod _ | .rdydie | .pwrnow | .isl _ | .lnkst _ | .bootst | .fddata | .slcrdy _
  | .srtst _ _ | .hprvtop _ | .hprvlo _ | .hprvas _ => .next s

/-- n bits from a predicate, as a word. -/
def bitsOf (n : Nat) (p : Nat → Bool) : Word := BitVec.ofNat 64 (packNat 1 n fun i => bit (p i))
/-- Code of a port state (R436). -/
def portCode : PortState → Nat
  | .down => 0
  | .training => 1
  | .up => 2
  | .failed => 3
/-- What a host read of a register returns; write-only fields read as 0 (R429, R390; log entry 31). -/
def HReg.read (r : HReg) (s : State) : Word :=
  let p := s.pkg
  let num := fun (n : Nat) => (BitVec.ofNat 64 n : Word)
  match r with
  | .svlo _ | .svhi _ | .prectl | .lkill | .rngsync | .attcmd | .fdsel | .cpycmd | .updrain _ | .dspres _
  | .podctl _ => 0#64
  | .qcfg q => zx64 (qcfgOf s q)
  | .qstat q => num (bit (mget false p.ovf q) * 65536 + (queueOf s q).length)
  | .lerr => zx64 p.lerr
  | .ladm => num p.launches.length
  | .prearea => p.prearea
  | .prestat => p.prestat
  | .plcmap k => zx64 (p.plcmap.getD k 0#32)
  | .rngsyncst => num (bit p.rngBad * 2 + bit (!p.rngq.isEmpty))
  | .msstat k => num (bit (mget false p.hotref k) * 256 + stackState s k)
  | .rdypod k => bitsOf 64 fun i => (pod s (64 * k + i)).rdy
  | .rdydie => num (p.rdyDie.toNat + p.rdyGram.toNat * 256 + packNat 1 16 (fun i => bit (portUp s i)) * 65536)
  | .hlerr => zx64 p.hlerr
  | .apbase => p.apbase
  | .evtstat => zx64 p.evtstat
  | .evtcfg => zx64 p.evtcfg
  | .prvpend k => mget 0#64 p.prvpend k
  | .dsppend => zx64 p.dsppend
  | .pwrcap => p.pwrcap
  | .pwrnow => p.pwrnow
  | .isl i => num ((islOf s i).temp % 65536 * 4294967296 + (islOf s i).mv % 65536 * 65536 + (islOf s i).mhz % 65536)
  | .pkgid => p.pkgid
  | .lnken => p.lnken
  | .rtbase => p.rtbase
  | .rtsync => num (bit p.rtbusy)
  | .lnkst k =>
    let x := mget Port.reset p.ports k
    num (x.retrains * 4294967296 + x.lanes * 16 + portCode x.state)
  | .adm k => mget 0#64 p.adm k
  | .attbuf => p.attbuf
  | .attst => zx64 p.attst
  | .bootst => p.bootst
  | .fddata => fdData s p.fdsel.toNat
  | .cpysrc => p.cpysrc
  | .cpydst => p.cpydst
  | .cpylen => p.cpylen
  | .cpyst => num (field 1 2 p.cpyst.toNat * 2 + bit p.copy.isSome)
  | .asidtab d => (die s d).asidtab
  | .tlbinva d => (die s d).tlbinva
  | .tlbinvc d => zx64 (die s d).tlbinvc
  | .tlbinvst d => num (bit (die s d).tlberr * 2 + bit (die s d).shoot.isSome)
  | .slcmap d k => (die s d).slcmap.getD k 0#64
  | .slcrdy d => (die s d).slcrdy
  | .uprgn d k => zx64 (mget 0#32 (die s d).uprgn k)
  | .upst d => num (bit (die s d).uperr * 4 + bit (die s d).drain.isSome * 2)
  | .srtst d j =>
    num ((die s d).f16rnd.getD j 0 * 4294967296 + bit ((die s d).hwm.getD j false) * 2147483648
      + binsOf (die s d) (2 * d + j))
  | .upovf d j => (die s d).upovf.getD j 0#64
  | .arrcnt d c => zx64 (arrOf s d c)
  | .fwtop d => (die s d).prvtop
  | .fwhw d => (die s d).prvhw
  | .fwlo d => (die s d).prvlo
  | .podcfg k =>
    let x := pod s k
    num (x.work.toNat * 4294967296 + bit x.maperr * 4 + bit x.degr * 2 + bit x.rdy)
  | .engmap k j => if j = 0 then (pod s k).map0 else (pod s k).map1
  | .hprvtop k => (ctxOf s (k * 8 + 4)).prvtop
  | .hprvhw k => (ctxOf s (k * 8 + 4)).prvhw
  | .hprvlo k => (ctxOf s (k * 8 + 4)).prvlo
  | .hprvas k => num (ctxOf s (k * 8 + 4)).asid

/-- Whether an offset of the management window lies in the aperture (R430). -/
def inAperture (w : Window) (o : Nat) : Bool :=
  match w with
  | .launch => false
  | .mgmt => 0x800000 ≤ o && o < 0x1000000
/-- R429: a host write: natural alignment and the width of the register, or MISUSE; an unassigned offset takes
nothing. -/
def execMmioRegisterWrite (w : Window) (o : Nat) (wide : Bool) (v : Word) (s : State) : Outcome :=
  let size := if wide then 8 else 4
  if inAperture w o then execApertureWrite (o - 0x800000) wide v s
  else if o % size != 0 then .next (setHlerr s 1)
  else
    match regAt w o with
    | none => .next (if upperHalf w o wide then setHlerr s 1 else s)
    | some r => if r.takes wide then r.write v s else .next (setHlerr s 1)
/-- R429: a host read of a window register: what it returns and the state it leaves. -/
def mmioRead (w : Window) (o : Nat) (wide : Bool) (s : State) : Word × State :=
  let size := if wide then 8 else 4
  let ones : Word := if wide then 0xFFFFFFFFFFFFFFFF#64 else 0xFFFFFFFF#64
  if o % size != 0 then (ones, setHlerr s 1)
  else
    match regAt w o with
    | none => if upperHalf w o wide then (ones, setHlerr s 1) else (0#64, s)
    | some r => if r.takes wide then (r.read s, s) else (ones, setHlerr s 1)

/-- The size of a host access from 4 or 8 bytes; every other one is not accepted (R429). -/
def sizeTaken (n : Nat) : Option Bool := if n = 4 then some false else if n = 8 then some true else none
/-- What a host access does (R429, R431, R433). A read leaves what it returns in `hostRead`; a store of the driver reaches
host memory when the link delivers it. -/
def hostTurn (a : HostAcc) (s : State) : Outcome :=
  let answer := fun (r : Word × State) => (.next (updPkg r.2 fun p => { p with hostRead := r.1 }) : Outcome)
  match a with
  | .read w o n =>
    match sizeTaken n with
    | none => answer (BitVec.ofNat 64 (2 ^ (8 * min n 8) - 1), setHlerr s 1)
    | some wide => if inAperture w o then execApertureRead (o - 0x800000) wide s else answer (mmioRead w o wide s)
  | .write w o n v =>
    match sizeTaken n with
    | none => .next (setHlerr s 1)
    | some wide => execMmioRegisterWrite w o wide v s
  | .store pa bs => .next (updPkg s fun p => { p with hostIn := p.hostIn ++ [(pa, bs)] })
/-- Bytes of a window (R429). -/
def windowSize : Window → Nat
  | .launch => 65536
  | .mgmt => 33554432
/-- Whether an access is one that the host can make: of 1 to 4,096 bytes inside a window (R427), or a store inside one
aligned 8-byte word of host memory (R175). -/
def HostAcc.wf : HostAcc → Bool
  | .read w o n => 1 ≤ n && n ≤ 4096 && o + n ≤ windowSize w
  | .write w o n _ => 1 ≤ n && n ≤ 4096 && o + n ≤ windowSize w
  | .store pa bs => inHost pa && 1 ≤ bs.length && pa % 8 + bs.length ≤ 8
/-- Whether an access goes over the host link. -/
def HostAcc.overLink : HostAcc → Bool
  | .store .. => false
  | _ => true

/-- Steps that the host makes over the link (R427, R429). -/
def hostMakes : Instr → Bool
  | .apertureRead .. | .apertureWrite .. | .mmioRegisterWrite .. | .copyStart | .rngsyncWrite _ | .rtsyncWrite
  | .shootdownPageRange .. | .shootdownAsid .. | .shootdownAll _ | .startVectorSubmit .. | .closeVector ..
  | .preempt .. | .resume .. | .sizeQuery .. | .lkill .. | .hprvhwWrite .. | .podctlHres _ | .dspresRes _
  | .uprgnWrite .. | .updrainWrite .. | .arrcntWrite .. | .pwrcapWrite _ | .fieldDataSelect _ | .attestReport
  | .getCertificates | .extendMeasurement _ => true
  | _ => false
/-- Whether a step cannot happen because the host link is down after a thermal stop (R438). -/
def linkBlocks (s : State) (i : Instr) : Bool := !s.pkg.linkUp && hostMakes i

end Sys2Proof.Machine
end

