-- ==== Sys2Proof/Machine/Dispatch.lean ====
section
/-!
DEFINITION. The dispatch: one arm per constructor of `Instr`, each one call of its meaning.
-/
namespace Sys2Proof.Machine

/-- What an instruction or event does. -/
def exec (i : Instr) (s : State) : Host.Outcome State Fault Refusal :=
  match i with
  | .bundleIssue g h => Sys2Proof.Machine.execBundleIssue g h s
  | .resultLand g h => Sys2Proof.Machine.execResultLand g h s
  | .parkEnd g => Sys2Proof.Machine.execParkEnd g s
  | .pickerChoice p => Sys2Proof.Machine.execPickerChoice p s
  | .forcedRunEnd g => Sys2Proof.Machine.execForcedRunEnd g s
  | .interlockedAccessComplete g h => Sys2Proof.Machine.execInterlockedAccessComplete g h s
  | .stackCacheFill g h => Sys2Proof.Machine.execStackCacheFill g h s
  | .stackCacheBackgroundFill g => Sys2Proof.Machine.execStackCacheBackgroundFill g s
  | .fenceComplete g h => Sys2Proof.Machine.execFenceComplete g h s
  | .waitbComplete g h => Sys2Proof.Machine.execWaitbComplete g h s
  | .ufenceComplete g h => Sys2Proof.Machine.execUfenceComplete g h s
  | .barrierGenerationComplete l bk unit id => Sys2Proof.Machine.execBarrierGenerationComplete l bk unit id s
  | .versionCheckRelease g h => Sys2Proof.Machine.execVersionCheckRelease g h s
  | .arrincAccepted g h => Sys2Proof.Machine.execArrincAccepted g h s
  | .splitStart g => Sys2Proof.Machine.execSplitStart g s
  | .join g => Sys2Proof.Machine.execJoin g s
  | .matrixCommandComplete g id lane => Sys2Proof.Machine.execMatrixCommandComplete g id lane s
  | .mstoreComplete g id lane => Sys2Proof.Machine.execMstoreComplete g id lane s
  | .transferElement g id lane => Sys2Proof.Machine.execTransferElement g id lane s
  | .transferCommandComplete g id => Sys2Proof.Machine.execTransferCommandComplete g id s
  | .rangeTableLoad u asid => Sys2Proof.Machine.execRangeTableLoad u asid s
  | .rngsyncWrite asid => Sys2Proof.Machine.execRngsyncWrite asid s
  | .sliceAccess g h n => Sys2Proof.Machine.execSliceAccess g h n s
  | .lineFillComplete d asid ln => Sys2Proof.Machine.execLineFillComplete d asid ln s
  | .pageWalkComplete d asid va => Sys2Proof.Machine.execPageWalkComplete d asid va s
  | .shootdownPageRange d asid count => Sys2Proof.Machine.execShootdownPageRange d asid count s
  | .shootdownAsid d asid => Sys2Proof.Machine.execShootdownAsid d asid s
  | .shootdownAll d => Sys2Proof.Machine.execShootdownAll d s
  | .shootdownComplete d => Sys2Proof.Machine.execShootdownComplete d s
  | .patrolScrub st sector => Sys2Proof.Machine.execPatrolScrub st sector s
  | .stackTrainingStart st => Sys2Proof.Machine.execStackTrainingStart st s
  | .stackTrainingEnd st ok => Sys2Proof.Machine.execStackTrainingEnd st ok s
  | .stackChannelLoss st => Sys2Proof.Machine.execStackChannelLoss st s
  | .pairHomeDieCheck id => Sys2Proof.Machine.execPairHomeDieCheck id s
  | .permitGrant g st => Sys2Proof.Machine.execPermitGrant g st s
  | .pairFilterPass id => Sys2Proof.Machine.execPairFilterPass id s
  | .pairBinAccept id => Sys2Proof.Machine.execPairBinAccept id s
  | .pendingGranuleAccess gran => Sys2Proof.Machine.execPendingGranuleAccess gran s
  | .earlyApply st => Sys2Proof.Machine.execEarlyApply st s
  | .contextKillMessage g d => Sys2Proof.Machine.execContextKillMessage g d s
  | .uprgnWrite d rid v => Sys2Proof.Machine.execUprgnWrite d rid v s
  | .updrainWrite d rid => Sys2Proof.Machine.execUpdrainWrite d rid s
  | .drainComplete d => Sys2Proof.Machine.execDrainComplete d s
  | .podSelfTest p work map0 map1 degr => Sys2Proof.Machine.execPodSelfTest p work map0 map1 degr s
  | .handlerEntry p => Sys2Proof.Machine.execHandlerEntry p s
  | .stopRequestFreeze g => Sys2Proof.Machine.execStopRequestFreeze g s
  | .fatalStop l => Sys2Proof.Machine.execFatalStop l s
  | .hprvhwWrite p v => Sys2Proof.Machine.execHprvhwWrite p v s
  | .podctlHres p => Sys2Proof.Machine.execPodctlHres p s
  | .dspresRes d => Sys2Proof.Machine.execDspresRes d s
  | .dispatcherHighWaterFault d => Sys2Proof.Machine.execDispatcherHighWaterFault d s
  | .startVectorSubmit q hi => Sys2Proof.Machine.execStartVectorSubmit q hi s
  | .closeVector q hi => Sys2Proof.Machine.execCloseVector q hi s
  | .nestRecordRead q pos => Sys2Proof.Machine.execNestRecordRead q pos s
  | .arrivalCounterIncrement d => Sys2Proof.Machine.execArrivalCounterIncrement d s
  | .arrcntWrite d c v => Sys2Proof.Machine.execArrcntWrite d c v s
  | .launchFire l => Sys2Proof.Machine.execLaunchFire l s
  | .xtendAccept g id => Sys2Proof.Machine.execXtendAccept g id s
  | .teamPlacement l d place => Sys2Proof.Machine.execTeamPlacement l d place s
  | .iterationHandout l d => Sys2Proof.Machine.execIterationHandout l d s
  | .urgencyHoldBack g => Sys2Proof.Machine.execUrgencyHoldBack g s
  | .launchComplete l => Sys2Proof.Machine.execLaunchComplete l s
  | .preempt asid tag => Sys2Proof.Machine.execPreempt asid tag s
  | .resume asid tag place => Sys2Proof.Machine.execResume asid tag place s
  | .sizeQuery asid tag => Sys2Proof.Machine.execSizeQuery asid tag s
  | .lkill asid tag => Sys2Proof.Machine.execLkill asid tag s
  | .grammarStep g => Sys2Proof.Machine.execGrammarStep g s
  | .maskComplete g id => Sys2Proof.Machine.execMaskComplete g id s
  | .apertureRead o wide => Sys2Proof.Machine.execApertureRead o wide s
  | .apertureWrite o wide v => Sys2Proof.Machine.execApertureWrite o wide v s
  | .extendMeasurement n => Sys2Proof.Machine.execExtendMeasurement n s
  | .fieldDataSelect v => Sys2Proof.Machine.execFieldDataSelect v s
  | .portStateChange port st lanes => Sys2Proof.Machine.execPortStateChange port st lanes s
  | .remoteAccessArrival pkg rasid va write data => Sys2Proof.Machine.execRemoteAccessArrival pkg rasid va write data s
  | .thermalThrottle isl => Sys2Proof.Machine.execThermalThrottle isl s
  | .thermalStop isl => Sys2Proof.Machine.execThermalStop isl s
  | .islandSettingChange isl mhz mv => Sys2Proof.Machine.execIslandSettingChange isl mhz mv s
  | .pwrcapWrite w => Sys2Proof.Machine.execPwrcapWrite w s
  | .bootVerification svn fail => Sys2Proof.Machine.execBootVerification svn fail s
  | .functionReady f => Sys2Proof.Machine.execFunctionReady f s
  | .mmioRegisterWrite win off wide v => Sys2Proof.Machine.execMmioRegisterWrite win off wide v s
  | .thermalThrottleEnd isl => Sys2Proof.Machine.execThermalThrottleEnd isl s
  | .refreshRateChange st hot => Sys2Proof.Machine.execRefreshRateChange st hot s
  | .supplyDroop isl mv => Sys2Proof.Machine.execSupplyDroop isl mv s
  | .grammarCommandComplete g id => Sys2Proof.Machine.execGrammarCommandComplete g id s
  | .add d a b => Sys2Proof.Machine.execAdd d a b s
  | .sub d a b => Sys2Proof.Machine.execSub d a b s
  | .mul d a b => Sys2Proof.Machine.execMul d a b s
  | .mulhs d a b => Sys2Proof.Machine.execMulhs d a b s
  | .mulhu d a b => Sys2Proof.Machine.execMulhu d a b s
  | .and d a b => Sys2Proof.Machine.execAnd d a b s
  | .or d a b => Sys2Proof.Machine.execOr d a b s
  | .xor d a b => Sys2Proof.Machine.execXor d a b s
  | .shl d a b => Sys2Proof.Machine.execShl d a b s
  | .shr d a b => Sys2Proof.Machine.execShr d a b s
  | .sra d a b => Sys2Proof.Machine.execSra d a b s
  | .min d a b => Sys2Proof.Machine.execMin d a b s
  | .max d a b => Sys2Proof.Machine.execMax d a b s
  | .minu d a b => Sys2Proof.Machine.execMinu d a b s
  | .maxu d a b => Sys2Proof.Machine.execMaxu d a b s
  | .addi d a imm => Sys2Proof.Machine.execAddi d a imm s
  | .andi d a imm => Sys2Proof.Machine.execAndi d a imm s
  | .ori d a imm => Sys2Proof.Machine.execOri d a imm s
  | .xori d a imm => Sys2Proof.Machine.execXori d a imm s
  | .shli d a imm => Sys2Proof.Machine.execShli d a imm s
  | .shri d a imm => Sys2Proof.Machine.execShri d a imm s
  | .srai d a imm => Sys2Proof.Machine.execSrai d a imm s
  | .cmp cc d a b => Sys2Proof.Machine.execCmp cc d a b s
  | .cmpi cc d a imm => Sys2Proof.Machine.execCmpi cc d a imm s
  | .sel d a b c => Sys2Proof.Machine.execSel d a b c s
  | .clz d a => Sys2Proof.Machine.execClz d a s
  | .ctz d a => Sys2Proof.Machine.execCtz d a s
  | .popc d a => Sys2Proof.Machine.execPopc d a s
  | .bext d a pos lm1 => Sys2Proof.Machine.execBext d a pos lm1 s
  | .bins d a pos lm1 => Sys2Proof.Machine.execBins d a pos lm1 s
  | .movi d imm => Sys2Proof.Machine.execMovi d imm s
  | .movx d imm => Sys2Proof.Machine.execMovx d imm s
  | .kmov k a => Sys2Proof.Machine.execKmov k a s
  | .kmovi k imm => Sys2Proof.Machine.execKmovi k imm s
  | .movk d k => Sys2Proof.Machine.execMovk d k s
  | .bmov b a => Sys2Proof.Machine.execBmov b a s
  | .bmovi b imm => Sys2Proof.Machine.execBmovi b imm s
  | .badd b imm => Sys2Proof.Machine.execBadd b imm s
  | .ld sz sx ch d a off => Sys2Proof.Machine.execLd sz sx ch d a off s
  | .st sz ch rs a off => Sys2Proof.Machine.execSt sz ch rs a off s
  | .ldsp sz sx lane d a off => Sys2Proof.Machine.execLdsp sz sx lane d a off s
  | .stsp sz all lane rs a off => Sys2Proof.Machine.execStsp sz all lane rs a off s
  | .atcas wide d a b => Sys2Proof.Machine.execAtcas wide d a b s
  | .atadd wide d a b => Sys2Proof.Machine.execAtadd wide d a b s
  | .atswp wide d a b => Sys2Proof.Machine.execAtswp wide d a b s
  | .atand wide d a b => Sys2Proof.Machine.execAtand wide d a b s
  | .ator wide d a b => Sys2Proof.Machine.execAtor wide d a b s
  | .atxor wide d a b => Sys2Proof.Machine.execAtxor wide d a b s
  | .br nz a off => Sys2Proof.Machine.execBr nz a off s
  | .jmp off => Sys2Proof.Machine.execJmp off s
  | .jr a => Sys2Proof.Machine.execJr a s
  | .call off => Sys2Proof.Machine.execCall off s
  | .callr a => Sys2Proof.Machine.execCallr a s
  | .loop a off => Sys2Proof.Machine.execLoop a off s
  | .fence k sc => Sys2Proof.Machine.execFence k sc s
  | .barr bk id => Sys2Proof.Machine.execBarr bk id s
  | .barw bk id => Sys2Proof.Machine.execBarw bk id s
  | .arrinc own die ctr a => Sys2Proof.Machine.execArrinc own die ctr a s
  | .batch d => Sys2Proof.Machine.execBatch d s
  | .waitb cm last a => Sys2Proof.Machine.execWaitb cm last a s
  | .csrr d c => Sys2Proof.Machine.execCsrr d c s
  | .csrw c a => Sys2Proof.Machine.execCsrw c a s
  | .csrset d c a => Sys2Proof.Machine.execCsrset d c a s
  | .csrclr d c a => Sys2Proof.Machine.execCsrclr d c a s
  | .trap code => Sys2Proof.Machine.execTrap code s
  | .tret a => Sys2Proof.Machine.execTret a s
  | .viadd d a b => Sys2Proof.Machine.execViadd d a b s
  | .visub d a b => Sys2Proof.Machine.execVisub d a b s
  | .vimul d a b => Sys2Proof.Machine.execVimul d a b s
  | .vand d a b => Sys2Proof.Machine.execVand d a b s
  | .vor d a b => Sys2Proof.Machine.execVor d a b s
  | .vxor d a b => Sys2Proof.Machine.execVxor d a b s
  | .vshl d a b => Sys2Proof.Machine.execVshl d a b s
  | .vshr d a b => Sys2Proof.Machine.execVshr d a b s
  | .vsra d a b => Sys2Proof.Machine.execVsra d a b s
  | .vimin d a b => Sys2Proof.Machine.execVimin d a b s
  | .vimax d a b => Sys2Proof.Machine.execVimax d a b s
  | .viadds d a b => Sys2Proof.Machine.execViadds d a b s
  | .visubs d a b => Sys2Proof.Machine.execVisubs d a b s
  | .vadd d a b => Sys2Proof.Machine.execVadd d a b s
  | .vsub d a b => Sys2Proof.Machine.execVsub d a b s
  | .vmul d a b => Sys2Proof.Machine.execVmul d a b s
  | .vfma d a b => Sys2Proof.Machine.execVfma d a b s
  | .vmin d a b => Sys2Proof.Machine.execVmin d a b s
  | .vmax d a b => Sys2Proof.Machine.execVmax d a b s
  | .vabs d a => Sys2Proof.Machine.execVabs d a s
  | .vneg d a => Sys2Proof.Machine.execVneg d a s
  | .vcvt op rm sat d a => Sys2Proof.Machine.execVcvt op rm sat d a s
  | .vexp2 d a => Sys2Proof.Machine.execVexp2 d a s
  | .vlog2 d a => Sys2Proof.Machine.execVlog2 d a s
  | .vrcp d a => Sys2Proof.Machine.execVrcp d a s
  | .vrsqrt d a => Sys2Proof.Machine.execVrsqrt d a s
  | .vtanh d a => Sys2Proof.Machine.execVtanh d a s
  | .vcmp cc d a => Sys2Proof.Machine.execVcmp cc d a s
  | .vsel d a b => Sys2Proof.Machine.execVsel d a b s
  | .vredsum d a b => Sys2Proof.Machine.execVredsum d a b s
  | .vredmax d a b => Sys2Proof.Machine.execVredmax d a b s
  | .vredmin d a b => Sys2Proof.Machine.execVredmin d a b s
  | .vperm d a b => Sys2Proof.Machine.execVperm d a b s
  | .vbcast d a idx => Sys2Proof.Machine.execVbcast d a idx s
  | .vbitpop d a b => Sys2Proof.Machine.execVbitpop d a b s
  | .vnzscan t d a => Sys2Proof.Machine.execVnzscan t d a s
  | .vsetshp j f a elem => Sys2Proof.Machine.execVsetshp j f a elem s
  | .vmaskf d a rs => Sys2Proof.Machine.execVmaskf d a rs s
  | .vmov d a => Sys2Proof.Machine.execVmov d a s
  | .vmovs d rs => Sys2Proof.Machine.execVmovs d rs s
  | .viota lane d => Sys2Proof.Machine.execViota lane d s
  | .vld v a off => Sys2Proof.Machine.execVld v a off s
  | .vst v a off => Sys2Proof.Machine.execVst v a off s
  | .vldc t rm v a off => Sys2Proof.Machine.execVldc t rm v a off s
  | .vstc t rm sat v a off => Sys2Proof.Machine.execVstc t rm sat v a off s
  | .mma acc shp kb da db reuse => Sys2Proof.Machine.execMma acc shp kb da db reuse s
  | .mmag acc shp kb da db reuse => Sys2Proof.Machine.execMmag acc shp kb da db reuse s
  | .mzero acc => Sys2Proof.Machine.execMzero acc s
  | .minit acc a row => Sys2Proof.Machine.execMinit acc a row s
  | .mread acc d clr => Sys2Proof.Machine.execMread acc d clr s
  | .mscale a => Sys2Proof.Machine.execMscale a s
  | .mstore acc shp kb rm sat clr relu bias scl => Sys2Proof.Machine.execMstore acc shp kb rm sat clr relu bias scl s
  | .xld n kb ch => Sys2Proof.Machine.execXld n kb ch s
  | .xst n kb ch => Sys2Proof.Machine.execXst n kb ch s
  | .xcopy n kb => Sys2Proof.Machine.execXcopy n kb s
  | .xwload n kb => Sys2Proof.Machine.execXwload n kb s
  | .xwstore n kb => Sys2Proof.Machine.execXwstore n kb s
  | .xgath n kb ch v => Sys2Proof.Machine.execXgath n kb ch v s
  | .xscat n kb ch v => Sys2Proof.Machine.execXscat n kb ch v s
  | .xpref n kb ch => Sys2Proof.Machine.execXpref n kb ch s
  | .xemitv ew cvt n kb v => Sys2Proof.Machine.execXemitv ew cvt n kb v s
  | .xemitt ew ix n kb => Sys2Proof.Machine.execXemitt ew ix n kb s
  | .xwalk kb ch => Sys2Proof.Machine.execXwalk kb ch s
  | .xnzscan n kb => Sys2Proof.Machine.execXnzscan n kb s
  | .xrld n kb ch => Sys2Proof.Machine.execXrld n kb ch s
  | .xrst n kb ch => Sys2Proof.Machine.execXrst n kb ch s
  | .xtend kb => Sys2Proof.Machine.execXtend kb s
  | .pdabind h res kb => Sys2Proof.Machine.execPdabind h res kb s
  | .pdaunbind h => Sys2Proof.Machine.execPdaunbind h s
  | .pdaunbindRes h kb => Sys2Proof.Machine.execPdaunbindRes h kb s
  | .pdamask spread h res kb => Sys2Proof.Machine.execPdamask spread h res kb s
  | .pdaadv h res kb => Sys2Proof.Machine.execPdaadv h res kb s
  | .pdafork h res kb => Sys2Proof.Machine.execPdafork h res kb s
  | .pdamark h res kb => Sys2Proof.Machine.execPdamark h res kb s
  | .pdaroll h res kb => Sys2Proof.Machine.execPdaroll h res kb s
  | .pdasave h res kb => Sys2Proof.Machine.execPdasave h res kb s
  | .pdarest h res kb => Sys2Proof.Machine.execPdarest h res kb s
  | .gvote t d a elem => Sys2Proof.Machine.execGvote t d a elem s
  | .gbr c off rpc => Sys2Proof.Machine.execGbr c off rpc s
  | .gsplit c off rpc => Sys2Proof.Machine.execGsplit c off rpc s
  | .gpush c off => Sys2Proof.Machine.execGpush c off s
  | .gmsave d => Sys2Proof.Machine.execGmsave d s
  | .gmrest a => Sys2Proof.Machine.execGmrest a s
  | .gshuf d a rs => Sys2Proof.Machine.execGshuf d a rs s
  | .gshuft kb rs => Sys2Proof.Machine.execGshuft kb rs s
  | .gred op d a => Sys2Proof.Machine.execGred op d a s
  | .gbcast first lane d a => Sys2Proof.Machine.execGbcast first lane d a s
  | .gregroup inv d a elem => Sys2Proof.Machine.execGregroup inv d a elem s
  | .rngsyncComplete => Sys2Proof.Machine.execRngsyncComplete s
  | .launchDispatch => Sys2Proof.Machine.execLaunchDispatch s
  | .preemptComplete => Sys2Proof.Machine.execPreemptComplete s
  | .copyStart => Sys2Proof.Machine.execCopyStart s
  | .copyComplete => Sys2Proof.Machine.execCopyComplete s
  | .attestReport => Sys2Proof.Machine.execAttestReport s
  | .getCertificates => Sys2Proof.Machine.execGetCertificates s
  | .securityCommandComplete => Sys2Proof.Machine.execSecurityCommandComplete s
  | .fieldDataSave => Sys2Proof.Machine.execFieldDataSave s
  | .rtsyncWrite => Sys2Proof.Machine.execRtsyncWrite s
  | .rtsyncComplete => Sys2Proof.Machine.execRtsyncComplete s
  | .moduleReset => Sys2Proof.Machine.execModuleReset s
  | .powerOnSecond => Sys2Proof.Machine.execPowerOnSecond s
  | .nop => Sys2Proof.Machine.execNop s
  | .ret => Sys2Proof.Machine.execRet s
  | .ufence => Sys2Proof.Machine.execUfence s
  | .yield => Sys2Proof.Machine.execYield s
  | .halt => Sys2Proof.Machine.execHalt s
  | .haltNext => Sys2Proof.Machine.execHaltNext s
  | .brk => Sys2Proof.Machine.execBrk s
  | .vnop => Sys2Proof.Machine.execVnop s
  | .mnop => Sys2Proof.Machine.execMnop s
  | .xnop => Sys2Proof.Machine.execXnop s
  | .gnop => Sys2Proof.Machine.execGnop s
  | .gpop => Sys2Proof.Machine.execGpop s

end Sys2Proof.Machine
end

