-- ==== Sys2Proof/Machine/Loading.lean ====
section
/-!
DEFINITION. What stands for the load of a program in `withFetchWord` (log entry 1): a context that runs in a
mapped page, as chapters 01, 04, 07 and 15 bring it about, and the bundle at its program counter.
-/
namespace Sys2Proof.Machine

/-- The VA and PA of the page, the ASID and the program counter of a loaded program. -/
def loadVa : Nat := 0x10000
def loadAsid : Nat := 1
/-- Byte of the page at which the bundle stands. -/
def loadPc : Nat := 0x10080
/-- A leaf of a normal page that may be read, written and fetched, at PA 0x10000 (R27). -/
def loadLeaf : Nat := 0x1000F
/-- The home die that the default placement gives the page under an ASID without range entries (R16, R17). -/
def loadDie (s : State) : Nat := placeDefault s loadPc
/-- First byte of the stack that the page lies in: an even stack of its home die (R23). -/
def loadBase (s : State) : Nat := loadDie s * 2 * 0x2000000000
/-- The bundle that holds a syllable alone, with extension words of zeros (R204, R205). -/
def loadBundle (w : W32) : List W32 :=
  match tableSlot w with
  | none => [soloHeader .sa 0, w]
  | some sl => soloHeader sl (zeroExt sl w).length :: w :: zeroExt sl w
/-- Bytes of a list of words (R4). -/
def wordBytes (l : List W32) : List Byte := l.flatMap fun w => bytesOf 4 w.toNat
/-- The descriptor tables, range table, translation and units that a fetch at the page needs. -/
def loadMap (s : State) (u : Nat) : State :=
  let d := loadDie s
  let base := loadBase s
  let tab : Word := 1#64 ||| BitVec.ofNat 64 base
  let desc := base + loadAsid * 0x800
  let s := updDie s u fun x => { x with asidtab := tab }
  let s := updDie s d fun x =>
    { x with asidtab := tab, slcrdy := 0xFFFFFFFFFFFFFFFF#64, shoot := none, lines := [], grans := []
             tlb := [⟨loadAsid, loadVa, 65536, BitVec.ofNat 64 (loadLeaf + base)⟩] }
  let s := updPkg s fun p =>
    { p with rdyDie := p.rdyDie ||| (1#8 <<< d), msstate := mset 0 p.msstate (stackOf base) msReady
             badSectors := [], rtabs := [⟨u, loadAsid, List.replicate 64 (0#64, 0#64)⟩] }
  wrPhys s desc [0x01#8, 0#8, 0#8, 0#8, 0#8, 0#8, 0#8, 0#8]
/-- The context that runs the program: Issuing, at the bundle, with the budgets of a whole pod when it is Free. -/
def loadCtx (c : Ctx) : Ctx :=
  let c := if c.phase == .free then { c with vcnt := 256, acnt := 8, spn := 16 } else c
  { c with phase := .issuing, asid := loadAsid, stopReq := false, preempting := false, stopBy := none, settling := false
           preFrozen := false, tctl := 0#64, spare := none
           prim := { c.prim with lost := [], pc := BitVec.ofNat 64 loadPc, am := 0xFFFF#16, stalk := [], nextPc := none, rep := 0
                                 slot := 0, begun := false, live := false, switchReq := false, verOk := false
                                 wait := .none } }

end Sys2Proof.Machine
end

