-- ==== Sys2Proof/Machine/Step.lean ====
section
/-!
DEFINITION. One step of the package: the turn at the head of the agenda, or else one issue of the issuer's half (log entry 1).
-/
namespace Sys2Proof.Machine

/-- Whether a term is an event, not an instruction that a sequencer issues from a slot. -/
def isEvent (i : Instr) : Bool := (slotOf i).isNone
/-- One event row of the agenda. -/
def stepEvent (i : Instr) (s : State) : Host.Outcome State Fault Refusal :=
  if !isEvent i then .fault .notAnEvent
  else if !i.wf then .fault .noSuchUnit
  else if linkBlocks s i then .next s
  else exec i s
/-- One host access of the agenda. -/
def stepHost (a : HostAcc) (s : State) : Host.Outcome State Fault Refusal :=
  if !a.wf then .fault .noSuchUnit
  else if a.overLink && !s.pkg.linkUp then .next s
  else hostTurn a s
/-- One step. -/
def step (s : State) : Host.Outcome State Fault Refusal :=
  match s.agenda with
  | .event i :: l => stepEvent i { s with agenda := l }
  | .host a :: l => stepHost a { s with agenda := l }
  | [] => exec (.bundleIssue s.issuer.gcn s.issuer.half) s

/-- The state with an instruction where the next step fetches: the load of a program that holds it (log entry 1). -/
def State.withFetchWord (s : State) (nbits w : Nat) : State :=
  let v : W32 := BitVec.ofNat 32 (w % 2 ^ nbits)
  let g := s.issuer.gcn
  let s := { s with agenda := [], issuer := ⟨g, .primary, .sa, Env.fresh⟩ }
  let s := updCtx (loadMap s (dieOf g)) g loadCtx
  wrPhys s (loadBase s + loadPc) (wordBytes (loadBundle v))

end Sys2Proof.Machine
end

