-- ==== Sys2Proof/Laws/Encoding.lean ====
section
/-!
SUPPORT. What a field of a word reads when the word is the concatenation of its fields, and that every
operand form and code is read back from the bits the encoder writes for it.
-/
namespace Sys2Proof.Laws

/-- A field above a concatenation's lower part lies in its upper part. -/
theorem extract_hi {m n lo len : Nat} (x : BitVec m) (y : BitVec n) (h : n ≤ lo) :
    (x ++ y).extractLsb' lo len = x.extractLsb' (lo - n) len :=
  BitVec.extractLsb'_append_eq_of_le h
/-- A field inside a concatenation's lower part lies in that part. -/
theorem extract_lo {m n lo len : Nat} (x : BitVec m) (y : BitVec n) (h : lo + len ≤ n) :
    (x ++ y).extractLsb' lo len = y.extractLsb' lo len :=
  BitVec.extractLsb'_append_eq_of_add_le h
/-- A Boolean is read back from its bit. -/
theorem ofBool_flag (b : Bool) : (BitVec.ofBool b == 1#1) = b := by cases b <;> rfl
theorem vop_roundtrip (v : VOp) : VOp.ofBits v.toBits = v := by
  cases v <;> simp (disch := decide) only [VOp.ofBits, VOp.toBits, extract_hi, extract_lo, Nat.reduceSub,
    BitVec.extractLsb'_eq_self] <;> rfl
theorem acc_roundtrip (a : Acc) : Acc.ofBits a.toBits = a := by
  simp (disch := decide) only [Acc.ofBits, Acc.toBits, extract_hi, extract_lo, Nat.reduceSub,
    BitVec.extractLsb'_eq_self]
theorem size_roundtrip (x : Size) : Size.ofBits x.toBits = x := by cases x <;> rfl
theorem hint_roundtrip (x : Hint) : Hint.ofBits x.toBits = x := by cases x <;> rfl
theorem scope_roundtrip (x : Scope) : Scope.ofBits x.toBits = x := by cases x <;> rfl
theorem rm_roundtrip (x : RM) : RM.ofBits x.toBits = x := by cases x <;> rfl
theorem shpField_roundtrip (x : ShpField) : ShpField.ofBits x.toBits = x := by cases x <;> rfl
theorem cond_roundtrip6 (x : Cond) : Cond.ofCode? (BitVec.ofNat 6 x.code).toNat = some x := by cases x <;> rfl
theorem cond_roundtrip3 (x : Cond) : Cond.ofCode? (BitVec.ofNat 3 x.code).toNat = some x := by cases x <;> rfl
theorem fence_roundtrip (x : FenceKind) : FenceKind.ofCode? (BitVec.ofNat 2 x.code).toNat = some x := by
  cases x <;> rfl
theorem bar_roundtrip (x : BarKind) : BarKind.ofCode? (BitVec.ofNat 2 x.code).toNat = some x := by
  cases x <;> rfl
theorem cvt_roundtrip (x : CvtOp) : CvtOp.ofCode? (BitVec.ofNat 4 x.code).toNat = some x := by cases x <;> rfl
theorem vcond_roundtrip (x : VCond) : VCond.ofCode? (BitVec.ofNat 4 x.code).toNat = some x := by
  cases x <;> rfl
theorem emit_roundtrip (x : EmitW) : EmitW.ofCode? (BitVec.ofNat 2 x.code).toNat = some x := by
  cases x <;> rfl
theorem red_roundtrip (x : RedOp) : RedOp.ofCode? (BitVec.ofNat 4 x.code).toNat = some x := by cases x <;> rfl
theorem cnt_roundtrip (n : Cnt) : Cnt.ofBits? n.toBits = some n := by
  cases n with
  | field => rfl
  | shape j f =>
    cases f <;> simp (disch := decide) only [Cnt.ofBits?, Cnt.toBits, extract_hi, extract_lo, Nat.reduceSub,
      BitVec.extractLsb'_eq_self] <;> rfl
theorem ix_roundtrip (x : Option VOp) : ixOfBits? (ixBits x) = some x := by
  cases x with
  | none => rfl
  | some v =>
    simp (disch := decide) only [ixOfBits?, ixBits, extract_hi, extract_lo, Nat.reduceSub,
      BitVec.extractLsb'_eq_self, vop_roundtrip]
    rfl
/-- A 64-bit immediate is read back from its two extension words. -/
theorem imm_roundtrip (x : Word) : bits64 32 x ++ bits64 0 x = x := by
  apply BitVec.eq_of_toNat_eq
  have h := x.isLt
  simp only [bits64, BitVec.toNat_append, BitVec.extractLsb'_toNat, Nat.shiftRight_zero]
  rw [← Nat.shiftLeft_add_eq_or_of_lt (Nat.mod_lt _ (by decide)), Nat.shiftLeft_eq, Nat.shiftRight_eq_div_pow]
  omega

end Sys2Proof.Laws
end

