-- ==== Sys2Proof/Laws/PerInstr.lean ====
section
/-!
SUPPORT. Statements made per instruction. `RoundTrip`: an instruction that is well formed is read back, in its
own slot, from the words that encode it; one lemma for each constructor of `Instr`.
-/
namespace Sys2Proof.Laws

/-- Decoding the encoding of a well-formed slot instruction gives it back; an event has no words. -/
def RoundTrip.Statement (i : Instr) : Prop :=
  ∀ sl, slotOf i = some sl → i.wf = true → ∃ w ext, encode i = w :: ext ∧ decodeSyllable sl w ext = .ok i
/-- What a slot's table reads from a syllable, before the check of well-formedness. -/
def readWord (sl : Slot) (w : W32) (ext : List W32) : Except DecodeErr Instr :=
  match sl with
  | .sa => decodeScalar w ext
  | .sb => if saOnly (opcode w) then .error .wrongSlot else decodeScalar w ext
  | .v => decodeVector w
  | .m => decodeMatrix w
  | .x => decodeTransfer w
  | .g => decodeGang w ext
/-- An event has no slot. -/
theorem RoundTrip.of_event {i : Instr} (h : slotOf i = none) : RoundTrip.Statement i := by
  intro sl hs _
  simp [h] at hs
/-- It is enough that the slot's table reads the encoding back. -/
theorem RoundTrip.of_read {i : Instr} {sl : Slot} {w : W32} {ext : List W32} (hs : slotOf i = some sl)
    (he : encode i = w :: ext) (hr : readWord sl w ext = .ok i) : RoundTrip.Statement i := by
  intro sl' hs' hw
  obtain rfl : sl = sl' := by simpa [hs] using hs'
  refine ⟨w, ext, he, ?_⟩
  cases sl <;> simp only [readWord] at hr <;> simp [decodeSyllable, hr, hw]

end Sys2Proof.Laws

section
open Sys2Proof Sys2Proof.Laws
set_option Elab.async false

theorem Sys2Proof.Laws.RoundTrip.bundleIssue (g : Nat) (h : HalfId) : RoundTrip.Statement (.bundleIssue g h) := RoundTrip.of_event rfl
theorem Sys2Proof.Laws.RoundTrip.resultLand (g : Nat) (h : HalfId) : RoundTrip.Statement (.resultLand g h) := RoundTrip.of_event rfl
theorem Sys2Proof.Laws.RoundTrip.parkEnd (g : Nat) : RoundTrip.Statement (.parkEnd g) := RoundTrip.of_event rfl
theorem Sys2Proof.Laws.RoundTrip.pickerChoice (p : Nat) : RoundTrip.Statement (.pickerChoice p) := RoundTrip.of_event rfl
theorem Sys2Proof.Laws.RoundTrip.forcedRunEnd (g : Nat) : RoundTrip.Statement (.forcedRunEnd g) := RoundTrip.of_event rfl
theorem Sys2Proof.Laws.RoundTrip.interlockedAccessComplete (g : Nat) (h : HalfId) :
    RoundTrip.Statement (.interlockedAccessComplete g h) := RoundTrip.of_event rfl
theorem Sys2Proof.Laws.RoundTrip.stackCacheFill (g : Nat) (h : HalfId) :
    RoundTrip.Statement (.stackCacheFill g h) := RoundTrip.of_event rfl
theorem Sys2Proof.Laws.RoundTrip.stackCacheBackgroundFill (g : Nat) :
    RoundTrip.Statement (.stackCacheBackgroundFill g) := RoundTrip.of_event rfl
theorem Sys2Proof.Laws.RoundTrip.fenceComplete (g : Nat) (h : HalfId) :
    RoundTrip.Statement (.fenceComplete g h) := RoundTrip.of_event rfl
theorem Sys2Proof.Laws.RoundTrip.waitbComplete (g : Nat) (h : HalfId) :
    RoundTrip.Statement (.waitbComplete g h) := RoundTrip.of_event rfl
theorem Sys2Proof.Laws.RoundTrip.ufenceComplete (g : Nat) (h : HalfId) :
    RoundTrip.Statement (.ufenceComplete g h) := RoundTrip.of_event rfl
theorem Sys2Proof.Laws.RoundTrip.barrierGenerationComplete (l : Nat) (bk : BarKind) (unit id : Nat) :
    RoundTrip.Statement (.barrierGenerationComplete l bk unit id) := RoundTrip.of_event rfl
theorem Sys2Proof.Laws.RoundTrip.versionCheckRelease (g : Nat) (h : HalfId) :
    RoundTrip.Statement (.versionCheckRelease g h) := RoundTrip.of_event rfl
theorem Sys2Proof.Laws.RoundTrip.arrincAccepted (g : Nat) (h : HalfId) :
    RoundTrip.Statement (.arrincAccepted g h) := RoundTrip.of_event rfl
theorem Sys2Proof.Laws.RoundTrip.splitStart (g : Nat) : RoundTrip.Statement (.splitStart g) := RoundTrip.of_event rfl
theorem Sys2Proof.Laws.RoundTrip.join (g : Nat) : RoundTrip.Statement (.join g) := RoundTrip.of_event rfl
theorem Sys2Proof.Laws.RoundTrip.matrixCommandComplete (g id lane : Nat) :
    RoundTrip.Statement (.matrixCommandComplete g id lane) := RoundTrip.of_event rfl
theorem Sys2Proof.Laws.RoundTrip.mstoreComplete (g id lane : Nat) :
    RoundTrip.Statement (.mstoreComplete g id lane) := RoundTrip.of_event rfl
theorem Sys2Proof.Laws.RoundTrip.transferElement (g id lane : Nat) :
    RoundTrip.Statement (.transferElement g id lane) := RoundTrip.of_event rfl
theorem Sys2Proof.Laws.RoundTrip.transferCommandComplete (g id : Nat) :
    RoundTrip.Statement (.transferCommandComplete g id) := RoundTrip.of_event rfl
theorem Sys2Proof.Laws.RoundTrip.rangeTableLoad (u asid : Nat) :
    RoundTrip.Statement (.rangeTableLoad u asid) := RoundTrip.of_event rfl
theorem Sys2Proof.Laws.RoundTrip.rngsyncWrite (asid : Nat) : RoundTrip.Statement (.rngsyncWrite asid) := RoundTrip.of_event rfl
theorem Sys2Proof.Laws.RoundTrip.sliceAccess (g : Nat) (h : HalfId) (n : Nat) :
    RoundTrip.Statement (.sliceAccess g h n) := RoundTrip.of_event rfl
theorem Sys2Proof.Laws.RoundTrip.lineFillComplete (d asid ln : Nat) :
    RoundTrip.Statement (.lineFillComplete d asid ln) := RoundTrip.of_event rfl
theorem Sys2Proof.Laws.RoundTrip.pageWalkComplete (d asid va : Nat) :
    RoundTrip.Statement (.pageWalkComplete d asid va) := RoundTrip.of_event rfl
theorem Sys2Proof.Laws.RoundTrip.shootdownPageRange (d asid count : Nat) :
    RoundTrip.Statement (.shootdownPageRange d asid count) := RoundTrip.of_event rfl
theorem Sys2Proof.Laws.RoundTrip.shootdownAsid (d asid : Nat) : RoundTrip.Statement (.shootdownAsid d asid) := RoundTrip.of_event rfl
theorem Sys2Proof.Laws.RoundTrip.shootdownAll (d : Nat) : RoundTrip.Statement (.shootdownAll d) := RoundTrip.of_event rfl
theorem Sys2Proof.Laws.RoundTrip.shootdownComplete (d : Nat) : RoundTrip.Statement (.shootdownComplete d) := RoundTrip.of_event rfl
theorem Sys2Proof.Laws.RoundTrip.patrolScrub (st sector : Nat) :
    RoundTrip.Statement (.patrolScrub st sector) := RoundTrip.of_event rfl
theorem Sys2Proof.Laws.RoundTrip.stackTrainingStart (st : Nat) :
    RoundTrip.Statement (.stackTrainingStart st) := RoundTrip.of_event rfl
theorem Sys2Proof.Laws.RoundTrip.stackTrainingEnd (st : Nat) (ok : Bool) :
    RoundTrip.Statement (.stackTrainingEnd st ok) := RoundTrip.of_event rfl
theorem Sys2Proof.Laws.RoundTrip.stackChannelLoss (st : Nat) : RoundTrip.Statement (.stackChannelLoss st) := RoundTrip.of_event rfl
theorem Sys2Proof.Laws.RoundTrip.pairHomeDieCheck (id : Nat) : RoundTrip.Statement (.pairHomeDieCheck id) := RoundTrip.of_event rfl
theorem Sys2Proof.Laws.RoundTrip.permitGrant (g st : Nat) : RoundTrip.Statement (.permitGrant g st) := RoundTrip.of_event rfl
theorem Sys2Proof.Laws.RoundTrip.pairFilterPass (id : Nat) : RoundTrip.Statement (.pairFilterPass id) := RoundTrip.of_event rfl
theorem Sys2Proof.Laws.RoundTrip.pairBinAccept (id : Nat) : RoundTrip.Statement (.pairBinAccept id) := RoundTrip.of_event rfl
theorem Sys2Proof.Laws.RoundTrip.pendingGranuleAccess (gran : Nat) :
    RoundTrip.Statement (.pendingGranuleAccess gran) := RoundTrip.of_event rfl
theorem Sys2Proof.Laws.RoundTrip.earlyApply (st : Nat) : RoundTrip.Statement (.earlyApply st) := RoundTrip.of_event rfl
theorem Sys2Proof.Laws.RoundTrip.contextKillMessage (g d : Nat) :
    RoundTrip.Statement (.contextKillMessage g d) := RoundTrip.of_event rfl
theorem Sys2Proof.Laws.RoundTrip.uprgnWrite (d rid : Nat) (v : W32) :
    RoundTrip.Statement (.uprgnWrite d rid v) := RoundTrip.of_event rfl
theorem Sys2Proof.Laws.RoundTrip.updrainWrite (d rid : Nat) : RoundTrip.Statement (.updrainWrite d rid) := RoundTrip.of_event rfl
theorem Sys2Proof.Laws.RoundTrip.drainComplete (d : Nat) : RoundTrip.Statement (.drainComplete d) := RoundTrip.of_event rfl
theorem Sys2Proof.Laws.RoundTrip.podSelfTest (p : Nat) (work : BitVec 17) (map0 map1 : Word) (degr : Bool) :
    RoundTrip.Statement (.podSelfTest p work map0 map1 degr) := RoundTrip.of_event rfl
theorem Sys2Proof.Laws.RoundTrip.handlerEntry (p : Nat) : RoundTrip.Statement (.handlerEntry p) := RoundTrip.of_event rfl
theorem Sys2Proof.Laws.RoundTrip.stopRequestFreeze (g : Nat) : RoundTrip.Statement (.stopRequestFreeze g) := RoundTrip.of_event rfl
theorem Sys2Proof.Laws.RoundTrip.fatalStop (l : Nat) : RoundTrip.Statement (.fatalStop l) := RoundTrip.of_event rfl
theorem Sys2Proof.Laws.RoundTrip.hprvhwWrite (p : Nat) (v : Word) : RoundTrip.Statement (.hprvhwWrite p v) := RoundTrip.of_event rfl
theorem Sys2Proof.Laws.RoundTrip.podctlHres (p : Nat) : RoundTrip.Statement (.podctlHres p) := RoundTrip.of_event rfl
theorem Sys2Proof.Laws.RoundTrip.dspresRes (d : Nat) : RoundTrip.Statement (.dspresRes d) := RoundTrip.of_event rfl
theorem Sys2Proof.Laws.RoundTrip.dispatcherHighWaterFault (d : Nat) :
    RoundTrip.Statement (.dispatcherHighWaterFault d) := RoundTrip.of_event rfl
theorem Sys2Proof.Laws.RoundTrip.startVectorSubmit (q : Nat) (hi : Word) :
    RoundTrip.Statement (.startVectorSubmit q hi) := RoundTrip.of_event rfl
theorem Sys2Proof.Laws.RoundTrip.closeVector (q : Nat) (hi : Word) : RoundTrip.Statement (.closeVector q hi) := RoundTrip.of_event rfl
theorem Sys2Proof.Laws.RoundTrip.nestRecordRead (q pos : Nat) : RoundTrip.Statement (.nestRecordRead q pos) := RoundTrip.of_event rfl
theorem Sys2Proof.Laws.RoundTrip.arrivalCounterIncrement (d : Nat) :
    RoundTrip.Statement (.arrivalCounterIncrement d) := RoundTrip.of_event rfl
theorem Sys2Proof.Laws.RoundTrip.arrcntWrite (d c : Nat) (v : W32) :
    RoundTrip.Statement (.arrcntWrite d c v) := RoundTrip.of_event rfl
theorem Sys2Proof.Laws.RoundTrip.launchFire (l : Nat) : RoundTrip.Statement (.launchFire l) := RoundTrip.of_event rfl
theorem Sys2Proof.Laws.RoundTrip.xtendAccept (g id : Nat) : RoundTrip.Statement (.xtendAccept g id) := RoundTrip.of_event rfl
theorem Sys2Proof.Laws.RoundTrip.teamPlacement (l d : Nat) (place : List (List (Nat × Nat))) :
    RoundTrip.Statement (.teamPlacement l d place) := RoundTrip.of_event rfl
theorem Sys2Proof.Laws.RoundTrip.iterationHandout (l d : Nat) : RoundTrip.Statement (.iterationHandout l d) := RoundTrip.of_event rfl
theorem Sys2Proof.Laws.RoundTrip.urgencyHoldBack (g : Nat) : RoundTrip.Statement (.urgencyHoldBack g) := RoundTrip.of_event rfl
theorem Sys2Proof.Laws.RoundTrip.launchComplete (l : Nat) : RoundTrip.Statement (.launchComplete l) := RoundTrip.of_event rfl
theorem Sys2Proof.Laws.RoundTrip.preempt (asid : BitVec 12) (tag : W32) :
    RoundTrip.Statement (.preempt asid tag) := RoundTrip.of_event rfl
theorem Sys2Proof.Laws.RoundTrip.resume (asid : BitVec 12) (tag : W32) (place : List (List (Nat × Nat))) :
    RoundTrip.Statement (.resume asid tag place) := RoundTrip.of_event rfl
theorem Sys2Proof.Laws.RoundTrip.sizeQuery (asid : BitVec 12) (tag : W32) :
    RoundTrip.Statement (.sizeQuery asid tag) := RoundTrip.of_event rfl
theorem Sys2Proof.Laws.RoundTrip.lkill (asid : BitVec 12) (tag : W32) :
    RoundTrip.Statement (.lkill asid tag) := RoundTrip.of_event rfl
theorem Sys2Proof.Laws.RoundTrip.grammarStep (g : Nat) : RoundTrip.Statement (.grammarStep g) := RoundTrip.of_event rfl
theorem Sys2Proof.Laws.RoundTrip.maskComplete (g id : Nat) : RoundTrip.Statement (.maskComplete g id) := RoundTrip.of_event rfl
theorem Sys2Proof.Laws.RoundTrip.apertureRead (o : Nat) (wide : Bool) :
    RoundTrip.Statement (.apertureRead o wide) := RoundTrip.of_event rfl
theorem Sys2Proof.Laws.RoundTrip.apertureWrite (o : Nat) (wide : Bool) (v : Word) :
    RoundTrip.Statement (.apertureWrite o wide v) := RoundTrip.of_event rfl
theorem Sys2Proof.Laws.RoundTrip.extendMeasurement (n : BitVec 3) :
    RoundTrip.Statement (.extendMeasurement n) := RoundTrip.of_event rfl
theorem Sys2Proof.Laws.RoundTrip.fieldDataSelect (v : W32) : RoundTrip.Statement (.fieldDataSelect v) := RoundTrip.of_event rfl
theorem Sys2Proof.Laws.RoundTrip.portStateChange (port : Nat) (st : PortState) (lanes : Nat) :
    RoundTrip.Statement (.portStateChange port st lanes) := RoundTrip.of_event rfl
theorem Sys2Proof.Laws.RoundTrip.remoteAccessArrival (pkg : BitVec 16) (rasid : BitVec 12) (va : Word) (write : Bool) (data : List Byte) :
    RoundTrip.Statement (.remoteAccessArrival pkg rasid va write data) := RoundTrip.of_event rfl
theorem Sys2Proof.Laws.RoundTrip.thermalThrottle (isl : Nat) : RoundTrip.Statement (.thermalThrottle isl) := RoundTrip.of_event rfl
theorem Sys2Proof.Laws.RoundTrip.thermalStop (isl : Nat) : RoundTrip.Statement (.thermalStop isl) := RoundTrip.of_event rfl
theorem Sys2Proof.Laws.RoundTrip.islandSettingChange (isl mhz mv : Nat) :
    RoundTrip.Statement (.islandSettingChange isl mhz mv) := RoundTrip.of_event rfl
theorem Sys2Proof.Laws.RoundTrip.pwrcapWrite (w : BitVec 16) : RoundTrip.Statement (.pwrcapWrite w) := RoundTrip.of_event rfl
theorem Sys2Proof.Laws.RoundTrip.bootVerification (svn : W32) (fail : BitVec 3) :
    RoundTrip.Statement (.bootVerification svn fail) := RoundTrip.of_event rfl
theorem Sys2Proof.Laws.RoundTrip.functionReady (f : ReadyFn) : RoundTrip.Statement (.functionReady f) := RoundTrip.of_event rfl
theorem Sys2Proof.Laws.RoundTrip.mmioRegisterWrite (win : Window) (off : Nat) (wide : Bool) (v : Word) :
    RoundTrip.Statement (.mmioRegisterWrite win off wide v) := RoundTrip.of_event rfl
theorem Sys2Proof.Laws.RoundTrip.thermalThrottleEnd (isl : Nat) :
    RoundTrip.Statement (.thermalThrottleEnd isl) := RoundTrip.of_event rfl
theorem Sys2Proof.Laws.RoundTrip.refreshRateChange (st : Nat) (hot : Bool) :
    RoundTrip.Statement (.refreshRateChange st hot) := RoundTrip.of_event rfl
theorem Sys2Proof.Laws.RoundTrip.supplyDroop (isl mv : Nat) : RoundTrip.Statement (.supplyDroop isl mv) := RoundTrip.of_event rfl
theorem Sys2Proof.Laws.RoundTrip.grammarCommandComplete (g id : Nat) :
    RoundTrip.Statement (.grammarCommandComplete g id) := RoundTrip.of_event rfl
theorem Sys2Proof.Laws.RoundTrip.add (d a b : SReg) : RoundTrip.Statement (.add d a b) := by
  refine RoundTrip.of_read rfl rfl ?_
  simp (disch := decide) only [readWord, decodeScalar, bits, zero, extract_hi, extract_lo, Nat.reduceSub,
    BitVec.extractLsb'_eq_self, BitVec.reduceToNat]
  rfl
theorem Sys2Proof.Laws.RoundTrip.sub (d a b : SReg) : RoundTrip.Statement (.sub d a b) := by
  refine RoundTrip.of_read rfl rfl ?_
  simp (disch := decide) only [readWord, decodeScalar, bits, zero, extract_hi, extract_lo, Nat.reduceSub,
    BitVec.extractLsb'_eq_self, BitVec.reduceToNat]
  rfl
theorem Sys2Proof.Laws.RoundTrip.mul (d a b : SReg) : RoundTrip.Statement (.mul d a b) := by
  refine RoundTrip.of_read rfl rfl ?_
  simp (disch := decide) only [readWord, decodeScalar, bits, zero, extract_hi, extract_lo, Nat.reduceSub,
    BitVec.extractLsb'_eq_self, BitVec.reduceToNat]
  rfl
theorem Sys2Proof.Laws.RoundTrip.mulhs (d a b : SReg) : RoundTrip.Statement (.mulhs d a b) := by
  refine RoundTrip.of_read rfl rfl ?_
  simp (disch := decide) only [readWord, decodeScalar, bits, zero, extract_hi, extract_lo, Nat.reduceSub,
    BitVec.extractLsb'_eq_self, BitVec.reduceToNat]
  rfl
theorem Sys2Proof.Laws.RoundTrip.mulhu (d a b : SReg) : RoundTrip.Statement (.mulhu d a b) := by
  refine RoundTrip.of_read rfl rfl ?_
  simp (disch := decide) only [readWord, decodeScalar, bits, zero, extract_hi, extract_lo, Nat.reduceSub,
    BitVec.extractLsb'_eq_self, BitVec.reduceToNat]
  rfl
theorem Sys2Proof.Laws.RoundTrip.and (d a b : SReg) : RoundTrip.Statement (.and d a b) := by
  refine RoundTrip.of_read rfl rfl ?_
  simp (disch := decide) only [readWord, decodeScalar, bits, zero, extract_hi, extract_lo, Nat.reduceSub,
    BitVec.extractLsb'_eq_self, BitVec.reduceToNat]
  rfl
theorem Sys2Proof.Laws.RoundTrip.or (d a b : SReg) : RoundTrip.Statement (.or d a b) := by
  refine RoundTrip.of_read rfl rfl ?_
  simp (disch := decide) only [readWord, decodeScalar, bits, zero, extract_hi, extract_lo, Nat.reduceSub,
    BitVec.extractLsb'_eq_self, BitVec.reduceToNat]
  rfl
theorem Sys2Proof.Laws.RoundTrip.xor (d a b : SReg) : RoundTrip.Statement (.xor d a b) := by
  refine RoundTrip.of_read rfl rfl ?_
  simp (disch := decide) only [readWord, decodeScalar, bits, zero, extract_hi, extract_lo, Nat.reduceSub,
    BitVec.extractLsb'_eq_self, BitVec.reduceToNat]
  rfl
theorem Sys2Proof.Laws.RoundTrip.shl (d a b : SReg) : RoundTrip.Statement (.shl d a b) := by
  refine RoundTrip.of_read rfl rfl ?_
  simp (disch := decide) only [readWord, decodeScalar, bits, zero, extract_hi, extract_lo, Nat.reduceSub,
    BitVec.extractLsb'_eq_self, BitVec.reduceToNat]
  rfl
theorem Sys2Proof.Laws.RoundTrip.shr (d a b : SReg) : RoundTrip.Statement (.shr d a b) := by
  refine RoundTrip.of_read rfl rfl ?_
  simp (disch := decide) only [readWord, decodeScalar, bits, zero, extract_hi, extract_lo, Nat.reduceSub,
    BitVec.extractLsb'_eq_self, BitVec.reduceToNat]
  rfl
theorem Sys2Proof.Laws.RoundTrip.sra (d a b : SReg) : RoundTrip.Statement (.sra d a b) := by
  refine RoundTrip.of_read rfl rfl ?_
  simp (disch := decide) only [readWord, decodeScalar, bits, zero, extract_hi, extract_lo, Nat.reduceSub,
    BitVec.extractLsb'_eq_self, BitVec.reduceToNat]
  rfl
theorem Sys2Proof.Laws.RoundTrip.min (d a b : SReg) : RoundTrip.Statement (.min d a b) := by
  refine RoundTrip.of_read rfl rfl ?_
  simp (disch := decide) only [readWord, decodeScalar, bits, zero, extract_hi, extract_lo, Nat.reduceSub,
    BitVec.extractLsb'_eq_self, BitVec.reduceToNat]
  rfl
theorem Sys2Proof.Laws.RoundTrip.max (d a b : SReg) : RoundTrip.Statement (.max d a b) := by
  refine RoundTrip.of_read rfl rfl ?_
  simp (disch := decide) only [readWord, decodeScalar, bits, zero, extract_hi, extract_lo, Nat.reduceSub,
    BitVec.extractLsb'_eq_self, BitVec.reduceToNat]
  rfl
theorem Sys2Proof.Laws.RoundTrip.minu (d a b : SReg) : RoundTrip.Statement (.minu d a b) := by
  refine RoundTrip.of_read rfl rfl ?_
  simp (disch := decide) only [readWord, decodeScalar, bits, zero, extract_hi, extract_lo, Nat.reduceSub,
    BitVec.extractLsb'_eq_self, BitVec.reduceToNat]
  rfl
theorem Sys2Proof.Laws.RoundTrip.maxu (d a b : SReg) : RoundTrip.Statement (.maxu d a b) := by
  refine RoundTrip.of_read rfl rfl ?_
  simp (disch := decide) only [readWord, decodeScalar, bits, zero, extract_hi, extract_lo, Nat.reduceSub,
    BitVec.extractLsb'_eq_self, BitVec.reduceToNat]
  rfl
theorem Sys2Proof.Laws.RoundTrip.addi (d a : SReg) (imm : BitVec 12) : RoundTrip.Statement (.addi d a imm) := by
  refine RoundTrip.of_read rfl rfl ?_
  simp (disch := decide) only [readWord, decodeScalar, bits, extract_hi, extract_lo, Nat.reduceSub,
    BitVec.extractLsb'_eq_self, BitVec.reduceToNat]
theorem Sys2Proof.Laws.RoundTrip.andi (d a : SReg) (imm : BitVec 12) : RoundTrip.Statement (.andi d a imm) := by
  refine RoundTrip.of_read rfl rfl ?_
  simp (disch := decide) only [readWord, decodeScalar, bits, extract_hi, extract_lo, Nat.reduceSub,
    BitVec.extractLsb'_eq_self, BitVec.reduceToNat]
theorem Sys2Proof.Laws.RoundTrip.ori (d a : SReg) (imm : BitVec 12) : RoundTrip.Statement (.ori d a imm) := by
  refine RoundTrip.of_read rfl rfl ?_
  simp (disch := decide) only [readWord, decodeScalar, bits, extract_hi, extract_lo, Nat.reduceSub,
    BitVec.extractLsb'_eq_self, BitVec.reduceToNat]
theorem Sys2Proof.Laws.RoundTrip.xori (d a : SReg) (imm : BitVec 12) : RoundTrip.Statement (.xori d a imm) := by
  refine RoundTrip.of_read rfl rfl ?_
  simp (disch := decide) only [readWord, decodeScalar, bits, extract_hi, extract_lo, Nat.reduceSub,
    BitVec.extractLsb'_eq_self, BitVec.reduceToNat]
theorem Sys2Proof.Laws.RoundTrip.shli (d a : SReg) (imm : BitVec 6) : RoundTrip.Statement (.shli d a imm) := by
  refine RoundTrip.of_read rfl rfl ?_
  simp (disch := decide) only [readWord, decodeScalar, bits, zero, extract_hi, extract_lo, Nat.reduceSub,
    BitVec.extractLsb'_eq_self, BitVec.reduceToNat]
  rfl
theorem Sys2Proof.Laws.RoundTrip.shri (d a : SReg) (imm : BitVec 6) : RoundTrip.Statement (.shri d a imm) := by
  refine RoundTrip.of_read rfl rfl ?_
  simp (disch := decide) only [readWord, decodeScalar, bits, zero, extract_hi, extract_lo, Nat.reduceSub,
    BitVec.extractLsb'_eq_self, BitVec.reduceToNat]
  rfl
theorem Sys2Proof.Laws.RoundTrip.srai (d a : SReg) (imm : BitVec 6) : RoundTrip.Statement (.srai d a imm) := by
  refine RoundTrip.of_read rfl rfl ?_
  simp (disch := decide) only [readWord, decodeScalar, bits, zero, extract_hi, extract_lo, Nat.reduceSub,
    BitVec.extractLsb'_eq_self, BitVec.reduceToNat]
  rfl
theorem Sys2Proof.Laws.RoundTrip.cmp (cc : Cond) (d a b : SReg) : RoundTrip.Statement (.cmp cc d a b) := by
  refine RoundTrip.of_read rfl rfl ?_
  simp (disch := decide) only [readWord, decodeScalar, bits, extract_hi, extract_lo, Nat.reduceSub,
    BitVec.extractLsb'_eq_self, BitVec.reduceToNat, cond_roundtrip6]
theorem Sys2Proof.Laws.RoundTrip.cmpi (cc : Cond) (d a : SReg) (imm : BitVec 9) :
    RoundTrip.Statement (.cmpi cc d a imm) := by
  refine RoundTrip.of_read rfl rfl ?_
  simp (disch := decide) only [readWord, decodeScalar, bits, extract_hi, extract_lo, Nat.reduceSub,
    BitVec.extractLsb'_eq_self, BitVec.reduceToNat, cond_roundtrip3]
theorem Sys2Proof.Laws.RoundTrip.sel (d a b c : SReg) : RoundTrip.Statement (.sel d a b c) := by
  refine RoundTrip.of_read rfl rfl ?_
  simp (disch := decide) only [readWord, decodeScalar, bits, extract_hi, extract_lo, Nat.reduceSub,
    BitVec.extractLsb'_eq_self, BitVec.reduceToNat]
theorem Sys2Proof.Laws.RoundTrip.clz (d a : SReg) : RoundTrip.Statement (.clz d a) := by
  refine RoundTrip.of_read rfl rfl ?_
  simp (disch := decide) only [readWord, decodeScalar, bits, zero, extract_hi, extract_lo, Nat.reduceSub,
    BitVec.extractLsb'_eq_self, BitVec.reduceToNat]
  rfl
theorem Sys2Proof.Laws.RoundTrip.ctz (d a : SReg) : RoundTrip.Statement (.ctz d a) := by
  refine RoundTrip.of_read rfl rfl ?_
  simp (disch := decide) only [readWord, decodeScalar, bits, zero, extract_hi, extract_lo, Nat.reduceSub,
    BitVec.extractLsb'_eq_self, BitVec.reduceToNat]
  rfl
theorem Sys2Proof.Laws.RoundTrip.popc (d a : SReg) : RoundTrip.Statement (.popc d a) := by
  refine RoundTrip.of_read rfl rfl ?_
  simp (disch := decide) only [readWord, decodeScalar, bits, zero, extract_hi, extract_lo, Nat.reduceSub,
    BitVec.extractLsb'_eq_self, BitVec.reduceToNat]
  rfl
theorem Sys2Proof.Laws.RoundTrip.bext (d a : SReg) (pos lm1 : BitVec 6) :
    RoundTrip.Statement (.bext d a pos lm1) := by
  refine RoundTrip.of_read rfl rfl ?_
  simp (disch := decide) only [readWord, decodeScalar, bits, extract_hi, extract_lo, Nat.reduceSub,
    BitVec.extractLsb'_eq_self, BitVec.reduceToNat]
theorem Sys2Proof.Laws.RoundTrip.bins (d a : SReg) (pos lm1 : BitVec 6) :
    RoundTrip.Statement (.bins d a pos lm1) := by
  refine RoundTrip.of_read rfl rfl ?_
  simp (disch := decide) only [readWord, decodeScalar, bits, extract_hi, extract_lo, Nat.reduceSub,
    BitVec.extractLsb'_eq_self, BitVec.reduceToNat]
theorem Sys2Proof.Laws.RoundTrip.movi (d : SReg) (imm : BitVec 18) : RoundTrip.Statement (.movi d imm) := by
  refine RoundTrip.of_read rfl rfl ?_
  simp (disch := decide) only [readWord, decodeScalar, bits, extract_hi, extract_lo, Nat.reduceSub,
    BitVec.extractLsb'_eq_self, BitVec.reduceToNat]
theorem Sys2Proof.Laws.RoundTrip.movx (d : SReg) (imm : Word) : RoundTrip.Statement (.movx d imm) := by
  refine RoundTrip.of_read rfl rfl ?_
  simp (disch := decide) only [readWord, decodeScalar, bits, zero, extract_hi, extract_lo, Nat.reduceSub,
    BitVec.extractLsb'_eq_self, BitVec.reduceToNat, imm_roundtrip]
  rfl
theorem Sys2Proof.Laws.RoundTrip.kmov (k : KReg) (a : SReg) : RoundTrip.Statement (.kmov k a) := by
  refine RoundTrip.of_read rfl rfl ?_
  simp (disch := decide) only [readWord, decodeScalar, bits, zero, extract_hi, extract_lo, Nat.reduceSub,
    BitVec.extractLsb'_eq_self, BitVec.reduceToNat]
  rfl
theorem Sys2Proof.Laws.RoundTrip.kmovi (k : KReg) (imm : BitVec 19) : RoundTrip.Statement (.kmovi k imm) := by
  refine RoundTrip.of_read rfl rfl ?_
  simp (disch := decide) only [readWord, decodeScalar, bits, extract_hi, extract_lo, Nat.reduceSub,
    BitVec.extractLsb'_eq_self, BitVec.reduceToNat]
theorem Sys2Proof.Laws.RoundTrip.movk (d : SReg) (k : KReg) : RoundTrip.Statement (.movk d k) := by
  refine RoundTrip.of_read rfl rfl ?_
  simp (disch := decide) only [readWord, decodeScalar, bits, zero, extract_hi, extract_lo, Nat.reduceSub,
    BitVec.extractLsb'_eq_self, BitVec.reduceToNat]
  rfl
theorem Sys2Proof.Laws.RoundTrip.bmov (b : BReg) (a : SReg) : RoundTrip.Statement (.bmov b a) := by
  refine RoundTrip.of_read rfl rfl ?_
  simp (disch := decide) only [readWord, decodeScalar, bits, zero, extract_hi, extract_lo, Nat.reduceSub,
    BitVec.extractLsb'_eq_self, BitVec.reduceToNat]
  rfl
theorem Sys2Proof.Laws.RoundTrip.bmovi (b : BReg) (imm : Byte) : RoundTrip.Statement (.bmovi b imm) := by
  refine RoundTrip.of_read rfl rfl ?_
  simp (disch := decide) only [readWord, decodeScalar, bits, zero, extract_hi, extract_lo, Nat.reduceSub,
    BitVec.extractLsb'_eq_self, BitVec.reduceToNat]
  rfl
theorem Sys2Proof.Laws.RoundTrip.badd (b : BReg) (imm : Byte) : RoundTrip.Statement (.badd b imm) := by
  refine RoundTrip.of_read rfl rfl ?_
  simp (disch := decide) only [readWord, decodeScalar, bits, zero, extract_hi, extract_lo, Nat.reduceSub,
    BitVec.extractLsb'_eq_self, BitVec.reduceToNat]
  rfl
theorem Sys2Proof.Laws.RoundTrip.ld (sz : Size) (sx : Bool) (ch : Hint) (d a : SReg) (off : BitVec 7) :
    RoundTrip.Statement (.ld sz sx ch d a off) := by
  refine RoundTrip.of_read rfl rfl ?_
  simp (disch := decide) only [readWord, decodeScalar, bits, flag, extract_hi, extract_lo, Nat.reduceSub,
    BitVec.extractLsb'_eq_self, BitVec.reduceToNat, size_roundtrip, ofBool_flag, hint_roundtrip]
theorem Sys2Proof.Laws.RoundTrip.st (sz : Size) (ch : Hint) (s a : SReg) (off : BitVec 7) :
    RoundTrip.Statement (.st sz ch s a off) := by
  refine RoundTrip.of_read rfl rfl ?_
  simp (disch := decide) only [readWord, decodeScalar, bits, zero, extract_hi, extract_lo, Nat.reduceSub,
    BitVec.extractLsb'_eq_self, BitVec.reduceToNat, size_roundtrip, hint_roundtrip]
  rfl
theorem Sys2Proof.Laws.RoundTrip.ldsp (sz : Size) (sx : Bool) (lane : BitVec 4) (d a : SReg) (off : BitVec 4) :
    RoundTrip.Statement (.ldsp sz sx lane d a off) := by
  refine RoundTrip.of_read rfl rfl ?_
  simp (disch := decide) only [readWord, decodeScalar, bits, flag, zero, extract_hi, extract_lo,
    Nat.reduceSub, BitVec.extractLsb'_eq_self, BitVec.reduceToNat, size_roundtrip, ofBool_flag]
  rfl
theorem Sys2Proof.Laws.RoundTrip.stsp (sz : Size) (all : Bool) (lane : BitVec 4) (s a : SReg) (off : BitVec 4) :
    RoundTrip.Statement (.stsp sz all lane s a off) := by
  refine RoundTrip.of_read rfl rfl ?_
  simp (disch := decide) only [readWord, decodeScalar, bits, flag, zero, extract_hi, extract_lo,
    Nat.reduceSub, BitVec.extractLsb'_eq_self, BitVec.reduceToNat, size_roundtrip, ofBool_flag]
  rfl
theorem Sys2Proof.Laws.RoundTrip.atcas (wide : Bool) (d a b : SReg) :
    RoundTrip.Statement (.atcas wide d a b) := by
  refine RoundTrip.of_read rfl rfl ?_
  simp (disch := decide) only [readWord, decodeScalar, bits, flag, zero, extract_hi, extract_lo,
    Nat.reduceSub, BitVec.extractLsb'_eq_self, BitVec.reduceToNat, ofBool_flag]
  rfl
theorem Sys2Proof.Laws.RoundTrip.atadd (wide : Bool) (d a b : SReg) :
    RoundTrip.Statement (.atadd wide d a b) := by
  refine RoundTrip.of_read rfl rfl ?_
  simp (disch := decide) only [readWord, decodeScalar, bits, flag, zero, extract_hi, extract_lo,
    Nat.reduceSub, BitVec.extractLsb'_eq_self, BitVec.reduceToNat, ofBool_flag]
  rfl
theorem Sys2Proof.Laws.RoundTrip.atswp (wide : Bool) (d a b : SReg) :
    RoundTrip.Statement (.atswp wide d a b) := by
  refine RoundTrip.of_read rfl rfl ?_
  simp (disch := decide) only [readWord, decodeScalar, bits, flag, zero, extract_hi, extract_lo,
    Nat.reduceSub, BitVec.extractLsb'_eq_self, BitVec.reduceToNat, ofBool_flag]
  rfl
theorem Sys2Proof.Laws.RoundTrip.atand (wide : Bool) (d a b : SReg) :
    RoundTrip.Statement (.atand wide d a b) := by
  refine RoundTrip.of_read rfl rfl ?_
  simp (disch := decide) only [readWord, decodeScalar, bits, flag, zero, extract_hi, extract_lo,
    Nat.reduceSub, BitVec.extractLsb'_eq_self, BitVec.reduceToNat, ofBool_flag]
  rfl
theorem Sys2Proof.Laws.RoundTrip.ator (wide : Bool) (d a b : SReg) : RoundTrip.Statement (.ator wide d a b) := by
  refine RoundTrip.of_read rfl rfl ?_
  simp (disch := decide) only [readWord, decodeScalar, bits, flag, zero, extract_hi, extract_lo,
    Nat.reduceSub, BitVec.extractLsb'_eq_self, BitVec.reduceToNat, ofBool_flag]
  rfl
theorem Sys2Proof.Laws.RoundTrip.atxor (wide : Bool) (d a b : SReg) :
    RoundTrip.Statement (.atxor wide d a b) := by
  refine RoundTrip.of_read rfl rfl ?_
  simp (disch := decide) only [readWord, decodeScalar, bits, flag, zero, extract_hi, extract_lo,
    Nat.reduceSub, BitVec.extractLsb'_eq_self, BitVec.reduceToNat, ofBool_flag]
  rfl
theorem Sys2Proof.Laws.RoundTrip.br (nz : Bool) (a : SReg) (off : BitVec 17) :
    RoundTrip.Statement (.br nz a off) := by
  refine RoundTrip.of_read rfl rfl ?_
  simp (disch := decide) only [readWord, decodeScalar, bits, flag, extract_hi, extract_lo, Nat.reduceSub,
    BitVec.extractLsb'_eq_self, BitVec.reduceToNat, ofBool_flag]
theorem Sys2Proof.Laws.RoundTrip.jmp (off : W32) : RoundTrip.Statement (.jmp off) := by
  refine RoundTrip.of_read rfl rfl ?_
  simp (disch := decide) only [readWord, decodeScalar, bits, zero, extract_hi, extract_lo, Nat.reduceSub,
    BitVec.extractLsb'_eq_self, BitVec.reduceToNat]
  rfl
theorem Sys2Proof.Laws.RoundTrip.jr (a : SReg) : RoundTrip.Statement (.jr a) := by
  refine RoundTrip.of_read rfl rfl ?_
  simp (disch := decide) only [readWord, decodeScalar, bits, zero, extract_hi, extract_lo, Nat.reduceSub,
    BitVec.extractLsb'_eq_self, BitVec.reduceToNat]
  rfl
theorem Sys2Proof.Laws.RoundTrip.call (off : W32) : RoundTrip.Statement (.call off) := by
  refine RoundTrip.of_read rfl rfl ?_
  simp (disch := decide) only [readWord, decodeScalar, bits, zero, extract_hi, extract_lo, Nat.reduceSub,
    BitVec.extractLsb'_eq_self, BitVec.reduceToNat]
  rfl
theorem Sys2Proof.Laws.RoundTrip.callr (a : SReg) : RoundTrip.Statement (.callr a) := by
  refine RoundTrip.of_read rfl rfl ?_
  simp (disch := decide) only [readWord, decodeScalar, bits, zero, extract_hi, extract_lo, Nat.reduceSub,
    BitVec.extractLsb'_eq_self, BitVec.reduceToNat]
  rfl
theorem Sys2Proof.Laws.RoundTrip.loop (a : SReg) (off : BitVec 17) : RoundTrip.Statement (.loop a off) := by
  refine RoundTrip.of_read rfl rfl ?_
  simp (disch := decide) only [readWord, decodeScalar, bits, zero, extract_hi, extract_lo, Nat.reduceSub,
    BitVec.extractLsb'_eq_self, BitVec.reduceToNat]
  rfl
theorem Sys2Proof.Laws.RoundTrip.fence (k : FenceKind) (sc : Scope) : RoundTrip.Statement (.fence k sc) := by
  refine RoundTrip.of_read rfl rfl ?_
  simp (disch := decide) only [readWord, decodeScalar, bits, zero, extract_hi, extract_lo, Nat.reduceSub,
    BitVec.extractLsb'_eq_self, BitVec.reduceToNat, fence_roundtrip, scope_roundtrip]
  rfl
theorem Sys2Proof.Laws.RoundTrip.barr (bk : BarKind) (id : BitVec 4) : RoundTrip.Statement (.barr bk id) := by
  refine RoundTrip.of_read rfl rfl ?_
  simp (disch := decide) only [readWord, decodeScalar, bits, zero, extract_hi, extract_lo, Nat.reduceSub,
    BitVec.extractLsb'_eq_self, BitVec.reduceToNat, bar_roundtrip]
  rfl
theorem Sys2Proof.Laws.RoundTrip.barw (bk : BarKind) (id : BitVec 4) : RoundTrip.Statement (.barw bk id) := by
  refine RoundTrip.of_read rfl rfl ?_
  simp (disch := decide) only [readWord, decodeScalar, bits, zero, extract_hi, extract_lo, Nat.reduceSub,
    BitVec.extractLsb'_eq_self, BitVec.reduceToNat, bar_roundtrip]
  rfl
theorem Sys2Proof.Laws.RoundTrip.arrinc (own : Bool) (die : BitVec 3) (ctr : Byte) (a : SReg) :
    RoundTrip.Statement (.arrinc own die ctr a) := by
  refine RoundTrip.of_read rfl rfl ?_
  simp (disch := decide) only [readWord, decodeScalar, bits, flag, zero, extract_hi, extract_lo,
    Nat.reduceSub, BitVec.extractLsb'_eq_self, BitVec.reduceToNat, ofBool_flag]
  rfl
theorem Sys2Proof.Laws.RoundTrip.batch (d : SReg) : RoundTrip.Statement (.batch d) := by
  refine RoundTrip.of_read rfl rfl ?_
  simp (disch := decide) only [readWord, decodeScalar, bits, zero, extract_hi, extract_lo, Nat.reduceSub,
    BitVec.extractLsb'_eq_self, BitVec.reduceToNat]
  rfl
theorem Sys2Proof.Laws.RoundTrip.waitb (cm : BitVec 3) (last : Bool) (a : SReg) :
    RoundTrip.Statement (.waitb cm last a) := by
  refine RoundTrip.of_read rfl rfl ?_
  simp (disch := decide) only [readWord, decodeScalar, bits, flag, zero, extract_hi, extract_lo,
    Nat.reduceSub, BitVec.extractLsb'_eq_self, BitVec.reduceToNat, ofBool_flag]
  rfl
theorem Sys2Proof.Laws.RoundTrip.csrr (d : SReg) (c : BitVec 12) : RoundTrip.Statement (.csrr d c) := by
  refine RoundTrip.of_read rfl rfl ?_
  simp (disch := decide) only [readWord, decodeScalar, bits, zero, extract_hi, extract_lo, Nat.reduceSub,
    BitVec.extractLsb'_eq_self, BitVec.reduceToNat]
  rfl
theorem Sys2Proof.Laws.RoundTrip.csrw (c : BitVec 12) (a : SReg) : RoundTrip.Statement (.csrw c a) := by
  refine RoundTrip.of_read rfl rfl ?_
  simp (disch := decide) only [readWord, decodeScalar, bits, zero, extract_hi, extract_lo, Nat.reduceSub,
    BitVec.extractLsb'_eq_self, BitVec.reduceToNat]
  rfl
theorem Sys2Proof.Laws.RoundTrip.csrset (d : SReg) (c : BitVec 12) (a : SReg) :
    RoundTrip.Statement (.csrset d c a) := by
  refine RoundTrip.of_read rfl rfl ?_
  simp (disch := decide) only [readWord, decodeScalar, bits, extract_hi, extract_lo, Nat.reduceSub,
    BitVec.extractLsb'_eq_self, BitVec.reduceToNat]
theorem Sys2Proof.Laws.RoundTrip.csrclr (d : SReg) (c : BitVec 12) (a : SReg) :
    RoundTrip.Statement (.csrclr d c a) := by
  refine RoundTrip.of_read rfl rfl ?_
  simp (disch := decide) only [readWord, decodeScalar, bits, extract_hi, extract_lo, Nat.reduceSub,
    BitVec.extractLsb'_eq_self, BitVec.reduceToNat]
theorem Sys2Proof.Laws.RoundTrip.trap (code : BitVec 16) : RoundTrip.Statement (.trap code) := by
  refine RoundTrip.of_read rfl rfl ?_
  simp (disch := decide) only [readWord, decodeScalar, bits, zero, extract_hi, extract_lo, Nat.reduceSub,
    BitVec.extractLsb'_eq_self, BitVec.reduceToNat]
  rfl
theorem Sys2Proof.Laws.RoundTrip.tret (a : SReg) : RoundTrip.Statement (.tret a) := by
  refine RoundTrip.of_read rfl rfl ?_
  simp (disch := decide) only [readWord, decodeScalar, bits, zero, extract_hi, extract_lo, Nat.reduceSub,
    BitVec.extractLsb'_eq_self, BitVec.reduceToNat]
  rfl
theorem Sys2Proof.Laws.RoundTrip.viadd (d a b : VOp) : RoundTrip.Statement (.viadd d a b) := by
  refine RoundTrip.of_read rfl rfl ?_
  simp (disch := decide) only [readWord, decodeVector, bits, extract_hi, extract_lo, Nat.reduceSub,
    BitVec.extractLsb'_eq_self, BitVec.reduceToNat, vop_roundtrip]
theorem Sys2Proof.Laws.RoundTrip.visub (d a b : VOp) : RoundTrip.Statement (.visub d a b) := by
  refine RoundTrip.of_read rfl rfl ?_
  simp (disch := decide) only [readWord, decodeVector, bits, extract_hi, extract_lo, Nat.reduceSub,
    BitVec.extractLsb'_eq_self, BitVec.reduceToNat, vop_roundtrip]
theorem Sys2Proof.Laws.RoundTrip.vimul (d a b : VOp) : RoundTrip.Statement (.vimul d a b) := by
  refine RoundTrip.of_read rfl rfl ?_
  simp (disch := decide) only [readWord, decodeVector, bits, extract_hi, extract_lo, Nat.reduceSub,
    BitVec.extractLsb'_eq_self, BitVec.reduceToNat, vop_roundtrip]
theorem Sys2Proof.Laws.RoundTrip.vand (d a b : VOp) : RoundTrip.Statement (.vand d a b) := by
  refine RoundTrip.of_read rfl rfl ?_
  simp (disch := decide) only [readWord, decodeVector, bits, extract_hi, extract_lo, Nat.reduceSub,
    BitVec.extractLsb'_eq_self, BitVec.reduceToNat, vop_roundtrip]
theorem Sys2Proof.Laws.RoundTrip.vor (d a b : VOp) : RoundTrip.Statement (.vor d a b) := by
  refine RoundTrip.of_read rfl rfl ?_
  simp (disch := decide) only [readWord, decodeVector, bits, extract_hi, extract_lo, Nat.reduceSub,
    BitVec.extractLsb'_eq_self, BitVec.reduceToNat, vop_roundtrip]
theorem Sys2Proof.Laws.RoundTrip.vxor (d a b : VOp) : RoundTrip.Statement (.vxor d a b) := by
  refine RoundTrip.of_read rfl rfl ?_
  simp (disch := decide) only [readWord, decodeVector, bits, extract_hi, extract_lo, Nat.reduceSub,
    BitVec.extractLsb'_eq_self, BitVec.reduceToNat, vop_roundtrip]
theorem Sys2Proof.Laws.RoundTrip.vshl (d a b : VOp) : RoundTrip.Statement (.vshl d a b) := by
  refine RoundTrip.of_read rfl rfl ?_
  simp (disch := decide) only [readWord, decodeVector, bits, extract_hi, extract_lo, Nat.reduceSub,
    BitVec.extractLsb'_eq_self, BitVec.reduceToNat, vop_roundtrip]
theorem Sys2Proof.Laws.RoundTrip.vshr (d a b : VOp) : RoundTrip.Statement (.vshr d a b) := by
  refine RoundTrip.of_read rfl rfl ?_
  simp (disch := decide) only [readWord, decodeVector, bits, extract_hi, extract_lo, Nat.reduceSub,
    BitVec.extractLsb'_eq_self, BitVec.reduceToNat, vop_roundtrip]
theorem Sys2Proof.Laws.RoundTrip.vsra (d a b : VOp) : RoundTrip.Statement (.vsra d a b) := by
  refine RoundTrip.of_read rfl rfl ?_
  simp (disch := decide) only [readWord, decodeVector, bits, extract_hi, extract_lo, Nat.reduceSub,
    BitVec.extractLsb'_eq_self, BitVec.reduceToNat, vop_roundtrip]
theorem Sys2Proof.Laws.RoundTrip.vimin (d a b : VOp) : RoundTrip.Statement (.vimin d a b) := by
  refine RoundTrip.of_read rfl rfl ?_
  simp (disch := decide) only [readWord, decodeVector, bits, extract_hi, extract_lo, Nat.reduceSub,
    BitVec.extractLsb'_eq_self, BitVec.reduceToNat, vop_roundtrip]
theorem Sys2Proof.Laws.RoundTrip.vimax (d a b : VOp) : RoundTrip.Statement (.vimax d a b) := by
  refine RoundTrip.of_read rfl rfl ?_
  simp (disch := decide) only [readWord, decodeVector, bits, extract_hi, extract_lo, Nat.reduceSub,
    BitVec.extractLsb'_eq_self, BitVec.reduceToNat, vop_roundtrip]
theorem Sys2Proof.Laws.RoundTrip.viadds (d a b : VOp) : RoundTrip.Statement (.viadds d a b) := by
  refine RoundTrip.of_read rfl rfl ?_
  simp (disch := decide) only [readWord, decodeVector, bits, extract_hi, extract_lo, Nat.reduceSub,
    BitVec.extractLsb'_eq_self, BitVec.reduceToNat, vop_roundtrip]
theorem Sys2Proof.Laws.RoundTrip.visubs (d a b : VOp) : RoundTrip.Statement (.visubs d a b) := by
  refine RoundTrip.of_read rfl rfl ?_
  simp (disch := decide) only [readWord, decodeVector, bits, extract_hi, extract_lo, Nat.reduceSub,
    BitVec.extractLsb'_eq_self, BitVec.reduceToNat, vop_roundtrip]
theorem Sys2Proof.Laws.RoundTrip.vadd (d a b : VOp) : RoundTrip.Statement (.vadd d a b) := by
  refine RoundTrip.of_read rfl rfl ?_
  simp (disch := decide) only [readWord, decodeVector, bits, extract_hi, extract_lo, Nat.reduceSub,
    BitVec.extractLsb'_eq_self, BitVec.reduceToNat, vop_roundtrip]
theorem Sys2Proof.Laws.RoundTrip.vsub (d a b : VOp) : RoundTrip.Statement (.vsub d a b) := by
  refine RoundTrip.of_read rfl rfl ?_
  simp (disch := decide) only [readWord, decodeVector, bits, extract_hi, extract_lo, Nat.reduceSub,
    BitVec.extractLsb'_eq_self, BitVec.reduceToNat, vop_roundtrip]
theorem Sys2Proof.Laws.RoundTrip.vmul (d a b : VOp) : RoundTrip.Statement (.vmul d a b) := by
  refine RoundTrip.of_read rfl rfl ?_
  simp (disch := decide) only [readWord, decodeVector, bits, extract_hi, extract_lo, Nat.reduceSub,
    BitVec.extractLsb'_eq_self, BitVec.reduceToNat, vop_roundtrip]
theorem Sys2Proof.Laws.RoundTrip.vfma (d a b : VOp) : RoundTrip.Statement (.vfma d a b) := by
  refine RoundTrip.of_read rfl rfl ?_
  simp (disch := decide) only [readWord, decodeVector, bits, extract_hi, extract_lo, Nat.reduceSub,
    BitVec.extractLsb'_eq_self, BitVec.reduceToNat, vop_roundtrip]
theorem Sys2Proof.Laws.RoundTrip.vmin (d a b : VOp) : RoundTrip.Statement (.vmin d a b) := by
  refine RoundTrip.of_read rfl rfl ?_
  simp (disch := decide) only [readWord, decodeVector, bits, extract_hi, extract_lo, Nat.reduceSub,
    BitVec.extractLsb'_eq_self, BitVec.reduceToNat, vop_roundtrip]
theorem Sys2Proof.Laws.RoundTrip.vmax (d a b : VOp) : RoundTrip.Statement (.vmax d a b) := by
  refine RoundTrip.of_read rfl rfl ?_
  simp (disch := decide) only [readWord, decodeVector, bits, extract_hi, extract_lo, Nat.reduceSub,
    BitVec.extractLsb'_eq_self, BitVec.reduceToNat, vop_roundtrip]
theorem Sys2Proof.Laws.RoundTrip.vabs (d a : VOp) : RoundTrip.Statement (.vabs d a) := by
  refine RoundTrip.of_read rfl rfl ?_
  simp (disch := decide) only [readWord, decodeVector, bits, zero, extract_hi, extract_lo, Nat.reduceSub,
    BitVec.extractLsb'_eq_self, BitVec.reduceToNat, vop_roundtrip]
  rfl
theorem Sys2Proof.Laws.RoundTrip.vneg (d a : VOp) : RoundTrip.Statement (.vneg d a) := by
  refine RoundTrip.of_read rfl rfl ?_
  simp (disch := decide) only [readWord, decodeVector, bits, zero, extract_hi, extract_lo, Nat.reduceSub,
    BitVec.extractLsb'_eq_self, BitVec.reduceToNat, vop_roundtrip]
  rfl
theorem Sys2Proof.Laws.RoundTrip.vcvt (op : CvtOp) (rm : RM) (sat : Bool) (d a : VOp) :
    RoundTrip.Statement (.vcvt op rm sat d a) := by
  refine RoundTrip.of_read rfl rfl ?_
  simp (disch := decide) only [readWord, decodeVector, bits, flag, zero, extract_hi, extract_lo,
    Nat.reduceSub, BitVec.extractLsb'_eq_self, BitVec.reduceToNat, cvt_roundtrip, rm_roundtrip, ofBool_flag,
    vop_roundtrip]
  rfl
theorem Sys2Proof.Laws.RoundTrip.vexp2 (d a : VOp) : RoundTrip.Statement (.vexp2 d a) := by
  refine RoundTrip.of_read rfl rfl ?_
  simp (disch := decide) only [readWord, decodeVector, bits, zero, extract_hi, extract_lo, Nat.reduceSub,
    BitVec.extractLsb'_eq_self, BitVec.reduceToNat, vop_roundtrip]
  rfl
theorem Sys2Proof.Laws.RoundTrip.vlog2 (d a : VOp) : RoundTrip.Statement (.vlog2 d a) := by
  refine RoundTrip.of_read rfl rfl ?_
  simp (disch := decide) only [readWord, decodeVector, bits, zero, extract_hi, extract_lo, Nat.reduceSub,
    BitVec.extractLsb'_eq_self, BitVec.reduceToNat, vop_roundtrip]
  rfl
theorem Sys2Proof.Laws.RoundTrip.vrcp (d a : VOp) : RoundTrip.Statement (.vrcp d a) := by
  refine RoundTrip.of_read rfl rfl ?_
  simp (disch := decide) only [readWord, decodeVector, bits, zero, extract_hi, extract_lo, Nat.reduceSub,
    BitVec.extractLsb'_eq_self, BitVec.reduceToNat, vop_roundtrip]
  rfl
theorem Sys2Proof.Laws.RoundTrip.vrsqrt (d a : VOp) : RoundTrip.Statement (.vrsqrt d a) := by
  refine RoundTrip.of_read rfl rfl ?_
  simp (disch := decide) only [readWord, decodeVector, bits, zero, extract_hi, extract_lo, Nat.reduceSub,
    BitVec.extractLsb'_eq_self, BitVec.reduceToNat, vop_roundtrip]
  rfl
theorem Sys2Proof.Laws.RoundTrip.vtanh (d a : VOp) : RoundTrip.Statement (.vtanh d a) := by
  refine RoundTrip.of_read rfl rfl ?_
  simp (disch := decide) only [readWord, decodeVector, bits, zero, extract_hi, extract_lo, Nat.reduceSub,
    BitVec.extractLsb'_eq_self, BitVec.reduceToNat, vop_roundtrip]
  rfl
theorem Sys2Proof.Laws.RoundTrip.vcmp (cc : VCond) (d a : VOp) : RoundTrip.Statement (.vcmp cc d a) := by
  refine RoundTrip.of_read rfl rfl ?_
  simp (disch := decide) only [readWord, decodeVector, bits, zero, extract_hi, extract_lo, Nat.reduceSub,
    BitVec.extractLsb'_eq_self, BitVec.reduceToNat, vcond_roundtrip, vop_roundtrip]
  rfl
theorem Sys2Proof.Laws.RoundTrip.vsel (d a b : VOp) : RoundTrip.Statement (.vsel d a b) := by
  refine RoundTrip.of_read rfl rfl ?_
  simp (disch := decide) only [readWord, decodeVector, bits, extract_hi, extract_lo, Nat.reduceSub,
    BitVec.extractLsb'_eq_self, BitVec.reduceToNat, vop_roundtrip]
theorem Sys2Proof.Laws.RoundTrip.vredsum (d a b : VOp) : RoundTrip.Statement (.vredsum d a b) := by
  refine RoundTrip.of_read rfl rfl ?_
  simp (disch := decide) only [readWord, decodeVector, bits, extract_hi, extract_lo, Nat.reduceSub,
    BitVec.extractLsb'_eq_self, BitVec.reduceToNat, vop_roundtrip]
theorem Sys2Proof.Laws.RoundTrip.vredmax (d a b : VOp) : RoundTrip.Statement (.vredmax d a b) := by
  refine RoundTrip.of_read rfl rfl ?_
  simp (disch := decide) only [readWord, decodeVector, bits, extract_hi, extract_lo, Nat.reduceSub,
    BitVec.extractLsb'_eq_self, BitVec.reduceToNat, vop_roundtrip]
theorem Sys2Proof.Laws.RoundTrip.vredmin (d a b : VOp) : RoundTrip.Statement (.vredmin d a b) := by
  refine RoundTrip.of_read rfl rfl ?_
  simp (disch := decide) only [readWord, decodeVector, bits, extract_hi, extract_lo, Nat.reduceSub,
    BitVec.extractLsb'_eq_self, BitVec.reduceToNat, vop_roundtrip]
theorem Sys2Proof.Laws.RoundTrip.vperm (d a b : VOp) : RoundTrip.Statement (.vperm d a b) := by
  refine RoundTrip.of_read rfl rfl ?_
  simp (disch := decide) only [readWord, decodeVector, bits, extract_hi, extract_lo, Nat.reduceSub,
    BitVec.extractLsb'_eq_self, BitVec.reduceToNat, vop_roundtrip]
theorem Sys2Proof.Laws.RoundTrip.vbcast (d a : VOp) (idx : BitVec 6) : RoundTrip.Statement (.vbcast d a idx) := by
  refine RoundTrip.of_read rfl rfl ?_
  simp (disch := decide) only [readWord, decodeVector, bits, zero, extract_hi, extract_lo, Nat.reduceSub,
    BitVec.extractLsb'_eq_self, BitVec.reduceToNat, vop_roundtrip]
  rfl
theorem Sys2Proof.Laws.RoundTrip.vbitpop (d a b : VOp) : RoundTrip.Statement (.vbitpop d a b) := by
  refine RoundTrip.of_read rfl rfl ?_
  simp (disch := decide) only [readWord, decodeVector, bits, extract_hi, extract_lo, Nat.reduceSub,
    BitVec.extractLsb'_eq_self, BitVec.reduceToNat, vop_roundtrip]
theorem Sys2Proof.Laws.RoundTrip.vnzscan (t : Bool) (d a : VOp) : RoundTrip.Statement (.vnzscan t d a) := by
  refine RoundTrip.of_read rfl rfl ?_
  simp (disch := decide) only [readWord, decodeVector, bits, flag, zero, extract_hi, extract_lo,
    Nat.reduceSub, BitVec.extractLsb'_eq_self, BitVec.reduceToNat, ofBool_flag, vop_roundtrip]
  rfl
theorem Sys2Proof.Laws.RoundTrip.vsetshp (j : ShpR) (f : ShpField) (a : VOp) (elem : BitVec 6) :
    RoundTrip.Statement (.vsetshp j f a elem) := by
  refine RoundTrip.of_read rfl rfl ?_
  simp (disch := decide) only [readWord, decodeVector, bits, zero, extract_hi, extract_lo, Nat.reduceSub,
    BitVec.extractLsb'_eq_self, BitVec.reduceToNat, shpField_roundtrip, vop_roundtrip]
  rfl
theorem Sys2Proof.Laws.RoundTrip.vmaskf (d a : VOp) (s : SReg) : RoundTrip.Statement (.vmaskf d a s) := by
  refine RoundTrip.of_read rfl rfl ?_
  simp (disch := decide) only [readWord, decodeVector, bits, zero, extract_hi, extract_lo, Nat.reduceSub,
    BitVec.extractLsb'_eq_self, BitVec.reduceToNat, vop_roundtrip]
  rfl
theorem Sys2Proof.Laws.RoundTrip.vmov (d a : VOp) : RoundTrip.Statement (.vmov d a) := by
  refine RoundTrip.of_read rfl rfl ?_
  simp (disch := decide) only [readWord, decodeVector, bits, zero, extract_hi, extract_lo, Nat.reduceSub,
    BitVec.extractLsb'_eq_self, BitVec.reduceToNat, vop_roundtrip]
  rfl
theorem Sys2Proof.Laws.RoundTrip.vmovs (d : VOp) (s : SReg) : RoundTrip.Statement (.vmovs d s) := by
  refine RoundTrip.of_read rfl rfl ?_
  simp (disch := decide) only [readWord, decodeVector, bits, zero, extract_hi, extract_lo, Nat.reduceSub,
    BitVec.extractLsb'_eq_self, BitVec.reduceToNat, vop_roundtrip]
  rfl
theorem Sys2Proof.Laws.RoundTrip.viota (lane : Bool) (d : VOp) : RoundTrip.Statement (.viota lane d) := by
  refine RoundTrip.of_read rfl rfl ?_
  simp (disch := decide) only [readWord, decodeVector, bits, flag, zero, extract_hi, extract_lo,
    Nat.reduceSub, BitVec.extractLsb'_eq_self, BitVec.reduceToNat, ofBool_flag, vop_roundtrip]
  rfl
theorem Sys2Proof.Laws.RoundTrip.vld (v : VOp) (a : SReg) (off : BitVec 10) :
    RoundTrip.Statement (.vld v a off) := by
  refine RoundTrip.of_read rfl rfl ?_
  simp (disch := decide) only [readWord, decodeVector, bits, extract_hi, extract_lo, Nat.reduceSub,
    BitVec.extractLsb'_eq_self, BitVec.reduceToNat, vop_roundtrip]
theorem Sys2Proof.Laws.RoundTrip.vst (v : VOp) (a : SReg) (off : BitVec 10) :
    RoundTrip.Statement (.vst v a off) := by
  refine RoundTrip.of_read rfl rfl ?_
  simp (disch := decide) only [readWord, decodeVector, bits, extract_hi, extract_lo, Nat.reduceSub,
    BitVec.extractLsb'_eq_self, BitVec.reduceToNat, vop_roundtrip]
theorem Sys2Proof.Laws.RoundTrip.vldc (t : Bool) (rm : RM) (v : VOp) (a : SReg) (off : BitVec 6) :
    RoundTrip.Statement (.vldc t rm v a off) := by
  refine RoundTrip.of_read rfl rfl ?_
  simp (disch := decide) only [readWord, decodeVector, bits, flag, zero, extract_hi, extract_lo,
    Nat.reduceSub, BitVec.extractLsb'_eq_self, BitVec.reduceToNat, ofBool_flag, rm_roundtrip, vop_roundtrip]
  rfl
theorem Sys2Proof.Laws.RoundTrip.vstc (t : Bool) (rm : RM) (sat : Bool) (v : VOp) (a : SReg) (off : BitVec 6) :
    RoundTrip.Statement (.vstc t rm sat v a off) := by
  refine RoundTrip.of_read rfl rfl ?_
  simp (disch := decide) only [readWord, decodeVector, bits, flag, extract_hi, extract_lo, Nat.reduceSub,
    BitVec.extractLsb'_eq_self, BitVec.reduceToNat, ofBool_flag, rm_roundtrip, vop_roundtrip]
theorem Sys2Proof.Laws.RoundTrip.mma (acc : Acc) (shp : ShpR) (kb : KReg) (da db : BitVec 3) (reuse : Bool) :
    RoundTrip.Statement (.mma acc shp kb da db reuse) := by
  refine RoundTrip.of_read rfl rfl ?_
  simp (disch := decide) only [readWord, decodeMatrix, bits, flag, zero, extract_hi, extract_lo,
    Nat.reduceSub, BitVec.extractLsb'_eq_self, BitVec.reduceToNat, acc_roundtrip, ofBool_flag]
  rfl
theorem Sys2Proof.Laws.RoundTrip.mmag (acc : Acc) (shp : ShpR) (kb : KReg) (da db : BitVec 3) (reuse : Bool) :
    RoundTrip.Statement (.mmag acc shp kb da db reuse) := by
  refine RoundTrip.of_read rfl rfl ?_
  simp (disch := decide) only [readWord, decodeMatrix, bits, flag, zero, extract_hi, extract_lo,
    Nat.reduceSub, BitVec.extractLsb'_eq_self, BitVec.reduceToNat, acc_roundtrip, ofBool_flag]
  rfl
theorem Sys2Proof.Laws.RoundTrip.mzero (acc : Acc) : RoundTrip.Statement (.mzero acc) := by
  refine RoundTrip.of_read rfl rfl ?_
  simp (disch := decide) only [readWord, decodeMatrix, bits, zero, extract_hi, extract_lo, Nat.reduceSub,
    BitVec.extractLsb'_eq_self, BitVec.reduceToNat, acc_roundtrip]
  rfl
theorem Sys2Proof.Laws.RoundTrip.minit (acc : Acc) (a : VOp) (row : Bool) :
    RoundTrip.Statement (.minit acc a row) := by
  refine RoundTrip.of_read rfl rfl ?_
  simp (disch := decide) only [readWord, decodeMatrix, bits, flag, zero, extract_hi, extract_lo,
    Nat.reduceSub, BitVec.extractLsb'_eq_self, BitVec.reduceToNat, acc_roundtrip, vop_roundtrip, ofBool_flag]
  rfl
theorem Sys2Proof.Laws.RoundTrip.mread (acc : Acc) (d : VOp) (clr : Bool) :
    RoundTrip.Statement (.mread acc d clr) := by
  refine RoundTrip.of_read rfl rfl ?_
  simp (disch := decide) only [readWord, decodeMatrix, bits, flag, zero, extract_hi, extract_lo,
    Nat.reduceSub, BitVec.extractLsb'_eq_self, BitVec.reduceToNat, acc_roundtrip, vop_roundtrip, ofBool_flag]
  rfl
theorem Sys2Proof.Laws.RoundTrip.mscale (a : VOp) : RoundTrip.Statement (.mscale a) := by
  refine RoundTrip.of_read rfl rfl ?_
  simp (disch := decide) only [readWord, decodeMatrix, bits, zero, extract_hi, extract_lo, Nat.reduceSub,
    BitVec.extractLsb'_eq_self, BitVec.reduceToNat, vop_roundtrip]
  rfl
theorem Sys2Proof.Laws.RoundTrip.mstore (acc : Acc) (shp : ShpR) (kb : KReg) (rm : RM) (sat clr relu bias scl : Bool) :
    RoundTrip.Statement (.mstore acc shp kb rm sat clr relu bias scl) := by
  refine RoundTrip.of_read rfl rfl ?_
  simp (disch := decide) only [readWord, decodeMatrix, bits, flag, zero, extract_hi, extract_lo,
    Nat.reduceSub, BitVec.extractLsb'_eq_self, BitVec.reduceToNat, acc_roundtrip, rm_roundtrip, ofBool_flag]
  rfl
theorem Sys2Proof.Laws.RoundTrip.xld (n : Cnt) (kb : KReg) (ch : Hint) : RoundTrip.Statement (.xld n kb ch) := by
  refine RoundTrip.of_read rfl rfl ?_
  simp (disch := decide) only [readWord, decodeTransfer, bits, zero, extract_hi, extract_lo, Nat.reduceSub,
    BitVec.extractLsb'_eq_self, BitVec.reduceToNat, cnt_roundtrip, hint_roundtrip]
  rfl
theorem Sys2Proof.Laws.RoundTrip.xst (n : Cnt) (kb : KReg) (ch : Hint) : RoundTrip.Statement (.xst n kb ch) := by
  refine RoundTrip.of_read rfl rfl ?_
  simp (disch := decide) only [readWord, decodeTransfer, bits, zero, extract_hi, extract_lo, Nat.reduceSub,
    BitVec.extractLsb'_eq_self, BitVec.reduceToNat, cnt_roundtrip, hint_roundtrip]
  rfl
theorem Sys2Proof.Laws.RoundTrip.xcopy (n : Cnt) (kb : KReg) : RoundTrip.Statement (.xcopy n kb) := by
  refine RoundTrip.of_read rfl rfl ?_
  simp (disch := decide) only [readWord, decodeTransfer, bits, zero, extract_hi, extract_lo, Nat.reduceSub,
    BitVec.extractLsb'_eq_self, BitVec.reduceToNat, cnt_roundtrip]
  rfl
theorem Sys2Proof.Laws.RoundTrip.xwload (n : Cnt) (kb : KReg) : RoundTrip.Statement (.xwload n kb) := by
  refine RoundTrip.of_read rfl rfl ?_
  simp (disch := decide) only [readWord, decodeTransfer, bits, zero, extract_hi, extract_lo, Nat.reduceSub,
    BitVec.extractLsb'_eq_self, BitVec.reduceToNat, cnt_roundtrip]
  rfl
theorem Sys2Proof.Laws.RoundTrip.xwstore (n : Cnt) (kb : KReg) : RoundTrip.Statement (.xwstore n kb) := by
  refine RoundTrip.of_read rfl rfl ?_
  simp (disch := decide) only [readWord, decodeTransfer, bits, zero, extract_hi, extract_lo, Nat.reduceSub,
    BitVec.extractLsb'_eq_self, BitVec.reduceToNat, cnt_roundtrip]
  rfl
theorem Sys2Proof.Laws.RoundTrip.xgath (n : Cnt) (kb : KReg) (ch : Hint) (v : VOp) :
    RoundTrip.Statement (.xgath n kb ch v) := by
  refine RoundTrip.of_read rfl rfl ?_
  simp (disch := decide) only [readWord, decodeTransfer, bits, zero, extract_hi, extract_lo, Nat.reduceSub,
    BitVec.extractLsb'_eq_self, BitVec.reduceToNat, cnt_roundtrip, hint_roundtrip, vop_roundtrip]
  rfl
theorem Sys2Proof.Laws.RoundTrip.xscat (n : Cnt) (kb : KReg) (ch : Hint) (v : VOp) :
    RoundTrip.Statement (.xscat n kb ch v) := by
  refine RoundTrip.of_read rfl rfl ?_
  simp (disch := decide) only [readWord, decodeTransfer, bits, zero, extract_hi, extract_lo, Nat.reduceSub,
    BitVec.extractLsb'_eq_self, BitVec.reduceToNat, cnt_roundtrip, hint_roundtrip, vop_roundtrip]
  rfl
theorem Sys2Proof.Laws.RoundTrip.xpref (n : Cnt) (kb : KReg) (ch : Hint) :
    RoundTrip.Statement (.xpref n kb ch) := by
  refine RoundTrip.of_read rfl rfl ?_
  simp (disch := decide) only [readWord, decodeTransfer, bits, zero, extract_hi, extract_lo, Nat.reduceSub,
    BitVec.extractLsb'_eq_self, BitVec.reduceToNat, cnt_roundtrip, hint_roundtrip]
  rfl
theorem Sys2Proof.Laws.RoundTrip.xemitv (ew : EmitW) (cvt : Bool) (n : Cnt) (kb : KReg) (v : VOp) :
    RoundTrip.Statement (.xemitv ew cvt n kb v) := by
  refine RoundTrip.of_read rfl rfl ?_
  simp (disch := decide) only [readWord, decodeTransfer, bits, flag, zero, extract_hi, extract_lo,
    Nat.reduceSub, BitVec.extractLsb'_eq_self, BitVec.reduceToNat, emit_roundtrip, ofBool_flag,
    cnt_roundtrip, vop_roundtrip]
  rfl
theorem Sys2Proof.Laws.RoundTrip.xemitt (ew : EmitW) (ix : Option VOp) (n : Cnt) (kb : KReg) :
    RoundTrip.Statement (.xemitt ew ix n kb) := by
  refine RoundTrip.of_read rfl rfl ?_
  simp (disch := decide) only [readWord, decodeTransfer, bits, zero, extract_hi, extract_lo, Nat.reduceSub,
    BitVec.extractLsb'_eq_self, BitVec.reduceToNat, emit_roundtrip, ix_roundtrip, cnt_roundtrip]
  rfl
theorem Sys2Proof.Laws.RoundTrip.xwalk (kb : KReg) (ch : Hint) : RoundTrip.Statement (.xwalk kb ch) := by
  refine RoundTrip.of_read rfl rfl ?_
  simp (disch := decide) only [readWord, decodeTransfer, bits, zero, extract_hi, extract_lo, Nat.reduceSub,
    BitVec.extractLsb'_eq_self, BitVec.reduceToNat, hint_roundtrip]
  rfl
theorem Sys2Proof.Laws.RoundTrip.xnzscan (n : Cnt) (kb : KReg) : RoundTrip.Statement (.xnzscan n kb) := by
  refine RoundTrip.of_read rfl rfl ?_
  simp (disch := decide) only [readWord, decodeTransfer, bits, zero, extract_hi, extract_lo, Nat.reduceSub,
    BitVec.extractLsb'_eq_self, BitVec.reduceToNat, cnt_roundtrip]
  rfl
theorem Sys2Proof.Laws.RoundTrip.xrld (n : Cnt) (kb : KReg) (ch : Hint) :
    RoundTrip.Statement (.xrld n kb ch) := by
  refine RoundTrip.of_read rfl rfl ?_
  simp (disch := decide) only [readWord, decodeTransfer, bits, zero, extract_hi, extract_lo, Nat.reduceSub,
    BitVec.extractLsb'_eq_self, BitVec.reduceToNat, cnt_roundtrip, hint_roundtrip]
  rfl
theorem Sys2Proof.Laws.RoundTrip.xrst (n : Cnt) (kb : KReg) (ch : Hint) :
    RoundTrip.Statement (.xrst n kb ch) := by
  refine RoundTrip.of_read rfl rfl ?_
  simp (disch := decide) only [readWord, decodeTransfer, bits, zero, extract_hi, extract_lo, Nat.reduceSub,
    BitVec.extractLsb'_eq_self, BitVec.reduceToNat, cnt_roundtrip, hint_roundtrip]
  rfl
theorem Sys2Proof.Laws.RoundTrip.xtend (kb : KReg) : RoundTrip.Statement (.xtend kb) := by
  refine RoundTrip.of_read rfl rfl ?_
  simp (disch := decide) only [readWord, decodeTransfer, bits, zero, extract_hi, extract_lo, Nat.reduceSub,
    BitVec.extractLsb'_eq_self, BitVec.reduceToNat]
  rfl
theorem Sys2Proof.Laws.RoundTrip.pdabind (h : Handle) (res : Bool) (kb : KReg) :
    RoundTrip.Statement (.pdabind h res kb) := by
  refine RoundTrip.of_read rfl rfl ?_
  simp (disch := decide) only [readWord, decodeTransfer, bits, flag, zero, extract_hi, extract_lo,
    Nat.reduceSub, BitVec.extractLsb'_eq_self, BitVec.reduceToNat, ofBool_flag]
  rfl
theorem Sys2Proof.Laws.RoundTrip.pdaunbind (h : Handle) : RoundTrip.Statement (.pdaunbind h) := by
  refine RoundTrip.of_read rfl rfl ?_
  simp (disch := decide) only [readWord, decodeTransfer, bits, flag, zero, extract_hi, extract_lo,
    Nat.reduceSub, BitVec.extractLsb'_eq_self, BitVec.reduceToNat]
  rfl
theorem Sys2Proof.Laws.RoundTrip.pdaunbindRes (h : Handle) (kb : KReg) :
    RoundTrip.Statement (.pdaunbindRes h kb) := by
  refine RoundTrip.of_read rfl rfl ?_
  simp (disch := decide) only [readWord, decodeTransfer, bits, flag, zero, extract_hi, extract_lo,
    Nat.reduceSub, BitVec.extractLsb'_eq_self, BitVec.reduceToNat]
  rfl
theorem Sys2Proof.Laws.RoundTrip.pdamask (spread : Bool) (h : Handle) (res : Bool) (kb : KReg) :
    RoundTrip.Statement (.pdamask spread h res kb) := by
  refine RoundTrip.of_read rfl rfl ?_
  simp (disch := decide) only [readWord, decodeTransfer, bits, flag, zero, extract_hi, extract_lo,
    Nat.reduceSub, BitVec.extractLsb'_eq_self, BitVec.reduceToNat, ofBool_flag]
  rfl
theorem Sys2Proof.Laws.RoundTrip.pdaadv (h : Handle) (res : Bool) (kb : KReg) :
    RoundTrip.Statement (.pdaadv h res kb) := by
  refine RoundTrip.of_read rfl rfl ?_
  simp (disch := decide) only [readWord, decodeTransfer, bits, flag, zero, extract_hi, extract_lo,
    Nat.reduceSub, BitVec.extractLsb'_eq_self, BitVec.reduceToNat, ofBool_flag]
  rfl
theorem Sys2Proof.Laws.RoundTrip.pdafork (h : Handle) (res : Bool) (kb : KReg) :
    RoundTrip.Statement (.pdafork h res kb) := by
  refine RoundTrip.of_read rfl rfl ?_
  simp (disch := decide) only [readWord, decodeTransfer, bits, flag, zero, extract_hi, extract_lo,
    Nat.reduceSub, BitVec.extractLsb'_eq_self, BitVec.reduceToNat, ofBool_flag]
  rfl
theorem Sys2Proof.Laws.RoundTrip.pdamark (h : Handle) (res : Bool) (kb : KReg) :
    RoundTrip.Statement (.pdamark h res kb) := by
  refine RoundTrip.of_read rfl rfl ?_
  simp (disch := decide) only [readWord, decodeTransfer, bits, flag, zero, extract_hi, extract_lo,
    Nat.reduceSub, BitVec.extractLsb'_eq_self, BitVec.reduceToNat, ofBool_flag]
  rfl
theorem Sys2Proof.Laws.RoundTrip.pdaroll (h : Handle) (res : Bool) (kb : KReg) :
    RoundTrip.Statement (.pdaroll h res kb) := by
  refine RoundTrip.of_read rfl rfl ?_
  simp (disch := decide) only [readWord, decodeTransfer, bits, flag, zero, extract_hi, extract_lo,
    Nat.reduceSub, BitVec.extractLsb'_eq_self, BitVec.reduceToNat, ofBool_flag]
  rfl
theorem Sys2Proof.Laws.RoundTrip.pdasave (h : Handle) (res : Bool) (kb : KReg) :
    RoundTrip.Statement (.pdasave h res kb) := by
  refine RoundTrip.of_read rfl rfl ?_
  simp (disch := decide) only [readWord, decodeTransfer, bits, flag, zero, extract_hi, extract_lo,
    Nat.reduceSub, BitVec.extractLsb'_eq_self, BitVec.reduceToNat, ofBool_flag]
  rfl
theorem Sys2Proof.Laws.RoundTrip.pdarest (h : Handle) (res : Bool) (kb : KReg) :
    RoundTrip.Statement (.pdarest h res kb) := by
  refine RoundTrip.of_read rfl rfl ?_
  simp (disch := decide) only [readWord, decodeTransfer, bits, flag, zero, extract_hi, extract_lo,
    Nat.reduceSub, BitVec.extractLsb'_eq_self, BitVec.reduceToNat, ofBool_flag]
  rfl
theorem Sys2Proof.Laws.RoundTrip.gvote (t : Bool) (d : SReg) (a : VOp) (elem : BitVec 6) :
    RoundTrip.Statement (.gvote t d a elem) := by
  refine RoundTrip.of_read rfl rfl ?_
  simp (disch := decide) only [readWord, decodeGang, bits, flag, zero, extract_hi, extract_lo, Nat.reduceSub,
    BitVec.extractLsb'_eq_self, BitVec.reduceToNat, ofBool_flag, vop_roundtrip]
  rfl
theorem Sys2Proof.Laws.RoundTrip.gbr (c : SReg) (off : BitVec 18) (rpc : W32) :
    RoundTrip.Statement (.gbr c off rpc) := by
  refine RoundTrip.of_read rfl rfl ?_
  simp (disch := decide) only [readWord, decodeGang, bits, extract_hi, extract_lo, Nat.reduceSub,
    BitVec.extractLsb'_eq_self, BitVec.reduceToNat]
theorem Sys2Proof.Laws.RoundTrip.gsplit (c : SReg) (off : BitVec 18) (rpc : W32) :
    RoundTrip.Statement (.gsplit c off rpc) := by
  refine RoundTrip.of_read rfl rfl ?_
  simp (disch := decide) only [readWord, decodeGang, bits, extract_hi, extract_lo, Nat.reduceSub,
    BitVec.extractLsb'_eq_self, BitVec.reduceToNat]
theorem Sys2Proof.Laws.RoundTrip.gpush (c : SReg) (off : BitVec 18) : RoundTrip.Statement (.gpush c off) := by
  refine RoundTrip.of_read rfl rfl ?_
  simp (disch := decide) only [readWord, decodeGang, bits, extract_hi, extract_lo, Nat.reduceSub,
    BitVec.extractLsb'_eq_self, BitVec.reduceToNat]
theorem Sys2Proof.Laws.RoundTrip.gmsave (d : SReg) : RoundTrip.Statement (.gmsave d) := by
  refine RoundTrip.of_read rfl rfl ?_
  simp (disch := decide) only [readWord, decodeGang, bits, zero, extract_hi, extract_lo, Nat.reduceSub,
    BitVec.extractLsb'_eq_self, BitVec.reduceToNat]
  rfl
theorem Sys2Proof.Laws.RoundTrip.gmrest (a : SReg) : RoundTrip.Statement (.gmrest a) := by
  refine RoundTrip.of_read rfl rfl ?_
  simp (disch := decide) only [readWord, decodeGang, bits, zero, extract_hi, extract_lo, Nat.reduceSub,
    BitVec.extractLsb'_eq_self, BitVec.reduceToNat]
  rfl
theorem Sys2Proof.Laws.RoundTrip.gshuf (d a : VOp) (s : SReg) : RoundTrip.Statement (.gshuf d a s) := by
  refine RoundTrip.of_read rfl rfl ?_
  simp (disch := decide) only [readWord, decodeGang, bits, zero, extract_hi, extract_lo, Nat.reduceSub,
    BitVec.extractLsb'_eq_self, BitVec.reduceToNat, vop_roundtrip]
  rfl
theorem Sys2Proof.Laws.RoundTrip.gshuft (kb : KReg) (s : SReg) : RoundTrip.Statement (.gshuft kb s) := by
  refine RoundTrip.of_read rfl rfl ?_
  simp (disch := decide) only [readWord, decodeGang, bits, zero, extract_hi, extract_lo, Nat.reduceSub,
    BitVec.extractLsb'_eq_self, BitVec.reduceToNat]
  rfl
theorem Sys2Proof.Laws.RoundTrip.gred (op : RedOp) (d a : VOp) : RoundTrip.Statement (.gred op d a) := by
  refine RoundTrip.of_read rfl rfl ?_
  simp (disch := decide) only [readWord, decodeGang, bits, zero, extract_hi, extract_lo, Nat.reduceSub,
    BitVec.extractLsb'_eq_self, BitVec.reduceToNat, red_roundtrip, vop_roundtrip]
  rfl
theorem Sys2Proof.Laws.RoundTrip.gbcast (first : Bool) (lane : BitVec 4) (d a : VOp) :
    RoundTrip.Statement (.gbcast first lane d a) := by
  refine RoundTrip.of_read rfl rfl ?_
  simp (disch := decide) only [readWord, decodeGang, bits, flag, zero, extract_hi, extract_lo, Nat.reduceSub,
    BitVec.extractLsb'_eq_self, BitVec.reduceToNat, ofBool_flag, vop_roundtrip]
  rfl
theorem Sys2Proof.Laws.RoundTrip.gregroup (inv : Bool) (d : SReg) (a : VOp) (elem : BitVec 6) :
    RoundTrip.Statement (.gregroup inv d a elem) := by
  refine RoundTrip.of_read rfl rfl ?_
  simp (disch := decide) only [readWord, decodeGang, bits, flag, zero, extract_hi, extract_lo, Nat.reduceSub,
    BitVec.extractLsb'_eq_self, BitVec.reduceToNat, ofBool_flag, vop_roundtrip]
  rfl
theorem Sys2Proof.Laws.RoundTrip.rngsyncComplete : RoundTrip.Statement .rngsyncComplete := RoundTrip.of_event rfl
theorem Sys2Proof.Laws.RoundTrip.launchDispatch : RoundTrip.Statement .launchDispatch := RoundTrip.of_event rfl
theorem Sys2Proof.Laws.RoundTrip.preemptComplete : RoundTrip.Statement .preemptComplete := RoundTrip.of_event rfl
theorem Sys2Proof.Laws.RoundTrip.copyStart : RoundTrip.Statement .copyStart := RoundTrip.of_event rfl
theorem Sys2Proof.Laws.RoundTrip.copyComplete : RoundTrip.Statement .copyComplete := RoundTrip.of_event rfl
theorem Sys2Proof.Laws.RoundTrip.attestReport : RoundTrip.Statement .attestReport := RoundTrip.of_event rfl
theorem Sys2Proof.Laws.RoundTrip.getCertificates : RoundTrip.Statement .getCertificates := RoundTrip.of_event rfl
theorem Sys2Proof.Laws.RoundTrip.securityCommandComplete : RoundTrip.Statement .securityCommandComplete := RoundTrip.of_event rfl
theorem Sys2Proof.Laws.RoundTrip.fieldDataSave : RoundTrip.Statement .fieldDataSave := RoundTrip.of_event rfl
theorem Sys2Proof.Laws.RoundTrip.rtsyncWrite : RoundTrip.Statement .rtsyncWrite := RoundTrip.of_event rfl
theorem Sys2Proof.Laws.RoundTrip.rtsyncComplete : RoundTrip.Statement .rtsyncComplete := RoundTrip.of_event rfl
theorem Sys2Proof.Laws.RoundTrip.moduleReset : RoundTrip.Statement .moduleReset := RoundTrip.of_event rfl
theorem Sys2Proof.Laws.RoundTrip.powerOnSecond : RoundTrip.Statement .powerOnSecond := RoundTrip.of_event rfl
theorem Sys2Proof.Laws.RoundTrip.nop : RoundTrip.Statement .nop := by
  refine RoundTrip.of_read rfl rfl ?_
  simp (disch := decide) only [readWord, decodeScalar, bits, zero, extract_hi, extract_lo, Nat.reduceSub,
    BitVec.extractLsb'_eq_self, BitVec.reduceToNat]
  rfl
theorem Sys2Proof.Laws.RoundTrip.ret : RoundTrip.Statement .ret := by
  refine RoundTrip.of_read rfl rfl ?_
  simp (disch := decide) only [readWord, decodeScalar, bits, zero, extract_hi, extract_lo, Nat.reduceSub,
    BitVec.extractLsb'_eq_self, BitVec.reduceToNat]
  rfl
theorem Sys2Proof.Laws.RoundTrip.ufence : RoundTrip.Statement .ufence := by
  refine RoundTrip.of_read rfl rfl ?_
  simp (disch := decide) only [readWord, decodeScalar, bits, zero, extract_hi, extract_lo, Nat.reduceSub,
    BitVec.extractLsb'_eq_self, BitVec.reduceToNat]
  rfl
theorem Sys2Proof.Laws.RoundTrip.yield : RoundTrip.Statement .yield := by
  refine RoundTrip.of_read rfl rfl ?_
  simp (disch := decide) only [readWord, decodeScalar, bits, zero, extract_hi, extract_lo, Nat.reduceSub,
    BitVec.extractLsb'_eq_self, BitVec.reduceToNat]
  rfl
theorem Sys2Proof.Laws.RoundTrip.halt : RoundTrip.Statement .halt := by
  refine RoundTrip.of_read rfl rfl ?_
  simp (disch := decide) only [readWord, decodeScalar, bits, flag, zero, extract_hi, extract_lo,
    Nat.reduceSub, BitVec.extractLsb'_eq_self, BitVec.reduceToNat]
  rfl
theorem Sys2Proof.Laws.RoundTrip.haltNext : RoundTrip.Statement .haltNext := by
  refine RoundTrip.of_read rfl rfl ?_
  simp (disch := decide) only [readWord, decodeScalar, bits, flag, zero, extract_hi, extract_lo,
    Nat.reduceSub, BitVec.extractLsb'_eq_self, BitVec.reduceToNat]
  rfl
theorem Sys2Proof.Laws.RoundTrip.brk : RoundTrip.Statement .brk := by
  refine RoundTrip.of_read rfl rfl ?_
  simp (disch := decide) only [readWord, decodeScalar, bits, zero, extract_hi, extract_lo, Nat.reduceSub,
    BitVec.extractLsb'_eq_self, BitVec.reduceToNat]
  rfl
theorem Sys2Proof.Laws.RoundTrip.vnop : RoundTrip.Statement .vnop := by
  refine RoundTrip.of_read rfl rfl ?_
  simp (disch := decide) only [readWord, decodeVector, bits, zero, extract_hi, extract_lo, Nat.reduceSub,
    BitVec.extractLsb'_eq_self, BitVec.reduceToNat]
  rfl
theorem Sys2Proof.Laws.RoundTrip.mnop : RoundTrip.Statement .mnop := by
  refine RoundTrip.of_read rfl rfl ?_
  simp (disch := decide) only [readWord, decodeMatrix, bits, zero, extract_hi, extract_lo, Nat.reduceSub,
    BitVec.extractLsb'_eq_self, BitVec.reduceToNat]
  rfl
theorem Sys2Proof.Laws.RoundTrip.xnop : RoundTrip.Statement .xnop := by
  refine RoundTrip.of_read rfl rfl ?_
  simp (disch := decide) only [readWord, decodeTransfer, bits, zero, extract_hi, extract_lo, Nat.reduceSub,
    BitVec.extractLsb'_eq_self, BitVec.reduceToNat]
  rfl
theorem Sys2Proof.Laws.RoundTrip.gnop : RoundTrip.Statement .gnop := by
  refine RoundTrip.of_read rfl rfl ?_
  simp (disch := decide) only [readWord, decodeGang, bits, zero, extract_hi, extract_lo, Nat.reduceSub,
    BitVec.extractLsb'_eq_self, BitVec.reduceToNat]
  rfl
theorem Sys2Proof.Laws.RoundTrip.gpop : RoundTrip.Statement .gpop := by
  refine RoundTrip.of_read rfl rfl ?_
  simp (disch := decide) only [readWord, decodeGang, bits, zero, extract_hi, extract_lo, Nat.reduceSub,
    BitVec.extractLsb'_eq_self, BitVec.reduceToNat]
  rfl

end
end

