-- ==== Sys2Proof/Safety.lean ====
section
/-!
DEFINITION. What counts as a safe step and a well-kept state, in the terms the claims use.
-/
namespace Sys2Proof.Machine

/-- A turn is an event of the part or an access that the host can make. -/
def turnOk : Turn → Bool
  | .event i => isEvent i && i.wf
  | .host a => a.wf
/-- Every turn of the agenda is one. -/
def agendaOk (s : State) : Bool := s.agenda.all turnOk
/-- The step goes on: no fault, no refusal. -/
def goesToNext (o : Outcome) : Prop := ∃ t, o = .next t
/-- Memory is in its canonical form. -/
def memOk (s : State) : Prop := Memory.wf s.mem = true

end Sys2Proof.Machine
end

