-- ==== Sys2Proof/Certificates/Slice0/Obligations.lean ====
section
/-!
DEFINITION. The statements for the provers: what a step runs, how words decode, what each instruction and
event of the table does where it completes, what it leaves alone, and the invariants. The helpers of
`Sys2Proof.Claims` restate results of the manual in integer and bit arithmetic of their own.
-/
namespace Sys2Proof.Claims
open Sys2Proof.Machine

/-! ### Results and frames -/

/-- Whether `v` may go to register D: only s63 is bounded (R68, R72, R233). -/
def mayWrite (s : State) (d : SReg) (v : Word) : Prop :=
  d = 63#6 →
    if s.issuer.gcn % 8 = 4 then (cur s).prvhw.toNat ≤ v.toNat ∧ v.toNat ≤ (cur s).prvtop.toNat
    else (cur s).stklim.toNat ≤ v.toNat ∧ v.toNat ≤ (cur s).stktop.toNat
/-- The issuing half with one more exposed result, due `lat` issue cycles after this one (R60, R61). -/
def queue (s : State) (lat : Nat) (ws : List Wr) : State :=
  updHalf s s.issuer.gcn s.issuer.half fun h =>
    { h with pend := h.pend ++ [⟨h.cycle + lat, ws, (cur s).dbgPend, (cur s).beat, h.cycle⟩] }
/-- The result v of register D at a latency: s0 discards it (R233). -/
def result (s : State) (d : SReg) (v : Word) (lat : Nat) : State :=
  if d = 0#6 then s else queue s lat [.s d v]
/-- The state in which the result of an interlocked access to D has arrived: it is written before the next issue cycle reads,
and what earlier results due by then would write to D is dropped (R220, R233, log entry 11). -/
def arrived (s : State) (d : SReg) (v : Word) : State :=
  let other := fun (w : Wr) =>
    match w with
    | .s n _ => n != d
    | _ => true
  if d = 0#6 then s
  else queue (updHalf s s.issuer.gcn s.issuer.half fun x =>
    { x with pend := x.pend.map fun p =>
        if p.due ≤ x.cycle + 1 then { p with writes := p.writes.filter other } else p }) 0 [.s d v]
/-- The bundle's change of program counter, effective from the next bundle (R213, R247). -/
def taken (s : State) (tgt : Word) : State :=
  updHalf s s.issuer.gcn s.issuer.half fun h => { h with nextPc := some tgt }
/-- The bundle falls through to FT (R247). -/
def falls (s : State) : State := updHalf s s.issuer.gcn s.issuer.half fun h => { h with nextPc := none }
/-- The address of the bundle plus 4 × `off`, with bits [1:0] cleared (R247). -/
def jumpTo (s : State) (off : Int) : Word := BitVec.ofInt 64 ((curH s).pc.toNat + 4 * off) &&& (BitVec.ofInt 64 (-4))

/-- Memory, pod storage with the writes that no wait has covered, C-dies and the agenda are the same. -/
def SameStorage (s t : State) : Prop :=
  t.mem = s.mem ∧ t.vregs = s.vregs ∧ t.tiles = s.tiles ∧ t.vers = s.vers ∧ t.sp = s.sp ∧ t.unseen = s.unseen ∧
    t.spfmt = s.spfmt ∧ t.dies = s.dies ∧ t.agenda = s.agenda
/-- Every context but the issuing one is the same. -/
def SameOthers (s t : State) : Prop := t.issuer = s.issuer ∧ ∀ g, g ≠ s.issuer.gcn → ctxOf t g = ctxOf s g
/-- The registers, active mask, stalk and program counter of both halves, and the special registers, trap vector,
barriers, handles and commands of a context are the same. -/
def SameRegs (c d : Ctx) : Prop :=
  (∀ h n, rdSH (d.half h) n = rdSH (c.half h) n) ∧ (∀ h, (d.half h).kreg = (c.half h).kreg) ∧
  (∀ h, (d.half h).breg = (c.half h).breg) ∧ (∀ h, (d.half h).am = (c.half h).am) ∧
  (∀ h, (d.half h).stalk = (c.half h).stalk) ∧ (∀ h, (d.half h).pc = (c.half h).pc ∨
    d.phase = .frozen ∧ (d.half h).pc = (c.half h).pc &&& 0x0000FFFFFFFFFFFC#64) ∧
  (∀ h, (d.half h).stq = (c.half h).stq) ∧ d.shp = c.shp ∧ d.stk = c.stk ∧ d.stktop = c.stktop ∧
  d.stklim = c.stklim ∧ d.vstep = c.vstep ∧ d.mstep = c.mstep ∧ d.xstep = c.xstep ∧ d.tvec = c.tvec ∧
  d.tctl = c.tctl ∧ d.tfva = c.tfva ∧ d.tfinfo = c.tfinfo ∧ d.meva = c.meva ∧ d.meinfo = c.meinfo ∧
  d.upfva = c.upfva ∧ d.upfval = c.upfval ∧ d.upfinfo = c.upfinfo ∧ d.prvtop = c.prvtop ∧ d.prvhw = c.prvhw ∧
  d.prvlo = c.prvlo ∧ d.issued = c.issued ∧ d.completed = c.completed ∧ d.arrivals = c.arrivals ∧
  d.handles = c.handles ∧ d.latch = c.latch ∧ d.ascl = c.ascl ∧ d.cmds = c.cmds

/-- TSW of a freeze, as the bit positions of R393 give it. -/
def tswValue (cause arg rep slot : Nat) (split spareHalf wait : Bool) : Nat :=
  1 + cause * 2 ^ 8 + slot * 2 ^ 21 + (if wait then 2 ^ 24 else 0) + (if spareHalf then 2 ^ 25 else 0)
    + (if split then 2 ^ 26 else 0) + rep * 2 ^ 32 + arg * 2 ^ 48
/-- The other half of the issuing context, if it has one, stands at a boundary between issues or has already stopped
for a freeze (R195). -/
def OtherStopped (s : State) : Prop :=
  ∀ h ∈ (cur s).halves, h ≠ s.issuer.half → ((cur s).half h).wait = .stopped ∨ ((cur s).half h).begun = false
/-- What a context leaves when it becomes Frozen: the TPC of both halves, and, when it is queued, its place in the
handler's queue, or with TVEC = 0 the launch stopped under fatal cause 0x04 (R393, R399, R402). -/
def BecomesFrozen (s t : State) (queued : Bool) : Prop :=
  (cur t).phase = .frozen ∧ (cur t).prim.tpc = (cur s).prim.pc &&& 0x0000FFFFFFFFFFFC#64 ∧
  (cur t).spare.map (·.tpc) = (cur s).spare.map (·.pc &&& 0x0000FFFFFFFFFFFC#64) ∧
  (queued = false → t.pods = s.pods) ∧
  (queued = true → (cur s).tvec ≠ 0#64 →
    (pod t (s.issuer.gcn / 8)).queue = (pod s (s.issuer.gcn / 8)).queue ++ [s.issuer.gcn % 8]) ∧
  (queued = true → (cur s).tvec = 0#64 → t.pods = s.pods ∧ ∀ l, (cur s).launch = some l →
    launchOf t l = (launchOf s l).map fun x =>
      if x.fatal.isSome then x else { x with fatal := some (4, s.issuer.gcn) })
/-- What taking a trap in an ordinary context leaves (R195, R393, R395, R399, R402). No register is written. The first
trap of the context records TSW; the context is frozen at once when the other half has stopped, and otherwise the half
that trapped stops. -/
def Trapped (s t : State) (cause arg slot : Nat) (wait : Bool) : Prop :=
  SameStorage s t ∧ SameOthers s t ∧ SameRegs (cur s) (cur t) ∧
  (∀ h, ((cur t).half h).pend = ((cur s).half h).pend) ∧
  (s.issuer.half ∈ (cur s).halves →
    ((cur s).stopBy = none →
      (cur t).tsw.toNat = tswValue cause arg (curH s).rep slot (cur s).spare.isSome (s.issuer.half == .spare) wait) ∧
    ((cur s).stopBy ≠ none → (cur t).tsw = (cur s).tsw) ∧
    (OtherStopped s → BecomesFrozen s t ((cur s).stopBy.getD true)) ∧
    (¬ OtherStopped s → (cur t).phase = (cur s).phase ∧ (curH t).wait = .stopped ∧ t.pods = s.pods))

/-! ### Scalar results -/

/-- Results of the arithmetic of R236 and R237, by integer arithmetic. -/
def arith (i : Instr) (s : State) : Option (SReg × Word) :=
  let u := fun r => (rdS s r).toNat
  let i64 := fun r => (rdS s r).toInt
  let sh := fun r => (rdS s r).toNat % 64
  match i with
  | .add d a b => some (d, BitVec.ofNat 64 (u a + u b))
  | .sub d a b => some (d, BitVec.ofInt 64 (i64 a - i64 b))
  | .mul d a b => some (d, BitVec.ofNat 64 (u a * u b))
  | .mulhs d a b => some (d, BitVec.ofInt 64 (i64 a * i64 b / 2 ^ 64))
  | .mulhu d a b => some (d, BitVec.ofNat 64 (u a * u b / 2 ^ 64))
  | .and d a b => some (d, BitVec.ofNat 64 (u a &&& u b))
  | .or d a b => some (d, BitVec.ofNat 64 (u a ||| u b))
  | .xor d a b => some (d, BitVec.ofNat 64 (u a ^^^ u b))
  | .shl d a b => some (d, BitVec.ofNat 64 (u a * 2 ^ sh b))
  | .shr d a b => some (d, BitVec.ofNat 64 (u a / 2 ^ sh b))
  | .sra d a b => some (d, BitVec.ofInt 64 (i64 a / 2 ^ sh b))
  | .min d a b => some (d, if i64 a ≤ i64 b then rdS s a else rdS s b)
  | .max d a b => some (d, if i64 a ≤ i64 b then rdS s b else rdS s a)
  | .minu d a b => some (d, if u a ≤ u b then rdS s a else rdS s b)
  | .maxu d a b => some (d, if u a ≤ u b then rdS s b else rdS s a)
  | .addi d a imm => some (d, BitVec.ofInt 64 (i64 a + imm.toInt))
  | .andi d a imm => some (d, rdS s a &&& BitVec.ofInt 64 imm.toInt)
  | .ori d a imm => some (d, rdS s a ||| BitVec.ofInt 64 imm.toInt)
  | .xori d a imm => some (d, rdS s a ^^^ BitVec.ofInt 64 imm.toInt)
  | .shli d a imm => some (d, BitVec.ofNat 64 (u a * 2 ^ imm.toNat))
  | .shri d a imm => some (d, BitVec.ofNat 64 (u a / 2 ^ imm.toNat))
  | .srai d a imm => some (d, BitVec.ofInt 64 (i64 a / 2 ^ imm.toNat))
  | _ => none
/-- When a condition of R238 holds, over integers. -/
def Holds (cc : Cond) (a b : Word) : Prop :=
  match cc with
  | .eq => a.toNat = b.toNat
  | .ne => a.toNat ≠ b.toNat
  | .lt => a.toInt < b.toInt
  | .ge => b.toInt ≤ a.toInt
  | .ltu => a.toNat < b.toNat
  | .geu => b.toNat ≤ a.toNat
/-- Results of the bit instructions of R240, by counting and masking. -/
def bitResult (i : Instr) (s : State) : Option (SReg × Word) :=
  match i with
  | .clz d a => some (d, BitVec.ofNat 64 ((List.range 64).takeWhile fun k => !(rdS s a).getLsbD (63 - k)).length)
  | .ctz d a => some (d, BitVec.ofNat 64 ((List.range 64).takeWhile fun k => !(rdS s a).getLsbD k).length)
  | .popc d a => some (d, BitVec.ofNat 64 ((List.range 64).filter fun k => (rdS s a).getLsbD k).length)
  | .bext d a pos lm1 => some (d, BitVec.ofNat 64 ((rdS s a).toNat / 2 ^ pos.toNat % 2 ^ (lm1.toNat + 1)))
  | .bins d a pos lm1 =>
    let m := BitVec.ofNat 64 ((2 ^ (lm1.toNat + 1) - 1) * 2 ^ pos.toNat)
    some (d, (rdS s d &&& ~~~m) ||| ((rdS s a <<< pos.toNat) &&& m))
  | _ => none
/-- Results of the moves of R241 and R242 that write a scalar register. -/
def moveResult (i : Instr) (s : State) : Option (SReg × Word) :=
  match i with
  | .movi d imm => some (d, BitVec.ofInt 64 imm.toInt)
  | .movx d imm => some (d, imm)
  | .movk d k => some (d, rdK s k)
  | _ => none
/-- Results and latencies of the moves of R242 into staging and index-base registers. -/
def stagingResult (i : Instr) (s : State) : Option (Nat × Wr) :=
  match i with
  | .kmov k a => some (1, .k k (rdS s a))
  | .kmovi k imm => some (1, .k k (BitVec.ofInt 64 imm.toInt))
  | .bmov b a => some (2, .b b (BitVec.ofNat 8 ((rdS s a).toNat % 256)))
  | .bmovi b imm => some (2, .b b imm)
  | .badd b imm => some (2, .b b (BitVec.ofInt 8 ((rdB s b).toNat + imm.toInt)))
  | _ => none
/-- The instructions that only compute a register from registers. -/
def registerOnly : Instr → Bool
  | .add .. | .sub .. | .mul .. | .mulhs .. | .mulhu .. | .and .. | .or .. | .xor .. | .shl .. | .shr .. | .sra ..
  | .min .. | .max .. | .minu .. | .maxu .. | .addi .. | .andi .. | .ori .. | .xori .. | .shli .. | .shri .. | .srai ..
  | .cmp .. | .cmpi .. | .sel .. | .clz .. | .ctz .. | .popc .. | .bext .. | .bins .. | .movi .. | .movx ..
  | .kmov .. | .kmovi .. | .movk .. | .bmov .. | .bmovi .. | .badd .. | .csrr .. | .csrw .. | .csrset .. | .csrclr ..
  | .ldsp .. | .stsp .. | .nop | .vnop | .mnop | .xnop | .gnop | .br .. | .jmp .. | .jr .. | .loop .. => true
  | _ => false

/-! ### Memory and scratchpad words -/

/-- n loaded bytes as a register value: sign- or zero-extended (R243, R245). -/
def loaded (sx : Bool) (n x : Nat) : Word :=
  if sx then BitVec.ofInt 64 (Int.bmod x (2 ^ (8 * n))) else BitVec.ofNat 64 x
/-- Bytes of an access size (R243). -/
def bytesOfSize : Size → Nat
  | .b => 1
  | .h => 2
  | .w => 4
  | .d => 8
/-- The address A + sext(OFF) × size in 64 bits (R243, R245). -/
def addrOf {n : Nat} (s : State) (a : SReg) (off : BitVec n) (sz : Size) : Nat :=
  (BitVec.ofInt 64 ((rdS s a).toNat + off.toInt * bytesOfSize sz)).toNat
/-- n bytes from a local address lie in one bank of the portion (R52). -/
def InPortion (s : State) (la n : Nat) : Prop :=
  la / 16384 < (ctxOf s (served s)).spn ∧ la % 16384 + n ≤ 16384
/-- Bytes of a scalar load and the state that its access leaves: through held or filled lines of the stack cache,
or from memory under the context's own queued stores; `none` where it traps or waits (R68, R69, R155, R244). -/
def loadOf (s : State) (va n : Nat) (ch : Hint) : Option (Nat × State × Bool) :=
  match stackPart s va n with
  | .spans => none
  | .inside =>
    match stkFills s s.issuer.gcn s.issuer.half va n with
    | .ok t => some (ofBytes (stkRead t t.issuer.gcn va n), t, true)
    | _ => none
  | .outside =>
    match memRead s (agentOf s s.issuer.gcn) .sload va n ch with
    | .ok bs t => some (ofBytes (overlayStk (cur t) va (overlayStq (curH t) va bs)), t, false)
    | _ => none
/-- The state after a scalar store of bytes: in held lines of the stack cache, or at the end of the store queue
with every piece translated; `none` where it traps or waits (R155, R244). -/
def storeOf (s : State) (va : Nat) (bs : List Byte) (ch : Hint) : Option State :=
  match stackPart s va bs.length with
  | .spans => none
  | .inside =>
    match stkFills s s.issuer.gcn s.issuer.half va bs.length with
    | .ok t => some (stkWrite t s.issuer.gcn va bs)
    | _ => none
  | .outside =>
    match (xlate (agentOf s s.issuer.gcn) .sstore (pieces bs.length) s va bs.length).bind fun l t =>
        (segsReady t l).bind fun _ t => .ok l t with
    | .ok l t =>
      let t := handlerStore t va bs.length
      let t := updCur t fun c => { c with stk := c.stk.map fun x =>
        { x with data := BitVec.ofNat 512 (ofBytes (overlay x.va (bytesOf 64 x.data.toNat) va bs)) } }
      let urg := (agentOf t s.issuer.gcn).urgent
      some (updHalf t t.issuer.gcn t.issuer.half fun x => { x with stq := x.stq ++ [⟨dealBytes l bs, ch, urg, .own, 0⟩] })
    | _ => none
/-- Whether n bytes overlap the stack of an ordinary context (R246). -/
def OverStack (s : State) (va n : Nat) : Prop :=
  s.issuer.gcn % 8 ≠ 4 ∧ va < (cur s).stktop.toNat ∧ (cur s).stklim.toNat < va + n ∧
    (cur s).stklim.toNat < (cur s).stktop.toNat
/-- What an atomic writes over an old value of w bytes, or none (R115, R246). -/
def atomicNew (i : Instr) (s : State) (old : Nat) : Option Nat :=
  let v := fun (wide : Bool) (r : SReg) => (rdS s r).toNat % 2 ^ (if wide then 64 else 32)
  match i with
  | .atcas w d _ b => if old = v w d then some (v w b) else none
  | .atadd w _ _ b => some ((old + v w b) % 2 ^ (if w then 64 else 32))
  | .atswp w _ _ b => some (v w b)
  | .atand w _ _ b => some (old &&& v w b)
  | .ator w _ _ b => some (old ||| v w b)
  | .atxor w _ _ b => some (old ^^^ v w b)
  | _ => none
/-- Width, destination and address register of an atomic (R246). -/
def atomicForm : Instr → Option (Bool × SReg × SReg)
  | .atcas w d a _ | .atadd w d a _ | .atswp w d a _ | .atand w d a _ | .ator w d a _ | .atxor w d a _ => some (w, d, a)
  | _ => none
/-- The access of an atomic at its home slice, with the operands of `s` and the earlier stores made in `s1`: translated,
served by the slice, read under the normal hint, and written when the operation writes, which leaves the line where the read
has put it; `none` where it faults or waits (R108, R110, R115). -/
def atomicAccess (i : Instr) (s s1 : State) (va w : Nat) : Option (Nat × State) :=
  let ag := agentOf s1 s1.issuer.gcn
  let r := (xlate ag .atomic 1 s1 va w).bind fun l t =>
    if storeBefore t ag l then .wait [] else atSlices t ag true l fun t =>
      (segsReady t l).bind fun _ t => (rdSegs .normal ag.urgent t l).bind fun bs t =>
      match atomicNew i s (ofBytes bs) with
      | none => .ok (ofBytes bs) t
      | some v => (wrSegs .strm ag.urgent t (dealBytes l (bytesOf w v))).bind fun _ t => .ok (ofBytes bs) t
  match r with
  | .ok old t => some (old, t)
  | _ => none

end Sys2Proof.Claims
namespace Sys2Proof.Claims
open Sys2Proof.Machine

/-! ### Waits, CSRs, traps and the ends of contexts -/

/-- The nop of a slot (R209). -/
def nopOf : Slot → Instr
  | .sa | .sb => .nop
  | .v => .vnop
  | .m => .mnop
  | .x => .xnop
  | .g => .gnop

/-- The issuing half waits for `w` with nothing else changed; at a switch point a context that is not split parks
(R60, R185). -/
def Stalls (s t : State) (w : Wait) (switch : Bool) : Prop :=
  (curH t).wait = w ∧ SameStorage s t ∧ SameOthers s t ∧ SameRegs (cur s) (cur t) ∧
    (switch = true → (cur s).spare = none → s.issuer.half = .primary → (cur t).phase = .parked) ∧
    (switch = false → (cur t).phase = (cur s).phase)
/-- The launch of the issuing context is `x`, admitted as number `l`. -/
def OfLaunch (s : State) (l : Nat) (x : Launch) : Prop := (cur s).launch = some l ∧ launchOf s l = some x
/-- Where `barr` and `barw` are legal (R235, R250). -/
def BarrierLegal (s : State) (x : Launch) (bk : BarKind) (id : BitVec 4) : Prop :=
  s.issuer.gcn % 8 ≠ 4 ∧ (cur s).spare = none ∧ (bk ≠ .team → id.toNat < 4 ∧ x.kern.cores = true)
/-- How far the release of an arrival makes stores visible: the scope of the barrier (R153, R162). -/
def visOf : BarKind → Vis
  | .team | .die => .die
  | .grid => .pkg
/-- The scope of a barrier kind (R162). -/
def scopeOf : BarKind → Scope
  | .team | .die => .die
  | .grid => .pkg
/-- The trap state a handler slot's own trap leaves, and the fatal stop 0x02 of the launch it serves (R402). -/
def HandlerTrapped (s t : State) (cause : Nat) : Prop :=
  (cur t).phase = .frozen ∧
  (cur t).tsw.toNat = tswValue cause 0 (cur s).prim.rep (cur s).prim.slot false false false ∧
  SameStorage s t ∧ SameOthers s t ∧ SameRegs (cur s) (cur t) ∧
  ∀ l, (ctxOf s (served s)).launch = some l → launchOf t l = (launchOf s l).map fun x =>
    if x.fatal.isSome then x else { x with fatal := some (2, served s) }

/-- Fields of a register, each cut to its width and placed at its first bit. -/
def packed (fs : List (Nat × Nat × Nat)) : Word :=
  BitVec.ofNat 64 (fs.foldl (fun a f => a + f.1 % 2 ^ f.2.2 * 2 ^ f.2.1) 0)
/-- What a CSR below 0x200 of context x, number g, reads as (R57, R114, R145, R181, R218, R252, R256, R393). -/
def csrTableOf (x : Ctx) (g : Nat) (c : BitVec 12) : Option Word :=
  if c = 0x110#12 then some (packed [(x.splo, 0, 4), (x.spn, 16, 5)])
  else if c = 0x111#12 then some (packed [(x.vbase, 0, 8), (x.vcnt, 8, 9), (x.abase, 24, 3), (x.acnt, 28, 4)])
  else if c = 0x120#12 then some x.stktop
  else if c = 0x121#12 then some x.stklim
  else if c = 0x130#12 then some (if x.dbgPend then 1#64 else 0#64)
  else if c = 0x150#12 then some x.meva
  else if c = 0x151#12 then some x.meinfo
  else if c = 0x154#12 then some x.tfva
  else if c = 0x155#12 then some x.tfinfo
  else if c = 0x160#12 then some x.upfva
  else if c = 0x161#12 then some x.upfval
  else if c = 0x162#12 then some x.upfinfo
  else if c = 0x178#12 then some (packed [(g, 0, 11), (g / 256, 14, 3), (x.tpod, 17, 3), (x.ridx, 20, 5),
    (x.kind, 25, 1), (x.role, 26, 2), (x.team, 32, 16)])
  else if c = 0x180#12 then some x.vstep
  else if c = 0x181#12 then some x.mstep
  else if c = 0x182#12 then some x.xstep
  else if c = 0x188#12 then some (packed [(x.completed, 0, 16), (x.issued, 16, 16)])
  else if c = 0x190#12 then some x.tsw
  else if c = 0x191#12 then
    some (if x.tsw.getLsbD 25 then (x.spare.map (·.tpc)).getD x.prim.tpc else x.prim.tpc)
  else if c = 0x192#12 then some x.tvec
  else if c = 0x193#12 then some x.tctl
  else none
/-- What a CSR of the issuing context reads as. -/
def csrTable (s : State) (c : BitVec 12) : Option Word := csrTableOf (cur s) s.issuer.gcn c
/-- CSRs that software may write in an ordinary context, with the bits that a write keeps (R57, R218, R393). -/
def csrKeeps (c : BitVec 12) : Option Word :=
  if c = 0x120#12 ∨ c = 0x121#12 then some 0x0000FFFFFFFFFFC0#64
  else if c = 0x180#12 then some 0x00000000FF03FFFF#64
  else if c = 0x181#12 then some 0x00000007FF03FFFF#64
  else if c = 0x182#12 then some 0x03FFFFFFFFFFFFFF#64
  else if c = 0x192#12 then some 0x0000FFFFFFFFFFFC#64
  else if c = 0x193#12 then some 1#64
  else none
/-- Numbers that no register of an ordinary context or handler slot has (R256, R399). -/
def Unassigned (c : BitVec 12) : Prop :=
  let n := c.toNat
  n < 0x100 ∨ 0x112 ≤ n ∧ n < 0x120 ∨ 0x122 ≤ n ∧ n < 0x130 ∨ 0x131 ≤ n ∧ n < 0x140 ∨ 0x143 ≤ n ∧ n < 0x150 ∨
    n = 0x152 ∨ n = 0x153 ∨ 0x156 ≤ n ∧ n < 0x160 ∨ 0x163 ≤ n ∧ n < 0x170 ∨ 0x174 ≤ n ∧ n < 0x178 ∨
    0x179 ≤ n ∧ n < 0x180 ∨ 0x183 ≤ n ∧ n < 0x188 ∨ 0x189 ≤ n ∧ n < 0x190 ∨ 0x194 ≤ n ∧ n < 0x200 ∨ 0x2C0 ≤ n
/-- Numbers whose register has only RO and RO/H fields, reached from an ordinary context (R255, R256). -/
def ReadOnlyCsr (c : BitVec 12) : Prop :=
  c.toNat ∈ [0x110, 0x111, 0x150, 0x151, 0x154, 0x155, 0x160, 0x161, 0x162, 0x178, 0x188, 0x190, 0x191]

/-- The half has a result that writes CSR c and was issued in its context's issue cycle `beat` (R234). -/
def WritesNow (x : Half) (beat : Nat) (c : BitVec 12) : Prop :=
  ∃ p ∈ x.pend, p.beat = beat ∧ ∃ v m, Wr.csr c.toNat v m ∈ p.writes
/-- A half without its writes of CSR c of that issue cycle (R234). -/
def withoutCsr (x : Half) (beat : Nat) (c : BitVec 12) : Half :=
  { x with pend := x.pend.map fun p =>
      if p.beat = beat then { p with writes := p.writes.filter fun w =>
        match w with
        | .csr n _ _ => n != c.toNat
        | _ => true }
      else p }
/-- An instruction writes v to CSR c, which read as `old`, and `old` to D (R255). -/
def WritesCsr (s : State) (i : Instr) (c : BitVec 12) (d : SReg) (old v : Word) : Prop :=
  (∃ a, i = .csrw c a ∧ d = 0#6 ∧ v = rdS s a) ∨ (∃ a, i = .csrset d c a ∧ v = old ||| rdS s a) ∨
    ∃ a, i = .csrclr d c a ∧ v = old &&& ~~~(rdS s a)
/-- A value that SPFMT takes: a format code of R55 and no reserved bit. -/
def FormatValue (x : Word) : Prop := x.toNat < 2 ^ 24 ∧ x.toNat / 32 % 2 ^ 11 = 0 ∧ x.toNat % 32 ≤ 0x10
/-- A value that SHP takes: M and N to 32 and no reserved bit (R196). -/
def ShapeValue (x : Word) : Prop :=
  x.toNat < 2 ^ 48 ∧ x.toNat / 2 ^ 22 % 2 ^ 10 = 0 ∧ x.toNat / 64 % 2 ^ 10 = 0 ∧ x.toNat % 64 ≤ 32 ∧
    x.toNat / 2 ^ 16 % 64 ≤ 32
/-- A per-engine CSR as the lowest-numbered active engine has it, 0 with none active (R57). -/
def laneCsr (m : Mask) (f : Nat → Nat) : Word := BitVec.ofNat 64 (((((List.range 16).filter fun e => m.getLsbD e).head?).map f).getD 0)

/-- The context that HSEL names (R399). -/
def selected (s : State) : Nat := s.issuer.gcn / 8 * 8 + (cur s).hsel.toNat % 4
/-- HSEL shows a context of the served team (R399). -/
def Shown (s : State) : Prop :=
  let x := ctxOf s (selected s)
  let v := ctxOf s (served s)
  x.phase ≠ .free ∧ x.launch = v.launch ∧ x.launch ≠ none ∧ x.team = v.team
/-- The half that HSEL names; none when it does not exist (R399). -/
def selectedHalf (s : State) : Option HalfId :=
  if (cur s).hsel.getLsbD 2 then (if (ctxOf s (selected s)).spare = none then none else some .spare) else some .primary
/-- The selected context is Frozen with the steps of R396 done. -/
def ViewOpen (s : State) : Prop := (ctxOf s (selected s)).phase = .frozen ∧ (ctxOf s (selected s)).settling = false
/-- The views that act on the selected half (R399). -/
def HalfView (c : BitVec 12) : Prop :=
  let n := c.toNat
  n = 0x202 ∨ n = 0x203 ∨ 0x208 ≤ n ∧ n < 0x2A9 ∨ n = 0x2AC
/-- A view of a half of a context, by its number (R188, R399). -/
def halfViewTable (x : Ctx) (z : Half) (n : Nat) : Option Word :=
  if n = 0x202 then some z.tpc
  else if n = 0x203 then some (z.am.setWidth 64)
  else if 0x208 ≤ n ∧ n < 0x248 then
    some (match z.stalk.reverse[(n - 0x208) / 2]? with
      | none => 0#64
      | some e =>
        if n % 2 = 0 then packed [(if e.split then 1 else 0, 0, 2), (e.rpc.toNat / 4, 2, 46), (e.pend.toNat, 48, 16)]
        else packed [(e.ppc.toNat / 4, 2, 46), (e.saved.toNat, 48, 16)])
  else if 0x248 ≤ n ∧ n < 0x288 then some (rdSH z (BitVec.ofNat 6 (n - 0x248)))
  else if 0x288 ≤ n ∧ n < 0x2A8 then some (mget 0#64 z.kreg (n - 0x288))
  else if n = 0x2A8 then some (packed ((List.range 4).map fun i => ((mget 0#8 z.breg i).toNat, 8 * i, 8)))
  else if n = 0x2AC ∧ z.pend.length < 64 then
    some (BitVec.ofNat 64 (if x.phase = .frozen ∧ x.settling = false then z.pend.length else 0))
  else none
/-- A view of the selected context that names no half, by its number (R399). -/
def viewTable (s : State) (n : Nat) : Option Word :=
  let k := selected s
  let x := ctxOf s k
  if n = 0x201 then some x.tsw
  else if n = 0x204 then some x.tctl
  else if n = 0x205 then some x.tvec
  else if n = 0x206 then some (packed [(x.completed, 0, 16), (x.issued, 16, 16)])
  else if n = 0x207 then
    let d := ((selectedHalf s).map fun h => (x.half h).stalk.length).getD 0
    if d < 64 then some (packed [(d, 0, 6), (if x.spare = none then 0 else 1, 8, 1)]) else none
  else if n = 0x2A9 then
    some (packed ((List.range x.acnt).map fun a => (accver s k ((cur s).hsel.toNat / 16 % 16) a, 6 * a, 6)))
  else if n = 0x2AA then some (cur s).hvwin
  else if n = 0x2AB then some (cur s).htwin
  else if n = 0x2AD then some x.hxflt
  else if n = 0x2AE then some x.hxfva
  else if n = 0x2AF then some 0#64
  else if 0x2B0 ≤ n ∧ n < 0x2C0 then some (BitVec.ofNat 64 (mget 0 x.hlprog (n - 0x2B0)))
  else none
/-- The TSW with another SLOT and REP (R393, R399). -/
def withSlotRep (w : Word) (slot rep : Nat) : Word :=
  (w &&& 0xFFFFFF00FF1FFFFF#64) ||| BitVec.ofNat 64 (slot * 2 ^ 21 + rep * 2 ^ 32)
/-- Whether TSW names the half (R393). -/
def namedBy (x : Ctx) (h : HalfId) : Bool := decide (h = if x.tsw.getLsbD 25 ∧ x.spare ≠ none then .spare else .primary)
/-- Only context k may differ, and no storage (R399). -/
def OnlyContext (s t : State) (k : Nat) : Prop := SameStorage s t ∧ ∀ j, j ≠ k → ctxOf t j = ctxOf s j
/-- What a write of v through a view of the selected half leaves (R188, R399). -/
def HalfViewWritten (s t : State) (k : Nat) (h : HalfId) (n : Nat) (v : Word) : Prop :=
  let x := ctxOf s k
  let y := (ctxOf t k).half h
  let z := x.half h
  OnlyContext s t k ∧ (ctxOf t k).phase = x.phase ∧
  (n = 0x202 → y.tpc = v &&& 0x0000FFFFFFFFFFFC#64 ∧ y.pc = y.tpc ∧ y.slot = 0 ∧ y.rep = 0) ∧
  (ctxOf t k).tsw = (if n = 0x202 ∧ namedBy x h then withSlotRep x.tsw 0 0 else x.tsw) ∧
  y.am = (if n = 0x203 then v.setWidth 16 else z.am) ∧
  (∀ r, rdSH y r = if n = 0x248 + r.toNat ∧ r ≠ 0#6 then v else rdSH z r) ∧
  (∀ r, r < 32 → mget 0#64 y.kreg r = if n = 0x288 + r then v else mget 0#64 z.kreg r) ∧
  (∀ r, r < 4 → mget 0#8 y.breg r = if n = 0x2A8 then v.extractLsb' (8 * r) 8 else mget 0#8 z.breg r) ∧
  (¬ (0x208 ≤ n ∧ n < 0x248) → y.stalk = z.stalk) ∧
  ∀ i e, 0x208 ≤ n → n < 0x248 → z.stalk.reverse[(n - 0x208) / 2]? = e → i = (n - 0x208) / 2 →
    match e with
    | none => y.stalk = z.stalk
    | some e =>
      let low := v.toNat % 4
      if (n % 2 = 0 ∧ (2 ≤ low ∨ (low = 1 ∧ x.spare = none))) ∨ (n % 2 = 1 ∧ low ≠ 0) then y.stalk = z.stalk
      else y.stalk.reverse = z.stalk.reverse.set i
        (if n % 2 = 0 then { e with pend := v.extractLsb' 48 16, rpc := v &&& 0x0000FFFFFFFFFFFC#64, split := low == 1 }
         else { e with saved := v.extractLsb' 48 16, ppc := v &&& 0x0000FFFFFFFFFFFC#64 })

/-- A halt has nothing to wait for and nothing to report (R167, R260). -/
def HaltReady (s : State) : Prop :=
  s.issuer.gcn % 8 ≠ 4 ∧ s.issuer.half = .primary ∧ (cur s).spare = none ∧ (cur s).prim.pend = [] ∧
    (∀ x ∈ (cur s).cmds, x.fin = true ∧ (x.flt = none ∨ x.reported = true)) ∧ (cur s).deferred = none ∧
    (∀ p ∈ s.pkg.pairs, p.gcn ≠ s.issuer.gcn) ∧ (cur s).prim.stq = [] ∧ (cur s).prim.lost = [] ∧ (cur s).stk = []

end Sys2Proof.Claims
namespace Sys2Proof.Claims
open Sys2Proof.Machine

/-! ### Vector, matrix and gang slots -/

/-- The lanes of a mask in increasing order. -/
def activeLanes (m : Mask) : List Nat := (List.range 16).filter fun e => m.getLsbD e
/-- Registers and formats that a vector operand may name: direct below VCNT, or index-based (R49, R211). -/
def InBudget (s : State) (o : VOp) : Prop :=
  match o with
  | .direct r => r.toNat < vcntOf s s.issuer.gcn
  | .indexed _ _ => True
/-- The register an operand names: direct, or base plus offset plus running offset, modulo VCNT (R211, R219). -/
def regOf (s : State) (o : VOp) : Nat :=
  match o with
  | .direct r => r.toNat
  | .indexed b off => ((rdB s b).toNat + off.toNat + s.issuer.env.roff) % vcntOf s s.issuer.gcn
/-- Element k of an operand in a lane. -/
def el (s : State) (e : Nat) (o : VOp) (k : Nat) : W32 := (rdV s s.issuer.gcn e (regOf s o)).extractLsb' (32 * k) 32
/-- The operands are within the budget, and the debug mode has no pending bit on a source in an active lane
(R49, R64). -/
def VReady (s : State) (d : VOp) (srcs : List VOp) : Prop :=
  (∀ o ∈ d :: srcs, InBudget s o) ∧ ∀ o ∈ srcs, ∀ e ∈ activeLanes (curH s).am, pendingV s e (regOf s o) = false
/-- A vector instruction has issued: in each active lane register D receives, at a latency, the register whose
elements are `val`, and the operation stays in the v slot (R261, R279). -/
def VDone (s t : State) (i : Instr) (d : VOp) (lat : Nat) (cap : Cap) (val : Nat → Nat → W32) : Prop :=
  ∃ f : Nat → VReg, (∀ e k, k < 64 → (f e).extractLsb' (32 * k) 32 = val e k) ∧
    t = leave (queue s lat ((activeLanes (curH s).am).map fun e => .v e (regOf s d) (f e))) .v i cap none 0
/-- Binary integer operations of R264 over integers. -/
def vint (i : Instr) : Option (VOp × VOp × VOp × (W32 → W32 → W32)) :=
  match i with
  | .viadd d a b => some (d, a, b, fun x y => BitVec.ofInt 32 (x.toInt + y.toInt))
  | .visub d a b => some (d, a, b, fun x y => BitVec.ofInt 32 (x.toInt - y.toInt))
  | .vimul d a b => some (d, a, b, fun x y => BitVec.ofInt 32 (x.toInt * y.toInt))
  | .vand d a b => some (d, a, b, fun x y => BitVec.ofNat 32 (x.toNat &&& y.toNat))
  | .vor d a b => some (d, a, b, fun x y => BitVec.ofNat 32 (x.toNat ||| y.toNat))
  | .vxor d a b => some (d, a, b, fun x y => BitVec.ofNat 32 (x.toNat ^^^ y.toNat))
  | .vshl d a b => some (d, a, b, fun x y => BitVec.ofNat 32 (x.toNat * 2 ^ (y.toNat % 32)))
  | .vshr d a b => some (d, a, b, fun x y => BitVec.ofNat 32 (x.toNat / 2 ^ (y.toNat % 32)))
  | .vsra d a b => some (d, a, b, fun x y => BitVec.ofInt 32 (x.toInt / 2 ^ (y.toNat % 32)))
  | .vimin d a b => some (d, a, b, fun x y => if x.toInt ≤ y.toInt then x else y)
  | .vimax d a b => some (d, a, b, fun x y => if x.toInt ≤ y.toInt then y else x)
  | .viadds d a b => some (d, a, b, fun x y => BitVec.ofInt 32 (max (-2147483648) (min 2147483647 (x.toInt + y.toInt))))
  | .visubs d a b => some (d, a, b, fun x y => BitVec.ofInt 32 (max (-2147483648) (min 2147483647 (x.toInt - y.toInt))))
  | _ => none
/-- Binary float operations of R265, with their latencies. -/
def vfloat (i : Instr) : Option (VOp × VOp × VOp × Nat × (W32 → W32 → W32)) :=
  match i with
  | .vadd d a b => some (d, a, b, 4, fadd .rne)
  | .vsub d a b => some (d, a, b, 4, fun x y => fadd .rne x (y ^^^ 0x80000000#32))
  | .vmul d a b => some (d, a, b, 4, fmul)
  | .vmin d a b => some (d, a, b, 2, fun x y => if isNan32 x || isNan32 y then 0x7FC00000#32 else
      if fcode x ≤ fcode y then x else y)
  | .vmax d a b => some (d, a, b, 2, fun x y => if isNan32 x || isNan32 y then 0x7FC00000#32 else
      if fcode x ≤ fcode y then y else x)
  | _ => none
where
  /-- The order of FP32 codes that are not NaN, with −0 below +0. -/
  fcode (x : W32) : Int := if x.toNat < 2 ^ 31 then x.toNat else 2 ^ 31 - 1 - (x.toNat : Int)
/-- Unary operations of R265 to R267 and R272, with their latencies. -/
def vunary (i : Instr) : Option (VOp × VOp × Nat × (W32 → W32)) :=
  match i with
  | .vabs d a => some (d, a, 2, fun x => if isNan32 x then 0x7FC00000#32 else BitVec.ofNat 32 (x.toNat % 2 ^ 31))
  | .vneg d a => some (d, a, 2, fun x => if isNan32 x then 0x7FC00000#32 else x + 0x80000000#32)
  | .vcvt op rm sat d a => if sat && !op.quantises then none else some (d, a, 4, cvtElem op rm sat)
  | .vexp2 d a => some (d, a, 8, exp2F)
  | .vlog2 d a => some (d, a, 8, log2F)
  | .vrcp d a => some (d, a, 8, rcpF)
  | .vrsqrt d a => some (d, a, 8, rsqrtF)
  | .vtanh d a => some (d, a, 8, tanhF)
  | .vmov d a => some (d, a, 2, id)
  | _ => none
/-- When a vector comparison holds (R268): integers by value, floats by order of codes with ±0 equal. -/
def VHolds (cc : VCond) (x y : W32) : Prop :=
  let num := fun (z : W32) => if z.toNat % 2 ^ 31 = 0 then 0 else vfloat.fcode z
  let nan := isNan32 x = true ∨ isNan32 y = true
  match cc with
  | .feq => ¬ nan ∧ num x = num y
  | .fne => nan ∨ num x ≠ num y
  | .flt => ¬ nan ∧ num x < num y
  | .fle => ¬ nan ∧ num x ≤ num y
  | .fun_ => nan
  | .ieq => x = y
  | .ine => x ≠ y
  | .ilt => x.toInt < y.toInt
  | .ile => x.toInt ≤ y.toInt
  | .iltu => x.toNat < y.toNat
  | .ileu => x.toNat ≤ y.toNat
/-- The scalar operand of a vector instruction: as captured by a re-issue, else as read (R219, R279). -/
def captured (s : State) (v : Word) : Word := if s.issuer.env.re then s.issuer.env.cap.a else v
/-- A local address moved by the running offset of a re-issue (R219). -/
def stepped (s : State) (la : Nat) : Nat := (la + s.issuer.env.laOff) % 2 ^ 18

/-- A register group of n from an operand lies within the budget (R284, R285). -/
def GroupInBudget (s : State) (o : VOp) (n : Nat) : Prop :=
  match o with
  | .direct r => r.toNat + n ≤ vcntOf s s.issuer.gcn
  | .indexed _ _ => True
/-- Register g of a group (R284, R304). -/
def groupReg (s : State) (o : VOp) (g : Nat) : Nat :=
  match o with
  | .direct r => r.toNat + g
  | .indexed b off => ((rdB s b).toNat + off.toNat + s.issuer.env.roff + g) % vcntOf s s.issuer.gcn
/-- The tile and version of an accumulator operand pass the checks of R59 at once: the tile is in the budget and
every active lane's ACCVER is the version expected; `done` asks also that no earlier command on it is unfinished. -/
def VersionReady (s : State) (a : Acc) (idle : Bool) : Prop :=
  tileOf s a < (cur s).acnt ∧ ∀ e ∈ activeLanes (curH s).am,
    accver s s.issuer.gcn e (tileOf s a) = expected s a ∧ (idle = true → outstanding s e (tileOf s a) = 0)
/-- The same, for a command that may complete in some lanes at its issue: `done` names them. Their version advances and,
under CLR, their tile is cleared; nothing else of pod storage changes (R58, R299). -/
def IssuedAs (s t : State) (cls : Cls) (i : Instr) (lns : List Nat) (tl : Nat) (done : Nat → Prop) (clr : Bool)
    (P : Cmd → Prop) : Prop :=
  (∃ x, (cur t).cmds = (cur s).cmds ++ [x] ∧ x.id = (cur s).nextCmd ∧ x.cls = cls ∧ x.op = i ∧ x.batch = none ∧
    x.flt = none ∧ x.jobs.map (·.lane) = lns ∧ (∀ j ∈ x.jobs, j.fin = true ↔ done j.lane) ∧
    (lns = [] → x.fin = true) ∧ P x) ∧
  (cur t).nextCmd = (cur s).nextCmd + 1 ∧ t.vregs = s.vregs ∧
  (∀ e, e < 16 → ∀ u, u < (cur s).acnt →
    (e ∈ lns ∧ u = tl ∧ done e → accver t s.issuer.gcn e u = (accver s s.issuer.gcn e u + 1) % 64 ∧
      rdTile t s.issuer.gcn e u = if clr then 0#32768 else rdTile s s.issuer.gcn e u) ∧
    (¬ (e ∈ lns ∧ u = tl ∧ done e) → accver t s.issuer.gcn e u = accver s s.issuer.gcn e u ∧
      rdTile t s.issuer.gcn e u = rdTile s s.issuer.gcn e u)) ∧
  (storesDone s s.issuer.gcn = true → (cur s).stk = [] → t.mem = s.mem) ∧ SameOthers s t
/-- The issuing context has one more command, in the open batch, for the lanes `lns`, with the captures that `P`
states; nothing of pod storage, or of memory but for earlier stores, has changed yet (R252, R280, R306, R353). -/
def Issued (s t : State) (cls : Cls) (i : Instr) (lns : List Nat) (P : Cmd → Prop) : Prop :=
  (∃ x, (cur t).cmds = (cur s).cmds ++ [x] ∧ x.id = (cur s).nextCmd ∧ x.cls = cls ∧ x.op = i ∧ x.batch = none ∧
    x.flt = none ∧ x.jobs.map (·.lane) = lns ∧ (lns = [] → x.fin = true) ∧ P x) ∧
  (cur t).nextCmd = (cur s).nextCmd + 1 ∧ t.tiles = s.tiles ∧ t.vregs = s.vregs ∧ t.vers = s.vers ∧
  (storesDone s s.issuer.gcn = true → (cur s).stk = [] → t.mem = s.mem) ∧ SameOthers s t
/-- The checks of R281 on an `mma` or `mmag` all pass, in the order and with the operands that the rule gives. -/
def MmaReady (s : State) (ks : List Word) (shp : ShpR) (da db : BitVec 3) (gat : Bool) : Prop :=
  let w := blk ks 0
  let bla := stepped s (w % 2 ^ 18)
  let ixop := VOp.ofBits (BitVec.ofNat 8 (blk ks 1))
  ∃ af ad, mmaFmt w = some af ∧ af.digits? = some ad ∧ ad ≤ da.toNat ∧
    field 48 3 w = 0 ∧ field 18 12 w = 0 ∧ (gat = true → blk ks 1 / 2 ^ 8 = 0) ∧
    GroupInBudget s (mmaAreg w) 1 ∧ (gat = true → GroupInBudget s ixop 1) ∧
    ∀ e ∈ activeLanes (curH s).am,
      let sh := shapeOf s e shp
      (∀ x, bankFmt s e bla = some x →
        ∃ bd, (fmtOf x).digits? = some bd ∧ bd ≤ db.toNat ∧ (gat = true → (fmtOf x).isMx = false)) ∧
      sh.2.2 ≤ kMax af ∧
      (works sh = true →
        GroupInBudget s (mmaAreg w) (aRegs af sh.2.2) ∧
        (∀ l, latchOf s e = some l → l.fmt = field 51 5 w ∧ sh.2.2 ≤ l.ka) ∧
        (gat = true → GroupInBudget s ixop (ceilDiv sh.2.2 64)) ∧
        ∃ x, bankFmt s e bla = some x ∧ bFootprint s x bla (mmaBstr w) sh.2.1 sh.2.2
          (if gat then ((List.range sh.2.2).map fun k =>
              elemV (rdV s s.issuer.gcn e (groupReg s ixop (k / 64))) (k % 64)).filterMap gatherRow
            else List.range sh.2.2) = true)
/-- The checks of R297 to R299 on an `mstore` all pass; K is ignored (R297). -/
def MstoreReady (s : State) (ks : List Word) (shp : ShpR) (bias : Bool) : Prop :=
  let w := blk ks 0
  let dla := stepped s (w % 2 ^ 18)
  field 48 8 w = 0 ∧ field 18 12 w = 0 ∧ blk ks 1 / 2 ^ 32 = 0 ∧ (bias = true → GroupInBudget s (mstBreg w) 1) ∧
    ∀ e ∈ activeLanes (curH s).am,
      let sh := shapeOf s e shp
      (∀ x, bankFmt s e dla = some x → groupBytes (fmtOf x) ≠ 0) ∧
      (sh.1 ≠ 0 → sh.2.1 ≠ 0 →
        ∃ x, bankFmt s e dla = some x ∧ mstFootprint s x dla (mstDstr w) sh.1 sh.2.1 = true)
/-- The staging block of n registers from kB, as a fresh issue reads it or as a re-issue has captured it (R210,
R219). -/
def BlockIs (s : State) (kb : KReg) (n : Nat) (ks : List Word) : Prop :=
  kb.toNat + n ≤ 32 ∧ ks = if s.issuer.env.re then s.issuer.env.cap.ks
    else (List.range n).map fun i => rdK s (BitVec.ofNat 5 (kb.toNat + i))

/-- The new top entry of the stalk, with AM narrowed (R188, R189, R330). -/
def pushed (s : State) (e : StalkEntry) (m : Mask) : State :=
  updHalf s s.issuer.gcn s.issuer.half fun h => { h with stalk := e :: h.stalk, am := m }
/-- There is room on the issuing sequencer's stalk: 32 entries, or 8 in a spare half (R188, R192). -/
def StalkRoom (s : State) : Prop :=
  (curH s).stalk.length < (if s.issuer.half = .spare then 8 else 32)
/-- The fall-through address as a stalk entry holds it: VA[47:2] (R188). -/
def ftEntry (s : State) : Word := (curH s).ft &&& 0x0000FFFFFFFFFFFC#64
/-- Position of lane e in the order of R335: active lanes by (key, lane), then the others by lane. -/
def groupPlace (m : Mask) (key : Nat → Nat) (e : Nat) : Nat :=
  let before := fun e' => if m.getLsbD e' = m.getLsbD e then
      (if m.getLsbD e then key e' < key e ∨ key e' = key e ∧ e' < e else e' < e)
    else m.getLsbD e' = true
  ((List.range 16).filter fun e' => decide (before e')).length

end Sys2Proof.Claims
namespace Sys2Proof.Claims
open Sys2Proof.Machine

/-! ### Transfer slot and grammar unit -/

/-- The memory address that a staging register holds, moved by the running offset (R219, R311). -/
def baseVa (s : State) (w : Nat) : Word := BitVec.ofNat 64 (w % 2 ^ 48) + s.issuer.env.vaOff
/-- A staging register with the local address in its low bits moved by the running offset (R219). -/
def withLa (s : State) (w : Nat) : Word := BitVec.ofNat 64 (w / 2 ^ 18 * 2 ^ 18 + stepped s (w % 2 ^ 18))
/-- The third register of a row block is legal: RB from 1 to 16,384 and no reserved bit set (R311). -/
def RowRegister (w : Nat) : Prop := w < 2 ^ 63 ∧ field 36 12 w = 0 ∧ 1 ≤ w / 2 ^ 48 ∧ w / 2 ^ 48 ≤ 16384
/-- Local address of row r (R312). -/
def rowAt (s : State) (w r : Nat) : Nat := (stepped s (w % 2 ^ 18) + r * (w / 2 ^ 18 % 2 ^ 18)) % 2 ^ 18
/-- The checks of R305 on a row command all pass: the registers, the index group and every row that is not skipped. -/
def RowsReady (s : State) (n : Cnt) (ks : List Word) (ix : Option VOp) : Prop :=
  RowRegister (blk ks 2) ∧ ∀ e ∈ activeLanes (curH s).am,
    let c := countOf s e n (blk ks 0 / 2 ^ 48)
    (∀ v, ix = some v → GroupInBudget s v (ceilDiv c 64) ∧ c ≤ 4096) ∧
    ∀ r, r < c → (∀ v, ix = some v → (grpElem s e v r).toNat < 2 ^ 31) → InPortion s (rowAt s (blk ks 2) r) (blk ks 2 / 2 ^ 48)
/-- A command holds these captures, element counts and index values (R304, R306, R311). -/
def Holds4 (s : State) (n : Cnt) (fld : Nat) (ks : List Word) (mul : Nat) (ix : Option VOp) (x : Cmd) : Prop :=
  x.ks = ks ∧ ∀ j ∈ x.jobs, j.n = countOf s j.lane n fld * mul ∧ j.done = 0 ∧
    ∀ v, ix = some v → j.idx = (List.range (countOf s j.lane n fld)).map fun r => grpElem s j.lane v r
/-- The row commands: their counts, staging block, length, index operand (R302, R312, R314). -/
def rowForm : Instr → Option (Cnt × KReg × Nat × Option VOp)
  | .xld n kb _ | .xst n kb _ => some (n, kb, 3, none)
  | .xgath n kb _ v | .xscat n kb _ v => some (n, kb, 3, some v)
  | .xrld n kb _ | .xrst n kb _ => some (n, kb, 4, none)
  | _ => none
/-- Formats of the banks of the team window's scratchpad that lane e reaches: none when POD names no pod of the team
(R12, R315). -/
def windowFmts (s : State) (w0 e : Nat) : List Nat :=
  let v := ctxOf s (served s)
  match windowPlace s v.launch v.team (w0 / 2 ^ 22 % 8) ((w0 / 2 ^ 18 % 16 + e * (w0 / 2 ^ 25 % 16)) % 16) s.issuer.gcn
      (cur s).nextCmd with
  | some p => (List.range v.spn).map fun b => mget 0 s.spfmt (fkey p.pod p.lane (p.splo + b))
  | none => []
/-- Row r of a window command is placed as R54, R93 and R315 ask: the local side whole; of the window side the start, when
it lies in a bank of the portion, where the rest is left to the element (R12). Without such a bank the local row takes its
own bank's format, the model's choice (log entry 34). -/
def WindowRowOk (s : State) (w0 w1 e r : Nat) (ld : Bool) : Prop :=
  let spn := (ctxOf s (served s)).spn
  let nel := w0 / 2 ^ 32 % 2 ^ 16
  let la := (stepped s (w1 % 2 ^ 18) + r * (w1 / 2 ^ 36 % 2 ^ 18)) % 2 ^ 18
  let wla := (stepped s (w0 % 2 ^ 18) + r * (w1 / 2 ^ 18 % 2 ^ 18)) % 2 ^ 18
  let wl := windowFmts s w0 e
  let own := fmtAt (laneFmts s e) la
  let far := wla / 16384 < wl.length
  let win := if far then fmtAt wl wla else own
  if ld then dstOk spn win own la nel = true ∧ (far → winStart win own wla false = true)
  else srcOk spn own win la nel = true ∧ (far → winStart own win wla true = true)
/-- A grammar instruction: handle operand apart, its block length, RES, and the check of its own fields (R355 to
R361); `some true` or `some false` is the SPREAD of a `pdamask`. -/
def grammarForm : Instr → Option (Nat × Option KReg × Bool × (Nat → Nat → Nat → Prop) × Option Bool)
  | .pdabind _ res kb => some (3, some kb, res, fun a b c => 2 ≤ a % 2 ^ 40 ∧ a % 2 ^ 40 < 2 ^ 32 ∧ b % 64 = 0 ∧
      b < 2 ^ 48 ∧ c % 64 = 0 ∧ c < 2 ^ 48, none)
  | .pdaunbind _ => some (0, none, false, fun _ _ _ => True, none)
  | .pdaunbindRes _ kb => some (1, some kb, true, fun a _ _ => a % 2 ^ 40 = 0, none)
  | .pdamask spread _ res kb => some (2, some kb, res, fun a b _ => a % 2 ^ 40 = 0 ∧ b < 2 ^ 54 ∧
      b / 2 ^ 18 % 64 = 0 ∧ b / 2 ^ 36 % 64 = 0 ∧ 64 ≤ b / 2 ^ 36 ∧ b / 2 ^ 36 ≤ 131072, some spread)
  | .pdaadv _ res kb => some (1, some kb, res, fun a _ _ => a % 2 ^ 40 < 2 ^ 18, none)
  | .pdafork _ res kb => some (1, some kb, res, fun a _ _ => a % 2 ^ 40 < 2 ^ 3, none)
  | .pdamark _ res kb => some (1, some kb, res, fun a _ _ => a % 2 ^ 40 = 0, none)
  | .pdaroll _ res kb => some (1, some kb, res, fun a _ _ => a % 2 ^ 40 < 2 ^ 4, none)
  | .pdasave _ res kb => some (2, some kb, res, fun a b _ => a % 2 ^ 40 = 0 ∧ b < 2 ^ 48 ∧ b % 64 = 0, none)
  | .pdarest _ res kb => some (2, some kb, res, fun a b _ => a % 2 ^ 40 = 0 ∧ b < 2 ^ 48 ∧ b % 64 = 0, none)
  | _ => none
/-- The checks of R352 on where a grammar instruction writes: LANE active, RLA and DLA placed. -/
def GrammarPlaces (s : State) (res : Bool) (mk : Option Bool) (g0 g1 : Nat) : Prop :=
  field 58 2 g0 = 0 ∧ g0 / 2 ^ 40 % 8 = 0 ∧ (mk ≠ none → g1 % 8 = 0) ∧ ((curH s).am ≠ 0#16 →
    ((res = true ∨ mk = some false) → (curH s).am.getLsbD (g0 / 2 ^ 60) = true) ∧
    (res = true → InPortion s (g0 / 2 ^ 40 % 2 ^ 18) 8) ∧
    (mk ≠ none → InPortion s (g1 % 2 ^ 18) (g1 / 2 ^ 36 / 8)))

/-- Memory address of row m in a lane, from the registers of a block: VA + e × ESTR + m × MSTR, in 64 bits (R312). -/
def memRow (ks : List Word) (e m : Nat) : Nat :=
  (BitVec.ofInt 64 ((blk ks 0 : Int) + e * Int.bmod (blk ks 1 % 2 ^ 32) (2 ^ 32)
    + m * Int.bmod (blk ks 1 / 2 ^ 32) (2 ^ 32))).toNat
/-- A command and its part in a lane may take its next element: its earlier stores are made in `s1` (R169, R312). -/
def ElementMayRun (s s1 : State) (g id lane : Nat) (x : Cmd) (j : LaneJob) : Prop :=
  cmdOf s g id = some x ∧ jobOf x lane = some j ∧ mayElem s g x j = true ∧ 
    s1 = flushStores (settleSp { s with freeCtr := s.freeCtr + 1 } g) g ∧
    storesDone s1 g = true
/-- The part of a command in a lane, k elements further (R308). -/
def further (j : LaneJob) (k : Nat) : LaneJob := { j with done := j.done + k, fin := decide (j.n ≤ j.done + k) }
/-- The element step of a command in a lane takes effect in `t`, with the part `j` behind it. -/
def ElementLeaves (s : State) (g id lane : Nat) (x : Cmd) (t : State) (j : LaneJob) : Prop :=
  exec (.transferElement g id lane) s = .next (putCmd t g (putJob x j))
/-- The element step of a command in a lane records the fault of an access of a kind, by its number, to `va` (R307). -/
def ElementFails (s : State) (g id lane : Nat) (x : Cmd) (j : LaneJob) (t : State) (f : MFault) (kind va asid : Nat) : Prop :=
  let cf : CmdFault := { felem := j.lane * 2 ^ 24 + j.done, asid := asid, kind := kind, merr := f.merr, src := f.src, code := if f.merr then f.unit else f.code, lvl := f.lvl, va := va, gcode := 0 }
  exec (.transferElement g id lane) s = .next (putCmd t g { x with flt := some cf })
/-- The row commands that reach the part's own memory: whether they load, whether they are indexed, their hint (R312). -/
def rowAccess : Instr → Option (Bool × Bool × Hint)
  | .xld _ _ ch => some (true, false, ch)
  | .xst _ _ ch => some (false, false, ch)
  | .xgath _ _ ch _ => some (true, true, ch)
  | .xscat _ _ ch _ => some (false, true, ch)
  | _ => none
/-- Value i of n elements from la under an SPFMT value, as a command reads them from a place (R56, R75). -/
def rowValue (s : State) (p : Place) (x la n i : Nat) : FVal :=
  let f := fmtOf x
  let e0 := la % 16384 * 8 / f.bits
  let scales := rdPlace s p (la / 16384 * 16384 + scoffOf x + e0 / 32) ((e0 + n - 1) / 32 - e0 / 32 + 1)
  fmtDecode f (rdPlace s p la (ceilDiv (n * f.bits) 8) / 2 ^ (f.bits * i) % 2 ^ f.bits)
    (if f.isMx then scales / 2 ^ (8 * ((e0 + i) / 32 - e0 / 32)) % 256 else 0)
/-- Bytes that the elements of a row of n take, whole blocks in an MX format (R56, R93, R299). -/
def rowLen (x n : Nat) : Nat :=
  if (fmtOf x).isMx then ceilDiv n 32 * (4 * (fmtOf x).bits) else ceilDiv (n * (fmtOf x).bits) 8
/-- Local address of the first scale of an MX row at la (R56). -/
def rowScales (x la : Nat) : Nat := la / 16384 * 16384 + scoffOf x + la % 16384 * 8 / (fmtOf x).bits / 32
/-- Scratchpad bytes hold the n values `v` from la under an SPFMT value: the codes packed in order or, in an MX format, blocks
of 32 with their scales, the last one filled with zeros (R54, R75, R82, R93, R299). -/
def RowHolds (m : NMap Byte) (key : Nat → Nat) (x la n : Nat) (code : FVal → Nat) (v : Nat → FVal) : Prop :=
  let f := fmtOf x
  if f.isMx then ∀ b, b < ceilDiv n 32 →
    let enc := mxEncode f.bits ((List.range 32).map fun o => if b * 32 + o < n then v (b * 32 + o) else .zero)
    getBytes m (key (la + b * (4 * f.bits))) (4 * f.bits) = packNat f.bits 32 (fun o => enc.2.getD o 0) ∧
      getBytes m (key (rowScales x la + b)) 1 = enc.1
  else ∀ i, i < n → getBytes m (key la) (rowLen x n) / 2 ^ (f.bits * i) % 2 ^ f.bits = code (v i) % 2 ^ f.bits
/-- A byte belongs to a row of n elements from la, or to its scales (R56, R93, R299). -/
def InRow (key : Nat → Nat) (x la n b : Nat) : Prop :=
  (key la ≤ b ∧ b < key la + rowLen x n) ∨
    (fmtOf x).isMx = true ∧ key (rowScales x la) ≤ b ∧ b < key (rowScales x la) + ceilDiv n 32
/-- What the copy of a row of n elements leaves: the bytes where a bank is RAW, the codes between banks of one format that is
not MX, and otherwise the values under the destination's format; the half byte behind an odd row of half-byte elements, and
every other byte, stay (R54, R75, R93, R315). -/
def CopiedRow (s t : State) (p q : Place) (xs xd sla dla n : Nat) : Prop :=
  let fs := fmtOf xs
  let fd := fmtOf xd
  (fs = .raw ∨ fd = .raw → t = wrPlace s q dla n (rdPlace s p sla n)) ∧
  (fs ≠ .raw → fd ≠ .raw → t.mem = s.mem ∧ t.vregs = s.vregs ∧ t.tiles = s.tiles ∧
    (fs = fd → fd.isMx = false → ∀ i, i < n → getBytes t.sp (q.key dla) (rowLen xd n) / 2 ^ (fd.bits * i) % 2 ^ fd.bits =
      rdPlace s p sla (rowLen xd n) / 2 ^ (fd.bits * i) % 2 ^ (if fd = .e3m2 ∨ fd = .e2m3 then 6 else fd.bits)) ∧
    (fs ≠ fd ∨ fd.isMx = true → RowHolds t.sp q.key xd dla n (convert fd .rne) (rowValue s p xs sla n)) ∧
    (fd.isMx = false → getBytes t.sp (q.key dla) (rowLen xd n) / 2 ^ (fd.bits * n) =
      getBytes s.sp (q.key dla) (rowLen xd n) / 2 ^ (fd.bits * n)) ∧
    ∀ b, ¬ InRow q.key xd dla n b → mget 0#8 t.sp b = mget 0#8 s.sp b)
/-- A pair in the buffer of its port, as its element generates it (R140, R316, R317). -/
def Emitted (y : Pair) (g : Nat) (x : Cmd) (j : LaneJob) (va : Word) (w val : Nat) : Prop :=
  y.gcn = g ∧ y.cmd = x.id ∧ y.lane = j.lane ∧ y.elemNo = j.lane * 2 ^ 24 + j.done ∧ y.asid = x.asid ∧ y.va = va ∧ y.w = w ∧
    y.val = BitVec.ofNat 64 (val % 2 ^ (8 * w)) ∧ y.stage = .buffered
/-- Entry i of an array of 32-bit words, as a command's element reads it (R321, R322). -/
def walkRead (s : State) (g : Nat) (x : Cmd) (lane : Nat) (ch : Hint) (base : Word) (i : Nat) : MemR Nat :=
  (cmdRead s g x lane ((base.toNat + 4 * i) % 2 ^ 64) 4 ch).bind fun bs t => .ok (ofBytes bs) t
/-- The row that the binary search of R321 over RP finds for entry p between lo and hi, where every read is answered. -/
def searchRow (g : Nat) (x : Cmd) (lane : Nat) (ch : Hint) (p : Nat) : Nat → State → Nat → Nat → Option (Nat × State)
  | 0, s, lo, _ => some (lo, s)
  | n + 1, s, lo, hi =>
    if hi ≤ lo then some (lo, s)
    else
      match walkRead s g x lane ch (x.ks.getD 0 0#64) ((lo + hi + 1) / 2) with
      | .ok v t => if v ≤ p then searchRow g x lane ch p n t ((lo + hi + 1) / 2) hi
        else searchRow g x lane ch p n t lo ((lo + hi + 1) / 2 - 1)
      | _ => none
/-- Word i of a lane's walk block (R320). -/
def walkWrite (q : Place) (x : Cmd) (t : State) (i v : Nat) : State := wrPlace t q (blk x.ks 3 + 4 * i) 4 (v % 2 ^ 32)
/-- What an entry of a walk leaves behind its own words, in `u` with the part `j`: the last one pads RROW and writes NE, NV and
FLAGS (R321, R322). -/
def WalkGoes (s : State) (g id lane : Nat) (x : Cmd) (q : Place) (ch : Hint) (start : Nat) (u : State) (j : LaneJob) : Prop :=
  let ne := ((List.range j.n).filter fun i => decide ((start + i) % 2 ^ 32 < j.k)).length
  let put := walkWrite q x
  let rp := fun t i => walkRead t g x j.lane ch (x.ks.getD 0 0#64) i
  let ends := fun (t : State) (flags : Nat) =>
    let t := (List.range (j.n - j.vrow)).foldl (fun t i => put t (2 * j.n + j.vrow + i) 0xFFFFFFFF) t
    ElementLeaves s g id lane x (put (put (put (put t (3 * j.n) ne) (3 * j.n + 1) j.vrow) (3 * j.n + 2) flags) (3 * j.n + 3) 0)
      (further j 1)
  (j.done + 1 ≠ j.n → ElementLeaves s g id lane x u (further j 1)) ∧
  (j.done + 1 = j.n → ne = 0 → ends u 0) ∧
  (j.done + 1 = j.n → ne ≠ 0 → ∀ a b t t', rp u (j.vals.getD 0 0#32).toNat = .ok a t →
    rp t ((j.prev.getD 0 + 1) % 2 ^ 32) = .ok b t' →
    ends t' ((if a < start then 1 else 0) + if (start + ne) % 2 ^ 32 < b then 2 else 0))
/-- A matrix command's turn on its tile has come in a lane (R282). -/
def TileTurn (s : State) (g id lane : Nat) (x : Cmd) (j : LaneJob) (st : Bool) : Prop :=
  cmdOf s g id = some x ∧ jobOf x lane = some j ∧ x.cls = .matrix ∧ isMstore x.op = st ∧ j.fin = false ∧
    j.lane = lane ∧ ∀ y ∈ (ctxOf s g).cmds, y.cls = .matrix → y.tile = x.tile → y.id < x.id →
      ∀ i ∈ y.jobs, i.lane = lane → i.fin = true
/-- An INT8 byte of a number, by its first bit (R83, R284, R288). -/
def byteInt (x bit : Nat) : Int := Int.bmod (x / 2 ^ bit % 256) 256
/-- An accumulator element after integer products p k over `depth` positions, in groups of K: one rounding for each group whose
sum is not zero (R96, R97, R99). -/
def accInt (K depth : Nat) (p : Nat → Int) (acc : W32) : W32 :=
  (List.range (ceilDiv depth K)).foldl (fun acc q =>
    let S := ((List.range K).map fun o => if q * K + o < depth then p (q * K + o) else 0).sum
    if S = 0 then acc else toF32 .rne (addV .rne (f32 acc) (.ofInt S))) acc
/-- An accumulator element after the k-groups of a multiplication of any operand formats: in groups of K positions the products
of those that contribute, summed under the window rule for q, scaled, and added with one rounding (R95 to R99). -/
def accCell (q K depth : Nat) (a : Nat → FVal) (b : Nat → Option FVal) (scale : Nat → FVal → FVal) (acc : W32) : W32 :=
  (List.range (ceilDiv depth K)).foldl (fun acc n =>
    let ps := ((List.range K).filter fun o => decide (n * K + o < depth)).filterMap fun o =>
      (b (n * K + o)).map fun y => mulV (a (n * K + o)) y
    let total := scale (n * K) (groupSum q ps)
    if ps = [] ∨ total.isZero = true then acc else toF32 .rne (addV .rne (f32 acc) total)) acc
/-- Quads of a product and positions of a k-group, by the digits of the operands (R95). -/
def quadsOf (da db : Nat) : Nat := (da * db + 3) / 4
def groupOf (q : Nat) : Nat := if q ≤ 1 then 8 else if q ≤ 2 then 4 else if q ≤ 4 then 2 else 1
/-- The FP32 code of 2^k, for -149 ≤ k ≤ 127 (R76). -/
def pow2Code (k : Int) : W32 :=
  if -126 ≤ k then BitVec.ofNat 32 ((k + 127).toNat * 2 ^ 23) else BitVec.ofNat 32 (2 ^ (k + 149).toNat)
/-- The FP32 code of an integer below 2^24 in magnitude (R76). -/
def intCode (k : Int) : W32 :=
  let n := k.natAbs
  let l := Nat.log2 n
  if n = 0 then 0#32
  else BitVec.ofNat 32 ((if k < 0 then 2 ^ 31 else 0) + (127 + l) * 2 ^ 23 + (n - 2 ^ l) * 2 ^ (23 - l))
/-- A range of n bytes that a copy may name: in the host window, or in the populated part of one Ready stack (R432). -/
def CopyRange (s : State) (pa n : Nat) : Prop :=
  inHost pa = true ∧ inHost (pa + n - 1) = true ∨
    populated pa = true ∧ populated (pa + n - 1) = true ∧ stackOf (pa + n - 1) = stackOf pa ∧ stackState s (stackOf pa) = 2
/-- The words of field data that CLASS, INDEX and WORD assign (R445). -/
def FieldWord (c i w : Nat) : Prop :=
  c = 1 ∧ i < 16 ∧ w < 2 ∨ c = 2 ∧ i < 512 ∧ w < 2 ∨ (c = 3 ∨ c = 4) ∧ i < 280 ∧ w < 16 ∨
    c = 5 ∧ i = 0 ∧ (1 ≤ w ∧ w ≤ 23 ∨ 25 ≤ w ∧ w ≤ 31) ∨ c = 6 ∧ i < 16 ∧ w = 0 ∨ c = 7 ∧ i = 0 ∧ w < 4
/-- The product of the bounds of a launch but bound n (R377, R382). -/
def otherBounds (x : Launch) (b : Nat → Nat) (n : Nat) : Nat :=
  (((List.range (recNdm x + 1)).filter fun i => i != n).map b).foldl (· * ·) 1
/-- The largest bound m up to `top` for which the count, with the product `o` of the others, is at most 2^48 (R377, R382). -/
def Clamped (o top m : Nat) : Prop :=
  m ≤ top ∧ o * m % 2 ^ 64 ≤ 2 ^ 48 ∧ ∀ k, m < k → k ≤ top → 2 ^ 48 < o * k % 2 ^ 64
/-- The value that `mstore` converts for an element of the tile (R299). -/
def storedValue (scl bias relu : Bool) (scale b x : W32) : W32 :=
  let x := if scl then fmul x scale else x
  let x := if bias then fadd .rne x b else x
  if relu then fmaxN x 0#32 else x


/-- Field i of 32 bits of an image header (R340). -/
def headField (w i : Nat) : Nat := w / 2 ^ (32 * i) % 2 ^ 32
/-- The header of an image as R344 asks for it. -/
def ImageHeader (va w : Nat) : Prop :=
  let f := headField w
  va % 64 = 0 ∧ f 0 = 0x52475053 ∧ f 1 = 0x10000 ∧ 1 ≤ f 2 ∧ f 2 ≤ 2 ^ 20 ∧ 1 ≤ f 3 ∧ f 3 ≤ 2 ^ 18 ∧
    (f 4 < f 3 ∨ f 4 = 2 ^ 32 - 1) ∧ f 5 < f 2 ∧ (f 6 < f 2 ∨ f 6 = 2 ^ 32 - 1) ∧ f 7 = 0 ∧ (∀ i, 12 ≤ i → i < 16 → f i = 0) ∧
    64 ≤ f 8 ∧ f 9 % 32 = 0 ∧ f 10 % 8 = 0 ∧ f 11 % 4 = 0 ∧ f 9 + 32 * f 2 ≤ f 8 ∧ f 11 + 4 * f 3 ≤ f 8
/-- The image that a header describes (R340). -/
def imageOf (va w : Nat) : GImg :=
  let f := headField w
  ⟨va, f 2, f 3, f 4, f 5, f 6, f 8, f 9, f 10, f 11⟩
/-- A save record whose words `w` are in order (R361). -/
def SaveRecord (w : Nat → Nat) : Prop :=
  let n := w 4 / 2 ^ 48 % 32
  w 0 < 2 ^ 48 ∧ w 1 < 2 ^ 48 ∧ w 2 < 2 ^ 32 ∧ 2 ≤ w 2 ∧ w 3 < 2 ^ 21 ∧ w 4 < 2 ^ 53 ∧ w 5 < 2 ^ 32 ∧ w 6 = 0 ∧ w 7 = 0 ∧ n ≤ 16 ∧
    ∀ i, i < n → w (8 + 2 * i) / 2 ^ 21 % 2 ^ 11 = 0 ∧ w (9 + 2 * i) < 2 ^ 48
/-- The fields of a configuration have the widths of R360 and R361. -/
def FitsMark (state top depth pos : Nat) : Prop := state < 2 ^ 20 ∧ top < 2 ^ 32 ∧ depth < 2 ^ 16 ∧ pos < 2 ^ 32
/-- The 40 words of the save record of a handle (R361). -/
def saveWords (sl : GSlot) : List Nat :=
  let fin := fun (b : Bool) => if b then 2 ^ 20 else 0
  [sl.imgva, sl.arenava, sl.alim, sl.state + fin sl.fin, sl.top + sl.depth * 2 ^ 32 + sl.marks.length * 2 ^ 48, sl.pos, 0, 0]
    ++ (List.range 16).flatMap fun i =>
      match sl.marks[i]? with
      | some k => [k.state + fin k.fin + k.top * 2 ^ 32, k.pos + k.depth * 2 ^ 32]
      | none => [0, 0]
/-- The result word of a grammar instruction with RES, at its place (R354). -/
def resultOf (res : Bool) (ks : List Word) (code : Nat) (sl : Option GSlot) : List (Nat × Nat × List Byte) :=
  let w := match sl with
    | some sl => sl.state + code * 2 ^ 20 + sl.marks.length * 2 ^ 27 + sl.pos * 2 ^ 32
    | none => code * 2 ^ 20
  if res then [(blk ks 0 / 2 ^ 60 % 16, blk ks 0 / 2 ^ 40 % 2 ^ 18, bytesOf 8 w)] else []
/-- The tokens from `base` on have these bits in the mask of a configuration, read from `s` to `t` (R346). -/
def TokensRead (g : Nat) (x : Cmd) (m : GImg) (sl : GSlot) : Nat → List Bool → State → State → Prop
  | _, [], s, t => t = s
  | base, b :: l, s, t => ∃ u, gBit g x m sl base s = .ok b u ∧ TokensRead g x m sl (base + 1) l u t
/-- The same for the n tokens of each of the lanes of a mask, which are given with their first tokens (R357). -/
def MasksRead (g : Nat) (x : Cmd) (m : GImg) (sl : GSlot) (n : Nat) : List (Nat × Nat) → List (List Bool) → State → State → Prop
  | [], [], s, t => t = s
  | y :: l, bs :: r, s, t => ∃ u, bs.length = n ∧ TokensRead g x m sl y.2 bs s u ∧ MasksRead g x m sl n l r u t
  | _, _, _, _ => False
/-- Bits as a number, the first one lowest. -/
def ofBits : List Bool → Nat
  | [] => 0
  | b :: l => (if b then 1 else 0) + 2 * ofBits l
/-- What the slot step of a grammar command of a handle leaves: memory as in `u`, the handle's binding, every other handle, and
on the command its bytes to be written and its fault, if it has one (R353, R354). -/
def GrammarLeaves (s : State) (g : Nat) (x : Cmd) (h : Handle) (res : Bool) (u : State) (new : Option GSlot) (code : Nat)
    (fails : Bool) (outs : List (Nat × Nat × List Byte)) : Prop :=
  ∃ t, exec (.grammarStep g) s = .next t ∧ t.mem = u.mem ∧ gSlot t g h = new ∧ (∀ h', h' ≠ h → gSlot t g h' = gSlot s g h') ∧
    ∀ y ∈ (ctxOf t g).cmds, y.id = x.id → y.stepped = true ∧
      (if fails then ∃ f, y.flt = some f ∧ f.gcode = code else y.flt = none) ∧
      (code < 16 → (∀ k, new = some k → FitsMark k.state k.top k.depth k.pos ∧ k.marks.length ≤ 16) →
        y.outs = outs ++ resultOf res x.ks code new)

end Sys2Proof.Claims
namespace Sys2Proof.Claims
open Sys2Proof.Machine

/-! ### Decoding, fetching, landing -/

/-- A syllable decodes to an instruction in a slot, and its encoding is that syllable with its extension words. -/
def Reads (sl : Slot) (w : W32) (ext : List W32) (i : Instr) : Prop :=
  decodeSyllable sl w ext = .ok i ∧ encode i = w :: ext
/-- The state in which a half that starts a bundle whose fetch has left `s1` issues its slots: FT is known, one more issue
cycle has begun, results due have landed (R60, R61, R204). -/
def begun (s1 : State) (pc : Word) (n : Nat) : State :=
  beginIssue (updH s1 fun y => { y with ft := pc + BitVec.ofNat 64 (4 * (1 + n)) })
/-- The primary half of the issuing context stands at the start of a bundle that it may issue, with an empty stalk: no
freeze, stop, pre-emption, handler return or forced end of its run is due, and no lost store is to be reported (R117, R186,
R190, R194, R195, R213, R258). -/
def AtBundle (s : State) : Prop :=
  s.issuer.half = .primary ∧ (cur s).phase = .issuing ∧ (curH s).wait = .none ∧ (curH s).begun = false ∧
    (curH s).live = false ∧ (curH s).rep = 0 ∧ (curH s).slot = 0 ∧ (curH s).stalk = [] ∧
    (curH s).lost = [] ∧ (cur s).tretTo = none ∧ (cur s).stopReq = false ∧ (cur s).preempting = false ∧ (cur s).stopBy = none ∧
    runOver s s.issuer.gcn = false
/-- The same with any number of repeats of the bundle done (R215). -/
def AtRepeat (s : State) : Prop :=
  s.issuer.half = .primary ∧ (cur s).phase = .issuing ∧ (curH s).wait = .none ∧ (curH s).begun = false ∧
    (curH s).live = false ∧ (curH s).slot = 0 ∧ (curH s).stalk = [] ∧
    (curH s).lost = [] ∧ (cur s).tretTo = none ∧ (cur s).stopReq = false ∧ (cur s).preempting = false ∧ (cur s).stopBy = none ∧
    runOver s s.issuer.gcn = false
/-- A half at the first slot of an issue, with no sticky state. -/
def FreshHalf (c : Ctx) : Prop :=
  c.phase = .issuing ∧ c.prim.wait = .none ∧ c.prim.rep = 0 ∧ c.prim.slot = 0 ∧ c.prim.verOk = false ∧
    c.prim.stV = none ∧ c.prim.stM = none ∧ c.prim.stX = none
/-- The half goes on to the next slot: its context still issues and it does not wait (R214). -/
def StillIssues (t : State) (g : Nat) : Prop := (ctxOf t g).phase = .issuing ∧ (ctxOf t g).prim.wait = .none
/-- Slot positions of a bundle in commit order (R204). -/
def slotIndex : Slot → Nat
  | .sa => 0 | .sb => 1 | .v => 2 | .m => 3 | .x => 4 | .g => 5
/-- The sticky state of a slot; the slots sa, sb and g have none (R217). -/
def stickyOf (x : Half) : Slot → Option Sticky
  | .v => x.stV
  | .m => x.stM
  | .x => x.stX
  | _ => none
/-- The environment of a re-issue: the captured values, with the offsets advanced by the step register of the slot, and the
version counts (R218, R219). -/
def steppedEnv (k : Slot) (st : Sticky) (vcnt acnt : Nat) : Env :=
  { re := true, cap := st.cap, counts := st.counts, v0 := st.v0, roff := (st.roff + st.rstep) % vcnt,
    laOff := (st.laOff + st.step.toNat % 2 ^ 18) % 2 ^ 18,
    vaOff := if k = .x then st.vaOff + BitVec.ofInt 64 (Int.bmod (st.step.toNat / 2 ^ 18 % 2 ^ 40) (2 ^ 40)) else 0#64,
    tileOff := if k = .m then (st.tileOff + st.step.toNat / 2 ^ 32 % 8) % acnt else 0 }
/-- What one slot of an issue does: exec of a syllable that it issues afresh, exec of the operation of a sticky state under
the advanced environment where it re-issues one, and nothing else (R215, R217 to R219). -/
def SlotDoes (b : Bundle) (g : Nat) (k : Slot) (s u : State) : Prop :=
  let x := (ctxOf s g).prim
  let at_ := fun env => updHalf { s with issuer := ⟨g, .primary, k, env⟩ } g .primary fun x => { x with slot := slotIndex k }
  let fresh := fun (y : Slot × W32 × List W32) => y ∈ b.slots ∧ y.1 = k ∧ (k ∈ [.v, .m, .x] → x.rep = 0)
  (∀ y i, fresh y → decodeSyllable k y.2.1 y.2.2 = .ok i → exec i (at_ Env.fresh) = .next u) ∧
  ((∀ y, ¬ fresh y) → ∀ st, stickyOf x k = some st → slotOf st.op ≠ none ∧
    exec st.op (at_ (steppedEnv k st (if g % 8 = 4 then 16 else (ctxOf s g).vcnt) (ctxOf s g).acnt)) = .next u) ∧
  ((∀ y, ¬ fresh y) → stickyOf x k = none → u = s)
/-- The slots of an issue in commit order, up to the first behind which the half does not go on; `stop` says whether there is
one (R214). -/
def SlotsDo (b : Bundle) (g : Nat) : List Slot → State → State → Bool → Prop
  | [], s, t, stop => t = s ∧ stop = false
  | k :: l, s, t, stop => ∃ u, SlotDoes b g k s u ∧ (¬ StillIssues u g → t = u ∧ stop = true) ∧
      (StillIssues u g →
        SlotsDo b g l (updHalf u g .primary fun x => { x with slot := slotIndex k + 1, verOk := false }) t stop)
/-- The sticky states of the slots behind a slot are empty (R217). -/
def NothingBehind (x : Half) (k : Slot) : Prop :=
  (slotIndex k < 2 → x.stV = none) ∧ (slotIndex k < 3 → x.stM = none) ∧ (slotIndex k < 4 → x.stX = none)
/-- A host read of a window register after reset gives a value (R429). -/
def ReadsAtReset (r : HReg) (v : Nat) : Prop := r.read State.reset = BitVec.ofNat 64 v
/-- What one result writes of a scalar register: the last write that names it (R61, R210). -/
def scalarOf (ws : List Wr) (n : SReg) (old : Word) : Word :=
  ws.foldl (fun v w => match w with
    | .s m x => if m = n ∧ n ≠ 0#6 then x else v
    | _ => v) old
/-- What results write of a CSR that keeps the bits of m: the last write that names it (R61, R255). -/
def csrOf (ws : List Wr) (c : BitVec 12) (m old : Word) : Word :=
  ws.foldl (fun v w => match w with
    | .csr n x _ => if n = c.toNat then x &&& m else v
    | _ => v) old

end Sys2Proof.Claims
namespace Sys2Proof.Claims
open Sys2Proof.Machine

/-! ### Events of the sequencers, contexts and memory -/

/-- Context n of a pod. -/
def slotOfPod (s : State) (p n : Nat) : Ctx := ctxOf s (p * 8 + n)
/-- The picker gives slot n the next run: it issues with AGE 0, and the other Ready contexts grow older by one (R387). -/
def Chosen (s t : State) (p n : Nat) : Prop :=
  (slotOfPod t p n).phase = .issuing ∧ (slotOfPod t p n).age = 0 ∧
    ∀ m, m < 4 → m ≠ n → (slotOfPod t p m).phase = (slotOfPod s p m).phase ∧
      (slotOfPod t p m).age = (slotOfPod s p m).age + (if (slotOfPod s p m).phase = .ready then 1 else 0)
/-- A half of a context that issues or is parked waits for w. -/
def Waiting (s : State) (g : Nat) (h : HalfId) (w : Wait) : Prop :=
  ((ctxOf s g).phase = .issuing ∨ (ctxOf s g).phase = .parked) ∧
    (h = .primary ∨ (ctxOf s g).spare ≠ none) ∧ ((ctxOf s g).half h).wait = w
/-- The wait of a half is over: it stands behind the slot at which it waited. -/
def passed (s : State) (g : Nat) (h : HalfId) : State :=
  updHalf s g h fun x => { x with wait := .none, ask := none, verOk := false, slot := x.slot + 1 }
/-- The end of a wait at a switch point: results land, the half stands behind its slot, and its next run begins (R61, R185,
R186). -/
def released (s : State) (g : Nat) (h : HalfId) : State :=
  updHalf (landSwitch s g h) g h fun x =>
    { x with wait := .none, ask := none, verOk := false, slot := x.slot + 1, run := 0 }
/-- A half whose wait at a switch point is over goes on, unless its context is split and another is Ready: then it is held
(R194). -/
def goOn (s : State) (g : Nat) (h : HalfId) : State := holdHalf (released s g h) g h
/-- The bytes that an instruction accesses through the stack cache when it waits there (R69). -/
def StackBytes (s : State) (i : Instr) (va n : Nat) : Prop :=
  (∃ sz sx ch d a off, i = .ld sz sx ch d a off ∧ va = addrOf s a off sz ∧ n = bytesOfSize sz) ∨
  (∃ sz ch r a off, i = .st sz ch r a off ∧ va = addrOf s a off sz ∧ n = bytesOfSize sz) ∨
  (i = .ret ∧ va = (rdS s 63#6).toNat ∧ n = 8) ∨
  (((∃ off, i = .call off) ∨ ∃ a, i = .callr a) ∧ va = (BitVec.ofInt 64 ((rdS s 63#6).toInt - 8)).toNat ∧ n = 8)
/-- No queued store has a piece that satisfies P. -/
def StoresClear (s : State) (P : Seg → Prop) : Prop :=
  ∀ x ∈ s.ctxs, ∀ h ∈ x.2.halves, ∀ e ∈ (x.2.half h).stq, ∀ y ∈ e.segs, ¬ P y.1
/-- A pair is translated and not yet in a bin. -/
def InFlight (p : Pair) : Prop := p.stage = .ingress ∨ p.stage = .filtered
/-- No translated pair in flight satisfies P. -/
def PairsClear (s : State) (P : Pair → Prop) : Prop := ∀ p ∈ s.pkg.pairs, InFlight p → ¬ P p
/-- The CONT leaves that an ASID's walks on a die find in the 64 MiB range of an address form a contiguous group, or there
are none (R30). -/
def ContWellFormed (s : State) (d asid va : Nat) : Prop :=
  ∀ hdr t, rdDesc s (die s d).asidtab asid = .ok hdr t →
    let l := contLeaves t (hdr / 4096 % 2 ^ 32 * 4096) va
    l = [] ∨ contGroup l = true
/-- The error collector runs: boot verification is done and BOOTST.FAIL does not name it (R439). -/
def CollectorRuns (s : State) : Prop := s.pkg.bootst.getLsbD 0 = true ∧ s.pkg.bootst.getLsbD 6 = false
/-- No placement unit holds a range table of an ASID (R20). -/
def NoTable (s : State) (asid : Nat) : Prop := ∀ t ∈ s.pkg.rtabs, t.asid ≠ asid
/-- The state in which a half tries an interlocked instruction again: its context has the urgency at which the instruction
was issued (R110, R244). -/
def retrying (s : State) (g : Nat) (h : HalfId) : State :=
  let s1 := updCtx s g fun c => { c with urgent := ((ctxOf s g).half h).urgAt }
  updHalf { s1 with issuer := ⟨g, h, .sa, Env.fresh⟩ } g h fun x => { x with wait := .none }
/-- A result that a switch point inside a bundle leaves to the next issue cycle, and that is due by then: it writes more than
scratchpad, and is not one of an earlier cycle that a version check lands (R61, R281). -/
def LeftByASwitch (x : Half) (p : Pend) : Prop :=
  x.begun = true ∧ p.due ≤ x.cycle ∧ (∃ w ∈ p.writes, ∀ e la n v, w ≠ .sp e la n v) ∧
    ((∀ tl v extra, x.wait ≠ .version tl v extra) ∨ p.born = x.cycle)
/-- The context has the urgency it has in s. -/
def urgencyOf (s t : State) (g : Nat) : State := updCtx t g fun c => { c with urgent := (ctxOf s g).urgent }
/-- Two stores have a piece each in one line of one ASID (R105). -/
def ShareLine (x y : StqEntry) : Prop :=
  ∃ a ∈ x.segs, ∃ b ∈ y.segs, a.1.asid = b.1.asid ∧ a.1.va / 128 = b.1.va / 128
/-- The pending granule of an address has nothing that keeps its pending bit: no uncorrectable sector and no pair on
its way to the bins (R125, R129). -/
def Appliable (s : State) (gran : Nat) : Prop :=
  (∀ k ∈ s.pkg.badSectors, k / 128 ≠ gran) ∧ ∀ p ∈ s.pkg.pairs, p.stage = .filtered → p.pa / 4096 ≠ gran
/-- OP, ET and V of a region's entry (R122). -/
def rgnFields (w : W32) : Nat × Nat × Bool := (w.toNat / 16 % 16, w.toNat % 16, w.getLsbD 31)
/-- A pair that a check drops is gone, and its context's first dropped pair is kept with the class (R124, R145). -/
def Dropped (s t : State) (x : Pair) (cls : Nat) : Prop :=
  pairOf t x.id = none ∧ ((ctxOf s x.gcn).phase ≠ .free → (ctxOf s x.gcn).deferred = none →
    ∃ f, (ctxOf t x.gcn).deferred = some f ∧ f.cls = cls ∧ f.va = x.va.toNat ∧ f.val = x.val ∧ f.elemNo = x.elemNo)

end Sys2Proof.Claims
namespace Sys2Proof.Claims
open Sys2Proof.Machine

/-! ### Events of pods, launches, the host and the package -/

/-- Whether an engine map is valid (R199): 16 distinct places on engines that work, a second half only in degraded
operation, and at least eight engines working. -/
def ValidMap (work : BitVec 17) (m0 m1 : Word) (degr : Bool) : Prop :=
  let at_ := fun (l : Nat) => ((if l < 8 then m0 else m1).toNat / 2 ^ (8 * (l % 8))) % 64
  (∀ l, l < 16 → work.getLsbD (at_ l % 32) = true ∧ (degr = false → at_ l < 32)) ∧
    (∀ l k, l < k → k < 16 → at_ l ≠ at_ k) ∧
    8 ≤ ((List.range 17).filter fun e => work.getLsbD e).length
/-- Word i of a nest record or kernel header, as a number. -/
def wordAt (w : List Word) (i : Nat) : Nat := (w.getD i 0#64).toNat
/-- ASID, address and reserved bits of a low start-vector word (R366). -/
def svFields (s : State) (q : Nat) : Nat × Nat × Nat :=
  let lo := (mget 0#64 s.pkg.svlo q).toNat
  (lo / 2 ^ 48 % 4096, lo % 2 ^ 48, lo / 2 ^ 60)
/-- The entry that a start vector gives (R366, R367). -/
def svEntry (s : State) (q : Nat) (hi : Word) : QEntry :=
  { asid := (svFields s q).1, rva := (svFields s q).2.1, tag := BitVec.ofNat 32 (hi.toNat / 2 ^ 32),
    stkva := hi.toNat / 2 % 2 ^ 31 * 131072, record := none }
/-- TEAMS times the number of dies of a record (R369). -/
def dispatchCost (w : List Word) : Nat :=
  wordAt w 0 / 2 ^ 48 % 256 * ((List.range 8).filter fun d => (wordAt w 0).testBit (56 + d)).length
/-- The kernel contexts of a launch are all gone (R386, R447). -/
def AllGone (s t : State) (l : Nat) : Prop := ∀ g ∈ launchCtxs s l, (ctxOf t g).phase = .free
/-- Registers of the windows that keep what is written under a mask (R45, R390, R406, R429 to R442). -/
def rwMask (r : HReg) : Option Word :=
  match r with
  | .apbase => some 0x00000FFFFF800000#64
  | .prearea => some 0x00000FFFFFFF0000#64
  | .cpysrc | .cpydst => some 0x00000FFFFFFFFFC0#64
  | .cpylen => some 0x00000000FFFFFFFF#64
  | .attbuf => some 0x00000FFFFFFFC000#64
  | .rtbase => some 0x00000FFFFFFE0000#64
  | .pkgid | .lnken => some 0x000000000000FFFF#64
  | .adm _ => some 0x80000FFF0000FFFF#64
  | .evtcfg => some 0x00000000800007FF#64
  | .asidtab _ => some 0x00000FFFFF800001#64
  | .tlbinva _ => some 0x0000FFFFFFFF0000#64
  | .fwtop _ | .fwhw _ | .fwlo _ => some 0x0000FFFFFFFF0000#64
  | _ => none
/-- Bits that an access of 8 or 4 bytes writes. -/
def accessBits (wide : Bool) (v : Word) : Word := if wide then v else v &&& 0xFFFFFFFF#64
/-- Lowest frequency, and highest and lowest supply, of an island (R437). -/
def islFloor (i : Nat) : Nat := if i < 256 then 300 else if i < 264 then 800 else 1000
/-- A setting that R437 allows an island. -/
def IslMay (i mhz mv : Nat) : Prop :=
  (i < 256 ∧ 300 ≤ mhz ∧ mhz ≤ 1050 ∧ mhz % 25 = 0 ∧ 550 ≤ mv ∧ mv ≤ 900) ∨
  (256 ≤ i ∧ i < 264 ∧ 800 ≤ mhz ∧ mhz ≤ 1600 ∧ 650 ≤ mv ∧ mv ≤ 850) ∨
  (264 ≤ i ∧ mhz = 1000 ∧ 700 ≤ mv ∧ mv ≤ 800)
/-- A live field-data count (R444, R445). -/
def liveCount (s : State) (cls idx w : Nat) : Nat := mget 0 s.pkg.fdLive (cls * 2 ^ 24 + idx * 2 ^ 8 + w)

end Sys2Proof.Claims
section
open Sys2Proof Sys2Proof.Machine Sys2Proof.Claims

/-! ### Encodings -/

/-- Words written field by field from the encodings of chapters 08 to 14, and the instructions they stand for. -/
def Obligations.DecodedWords : Prop :=
  Reads .sa (0x10#8 ++ 3#6 ++ 0#6 ++ 100#12) [] (.addi 3#6 0#6 100#12) ∧
  Reads .sa (0x30#8 ++ 4#6 ++ 2#6 ++ 3#2 ++ 0#1 ++ 0#2 ++ 0#7) [] (.ld .d false .normal 4#6 2#6 0#7) ∧
  Reads .sa (0x39#8 ++ 6#6 ++ 5#6 ++ 3#6 ++ 1#1 ++ 0#5) [] (.atadd true 6#6 5#6 3#6) ∧
  Reads .sa (0x46#8 ++ 1#6 ++ 0#1 ++ 0x1FFFB#17) [] (.loop 1#6 0x1FFFB#17) ∧
  Reads .sa (0x53#8 ++ 7#6 ++ 1#1 ++ 0#3 ++ 0#6 ++ 7#8) [] (.arrinc true 0#3 7#8 7#6) ∧
  Reads .v (0x10#8 ++ (1#1 ++ 0#2 ++ 0#5) ++ (0#1 ++ 5#7) ++ (1#1 ++ 1#2 ++ 2#5)) []
    (.vadd (.indexed 0#2 0#5) (.direct 5#7) (.indexed 1#2 2#5)) ∧
  Reads .v (0x33#8 ++ (1#1 ++ 1#2 ++ 0#5) ++ (1#1 ++ 0#2 ++ 0#5) ++ 2#6 ++ 0#2) []
    (.vmaskf (.indexed 1#2 0#5) (.indexed 0#2 0#5) 2#6) ∧
  Reads .m (0x01#8 ++ 0#3 ++ 0#6 ++ 0#2 ++ 0#5 ++ 0#1 ++ 1#1 ++ 1#3 ++ 0#3) []
    (.mma ⟨0#3, 0#6⟩ 0#2 0#5 2#3 2#3 false) ∧
  Reads .x (0x06#8 ++ 1#2 ++ 1#2 ++ 4#5 ++ 1#2 ++ 0#5 ++ 0x80#8) []
    (.xgath (.shape 1#2 .m) 4#5 .keep (.indexed 0#2 0#5)) ∧
  Reads .x (0x23#8 ++ 0#3 ++ 5#5 ++ 1#1 ++ 0#15) [] (.pdaadv 0#3 true 5#5) ∧
  Reads .g (0x08#8 ++ (0#1 ++ 2#7) ++ (0#1 ++ 1#7) ++ 4#6 ++ 0#2) [] (.gshuf (.direct 2#7) (.direct 1#7) 4#6) ∧
  Reads .g (0x02#8 ++ 20#6 ++ 19#18) [23#32] (.gbr 20#6 19#18 23#32)

/-- Decoding the encoding of a well-formed instruction of any slot gives it back, with every operand. -/
def Obligations.DecodeEncode : Prop :=
  ∀ (i : Instr) (sl : Slot), slotOf i = some sl → i.wf = true →
    ∃ w ext, encode i = w :: ext ∧ ext.length = extWords sl (opcode w) ∧ decodeSyllable sl w ext = .ok i

/-- A syllable that decodes has one encoding, that of a well-formed instruction of its slot: no bit of it is ignored
(R5, R207). -/
def Obligations.EncodeDecode : Prop :=
  ∀ (sl : Slot) (w : W32) (ext : List W32) (i : Instr), ext.length = extWords sl (opcode w) →
    decodeSyllable sl w ext = .ok i →
    encode i = w :: ext ∧ i.wf = true ∧
      (slotOf i = some sl ∨ sl = .sb ∧ slotOf i = some .sa ∧ saOnly (opcode w) = false)

/-! ### Steps -/

/-- A step runs the turn at the head of the agenda, an event row or a host access, or names what is wrong with it; with an
empty agenda it is an issue of the issuer. The agenda, the issuer and the two faults are the model's choice (log entry 1), as
is what a step of the host does while the link is down (log entry 6). -/
def Obligations.StepRunsHead : Prop :=
  ∀ (s : State),
    (s.agenda = [] → step s = exec (.bundleIssue s.issuer.gcn s.issuer.half) s) ∧
    (∀ i l, s.agenda = .event i :: l → let s' := { s with agenda := l }
      (slotOf i ≠ none → step s = .fault .notAnEvent) ∧
      (slotOf i = none → i.wf = false → step s = .fault .noSuchUnit) ∧
      (slotOf i = none → i.wf = true → (s.pkg.linkUp = true ∨ hostMakes i = false) → step s = exec i s') ∧
      (slotOf i = none → i.wf = true → s.pkg.linkUp = false → hostMakes i = true → step s = .next s')) ∧
    ∀ a l, s.agenda = .host a :: l → let s' := { s with agenda := l }
      (a.wf = false → step s = .fault .noSuchUnit) ∧
      (a.wf = true → (s.pkg.linkUp = true ∨ a.overLink = false) → step s = hostTurn a s' ∧ ∃ t, step s = .next t) ∧
      (a.wf = true → s.pkg.linkUp = false → a.overLink = true → step s = .next s')

/-- R213, R214: when the words at the program counter are a bundle of one syllable that decodes to i, a step is exec of
i at its slot, followed by the end of the issue when the context still issues. -/
def Obligations.StepRunsDecodedInstruction : Prop :=
  ∀ (s s1 : State) (hdr w : W32) (ws ext : List W32) (b : Bundle) (k : Slot) (i : Instr),
    s.agenda = [] → AtBundle s →
    let g := s.issuer.gcn
    let s0 := updHalf { s with issuer := ⟨g, .primary, .sa, Env.fresh⟩ } g .primary fun x => { x with wait := .none }
    fetchAt s0 g (curH s).pc = .ok hdr ws s1 → s1.issuer = s0.issuer →
    makeBundle hdr ws = some b → b.header = hdr → b.slots = [(k, w, ext)] → badMix b = false →
    decodeSyllable k w ext = .ok i →
    let s2 := begun s1 (curH s1).pc ws.length
    (curH s1).pc = (curH s).pc → FreshHalf (ctxOf s2 g) →
    let at_ := updHalf { s2 with issuer := ⟨g, .primary, k, Env.fresh⟩ } g .primary fun x => { x with slot := slotIndex k }
    ∀ t, exec i at_ = .next t →
      let done := endIssue b (updHalf t g .primary fun x => { x with slot := 6, verOk := false }) g .primary
      (¬ StillIssues t g → exec (.bundleIssue g .primary) s = .next (landFrozen t g)) ∧
      (StillIssues t g → NothingBehind (ctxOf t g).prim k →
        exec (.bundleIssue g .primary) s = .next (landFrozen (enterFrozen done g) g)) ∧
      step s = exec (.bundleIssue g .primary) s

/-- A sequencer gives an instruction that it issues from a slot the meaning that exec gives it, and exec always goes on
to a next state: every trap, wait and error of the part is one. That an event that is not enabled changes nothing is
the model's choice (log entry 6). -/
def Obligations.EveryInstructionGoesOn : Prop :=
  (∀ (i : Instr) (s : State), slotOf i ≠ none → slotMeaning i s = exec i s) ∧
  ∀ (i : Instr) (s : State), ∃ t, exec i s = .next t

/-- R61, R213, R215: the end of the last repeat of a bundle makes the next bundle the one at the address its branch gave or
at FT, and the end of an earlier repeat begins the next one. -/
def Obligations.EndOfIssue : Prop :=
  ∀ (b : Bundle) (s : State) (g : Nat), let x := (ctxOf s g).prim
    (x.rep < headerRep b.header → (ctxOf (endIssue b s g .primary) g).prim =
      { x with slot := 0, begun := false, live := false, verOk := false, rep := x.rep + 1 }) ∧
    (headerRep b.header ≤ x.rep → (ctxOf s g).tretTo = none → (ctxOf s g).tctl.getLsbD 0 = false →
      headerSw b.header = false → x.switchReq = false → (ctxOf (endIssue b s g .primary) g).prim =
        { x with slot := 0, begun := false, live := false, verOk := false, rep := 0,
                 pc := x.nextPc.getD x.ft, nextPc := none })

/-! ### Reset and invariants -/

/-- What module reset leaves, for the registers of the windows that have a reset value, and the empty memory, queues and
slots (R45, R119 for SLCMAP and SLCRDY, R122, R198, R369, R390, R406 for PRESTAT, R429 to R438). That an unlisted byte reads as 0 is the model's choice (log entry 2),
and so are the form of memory and the empty agenda (log entry 1). -/
def Obligations.ResetValues : Prop :=
  (∀ n, n < 8 → ReadsAtReset (.plcmap n) 0x76543210) ∧
  (∀ d n, d < 8 → n < 8 → ReadsAtReset (.slcmap d n)
    ((List.range 8).foldl (fun a k => a + (8 * n + k) % 64 * 2 ^ (8 * k)) 0)) ∧
  (∀ q, q < 32 → ReadsAtReset (.qcfg q) 0x40 ∧ ReadsAtReset (.qstat q) 0) ∧
  (∀ p, p < 256 → ReadsAtReset (.engmap p 0) 0x0706050403020100 ∧ ReadsAtReset (.engmap p 1) 0x0F0E0D0C0B0A0908 ∧
    ReadsAtReset (.podcfg p) 0) ∧
  (∀ d, d < 8 → ReadsAtReset (.asidtab d) 0 ∧ ReadsAtReset (.tlbinvst d) 0 ∧ ReadsAtReset (.slcrdy d) 0 ∧
    ReadsAtReset (.upst d) 0) ∧
  ReadsAtReset .pwrcap 3300 ∧ ReadsAtReset .pkgid 0xFFFF ∧ ReadsAtReset .hlerr 0 ∧ ReadsAtReset .evtstat 0 ∧
  ReadsAtReset .lerr 0 ∧ ReadsAtReset .prestat 0 ∧ ReadsAtReset .rdydie 0 ∧
  (∀ g, (ctxOf State.reset g).phase = .free) ∧ (∀ a, rdByte State.reset a = 0#8) ∧
  State.reset.pkg.hi = [] ∧ State.reset.pkg.lo = [] ∧ State.reset.pkg.hrun = 0 ∧ State.reset.pkg.launches = [] ∧
  memOk State.reset ∧ agendaOk State.reset = true

/-- Every step keeps memory in its canonical form: addresses rising, no byte listed that an unlisted one reads as. The
form and the byte of an unlisted address are the model's choice (log entry 2). -/
def Obligations.StepKeepsMemory : Prop :=
  ∀ (s t : State), memOk s → step s = .next t → memOk t

/-- R105, R106, R108: a store of a translated piece at its slice and a load of the same piece after it, under any one
hint: the load gives the bytes stored. -/
def Obligations.StoreThenLoad : Prop :=
  ∀ (s t t' : State) (sg : Seg) (bs bs' : List Byte) (ch : Hint) (u : Bool),
    sg.mt ≠ .host → bs.length = sg.len → sg.va % 128 + sg.len ≤ 128 → populated sg.pa = true →
    isPending s sg.die sg.pa = false → wrSeg s sg bs ch u = .ok () t → rdSeg t sg ch u = .ok bs' t' → bs' = bs

/-- R61, R210, R233: at a switch point between bundles every result of either half is written, in the order in which the
results fall due and, of those due together, in the order of their issue, a later one over an earlier; s0 reads as 0 whatever
is written to it, a CSR keeps its writable bits (R218 for VSTEP, MSTEP and XSTEP, R393 for TVEC and TCTL), and no other
half's scalar register changes. -/
def Obligations.LandingWritesResults : Prop :=
  ∀ (s : State) (g : Nat) (h : HalfId) (l l' : List Pend),
    (ctxOf s g).phase = .parked → (h = .primary ∨ (ctxOf s g).spare ≠ none) →
    ((ctxOf s g).half h).begun = false → ((ctxOf s g).half h).wait ≠ .stopped → ((ctxOf s g).half h).pend = l →
    (l' = l ∧ l.Pairwise (fun p q => p.due ≤ q.due) ∨ l'.Perm l ∧ l'.Pairwise (fun p q => p.due < q.due)) →
    let ws := l'.flatMap (·.writes)
    (∀ c x m, Wr.csr c x m ∈ ws → g % 8 < 4 ∧ c < 0x200) →
    ∃ t, exec (.resultLand g h) s = .next t ∧ ((ctxOf t g).half h).pend = [] ∧ t.mem = s.mem ∧
      (∀ n, rdSH ((ctxOf t g).half h) n = if n = 0#6 then 0#64 else scalarOf ws n (rdSH ((ctxOf s g).half h) n)) ∧
      (∀ c m old, csrKeeps c = some m → csrTableOf (ctxOf s g) g c = some old →
        csrTableOf (ctxOf t g) g c = some (csrOf ws c m old)) ∧
      ∀ k j, (k ≠ g ∨ j ≠ h ∧ (j = .primary ∨ (ctxOf s g).spare ≠ none)) →
        ∀ n, rdSH ((ctxOf t k).half j) n = rdSH ((ctxOf s k).half j) n
end
section
open Sys2Proof Sys2Proof.Machine Sys2Proof.Claims

/-! ### Scalar slot instructions -/

/-- R236, R237: the scalar arithmetic computes D, due in the next issue cycle. -/
def Sys2Proof.Claims.ScalarArithmetic : Prop :=
  ∀ (i : Instr) (s : State) (d : SReg) (v : Word),
    arith i s = some (d, v) → mayWrite s d v → exec i s = .next (result s d v 1)

/-- R238: compares set D to 1 where the condition holds and to 0 elsewhere. -/
def Sys2Proof.Claims.CompareSetsOneOrZero : Prop :=
  ∀ (s : State) (cc : Cond) (d a : SReg) (v : Word), mayWrite s d v → (v = 0#64 ∨ v = 1#64) →
    (∀ b, (v = 1#64 ↔ Holds cc (rdS s a) (rdS s b)) → exec (.cmp cc d a b) s = .next (result s d v 1)) ∧
    (∀ imm : BitVec 9, (v = 1#64 ↔ Holds cc (rdS s a) (BitVec.ofInt 64 imm.toInt)) →
      exec (.cmpi cc d a imm) s = .next (result s d v 1))

/-- R239, whole: the fields of `sel` in both scalar slots, and its result. -/
def Obligations.SelectReadsItsFields : Prop :=
  (∀ w : W32, w.toNat / 2 ^ 24 = 0x1A → ∀ sl, sl = Slot.sa ∨ sl = Slot.sb →
    decodeSyllable sl w [] = .ok (.sel (w.extractLsb' 18 6) (w.extractLsb' 12 6) (w.extractLsb' 6 6) (w.extractLsb' 0 6))) ∧
  ∀ (s : State) (d a b c : SReg),
    let v := if rdS s c = 0#64 then rdS s b else rdS s a
    mayWrite s d v → exec (.sel d a b c) s = .next (result s d v 1)

/-- R240: counts of zero and one bits, and bit-field extraction and insertion. -/
def Sys2Proof.Claims.BitFieldOperations : Prop :=
  ∀ (i : Instr) (s : State) (d : SReg) (v : Word),
    bitResult i s = some (d, v) → mayWrite s d v → exec i s = .next (result s d v 1)

/-- R241, R242: immediates and moves between scalar, staging and index-base registers. -/
def Sys2Proof.Claims.RegisterMoves : Prop :=
  (∀ (i : Instr) (s : State) (d : SReg) (v : Word),
    moveResult i s = some (d, v) → mayWrite s d v → exec i s = .next (result s d v 1)) ∧
  (∀ (i : Instr) (s : State) (lat : Nat) (w : Wr),
    stagingResult i s = some (lat, w) → exec i s = .next (queue s lat [w]))

/-- R233, R68: in an ordinary context a result for s63 outside the stack raises the stack-limit trap. -/
def Sys2Proof.Claims.StackLimitTrap : Prop :=
  ∀ (i : Instr) (s : State) (v : Word), arith i s = some (63#6, v) → s.issuer.gcn % 8 ≠ 4 → (curH s).slot < 6 →
    (curH s).rep < 256 → (v.toNat < (cur s).stklim.toNat ∨ (cur s).stktop.toNat < v.toNat) →
    ∃ t, exec i s = .next t ∧ Trapped s t 0x08 0 (curH s).slot false

/-- R72: what a result for s63 does in the handler slot outside [PRVHW, PRVTOP]. -/
def Sys2Proof.Claims.HandlerStackBounds : Prop :=
  ∀ (i : Instr) (s : State) (v : Word), arith i s = some (63#6, v) → s.issuer.gcn % 8 = 4 →
    ((cur s).prvlo.toNat ≤ v.toNat → v.toNat < (cur s).prvhw.toNat →
      ∃ t, exec i s = .next t ∧ (cur t).phase = .frozen ∧ (curH t).wait = .highWater v ∧ SameStorage s t ∧
        SameRegs (cur s) (cur t) ∧ bitOf 0 t.pkg.evtstat.toNat = true ∧
        ((mget 0#64 t.pkg.prvpend (s.issuer.gcn / 512)).getLsbD (s.issuer.gcn / 8 % 64)) = true) ∧
    ((v.toNat < (cur s).prvlo.toNat ∧ v.toNat < (cur s).prvhw.toNat) ∨
        (cur s).prvtop.toNat < v.toNat ∧ (cur s).prvhw.toNat ≤ v.toNat →
      ∃ t, exec i s = .next t ∧ (cur t).phase = .frozen ∧ SameStorage s t ∧ SameRegs (cur s) (cur t) ∧
        ∀ l, (ctxOf s (served s)).launch = some l → launchOf t l = (launchOf s l).map fun x =>
          if x.fatal.isSome then x else { x with fatal := some (1, served s) })

/-- What register-only instructions leave alone: no register, memory byte, tile or special register changes
until a result lands (R61, R233). -/
def Sys2Proof.Claims.RegisterInstructionsFrame : Prop :=
  ∀ (i : Instr) (s t : State), registerOnly i = true → exec i s = .next t →
    SameStorage s t ∧ SameOthers s t ∧ SameRegs (cur s) (cur t)

/-- R245: `ldsp` reads and `stsp` writes the raw bytes of a lane's portion, or of every active lane's. -/
def Obligations.ScratchpadWords : Prop :=
  ∀ (s : State) (sz : Size) (a : SReg) (off : BitVec 4),
    let n := bytesOfSize sz
    let la := addrOf s a off sz % 2 ^ 18
    InPortion s la n →
    (∀ (sx : Bool) (lane : BitVec 4) (d : SReg), ¬ (sx = true ∧ sz = .d) → pendingSp s lane.toNat la n = false →
      mayWrite s d (loaded sx n (rdSp s s.issuer.gcn lane.toNat la n)) →
      exec (.ldsp sz sx lane d a off) s =
        .next (result s d (loaded sx n (rdSp s s.issuer.gcn lane.toNat la n)) 6)) ∧
    (∀ (all : Bool) (lane : BitVec 4) (r : SReg), ¬ (all = true ∧ lane ≠ 0#4) →
      exec (.stsp sz all lane r a off) s = .next (queue s 1
        ((if all then (List.range 16).filter fun e => (curH s).am.getLsbD e else [lane.toNat]).map fun e =>
          .sp e la n ((rdS s r).toNat % 2 ^ (8 * n)))))

/-- R243, R244: a load gives D the extended bytes, at latency 3 through the stack cache and interlocked otherwise. -/
def Sys2Proof.Claims.ScalarLoad : Prop :=
  ∀ (s : State) (sz : Size) (sx : Bool) (ch : Hint) (d a : SReg) (off : BitVec 7) (x : Nat) (t : State) (stk : Bool),
    ¬ (sx = true ∧ sz = .d) → loadOf s (addrOf s a off sz) (bytesOfSize sz) ch = some (x, t, stk) →
    mayWrite t d (loaded sx (bytesOfSize sz) x) →
    let v := loaded sx (bytesOfSize sz) x
    exec (.ld sz sx ch d a off) s = .next (if stk then result t d v 3 else arrived t d v)

/-- R243, R244: a store writes the low bytes of S at its address. -/
def Sys2Proof.Claims.ScalarStore : Prop :=
  ∀ (s : State) (sz : Size) (ch : Hint) (r a : SReg) (off : BitVec 7) (t : State),
    storeOf s (addrOf s a off sz) (bytesOf (bytesOfSize sz) ((rdS s r).toNat % 2 ^ (8 * bytesOfSize sz))) ch = some t →
    exec (.st sz ch r a off) s = .next t

/-- Frame of a store outside the stack: it queues the stored bytes, for exactly the addresses from A + sext(OFF) ×
size, or nothing; no register changes and no byte of memory changes at the issue (R155, R244). -/
def Sys2Proof.Claims.StoreOutsideStackFrame : Prop :=
  ∀ (s t : State) (sz : Size) (ch : Hint) (r a : SReg) (off : BitVec 7),
    stackPart s (addrOf s a off sz) (bytesOfSize sz) = .outside →
    exec (.st sz ch r a off) s = .next t →
    t.mem = s.mem ∧ t.vregs = s.vregs ∧ t.tiles = s.tiles ∧ t.vers = s.vers ∧ t.sp = s.sp ∧ t.unseen = s.unseen ∧
      t.spfmt = s.spfmt ∧
      (∀ n, rdS t n = rdS s n) ∧ (∀ n, rdK t n = rdK s n) ∧ (∀ n, rdB t n = rdB s n) ∧ am t = am s ∧
      ((curH t).stq = (curH s).stq ∨ ∃ segs urg, (curH t).stq = (curH s).stq ++ [⟨segs, ch, urg, .own, 0⟩] ∧
        segs.flatMap (fun x => (List.range x.1.len).map (x.1.va + ·)) =
          (List.range (bytesOfSize sz)).map (addrOf s a off sz + ·) ∧
        segs.flatMap (·.2) = bytesOf (bytesOfSize sz) (rdS s r).toNat)

/-- Frame of a store into held lines of the stack cache: the bytes of the lines outside the stored ones read as
before, and memory does not change (R69, R244). -/
def Sys2Proof.Claims.StoreInStackFrame : Prop :=
  ∀ (s t : State) (sz : Size) (ch : Hint) (r a : SReg) (off : BitVec 7),
    let va := addrOf s a off sz
    let n := bytesOfSize sz
    stackPart s va n = .inside → ((cur s).stk.any fun l => l.va == va / 64 * 64) = true →
    ((cur s).stk.any fun l => l.va == (va + n - 1) / 64 * 64) = true →
    exec (.st sz ch r a off) s = .next t →
    SameStorage s t ∧ SameOthers s t ∧ (∀ m, rdS t m = rdS s m) ∧
      (∀ b, (b < va ∨ va + n ≤ b) → stkRead t s.issuer.gcn b 1 = stkRead s s.issuer.gcn b 1) ∧
      stkRead t s.issuer.gcn va n = bytesOf n (rdS s r).toNat

/-- R246, R115: an atomic returns the old value and writes its operation's result, at its home slice. That every queued store
of its context has taken effect before it is the model's choice (log entry 9). -/
def Obligations.AtomicOperations : Prop :=
  ∀ (i : Instr) (s t : State) (wide : Bool) (d a : SReg) (old : Nat),
    atomicForm i = some (wide, d, a) → d ≠ 63#6 → (rdS s a).toNat % (if wide then 8 else 4) = 0 →
    ¬ OverStack s (rdS s a).toNat (if wide then 8 else 4) →
    storesDone (flushStores s s.issuer.gcn) s.issuer.gcn = true →
    atomicAccess i s (flushStores s s.issuer.gcn) (rdS s a).toNat (if wide then 8 else 4) = some (old, t) →
    exec i s = .next (arrived (handlerStore t (rdS s a).toNat (if wide then 8 else 4)) d (BitVec.ofNat 64 old))

/-- R246: in the order of R392, an atomic into s63 is illegal, a misaligned address traps, an address in the stack
traps; each before any access. -/
def Sys2Proof.Claims.AtomicTraps : Prop :=
  ∀ (i : Instr) (s : State) (wide : Bool) (d a : SReg), atomicForm i = some (wide, d, a) →
    s.issuer.gcn % 8 ≠ 4 → (curH s).slot < 6 → (curH s).rep < 256 →
    let w := if wide then 8 else 4
    (d = 63#6 → ∃ t, exec i s = .next t ∧ Trapped s t 0x02 0 (curH s).slot false) ∧
    (d ≠ 63#6 → (rdS s a).toNat % w ≠ 0 → ∃ t, exec i s = .next t ∧ Trapped s t 0x09 0 (curH s).slot false) ∧
    (d ≠ 63#6 → (rdS s a).toNat % w = 0 → OverStack s (rdS s a).toNat w →
      ∃ t, exec i s = .next t ∧ Trapped s t 0x08 0 (curH s).slot false)

/-- R247: branches and jumps set the program counter of the next bundle; `loop` also decrements A. -/
def Sys2Proof.Claims.BranchesAndJumps : Prop :=
  ∀ (s : State) (a : SReg) (off : BitVec 17),
    (∀ nz, ((rdS s a ≠ 0#64) ↔ nz = true) → exec (.br nz a off) s = .next (taken s (jumpTo s off.toInt))) ∧
    (∀ nz, ¬ ((rdS s a ≠ 0#64) ↔ nz = true) → exec (.br nz a off) s = .next (falls s)) ∧
    (∀ o : W32, exec (.jmp o) s = .next (taken s (jumpTo s o.toInt))) ∧
    (exec (.jr a) s = .next (taken s (rdS s a &&& BitVec.ofInt 64 (-4)))) ∧
    (let v := BitVec.ofInt 64 ((rdS s a).toInt - 1)
     mayWrite s a v → exec (.loop a off) s = .next (if v = 0#64 then falls (result s a v 1)
       else taken (result s a v 1) (jumpTo s off.toInt)))

/-- R248: calls push FT through s63 and jump; `ret` pops the address and jumps to it. -/
def Sys2Proof.Claims.CallsAndReturns : Prop :=
  ∀ (s : State),
    (∀ t, let addr := BitVec.ofInt 64 ((rdS s 63#6).toInt - 8)
      mayWrite s 63#6 addr → storeOf s addr.toNat (bytesOf 8 (curH s).ft.toNat) .normal = some t →
      (∀ o : W32, exec (.call o) s = .next (taken (queue t 1 [.s 63#6 addr]) (jumpTo s o.toInt))) ∧
      (∀ a, exec (.callr a) s = .next (taken (queue t 1 [.s 63#6 addr]) (rdS s a &&& BitVec.ofInt 64 (-4))))) ∧
    (∀ x t stk, let sp := BitVec.ofInt 64 ((rdS s 63#6).toInt + 8)
      mayWrite s 63#6 sp → loadOf s (rdS s 63#6).toNat 8 .normal = some (x, t, stk) →
      exec .ret s = .next (taken (queue t 1 [.s 63#6 sp]) (BitVec.ofNat 64 x &&& BitVec.ofInt 64 (-4))))
end
section
open Sys2Proof Sys2Proof.Machine Sys2Proof.Claims

/-! ### Ordering, CSRs, traps, halts -/

/-- R249, R251, R253, R254: the waits that an ordering instruction starts; all but `arrinc` are switch points. That `arrinc`
with LOCAL = 1 does not look at its DIE field is the model's choice (log entry 34). -/
def Obligations.OrderingWaits : Prop :=
  ∀ (s : State),
    (∀ k sc, ∃ t, exec (.fence k sc) s = .next t ∧ Stalls s t (.fence k sc) true) ∧
    (∃ t, exec .ufence s = .next t ∧ Stalls s t (.ufence (cur s).nextCmd) true) ∧
    (∀ (cm : BitVec 3) (last : Bool) (a : SReg),
      let n := if last then (cur s).issued else (rdS s a).toNat % 65536
      cm ≠ 0#3 → ¬ (last = true ∧ a ≠ 0#6) → ((cur s).issued + 65536 - n) % 65536 < 32768 →
      ∃ t, exec (.waitb cm last a) s = .next t ∧ Stalls s t (.waitb n cm) true) ∧
    (∀ (own : Bool) (dn : BitVec 3) (ctr : Byte) (a : SReg) (l : Nat) (x : Launch),
      let d := if own then s.issuer.gcn / 256 else dn.toNat
      s.issuer.gcn % 8 ≠ 4 → OfLaunch s l x → d < 8 → (x.record.getD 0 0#64).getLsbD (56 + d) = true →
      ∃ t, exec (.arrinc own dn ctr a) s = .next t ∧
        Stalls s t (.arrinc d ctr.toNat (BitVec.ofNat 32 ((rdS s a).toNat % 2 ^ 32))) false)

/-- R252: `batch` numbers the open batch, or waits, interlocked, while 32,767 batches are open. That its D has latency 1,
which R220 does not list, is the model's choice (log entry 34). -/
def Obligations.BatchCloses : Prop :=
  ∀ (s : State) (d : SReg),
    let open_ := ((cur s).issued + 65536 - (cur s).completed) % 65536
    let n := ((cur s).issued + 1) % 65536
    (open_ < 32767 → mayWrite s d (BitVec.ofNat 64 n) →
      ∃ t, exec (.batch d) s = .next t ∧ (cur t).issued = n ∧ (∀ x ∈ (cur t).cmds, x.batch ≠ none) ∧
        (∀ x ∈ (cur s).cmds, x.fin = false → x.batch = none → { x with batch := some n } ∈ (cur t).cmds) ∧
        t.unseen = (s.unseen.map fun u =>
          if u.gcn = s.issuer.gcn ∧ u.batch = none then { u with batch := some n } else u) ∧
        SameStorage s { t with unseen := s.unseen } ∧ SameOthers s t ∧
        (d = 0#6 → (curH t).pend = (curH s).pend) ∧
        (d ≠ 0#6 → (curH t).pend = (curH s).pend ++
          [⟨(curH s).cycle + 1, [.s d (BitVec.ofNat 64 n)], (cur s).dbgPend, (cur s).beat, (curH s).cycle⟩])) ∧
    (32767 ≤ open_ → ∃ t, exec (.batch d) s = .next t ∧ Stalls s t .batch false)

/-- R250, R162: `barr` releases its context's earlier stores at the barrier's scope, joins the current generation and
waits for nothing. -/
def Sys2Proof.Claims.BarrierArrive : Prop :=
  ∀ (s : State) (bk : BarKind) (id : BitVec 4) (l : Nat) (x : Launch),
    OfLaunch s l x → BarrierLegal s x bk id →
    let g := s.issuer.gcn
    let b := barrierOf x bk (barUnit s g bk) id.toNat
    (∀ n, ((cur s).arrivals.find? fun y => y.1 == bk && y.2.1 == id.toNat) = some (bk, id.toNat, n) → n ≠ b.gen) →
    exec (.barr bk id) s = .next (updLaunch (updCtx (releaseTo s g s.issuer.half (visOf bk)) g fun c =>
      { c with arrivals := (bk, id.toNat, b.gen) :: (c.arrivals.filter fun y => !(y.1 == bk && y.2.1 == id.toNat)) }) l
      fun y => putBarrier y { b with arrived := b.arrived ++ [g] })

/-- R250: `barw` waits for the generation its context has joined, or acquires at the barrier's scope. -/
def Sys2Proof.Claims.BarrierWait : Prop :=
  ∀ (s : State) (bk : BarKind) (id : BitVec 4) (l : Nat) (x : Launch), OfLaunch s l x → BarrierLegal s x bk id →
    let b := barrierOf x bk (barUnit s s.issuer.gcn bk) id.toNat
    ((∀ y ∈ (cur s).arrivals, ¬ (y.1 = bk ∧ y.2.1 = id.toNat)) →
      ∃ t, exec (.barw bk id) s = .next t ∧ Stalls s t (.fence .acq (scopeOf bk)) true) ∧
    (∀ n, ((cur s).arrivals.find? fun y => y.1 == bk && y.2.1 == id.toNat) = some (bk, id.toNat, n) →
      (n = b.gen → ∃ t, exec (.barw bk id) s = .next t ∧ Stalls s t (.barw bk id.toNat n) true) ∧
      (n ≠ b.gen → ∃ t, exec (.barw bk id) s = .next t ∧ (curH t).wait = .fence .acq (scopeOf bk) ∧
        (cur t).arrivals = (cur s).arrivals.filter (fun y => !(y.1 == bk && y.2.1 == id.toNat)) ∧ SameStorage s t))

/-- R250, R253: a second arrival before its generation completes, and a wait for a batch that is not closed, trap. -/
def Sys2Proof.Claims.SequenceTraps : Prop :=
  ∀ (s : State), s.issuer.gcn % 8 ≠ 4 → (curH s).slot < 6 → (curH s).rep < 256 →
    (∀ (bk : BarKind) (id : BitVec 4) (l : Nat) (x : Launch), OfLaunch s l x → BarrierLegal s x bk id →
      ((cur s).arrivals.find? fun y => y.1 == bk && y.2.1 == id.toNat) =
        some (bk, id.toNat, (barrierOf x bk (barUnit s s.issuer.gcn bk) id.toNat).gen) →
      ∃ t, exec (.barr bk id) s = .next t ∧ Trapped s t 0x0E 0 (curH s).slot false) ∧
    (∀ (cm : BitVec 3) (a : SReg), cm ≠ 0#3 →
      32768 ≤ ((cur s).issued + 65536 - (rdS s a).toNat % 65536) % 65536 →
      ∃ t, exec (.waitb cm false a) s = .next t ∧ Trapped s t 0x0D 0 (curH s).slot false)

/-- R235, whole: where the slots of a handler, an ordinary context and a split gang make an instruction illegal. -/
def Obligations.IllegalBySlotAndGang : Prop :=
  ∀ (s : State) (bk : BarKind) (id : BitVec 4) (own : Bool) (dn : BitVec 3) (ctr : Byte) (a : SReg),
    (s.issuer.gcn % 8 = 4 → (cur s).prim.slot < 8 → (cur s).prim.rep < 256 →
      ∀ i ∈ [Instr.barr bk id, .barw bk id, .arrinc own dn ctr a, .yield, .halt, .haltNext],
        ∃ t, exec i s = .next t ∧ HandlerTrapped s t 0x02) ∧
    (s.issuer.gcn % 8 ≠ 4 → (curH s).slot < 6 → (curH s).rep < 256 →
      (∃ t, exec (.tret a) s = .next t ∧ Trapped s t 0x02 0 (curH s).slot false) ∧
      ((cur s).spare ≠ none → ∀ i ∈ [Instr.barr bk id, .barw bk id, .halt, .haltNext],
        ∃ t, exec i s = .next t ∧ Trapped s t 0x02 0 (curH s).slot false))

/-- R255, R256: a CSR of the context reads as its register, and in a context that is not split the set and clear forms
also write it. -/
def Sys2Proof.Claims.CsrReads : Prop :=
  ∀ (s : State) (c : BitVec 12) (d a : SReg) (v : Word), s.issuer.gcn % 8 ≠ 4 → csrTable s c = some v →
    (mayWrite s d v → exec (.csrr d c) s = .next (result s d v 1)) ∧
    ((csrKeeps c ≠ none ∨ c = 0x130#12) → (cur s).spare = none → mayWrite s d v →
      exec (.csrset d c a) s = .next (queue s 1
        ((if d = 0#6 then [] else [.s d v]) ++ [.csr c.toNat (v ||| rdS s a) (curH s).am])) ∧
      exec (.csrclr d c a) s = .next (queue s 1
        ((if d = 0#6 then [] else [.s d v]) ++ [.csr c.toNat (v &&& ~~~(rdS s a)) (curH s).am])))

/-- R255, R218, R393: a write of a CSR lands in the next issue cycle and keeps the writable bits. -/
def Sys2Proof.Claims.CsrWrites : Prop :=
  ∀ (s : State) (c : BitVec 12) (a : SReg) (m : Word), s.issuer.gcn % 8 ≠ 4 → csrKeeps c = some m →
    ((cur s).spare = none → exec (.csrw c a) s = .next (queue s 1 [.csr c.toNat (rdS s a) (curH s).am])) ∧
    ∀ (x : Word) (am : Mask), csrTable (writeCsr s s.issuer.gcn c.toNat x am) c = some (x &&& m) ∧
      ∀ c', c' ≠ c → csrTable (writeCsr s s.issuer.gcn c.toNat x am) c' = csrTable s c'

/-- R234: in a split context a write by the spare half of a CSR of the context is without effect when the primary half
writes it in the same issue cycle, and a write by the primary half takes away the spare half's of that cycle. When two
issues of the halves share an issue cycle is the model's free choice (log entry 33). -/
def Sys2Proof.Claims.SplitCsrWrites : Prop :=
  ∀ (s : State) (i : Instr) (c : BitVec 12) (d : SReg) (old v : Word), s.issuer.gcn % 8 ≠ 4 → (cur s).spare ≠ none →
    (csrKeeps c ≠ none ∨ c = 0x130#12) → csrTable s c = some old → WritesCsr s i c d old v → mayWrite s d old →
    let b := (cur s).beat
    let both := (if d = 0#6 then [] else [.s d old]) ++ [.csr c.toNat v (curH s).am]
    (s.issuer.half = .primary →
      exec i s = .next (queue (updHalf s s.issuer.gcn .spare fun x => withoutCsr x b c) 1 both)) ∧
    (s.issuer.half = .spare → WritesNow (cur s).prim b c → exec i s = .next (result s d old 1)) ∧
    (s.issuer.half = .spare → ¬ WritesNow (cur s).prim b c → exec i s = .next (queue s 1 both))

/-- R57, R64, R65, R255: a write of DBGCTL lands in the next issue cycle; with PEND = 0 it clears every pending bit of the
context. -/
def Sys2Proof.Claims.DebugControl : Prop :=
  ∀ (s : State) (a : SReg), s.issuer.gcn % 8 ≠ 4 →
    ((cur s).spare = none → exec (.csrw 0x130#12 a) s = .next (queue s 1 [.csr 0x130 (rdS s a) (curH s).am])) ∧
    ∀ (x : Word) (am : Mask), let t := writeCsr s s.issuer.gcn 0x130 x am
      SameStorage s t ∧ SameOthers s t ∧ (cur t).dbgPend = x.getLsbD 0 ∧
      (x.getLsbD 0 = false → (∀ h, ∀ p ∈ ((cur t).half h).pend, p.pb = false) ∧ ∀ y ∈ (cur t).cmds, y.dests = []) ∧
      (x.getLsbD 0 = true → (cur t).cmds = (cur s).cmds ∧ ∀ h, ((cur t).half h).pend = ((cur s).half h).pend) ∧
      ∀ c, c ≠ 0x130#12 → csrTable t c = csrTable s c

/-- R55, R57, R196, R255: SPFMT and SHP read as the lowest-numbered active engine's, 0 with AM = 0; a legal write lands in
every active engine and in no other; an illegal value, and a bank outside the portion, trap with nothing written. -/
def Sys2Proof.Claims.EngineCsrs : Prop :=
  ∀ (s : State) (c : BitVec 12) (d : SReg), s.issuer.gcn % 8 ≠ 4 →
    let g := s.issuer.gcn
    let j := c.toNat % 16
    let fmt := 0x100 ≤ c.toNat ∧ c.toNat < 0x110
    let shp := 0x170 ≤ c.toNat ∧ c.toNat < 0x174
    let old := laneCsr (curH s).am fun e => if c.toNat < 0x110 then spfmtOf s g e j else shpOf s g e j
    (fmt ∧ j < (cur s).spn ∨ shp →
      (mayWrite s d old → exec (.csrr d c) s = .next (result s d old 1)) ∧
      ∀ i v, WritesCsr s i c d old v →
        ((if fmt then FormatValue v else ShapeValue v) → mayWrite s d old → exec i s =
          .next (queue s 1 ((if d = 0#6 then [] else [.s d old]) ++ [.csr c.toNat v (curH s).am]))) ∧
        (¬ (if fmt then FormatValue v else ShapeValue v) → (curH s).slot < 6 → (curH s).rep < 256 →
          ∃ t, exec i s = .next t ∧ Trapped s t 0x02 0 (curH s).slot false)) ∧
    (fmt → (cur s).spn ≤ j → (curH s).slot < 6 → (curH s).rep < 256 →
      (∃ t, exec (.csrr d c) s = .next t ∧ Trapped s t 0x05 0 (curH s).slot false) ∧
      ∀ a, FormatValue (rdS s a) → ∃ t, exec (.csrw c a) s = .next t ∧ Trapped s t 0x05 0 (curH s).slot false) ∧
    ∀ (x : Word) (am : Mask) (e k : Nat), e < 16 → let t := writeCsr s g c.toNat x am
      (fmt → k < 16 → j < 16 - (cur s).splo → k < 16 - (cur s).splo →
        spfmtOf t g e k = if am.getLsbD e ∧ k = j then x.toNat else spfmtOf s g e k) ∧
      (shp → k < 4 → shpOf t g e k = if am.getLsbD e ∧ k = j then x.toNat else shpOf s g e k)

/-- R57, R72, R256: below 0x180 the handler slot reads the CSRs of the context it serves, and from 0x180 its own; PRVTOP, PRVHW
and PRVLO, which it alone has, keep bits [47:16] of what is written. -/
def Sys2Proof.Claims.HandlerCsrs : Prop :=
  ∀ (s : State) (c : BitVec 12) (d a : SReg) (v : Word), s.issuer.gcn % 8 = 4 →
    (c.toNat < 0x180 → csrTableOf (ctxOf s (served s)) (served s) c = some v → mayWrite s d v →
      exec (.csrr d c) s = .next (result s d v 1)) ∧
    (0x180 ≤ c.toNat → csrTable s c = some v → mayWrite s d v → exec (.csrr d c) s = .next (result s d v 1)) ∧
    ((c = 0x140#12 ∧ v = (cur s).prvtop ∨ c = 0x141#12 ∧ v = (cur s).prvhw ∨ c = 0x142#12 ∧ v = (cur s).prvlo) →
      (mayWrite s d v → exec (.csrr d c) s = .next (result s d v 1)) ∧
      ((cur s).spare = none → ∃ m, exec (.csrw c a) s = .next (queue s 1 [.csr c.toNat (rdS s a) m])) ∧
      ∀ (x : Word) (m : Mask), let t := writeCsr s s.issuer.gcn c.toNat x m
        let y := x &&& 0x0000FFFFFFFF0000#64
        (cur t).prvtop = (if c = 0x140#12 then y else (cur s).prvtop) ∧
        (cur t).prvhw = (if c = 0x141#12 then y else (cur s).prvhw) ∧
        (cur t).prvlo = (if c = 0x142#12 then y else (cur s).prvlo) ∧ OnlyContext s t s.issuer.gcn)

/-- R399: what the handler reads through its views: HSEL; the selected context's state; 0 where HSEL shows no context of the
served team or names a half that does not exist. -/
def Sys2Proof.Claims.HandlerViewReads : Prop :=
  ∀ (s : State) (c : BitVec 12) (d : SReg) (v : Word), s.issuer.gcn % 8 = 4 → 0x200 ≤ c.toNat → c.toNat < 0x2C0 →
    (c = 0x200#12 → v = (cur s).hsel → mayWrite s d v → exec (.csrr d c) s = .next (result s d v 1)) ∧
    (c ≠ 0x200#12 → ¬ Shown s ∨ HalfView c ∧ selectedHalf s = none → mayWrite s d 0#64 →
      exec (.csrr d c) s = .next (result s d 0#64 1)) ∧
    (c ≠ 0x200#12 → Shown s →
      ((∃ h, HalfView c ∧ selectedHalf s = some h ∧
        halfViewTable (ctxOf s (selected s)) ((ctxOf s (selected s)).half h) c.toNat = some v) ∨
        viewTable s c.toNat = some v) → mayWrite s d v → exec (.csrr d c) s = .next (result s d v 1))

/-- R68, R255, R399, R400: a write through a view is queued; a read-only view is illegal, and a value for HS63 outside the
stack of a Frozen context raises the stack-limit trap, both in the handler slot. -/
def Sys2Proof.Claims.HandlerViewWritesIssue : Prop :=
  ∀ (s : State) (c : BitVec 12) (a : SReg), s.issuer.gcn % 8 = 4 → (cur s).spare = none → 0x200 ≤ c.toNat →
    c.toNat < 0x2C0 →
    let x := ctxOf s (selected s)
    let v := rdS s a
    let fixed := c.toNat ∈ [0x206, 0x207, 0x2AC, 0x2AD, 0x2AE] ∨ 0x2B0 ≤ c.toNat
    let outside := c = 0x287#12 ∧ Shown s ∧ selectedHalf s ≠ none ∧ ViewOpen s ∧ (v < x.stklim ∨ x.stktop < v)
    (¬ fixed → ¬ outside → ∃ m, exec (.csrw c a) s = .next (queue s 1 [.csr c.toNat v m])) ∧
    ((cur s).prim.slot < 8 → (cur s).prim.rep < 256 →
      (fixed → ∃ t, exec (.csrw c a) s = .next t ∧ HandlerTrapped s t 0x02) ∧
      (outside → ∃ t, exec (.csrw c a) s = .next t ∧ HandlerTrapped s t 0x08))

/-- R399: what a write through a view leaves when it lands: HSEL; nothing for a context that is not shown, not Frozen, or
without the half; the selected half's state; the selected context's TSW, TCTL, TVEC and versions; the windows of the handler
registers. -/
def Sys2Proof.Claims.HandlerViewWritesLand : Prop :=
  ∀ (s : State) (c : BitVec 12) (v : Word) (m : Mask), s.issuer.gcn % 8 = 4 → 0x200 ≤ c.toNat → c.toNat < 0x2AC →
    let g := s.issuer.gcn
    let t := writeCsr s g c.toNat v m
    let k := selected s
    let x := ctxOf s k
    (c = 0x200#12 → t = updCtx s g fun y => { y with hsel := v &&& 0xF7#64 }) ∧
    (c ≠ 0x200#12 → ¬ Shown s ∨ ¬ ViewOpen s ∨ HalfView c ∧ selectedHalf s = none → t = s) ∧
    (Shown s → ViewOpen s →
      (∀ h, HalfView c → selectedHalf s = some h → HalfViewWritten s t k h c.toNat v) ∧
      (c = 0x201#12 → OnlyContext s t k ∧ let slot := v.toNat / 2 ^ 21 % 8
        let rep := v.toNat / 2 ^ 32 % 256
        (6 ≤ slot → t = s) ∧ (slot < 6 → (ctxOf t k).tsw = withSlotRep x.tsw slot rep ∧
          ∀ h ∈ x.halves, namedBy x h → ((ctxOf t k).half h).slot = slot ∧ ((ctxOf t k).half h).rep = rep)) ∧
      (c = 0x204#12 → t = updCtx s k fun y => { y with tctl := v &&& 1#64 }) ∧
      (c = 0x205#12 → t = updCtx s k fun y => { y with tvec := v &&& 0x0000FFFFFFFFFFFC#64 }) ∧
      (c = 0x2A9#12 → t.ctxs = s.ctxs ∧ ∀ n, accver t k ((cur s).hsel.toNat / 16 % 16) n =
        if n < x.acnt then v.toNat / 2 ^ (6 * n) % 64 else accver s k ((cur s).hsel.toNat / 16 % 16) n) ∧
      (c = 0x2AA#12 → t = if v.toNat % 256 < x.vcnt then updCtx s g fun y => { y with hvwin := v &&& 0x1FF#64 } else s) ∧
      (c = 0x2AB#12 → t = if v.toNat / 16 % 8 < x.acnt then updCtx s g fun y => { y with htwin := v &&& 0x17F#64 }
        else s))

/-- R400: the actions of HCMD: discard the command whose fault was reported last, drain the replay buffer, stop request,
kill; every other is ignored, and so are the first two on a context that is not Frozen. -/
def Sys2Proof.Claims.HandlerCommands : Prop :=
  ∀ (s : State) (v : Word) (m : Mask), s.issuer.gcn % 8 = 4 →
    let t := writeCsr s s.issuer.gcn 0x2AF v m
    let k := selected s
    let x := ctxOf s k
    (¬ Shown s → t = s) ∧
    (Shown s →
      (v.toNat % 16 = 1 → (¬ ViewOpen s → t = s) ∧ (ViewOpen s → OnlyContext s t k ∧
        ∀ y ∈ (ctxOf t k).cmds, some y.id = x.lastCmd → y.reported = true → y.fin = true ∧ y.flt = none)) ∧
      (v.toNat % 16 = 2 → (¬ ViewOpen s ∨ selectedHalf s = none → t = s) ∧
        ∀ h due ws pb beat born, ViewOpen s → selectedHalf s = some h → (x.half h).pend = [⟨due, ws, pb, beat, born⟩] →
          (∀ c y n, Wr.csr c y n ∉ ws) → ((ctxOf t k).half h).pend = [] ∧ t.mem = s.mem ∧
            ∀ n, rdSH ((ctxOf t k).half h) n = if n = 0#6 then 0#64 else scalarOf ws n (rdSH (x.half h) n)) ∧
      (v.toNat % 16 = 3 → t = updCtx s k fun y => { y with stopReq := true }) ∧
      (v.toNat % 16 = 4 → SameStorage s t ∧ t.ctxs = s.ctxs ∧ ∀ l, x.launch = some l →
        launchOf t l = (launchOf s l).map fun y => if y.fatal.isSome then y else { y with fatal := some (5, k) }) ∧
      ((v.toNat % 16 = 0 ∨ 5 ≤ v.toNat % 16) → t = s))

/-- R57, R255, R392: unassigned numbers and writes of read-only registers are illegal, handler-only numbers are
privileged, in an ordinary context. -/
def Sys2Proof.Claims.CsrTraps : Prop :=
  ∀ (s : State) (c : BitVec 12) (d a : SReg), s.issuer.gcn % 8 ≠ 4 → (curH s).slot < 6 → (curH s).rep < 256 →
    (Unassigned c → ∀ i ∈ [Instr.csrr d c, .csrw c a, .csrset d c a, .csrclr d c a],
      ∃ t, exec i s = .next t ∧ Trapped s t 0x02 0 (curH s).slot false) ∧
    (ReadOnlyCsr c → ∀ i ∈ [Instr.csrw c a, .csrset d c a, .csrclr d c a],
      ∃ t, exec i s = .next t ∧ Trapped s t 0x02 0 (curH s).slot false) ∧
    (0x140 ≤ c.toNat ∧ c.toNat < 0x143 → ∀ i ∈ [Instr.csrr d c, .csrw c a, .csrset d c a, .csrclr d c a],
      ∃ t, exec i s = .next t ∧ Trapped s t 0x03 0 (curH s).slot false) ∧
    (0x200 ≤ c.toNat ∧ c.toNat < 0x2C0 →
      ∃ t, exec (.csrr d c) s = .next t ∧ Trapped s t 0x03 0 (curH s).slot false)

/-- R257, R393 to R399: `trap` and `brk` in an ordinary context, and what the entry records. -/
def Sys2Proof.Claims.TrapInstructions : Prop :=
  ∀ (s : State), s.issuer.gcn % 8 ≠ 4 → (curH s).rep < 256 →
    (∀ code : BitVec 16, ∃ t, exec (.trap code) s = .next t ∧ Trapped s t 0x14 code.toNat 1 false) ∧
    ((curH s).slot < 6 → ∃ t, exec .brk s = .next t ∧ Trapped s t 0x15 0 (curH s).slot false)

/-- R257, R393 to R399: `trap` and `brk` complete by taking their trap. In an unsplit context that no other freeze stops, the
entry is whole at once: the context is frozen with the TSW of R393, its TPC is the address of the bundle, and it joins the
handler's queue, or with TVEC = 0 its launch stops; registers and storage are the same. -/
def Sys2Proof.Claims.SoftwareTrapsComplete : Prop :=
  ∀ (s : State), s.issuer.gcn % 8 ≠ 4 → s.issuer.half = .primary → (cur s).spare = none → (cur s).stopBy = none →
    (curH s).rep < 256 →
    (∀ code : BitVec 16, ∃ t, exec (.trap code) s = .next t ∧ BecomesFrozen s t true ∧ SameStorage s t ∧
      SameOthers s t ∧ SameRegs (cur s) (cur t) ∧
      (cur t).tsw.toNat = tswValue 0x14 code.toNat (curH s).rep 1 false false false) ∧
    ((curH s).slot < 6 → ∃ t, exec .brk s = .next t ∧ BecomesFrozen s t true ∧ SameStorage s t ∧
      SameOthers s t ∧ SameRegs (cur s) (cur t) ∧
      (cur t).tsw.toNat = tswValue 0x15 0 (curH s).rep (curH s).slot false false false)

/-- R402: any trap in the handler slot, `trap` and `brk` among them, is the fatal stop 0x02 of the launch served. -/
def Sys2Proof.Claims.TrapInHandlerIsFatal : Prop :=
  ∀ (s : State), s.issuer.gcn % 8 = 4 → (cur s).prim.rep < 256 → (cur s).prim.slot < 8 →
    (∃ t, exec .brk s = .next t ∧ HandlerTrapped s t 0x15) ∧
    (∀ code : BitVec 16, ∃ t, exec (.trap code) s = .next t ∧ (cur t).phase = .frozen ∧
      (cur t).tsw.toNat / 256 % 64 = 0x14 ∧ (cur t).tsw.toNat / 2 ^ 48 = code.toNat ∧ SameStorage s t ∧ SameOthers s t) ∧
    ∀ cause, cause < 64 → HandlerTrapped s (raiseW s cause 0 false) cause

/-- R258, R402: `tret` names the frozen context of the served team that resumes at the bundle's end; any other is a
fatal handler error. -/
def Sys2Proof.Claims.HandlerReturnRequest : Prop :=
  ∀ (s : State) (a : SReg), s.issuer.gcn % 8 = 4 →
    let n := (rdS s a).toNat % 4
    let u := ctxOf s (s.issuer.gcn / 8 * 8 + n)
    let v := ctxOf s (served s)
    (u.phase = .frozen → u.launch = v.launch → u.team = v.team →
      ∃ t, exec (.tret a) s = .next t ∧ (cur t).tretTo = some n ∧ (cur t).phase = (cur s).phase ∧
        SameStorage s t ∧ SameOthers s t ∧ SameRegs (cur s) (cur t)) ∧
    ((u.phase ≠ .frozen ∨ u.launch ≠ v.launch ∨ u.team ≠ v.team) →
      ∃ t, exec (.tret a) s = .next t ∧ (cur t).phase = .frozen ∧ SameStorage s t ∧ SameOthers s t ∧
        ∀ l, v.launch = some l → launchOf t l = (launchOf s l).map fun x =>
          if x.fatal.isSome then x else { x with fatal := some (3, served s) })

/-- R258, R401: the return of the handler makes the target Ready where it stopped, idles the handler slot and puts
an entering context that is not the target back at the head of the queue. -/
def Sys2Proof.Claims.HandlerReturnResumes : Prop :=
  ∀ (s : State) (g n : Nat), g % 8 = 4 → n < 4 →
    let t := handlerReturn s g n
    let p := g / 8
    (ctxOf t (p * 8 + n)).phase = .ready ∧ (ctxOf t (p * 8 + n)).tsw = (ctxOf s (p * 8 + n)).tsw ∧
    SameRegs (ctxOf s (p * 8 + n)) (ctxOf t (p * 8 + n)) ∧
    (ctxOf t g).phase = .free ∧ (ctxOf t g).serving = none ∧ n ∉ (pod t p).queue ∧
    (∀ m, (ctxOf s g).serving = some m → m ≠ n → (pod t p).queue.head? = some m) ∧
    SameStorage s t ∧ ∀ k, k ≠ g → k ≠ p * 8 + n → ctxOf t k = ctxOf s k

/-- R259, R387: `yield` makes its bundle a switch point and names the Ready contexts to be chosen first. -/
def Sys2Proof.Claims.YieldLetsOthersRun : Prop :=
  ∀ (s : State), s.issuer.gcn % 8 ≠ 4 →
    ∃ t, exec .yield s = .next t ∧ (curH t).switchReq = true ∧ SameStorage s t ∧ SameOthers s t ∧
      SameRegs (cur s) (cur t) ∧
      ∀ n, n ∈ (cur t).yieldSet ↔
        n < 4 ∧ n ≠ s.issuer.gcn % 8 ∧ (ctxOf s (s.issuer.gcn / 8 * 8 + n)).phase = .ready

/-- R260, R180: a halt with nothing outstanding frees the slot, whose registers keep their values; `halt.next` counts an iteration and waits for the
next one, or ends as `halt` does. -/
def Sys2Proof.Claims.HaltEndsContext : Prop :=
  ∀ (s : State), HaltReady s →
    (∃ t, exec .halt s = .next t ∧ (ctxOf t s.issuer.gcn).phase = .free ∧ t.mem = s.mem ∧ t.vregs = s.vregs ∧
      (∀ n, rdSH (ctxOf t s.issuer.gcn).prim n = rdSH (cur s).prim n) ∧
      (ctxOf t s.issuer.gcn).prim.am = (cur s).prim.am) ∧
    (∃ t, exec .haltNext s = .next t ∧ t.mem = s.mem ∧ t.vregs = s.vregs ∧
      ((ctxOf t s.issuer.gcn).phase = .free ∨
        (ctxOf t s.issuer.gcn).phase = .parked ∧ (ctxOf t s.issuer.gcn).prim.wait = .iter ∧
          (ctxOf t s.issuer.gcn).iters = (cur s).iters + 1))

/-- R209, whole: the nop of each slot, what it does, its reserved bits, and that an issue is an issue cycle whatever
its slots hold. -/
def Obligations.NoOperations : Prop :=
  (∀ (sl : Slot) (w : W32), w.toNat < 2 ^ 24 →
    (w = 0#32 → decodeSyllable sl w [] = .ok (nopOf sl)) ∧ (w ≠ 0#32 → ∀ i, decodeSyllable sl w [] ≠ .ok i)) ∧
  ∀ (s : State), exec .nop s = .next s ∧ exec .gnop s = .next s ∧
    exec .vnop s = .next (updHalf s s.issuer.gcn s.issuer.half fun h => { h with stV := none }) ∧
    exec .mnop s = .next (updHalf s s.issuer.gcn s.issuer.half fun h => { h with stM := none }) ∧
    exec .xnop s = .next (updHalf s s.issuer.gcn s.issuer.half fun h => { h with stX := none }) ∧
    ((curH s).begun = false → (curH s).pend = [] → (curH (beginIssue s)).cycle = (curH s).cycle + 1)
end
section
open Sys2Proof Sys2Proof.Machine Sys2Proof.Claims

/-! ### Vector slot -/

/-- R264: the integer instructions, element by element, at latency 2. -/
def Sys2Proof.Claims.VectorIntegerArithmetic : Prop :=
  ∀ (i : Instr) (s : State) (d a b : VOp) (f : W32 → W32 → W32), vint i = some (d, a, b, f) → VReady s d [a, b] →
    ∃ t, exec i s = .next t ∧ VDone s t i d 2 s.issuer.env.cap fun e k => f (el s e a k) (el s e b k)

/-- R265 to R267, R272: the float, conversion, transcendental and copy instructions, element by element. -/
def Sys2Proof.Claims.VectorFloatArithmetic : Prop :=
  (∀ (i : Instr) (s : State) (d a b : VOp) (lat : Nat) (f : W32 → W32 → W32), vfloat i = some (d, a, b, lat, f) →
    VReady s d [a, b] →
    ∃ t, exec i s = .next t ∧ VDone s t i d lat s.issuer.env.cap fun e k => f (el s e a k) (el s e b k)) ∧
  (∀ (s : State) (d a b : VOp), VReady s d [a, b, d] → ∃ t, exec (.vfma d a b) s = .next t ∧
    VDone s t (.vfma d a b) d 4 s.issuer.env.cap fun e k => ffma (el s e a k) (el s e b k) (el s e d k)) ∧
  (∀ (i : Instr) (s : State) (d a : VOp) (lat : Nat) (f : W32 → W32), vunary i = some (d, a, lat, f) →
    VReady s d [a] →
    ∃ t, exec i s = .next t ∧ VDone s t i d lat s.issuer.env.cap fun e k => f (el s e a k))

/-- R267: the exact special results of the transcendentals. -/
def Sys2Proof.Claims.TranscendentalSpecials : Prop :=
  (∀ x : W32, isNan32 x = true → ∀ f ∈ [exp2F, log2F, rcpF, rsqrtF, tanhF], f x = 0x7FC00000#32) ∧
  (exp2F 0#32 = 0x3F800000#32 ∧ exp2F 0x80000000#32 = 0x3F800000#32 ∧ exp2F 0x7F800000#32 = 0x7F800000#32 ∧
    exp2F 0xFF800000#32 = 0#32) ∧
  (log2F 0#32 = 0xFF800000#32 ∧ log2F 0x80000000#32 = 0xFF800000#32 ∧ log2F 0x7F800000#32 = 0x7F800000#32) ∧
  (rcpF 0#32 = 0x7F800000#32 ∧ rcpF 0x80000000#32 = 0xFF800000#32 ∧ rcpF 0x7F800000#32 = 0#32 ∧
    rcpF 0xFF800000#32 = 0x80000000#32) ∧
  (rsqrtF 0#32 = 0x7F800000#32 ∧ rsqrtF 0x80000000#32 = 0xFF800000#32 ∧ rsqrtF 0x7F800000#32 = 0#32) ∧
  (∀ x : W32, isNan32 x = false → 0x80000000 < x.toNat → log2F x = 0x7FC00000#32 ∧ rsqrtF x = 0x7FC00000#32) ∧
  (∀ k : Int, -149 ≤ k → k ≤ 127 → exp2F (intCode k) = pow2Code k ∧ log2F (pow2Code k) = intCode k) ∧
  (∀ x : W32, 0x43000000 ≤ x.toNat → x.toNat ≤ 0x7F800000 → exp2F x = 0x7F800000#32) ∧
  (∀ x : W32, 0xC3160000 < x.toNat → x.toNat ≤ 0xFF800000 → exp2F x = 0#32) ∧
  (∀ k : Int, -127 ≤ k → k ≤ 127 → rcpF (pow2Code k) = pow2Code (-k) ∧
    rcpF (pow2Code k ||| 0x80000000#32) = pow2Code (-k) ||| 0x80000000#32) ∧
  (∀ k : Int, -74 ≤ k → k ≤ 63 → rsqrtF (pow2Code (2 * k)) = pow2Code (-k)) ∧
  (∀ x : W32, x.toNat ≤ 0x7F800000 → tanhF (x ||| 0x80000000#32) = tanhF x ||| 0x80000000#32) ∧
  (∀ x : W32, x.toNat % 2 ^ 31 ≤ 0x39800000 → tanhF x = x) ∧
  (∀ x : W32, isNan32 x = false → 0x41100000 ≤ x.toNat % 2 ^ 31 →
    tanhF x = if x.toNat < 2 ^ 31 then 0x3F800000#32 else 0xBF800000#32)

/-- R76, R89: an FP32 code that is not a NaN denotes a value whose conversion to FP32, under every mode, is that
code; a NaN gives the canonical NaN. -/
def Sys2Proof.Claims.FloatCodesRoundTrip : Prop :=
  ∀ (rm : RM) (x : W32), toF32 rm (f32 x) = if isNan32 x then 0x7FC00000#32 else x

/-- R268, R269, R271 to R273: compares, selects, permutes, moves and plane counts. -/
def Sys2Proof.Claims.VectorSelectPermuteMove : Prop :=
  ∀ (s : State) (d a b : VOp),
    (∀ cc val, (∀ e k, val e k = 0xFFFFFFFF#32 ∧ VHolds cc (el s e d k) (el s e a k) ∨
        val e k = 0#32 ∧ ¬ VHolds cc (el s e d k) (el s e a k)) → VReady s d [d, a] →
      ∃ t, exec (.vcmp cc d a) s = .next t ∧ VDone s t (.vcmp cc d a) d 2 s.issuer.env.cap val) ∧
    (VReady s d [d, a, b] → ∃ t, exec (.vsel d a b) s = .next t ∧ VDone s t (.vsel d a b) d 2 s.issuer.env.cap
      fun e k => if el s e d k = 0#32 then el s e b k else el s e a k) ∧
    (VReady s d [a, b] → ∃ t, exec (.vperm d a b) s = .next t ∧ VDone s t (.vperm d a b) d 4 s.issuer.env.cap
      fun e k => el s e a ((el s e b k).toNat % 64)) ∧
    (∀ idx : BitVec 6, VReady s d [a] → ∃ t, exec (.vbcast d a idx) s = .next t ∧
      VDone s t (.vbcast d a idx) d 4 s.issuer.env.cap fun e _ => el s e a idx.toNat) ∧
    (∀ r, VReady s d [] → ∃ t, exec (.vmovs d r) s = .next t ∧
      VDone s t (.vmovs d r) d 2 ⟨[], captured s (rdS s r), 0#64⟩ fun _ _ => (captured s (rdS s r)).extractLsb' 0 32) ∧
    (∀ lane, VReady s d [] → ∃ t, exec (.viota lane d) s = .next t ∧
      VDone s t (.viota lane d) d 2 s.issuer.env.cap fun e k => BitVec.ofNat 32 (if lane then e * 64 + k else k)) ∧
    (VReady s d [a, b] → ∃ t, exec (.vbitpop d a b) s = .next t ∧
      VDone s t (.vbitpop d a b) d 4 s.issuer.env.cap fun e j =>
        let p := (List.range 64).filter fun k => el s e b k ≠ 0#32
        if j < 32 then BitVec.ofNat 32 (p.filter fun k => (el s e a k).getLsbD j).length
        else if j = 32 then BitVec.ofNat 32 p.length else 0#32)

/-- R270, R101: the masked reductions write one value to every element: the identity when nothing is present, the
element when one is, and otherwise the combination of the two halves. -/
def Sys2Proof.Claims.VectorReductions : Prop :=
  ∀ (s : State) (d a b : VOp), VReady s d [a, b] →
    let tree := fun (f : W32 → W32 → W32) (e : Nat) =>
      treeReduce f 6 fun k => if el s e b k = 0#32 then none else some (el s e a k)
    (∃ t, exec (.vredsum d a b) s = .next t ∧ VDone s t (.vredsum d a b) d 8 s.issuer.env.cap fun e _ =>
      match tree (fadd .rne) e with
      | none => 0#32
      | some x => if isNan32 x then 0x7FC00000#32 else x) ∧
    (∃ t, exec (.vredmax d a b) s = .next t ∧ VDone s t (.vredmax d a b) d 8 s.issuer.env.cap fun e _ =>
      match tree fmaxN e with
      | none => 0xFF800000#32
      | some x => if isNan32 x then 0x7FC00000#32 else x) ∧
    (∃ t, exec (.vredmin d a b) s = .next t ∧ VDone s t (.vredmin d a b) d 8 s.issuer.env.cap fun e _ =>
      match tree fminN e with
      | none => 0x7F800000#32
      | some x => if isNan32 x then 0x7FC00000#32 else x)

/-- R274 to R276: the nonzero scan, shapes from data and logit masking. -/
def Sys2Proof.Claims.VectorScanShapeMask : Prop :=
  ∀ (s : State) (d a : VOp),
    let ls := activeLanes (curH s).am
    (∀ tt, GroupInBudget s d 2 → VReady s a [a] →
      let idx := fun e => (List.range 64).filter fun k =>
        if tt then el s e a k ≠ 0#32 else (el s e a k).toNat % 2 ^ 31 ≠ 0
      ∃ t, ∃ f : Nat → Nat → VReg, exec (.vnzscan tt d a) s = .next t ∧
        t = leave (queue s 6 (ls.flatMap fun e => [.v e (groupReg s d 0) (f e 0), .v e (groupReg s d 1) (f e 1)])) .v
          (.vnzscan tt d a) s.issuer.env.cap none 0 ∧
        ∀ e k, k < 64 → (f e 0).extractLsb' (32 * k) 32 = (match (idx e)[k]? with
            | some n => BitVec.ofNat 32 n
            | none => 0xFFFFFFFF#32) ∧
          (f e 1).extractLsb' (32 * k) 32 = BitVec.ofNat 32 (idx e).length) ∧
    (∀ (j : ShpR) (f : ShpField) (k : BitVec 6), VReady s a [a] →
      let clamp := fun (top : Nat) (x : W32) => (max 0 (min (top : Int) x.toInt)).toNat
      let wr := fun e (g : MNK) (o : Nat) => Wr.shp e j.toNat g
        (clamp (match g with | .k => 65535 | _ => 32) (el s e a ((k.toNat + o) % 64)))
      exec (.vsetshp j f a k) s = .next (leave (queue s 2 (ls.flatMap fun e => match f with
        | .m => [wr e .m 0]
        | .n => [wr e .n 0]
        | .k => [wr e .k 0]
        | .mnk => [wr e .m 0, wr e .n 1, wr e .k 2])) .v (.vsetshp j f a k) s.issuer.env.cap none 0)) ∧
    (∀ r, let cap := captured s (rdS s r)
      let la := stepped s (cap.toNat % 2 ^ 18)
      VReady s d [a] → la % 8 = 0 → InPortion s la 8 → (∀ e ∈ ls, pendingSp s e la 8 = false) →
      ∃ t, exec (.vmaskf d a r) s = .next t ∧ VDone s t (.vmaskf d a r) d 4 ⟨[], cap, 0#64⟩ fun e k =>
        if (rdSp s s.issuer.gcn e la 8).testBit k then el s e a k else 0xFF800000#32)

/-- R277: 256 raw bytes between a register and a bank of every active lane. -/
def Sys2Proof.Claims.VectorRawLoadStore : Prop :=
  ∀ (s : State) (v : VOp) (a : SReg) (off : BitVec 10),
    let cap := captured s (BitVec.ofNat 64 ((BitVec.ofInt 64 ((rdS s a).toNat + off.toInt * 256)).toNat % 2 ^ 18))
    let la := stepped s cap.toNat
    let ls := activeLanes (curH s).am
    la % 4 = 0 → InPortion s la 256 →
    (VReady s v [] → (∀ e ∈ ls, pendingSp s e la 256 = false) → ∃ t, exec (.vld v a off) s = .next t ∧
      VDone s t (.vld v a off) v 6 ⟨[], cap, 0#64⟩ fun e k => BitVec.ofNat 32 (rdSp s s.issuer.gcn e (la + 4 * k) 4)) ∧
    (VReady s v [v] → exec (.vst v a off) s = .next (leave (queue s 1 (ls.map fun e =>
      .sp e la 256 (rdV s s.issuer.gcn e (regOf s v)).toNat)) .v (.vst v a off) ⟨[], cap, 0#64⟩ none 0))

/-- R278: converting loads and stores under the format of each lane's bank. -/
def Sys2Proof.Claims.VectorConvertingLoadStore : Prop :=
  ∀ (s : State) (tt : Bool) (rm : RM) (v : VOp) (a : SReg) (off : BitVec 6) (ks : List Word),
    (ks = if s.issuer.env.re then s.issuer.env.cap.ks else groupAddrs s a off) →
    let g := s.issuer.gcn
    let ls := activeLanes (curH s).am
    let la := fun e => stepped s (ks.getD e 0#64).toNat
    let x := fun e => spfmtOf s g e (la e / 16384)
    (s.issuer.env.re = false → (rdS s a).toNat % 2 ^ 18 / 16384 < (ctxOf s (served s)).spn) →
    (∀ e ∈ ls, groupOk s (x e) (la e) = true ∧ groupBytes (fmtOf (x e)) ≠ 0 ∧ (s.issuer.env.re = false →
      groupBytes (fmtOf (spfmtOf s g e ((rdS s a).toNat % 2 ^ 18 / 16384))) ≠ 0)) →
    (VReady s v [] → (cur s).dbgPend = false → ∃ t, exec (.vldc tt rm v a off) s = .next t ∧
      VDone s t (.vldc tt rm v a off) v 6 ⟨ks, 0#64, 0#64⟩ fun e k =>
        let f := fmtOf (x e)
        let code := rdSp s g e (la e) (groupBytes f) / 2 ^ (f.bits * k) % 2 ^ f.bits
        let y := fmtDecode f code (groupScale s e (x e) (la e) (if k < 32 then 0 else 32))
        if tt then BitVec.ofNat 32 (encodeInt 32 rm y) else toF32 rm y) ∧
    (∀ sat, VReady s v [v] → exec (.vstc tt rm sat v a off) s = .next (leave (queue s 1 (ls.flatMap fun e =>
      groupWrites e (x e) (la e) rm sat fun k =>
        if tt then .ofInt (el s e v k).toInt else f32 (el s e v k))) .v (.vstc tt rm sat v a off) ⟨ks, 0#64, 0#64⟩ none 0))

/-- R49, R64, R261: a direct operand at or above VCNT, and a pending source, trap at the slot with nothing written. -/
def Sys2Proof.Claims.VectorOperandTraps : Prop :=
  ∀ (i : Instr) (s : State) (d a b : VOp) (f : W32 → W32 → W32), vint i = some (d, a, b, f) →
    s.issuer.gcn % 8 ≠ 4 → (curH s).slot < 6 → (curH s).rep < 256 →
    (¬ (∀ o ∈ [d, a, b], InBudget s o) → ∃ t, exec i s = .next t ∧ Trapped s t 0x04 0 (curH s).slot false) ∧
    ((∀ o ∈ [d, a, b], InBudget s o) → ¬ VReady s d [a, b] →
      ∃ t, exec i s = .next t ∧ Trapped s t 0x07 0 (curH s).slot false)

/-- Frame of the v slot and of the register exchanges of the g slot: nothing but the queue of results, a sticky state
and a trap record changes at the issue (R61, R261, R325). -/
def Sys2Proof.Claims.VectorAndExchangeFrame : Prop :=
  ∀ (i : Instr) (s t : State),
    (slotOf i = some .v ∨ ∃ d a r op k, i = .gvote r d a k ∨ i = .gmsave d ∨ i = .gregroup r d a k ∨
      ∃ v w l, i = .gshuf v w d ∨ i = .gred op v w ∨ i = .gbcast r l v w) →
    exec i s = .next t → SameStorage s t ∧ SameOthers s t ∧ SameRegs (cur s) (cur t)

/-! ### Matrix slot -/

/-- R280, R289 to R294, R297 to R299: a matrix command joins the open batch with its lanes; no tile changes at its
issue, but for `mstore` in a lane that stores nothing and has no earlier command on its tile: there it completes at once
(that K = 0 still stores is log entry 34). -/
def Obligations.MatrixCommandsIssue : Prop :=
  ∀ (s : State) (acc : Acc) (shp : ShpR) (kb : KReg) (ks : List Word), s.issuer.gcn % 8 ≠ 4 →
    (curH s).verOk = false → VersionReady s acc false →
    let ls := activeLanes (curH s).am
    let tile := fun (x : Cmd) => x.tile = tileOf s acc
    (∃ t, exec (.mzero acc) s = .next t ∧
      Issued s t .matrix (.mzero acc) ls fun x => tile x ∧ ∀ j ∈ x.jobs, j.a = 0) ∧
    (∀ a row, GroupInBudget s a (if row then 1 else 16) →
      ∃ t, exec (.minit acc a row) s = .next t ∧ Issued s t .matrix (.minit acc a row) ls fun x => tile x ∧
        ∀ j ∈ x.jobs, ∀ k, k < 1024 → j.a / 2 ^ (32 * k) % 2 ^ 32 =
          (elemV (rdV s s.issuer.gcn j.lane (groupReg s a (if row then 0 else k / 64)))
            (if row then k % 32 else k % 64)).toNat) ∧
    (∀ (da db : BitVec 3) (reuse : Bool), isDigits da = true → isDigits db = true →
      (BlockIs s kb 1 ks → MmaReady s ks shp da db false →
        ∃ t, exec (.mma acc shp kb da db reuse) s = .next t ∧
          Issued s t .matrix (.mma acc shp kb da db reuse) ls tile) ∧
      (BlockIs s kb 2 ks → MmaReady s ks shp da db true →
        ∃ t, exec (.mmag acc shp kb da db reuse) s = .next t ∧
          Issued s t .matrix (.mmag acc shp kb da db reuse) ls tile)) ∧
    (∀ rm sat clr relu bias scl, BlockIs s kb 2 ks → MstoreReady s ks shp bias → (cur s).abase + (cur s).acnt ≤ 8 →
      ∃ t, exec (.mstore acc shp kb rm sat clr relu bias scl) s = .next t ∧
        IssuedAs s t .matrix (.mstore acc shp kb rm sat clr relu bias scl) ls (tileOf s acc)
          (fun e => ((shapeOf s e shp).1 = 0 ∨ (shapeOf s e shp).2.1 = 0) ∧ outstanding s e (tileOf s acc) = 0) clr tile)

/-- R295, R58: `mread` queues the sixteen registers of the tile, clears it when asked and advances its version, in
every active lane. -/
def Sys2Proof.Claims.MatrixRead : Prop :=
  ∀ (s : State) (acc : Acc) (d : VOp) (clr : Bool), s.issuer.gcn % 8 ≠ 4 → (curH s).verOk = false →
    VersionReady s acc true → GroupInBudget s d 16 → (cur s).abase + (cur s).acnt ≤ 8 →
    let ls := activeLanes (curH s).am
    let tl := tileOf s acc
    ∃ t, exec (.mread acc d clr) s = .next t ∧
      (curH t).pend = (curH s).pend ++ [⟨(curH s).cycle + 8, (ls.flatMap fun e => (List.range 16).map fun n =>
        .v e (groupReg s d n) ((rdTile s s.issuer.gcn e tl).extractLsb' (2048 * n) 2048)), (cur s).dbgPend, (cur s).beat,
          (curH s).cycle⟩] ∧
      (∀ e, e < 16 → ∀ u, u < (cur s).acnt → accver t s.issuer.gcn e u = if e ∈ ls ∧ u = tl
        then (accver s s.issuer.gcn e tl + 1) % 64 else accver s s.issuer.gcn e u) ∧
      (∀ e, e < 16 → ∀ u, u < (cur s).acnt → rdTile t s.issuer.gcn e u =
        if e ∈ ls ∧ u = tl ∧ clr = true then 0#32768 else rdTile s s.issuer.gcn e u) ∧
      t.mem = s.mem ∧ t.vregs = s.vregs ∧ t.sp = s.sp ∧ SameOthers s t

/-- R296, R287: `mscale` takes byte j of its four registers as entry j of the A-scale array of each active lane. -/
def Sys2Proof.Claims.MatrixScale : Prop :=
  ∀ (s : State) (a : VOp), s.issuer.gcn % 8 ≠ 4 → GroupInBudget s a 4 →
    ∃ t, exec (.mscale a) s = .next t ∧ SameStorage s t ∧ SameOthers s t ∧
      ∀ e, (e ∈ activeLanes (curH s).am → ∀ j, j < 1024 →
          (mget ascReset (cur t).ascl e).extractLsb' (8 * j) 8 =
            (rdV s s.issuer.gcn e (groupReg s a (j / 256))).extractLsb' (8 * (j % 256)) 8) ∧
        (e ∉ activeLanes (curH s).am → mget ascReset (cur t).ascl e = mget ascReset (cur s).ascl e)

/-- The accumulator operand of an instruction that checks a version (R59, R281), and whether it waits, as `mread` does,
for every earlier command on the tile too (R295). -/
def versionForm : Instr → Option (Acc × Bool)
  | .mzero acc => some (acc, false)
  | .minit acc _ _ => some (acc, false)
  | .mma acc _ _ _ _ _ => some (acc, false)
  | .mmag acc _ _ _ _ _ => some (acc, false)
  | .mstore acc _ _ _ _ _ _ _ _ => some (acc, false)
  | .mread acc _ _ => some (acc, true)
  | _ => none
/-- What R281 checks before the version: the staging block is there and the digits are legal. -/
def MatrixEncodes (s : State) : Instr → Prop
  | .mma _ _ kb da db _ => isDigits da = true ∧ isDigits db = true ∧ ∃ ks, BlockIs s kb 1 ks
  | .mmag _ _ kb da db _ => isDigits da = true ∧ isDigits db = true ∧ ∃ ks, BlockIs s kb 2 ks
  | .mstore _ _ kb _ _ _ _ _ _ => ∃ ks, BlockIs s kb 2 ks
  | _ => True
/-- R59, R281, R295, over every instruction that names a tile with a version: a tile past the budget traps; an expected
version too far behind or ahead traps; one that earlier commands will reach, and for `mread` an earlier command still
unfinished, stalls the slot. -/
def Obligations.VersionCheck : Prop :=
  ∀ (s : State) (i : Instr) (acc : Acc) (extra : Bool), versionForm i = some (acc, extra) → MatrixEncodes s i →
    s.issuer.gcn % 8 ≠ 4 → (curH s).verOk = false → (curH s).slot < 6 → (curH s).rep < 256 →
    let ls := activeLanes (curH s).am
    let dist := fun e => (expected s acc + 64 - accver s s.issuer.gcn e (tileOf s acc)) % 64
    let out := fun e => outstanding s e (tileOf s acc)
    ((cur s).acnt ≤ tileOf s acc → ∃ t, exec i s = .next t ∧ Trapped s t 0x04 0 (curH s).slot false) ∧
    (tileOf s acc < (cur s).acnt → (∃ e ∈ ls, 32 ≤ dist e ∨ out e < dist e) →
      ∃ t, exec i s = .next t ∧ Trapped s t 0x06 0 (curH s).slot false) ∧
    (tileOf s acc < (cur s).acnt → (∀ e ∈ ls, dist e < 32 ∧ dist e ≤ out e) →
      (∃ e ∈ ls, dist e ≠ 0 ∨ (extra = true ∧ out e ≠ 0)) →
      ∃ t, exec i s = .next t ∧ Stalls s t (.version (tileOf s acc) (expected s acc) extra) true)

/-! ### Gang slot -/

/-- R328, R189, R191, R329 to R332: masks, divergent branches, splits, pushes and pops of the stalk. A stalk entry holds an
address as VA[47:2], whatever its upper bits (log entry 25). -/
def Obligations.GangControl : Prop :=
  ∀ (s : State) (c d : SReg) (off : BitVec 18) (rpc : W32), s.issuer.gcn % 8 ≠ 4 →
    let m := (curH s).am
    let cm : Mask := (rdS s c).extractLsb' 0 16
    let tgt := jumpTo s off.toInt
    let rc := jumpTo s rpc.toInt
    let entry : StalkEntry := ⟨m &&& ~~~cm, rc, false, m, ftEntry s⟩
    (rc.toNat < 2 ^ 48 →
      (m &&& cm = 0#16 → exec (.gbr c off rpc) s = .next s) ∧
      (m &&& cm ≠ 0#16 → m &&& ~~~cm = 0#16 → exec (.gbr c off rpc) s = .next (taken s tgt)) ∧
      (m &&& cm ≠ 0#16 → m &&& ~~~cm ≠ 0#16 → StalkRoom s →
        exec (.gbr c off rpc) s = .next (taken (pushed s entry (m &&& cm)) tgt)) ∧
      (m &&& cm ≠ 0#16 → m &&& ~~~cm ≠ 0#16 → StalkRoom s → (cur s).spare = none →
        spareTaken s (s.issuer.gcn / 8) = false →
        ∃ t, exec (.gsplit c off rpc) s = .next t ∧
          Stalls s t (.split (m &&& cm) (m &&& ~~~cm) tgt (ftEntry s) rc) true) ∧
      (m &&& cm = 0#16 → exec (.gsplit c off rpc) s =
        .next (updHalf s s.issuer.gcn s.issuer.half fun h => { h with switchReq := true })) ∧
      (m &&& cm ≠ 0#16 → m &&& ~~~cm = 0#16 → exec (.gsplit c off rpc) s =
        .next (updHalf (taken s tgt) s.issuer.gcn s.issuer.half fun h => { h with switchReq := true })) ∧
      (m &&& cm ≠ 0#16 → m &&& ~~~cm ≠ 0#16 → StalkRoom s → (cur s).spare ≠ none ∨
          spareTaken s (s.issuer.gcn / 8) = true →
        exec (.gsplit c off rpc) s = .next (updHalf (taken (pushed s entry (m &&& cm)) tgt) s.issuer.gcn s.issuer.half
          fun h => { h with switchReq := true }))) ∧
    (StalkRoom s → exec (.gpush c off) s =
      .next (pushed s ⟨0#16, tgt &&& 0x0000FFFFFFFFFFFC#64, false, m, 0#64⟩ (m &&& cm))) ∧
    (∀ e l, (curH s).stalk = e :: l → e.split = false →
      exec .gpop s = .next (updHalf s s.issuer.gcn s.issuer.half fun h => { h with stalk := l, am := e.saved })) ∧
    (let v := BitVec.ofNat 64 (m.toNat + (curH s).stalk.length % 64 * 2 ^ 16)
     mayWrite s d v → exec (.gmsave d) s = .next (result s d v 4)) ∧
    (exec (.gmrest c) s = .next (updHalf s s.issuer.gcn s.issuer.half fun h => { h with am := cm &&&
      (match h.stalk with
       | e :: _ => if e.split then h.own else e.saved &&& ~~~e.pend
       | [] => h.own) }))

/-- R189, R325, R329 to R332: stalk overflow and underflow, a reserved reconvergence address, and the handler slot. -/
def Sys2Proof.Claims.GangTraps : Prop :=
  ∀ (s : State) (c : SReg) (off : BitVec 18) (rpc : W32), s.issuer.gcn % 8 ≠ 4 → (curH s).slot < 6 →
    (curH s).rep < 256 →
    let m := (curH s).am
    let cm : Mask := (rdS s c).extractLsb' 0 16
    (2 ^ 48 ≤ (jumpTo s rpc.toInt).toNat → ∀ i ∈ [Instr.gbr c off rpc, .gsplit c off rpc],
      ∃ t, exec i s = .next t ∧ Trapped s t 0x02 0 (curH s).slot false) ∧
    (¬ StalkRoom s → ∃ t, exec (.gpush c off) s = .next t ∧ Trapped s t 0x0F 0 (curH s).slot false) ∧
    (¬ StalkRoom s → m &&& cm ≠ 0#16 → m &&& ~~~cm ≠ 0#16 → (jumpTo s rpc.toInt).toNat < 2 ^ 48 →
      ∀ i ∈ [Instr.gbr c off rpc, .gsplit c off rpc],
        ∃ t, exec i s = .next t ∧ Trapped s t 0x0F 0 (curH s).slot false) ∧
    (((curH s).stalk = [] ∨ ∃ e l, (curH s).stalk = e :: l ∧ e.split = true) →
      ∃ t, exec .gpop s = .next t ∧ Trapped s t 0x10 0 (curH s).slot false)

/-- R328, R333 to R335: votes, exchanges of registers between lanes, reductions across lanes and regrouping. -/
def Obligations.GangExchange : Prop :=
  ∀ (s : State) (d a : VOp), s.issuer.gcn % 8 ≠ 4 → (cur s).dbgPend = false → InBudget s d → InBudget s a →
    let m := (curH s).am
    let ls := activeLanes m
    let reg := fun e => rdV s s.issuer.gcn e (regOf s a)
    (∀ r : SReg, let src := fun j => (rdS s r).toNat / 2 ^ (4 * j) % 16
      exec (.gshuf d a r) s = .next (queue s 12 ((ls.filter fun j => m.getLsbD (src j)).map fun j =>
        .v j (regOf s d) (reg (src j))))) ∧
    (∀ (first : Bool) (lane : BitVec 4) (l : Nat), ¬ (first = true ∧ lane ≠ 0#4) →
      l = (if first then ls.headD 0 else lane.toNat) →
      exec (.gbcast first lane d a) s = .next (queue s 12 (if m.getLsbD l then ls.map fun j =>
        .v j (regOf s d) (reg l) else []))) ∧
    (∀ op, ∃ x : VReg, exec (.gred op d a) s = .next (queue s 12 (ls.map fun j => .v j (regOf s d) x)) ∧
      ∀ k, k < 64 → x.extractLsb' (32 * k) 32 = redResult op ((redTree op ((List.range 16).map fun e =>
        if m.getLsbD e then some (el s e a k) else none)).getD 0#32)) ∧
    (∀ (tt : Bool) (r : SReg) (k : BitVec 6) (v : Word),
      (∀ e, v.getLsbD e = (m.getLsbD e && (if tt then (el s e a k.toNat).toNat % 2 ^ 31 != 0
        else (el s e a k.toNat) != 0#32))) → mayWrite s r v →
      exec (.gvote tt r a k) s = .next (result s r v 4)) ∧
    (∀ (inv : Bool) (r : SReg) (k : BitVec 6), r ≠ 0#6 → r ≠ 63#6 →
      let key := fun e => (el s e a k.toNat).toNat
      ∃ w v : Word, (mayWrite s (r + 1#6) v →
          exec (.gregroup inv r a k) s = .next (queue s 16 [.s r w, .s (r + 1#6) v])) ∧
        (∀ e, e < 16 → if inv then w.toNat / 2 ^ (4 * e) % 16 = groupPlace m key e
          else w.toNat / 2 ^ (4 * groupPlace m key e) % 16 = e) ∧
        v.toNat / 2 ^ 16 = ls.length ∧
        (∀ j, ls.length ≤ j → j < 16 → v.getLsbD j = false) ∧
        ∀ e ∈ ls, v.getLsbD (groupPlace m key e) = true ↔
          ∀ e' ∈ ls, groupPlace m key e' + 1 = groupPlace m key e → key e' ≠ key e)
end
section
open Sys2Proof Sys2Proof.Machine Sys2Proof.Claims

/-! ### Transfer slot and grammar unit -/

/-- R304 to R306, R311, R312, R314: a row command captures its block, its counts and its index group at issue. -/
def Sys2Proof.Claims.RowCommandsIssue : Prop :=
  ∀ (i : Instr) (s : State) (n : Cnt) (kb : KReg) (len : Nat) (ix : Option VOp) (ks : List Word),
    rowForm i = some (n, kb, len, ix) → BlockIs s kb len ks → RowsReady s n ks ix →
    (len = 4 → blk ks 3 < 2 ^ 44 ∧ field 16 16 (blk ks 3) = 0) →
    ∃ t, exec i s = .next t ∧ Issued s t .transfer i (activeLanes (curH s).am)
      (Holds4 s n (blk ks 0 / 2 ^ 48)
        [baseVa s (blk ks 0), ks.getD 1 0#64, withLa s (blk ks 2), ks.getD 3 0#64] 1 ix)

/-- R315, R319, R320, R336: local and window copies, the nonzero scan, the walker and `gshuft` join the open batch
with their counts. -/
def Sys2Proof.Claims.CopyScanWalkIssue : Prop :=
  ∀ (s : State) (kb : KReg) (ks : List Word),
    let ls := activeLanes (curH s).am
    let spn := (ctxOf s (served s)).spn
    let w0 := blk ks 0
    let w1 := blk ks 1
    let cnt := fun (n : Cnt) e => countOf s e n (w0 / 2 ^ 48)
    (∀ n, BlockIs s kb 2 ks → field 18 14 w0 = 0 → w1 < 2 ^ 54 → w0 / 2 ^ 32 % 2 ^ 16 ≠ 0 →
      (∀ e ∈ ls, ∀ r, r < cnt n e →
        let sa := (stepped s (w1 % 2 ^ 18) + r * (w1 / 2 ^ 18 % 2 ^ 18)) % 2 ^ 18
        let da := (stepped s (w0 % 2 ^ 18) + r * (w1 / 2 ^ 36 % 2 ^ 18)) % 2 ^ 18
        srcOk spn (fmtAt (laneFmts s e) sa) (fmtAt (laneFmts s e) da) sa (w0 / 2 ^ 32 % 2 ^ 16) = true ∧
        dstOk spn (fmtAt (laneFmts s e) sa) (fmtAt (laneFmts s e) da) da (w0 / 2 ^ 32 % 2 ^ 16) = true) →
      ∃ t, exec (.xcopy n kb) s = .next t ∧ Issued s t .transfer (.xcopy n kb) ls
        (Holds4 s n (w0 / 2 ^ 48) [withLa s w0, withLa s w1] 1 none)) ∧
    (∀ n, BlockIs s kb 2 ks → field 29 3 w0 = 0 → w1 < 2 ^ 54 → w0 / 2 ^ 32 % 2 ^ 16 ≠ 0 →
      ((∀ e ∈ ls, ∀ r, r < cnt n e → WindowRowOk s w0 w1 e r true) →
        ∃ t, exec (.xwload n kb) s = .next t ∧ Issued s t .transfer (.xwload n kb) ls
          (Holds4 s n (w0 / 2 ^ 48) [withLa s w0, withLa s w1] 1 none)) ∧
      ((∀ e ∈ ls, ∀ r, r < cnt n e → WindowRowOk s w0 w1 e r false) →
        ∃ t, exec (.xwstore n kb) s = .next t ∧ Issued s t .transfer (.xwstore n kb) ls
          (Holds4 s n (w0 / 2 ^ 48) [withLa s w0, withLa s w1] 1 none))) ∧
    (∀ n, BlockIs s kb 2 ks → field 36 12 w0 = 0 → w1 < 2 ^ 32 →
      let da := stepped s (w0 / 2 ^ 18 % 2 ^ 18)
      let sa := stepped s (w0 % 2 ^ 18)
      let writes := fun e => ∀ j f, n = .shape j f → works (shapeOf s e j) = true ∨ shpField f (shpOf s s.issuer.gcn e j.toNat) = 0
      (∀ e ∈ ls, cnt n e ≤ 4095 ∧ (writes e → da % 4 = 0 ∧ rawOk spn da (4 * (cnt n e + 1)) = true) ∧
        (cnt n e ≠ 0 → runOk spn (fmtAt (laneFmts s e) sa) sa (cnt n e) = true)) →
      ∃ t, exec (.xnzscan n kb) s = .next t ∧ Issued s t .transfer (.xnzscan n kb) ls fun x =>
        ∀ j ∈ x.jobs, j.m = cnt n j.lane ∧ (writes j.lane → j.n = 1) ∧ (¬ writes j.lane → j.n = 0)) ∧
    (∀ ch, BlockIs s kb 4 ks → w1 < 2 ^ 48 → blk ks 3 < 2 ^ 18 → 1 ≤ w0 / 2 ^ 48 → w0 / 2 ^ 48 ≤ 1024 →
      (ls ≠ [] → stepped s (blk ks 3) % 4 = 0 ∧ rawOk spn (stepped s (blk ks 3)) ((3 * (w0 / 2 ^ 48) + 4) * 4) = true) →
      ∃ t, exec (.xwalk kb ch) s = .next t ∧ Issued s t .transfer (.xwalk kb ch) ls fun x =>
        x.ks = [baseVa s w0, baseVa s w1, ks.getD 2 0#64, BitVec.ofNat 64 (stepped s (blk ks 3))] ∧
        ∀ j ∈ x.jobs, j.n = w0 / 2 ^ 48) ∧
    (∀ (r : SReg), s.issuer.gcn % 8 ≠ 4 → let w := (rdK s kb).toNat
      let src := fun j => (rdS s r).toNat / 2 ^ (4 * j) % 16
      w < 2 ^ 63 → field 36 12 w = 0 → 1 ≤ w / 2 ^ 48 → w / 2 ^ 48 ≤ 16384 → (cur s).dbgPend = false →
      (ls ≠ [] → InPortion s (w % 2 ^ 18) (w / 2 ^ 48) ∧ InPortion s (w / 2 ^ 18 % 2 ^ 18) (w / 2 ^ 48)) →
      ∃ t, exec (.gshuft kb r) s = .next t ∧ Issued s t .transfer (.gshuft kb r) ls fun x => x.ks = [rdK s kb] ∧
        ∀ j ∈ x.jobs, j.n = (if (curH s).am.getLsbD (src j.lane) then 1 else 0) ∧
          ((curH s).pend = [] → (cur s).spare = none → s.unseen = [] → (curH s).am.getLsbD (src j.lane) = true →
            j.a = rdSpRow s s.issuer.gcn (src j.lane) (w % 2 ^ 18) (w / 2 ^ 48)))

/-- R316, R317, R323: emits and `xtend` join the open batch; an emit's pairs are sent later, in element order. -/
def Sys2Proof.Claims.EmitsAndExtendIssue : Prop :=
  ∀ (s : State) (kb : KReg) (ks : List Word),
    let ls := activeLanes (curH s).am
    let cnt := fun (n : Cnt) e => countOf s e n (blk ks 0 / 2 ^ 48)
    (∀ ew cvt n v, BlockIs s kb 3 ks → ¬ (cvt = true ∧ ew ≠ .w2) → blk ks 2 % 2 ^ 56 = 0 →
      let vop := VOp.ofBits (BitVec.ofNat 8 (blk ks 2 / 2 ^ 56))
      (∀ e ∈ ls, let per := if ew = .w8 then 2 else 1
        GroupInBudget s v (ceilDiv (cnt n e) 64) ∧ GroupInBudget s vop (ceilDiv (cnt n e * per) 64) ∧
          cnt n e * per ≤ 4096) →
      ∃ t, exec (.xemitv ew cvt n kb v) s = .next t ∧ t.pkg.pairs = s.pkg.pairs ∧
        Issued s t .transfer (.xemitv ew cvt n kb v) ls
          (Holds4 s n (blk ks 0 / 2 ^ 48) [baseVa s (blk ks 0), ks.getD 1 0#64, ks.getD 2 0#64] 1 (some v))) ∧
    (∀ ew ix n, BlockIs s kb 3 ks → RowsReady s n ks ix →
      let w := match ew with | .w2 => 2 | .w4 => 4 | .w8 => 8
      blk ks 2 / 2 ^ 48 % w = 0 →
      ∃ t, exec (.xemitt ew ix n kb) s = .next t ∧ t.pkg.pairs = s.pkg.pairs ∧
        Issued s t .transfer (.xemitt ew ix n kb) ls (Holds4 s n (blk ks 0 / 2 ^ 48)
          [baseVa s (blk ks 0), ks.getD 1 0#64, withLa s (blk ks 2)] (blk ks 2 / 2 ^ 48 / w) ix)) ∧
    (BlockIs s kb 2 ks → blk ks 0 < 2 ^ 48 → blk ks 0 % 64 = 0 → blk ks 1 < 2 ^ 34 →
      ∃ t, exec (.xtend kb) s = .next t ∧ (curH t).stX = none ∧
        Issued s t .transfer (.xtend kb) (ls.take 1) fun x => x.ks = ks)

/-- R313: a prefetch completes at its issue without joining a batch; it changes no scratchpad, register or command,
and with the no-allocate hint nothing at all. -/
def Sys2Proof.Claims.PrefetchIssues : Prop :=
  ∀ (s : State) (n : Cnt) (kb : KReg) (ch : Hint) (ks : List Word), BlockIs s kb 3 ks → RowRegister (blk ks 2) →
    ∃ t, exec (.xpref n kb ch) s = .next t ∧ t.sp = s.sp ∧ t.vregs = s.vregs ∧ t.tiles = s.tiles ∧
      (cur t).cmds = (cur s).cmds ∧ SameOthers s t ∧ SameRegs (cur s) (cur t) ∧
      (ch = .na → t.mem = s.mem ∧ t.dies = s.dies ∧ t.pkg = s.pkg)

/-- R350 to R353: a grammar instruction whose checks pass joins the open batch with its staging block, and its slot
step comes later. -/
def Obligations.GrammarCommandsIssue : Prop :=
  ∀ (i : Instr) (s : State) (len : Nat) (kb : Option KReg) (res : Bool) (ok : Nat → Nat → Nat → Prop)
    (mk : Option Bool) (ks : List Word),
    grammarForm i = some (len, kb, res, ok, mk) → s.issuer.gcn % 8 ≠ 4 →
    (match kb with | some k => BlockIs s k len ks | none => ks = []) →
    ok (blk ks 0) (blk ks 1) (blk ks 2) → GrammarPlaces s res mk (blk ks 0) (blk ks 1) →
    ∃ t, exec i s = .next t ∧ (curH t).stX = none ∧ (cur t).handles = (cur s).handles ∧ t.sp = (settleSp s s.issuer.gcn).sp ∧
      Issued s t .grammar i (activeLanes (curH s).am) fun x => x.ks = ks ∧ x.stepped = false

/-- R52, R245, R281, R285, R286, R305, R306, R319: where the scratchpad-range, matrix-shape and transfer-shape traps are taken:
a scalar access or a row outside the portion or across banks; a depth above KMAX or above the latched one; a count above 4,096
with an index group, or above 4,095 in `xnzscan`. -/
def Sys2Proof.Claims.RangeAndShapeTraps : Prop :=
  ∀ (s : State), s.issuer.gcn % 8 ≠ 4 → (curH s).slot < 6 → (curH s).rep < 256 →
    let ls := activeLanes (curH s).am
    let traps := fun (i : Instr) (cause : Nat) => ∃ t, exec i s = .next t ∧ Trapped s t cause 0 (curH s).slot false
    (∀ (sz : Size) (a : SReg) (off : BitVec 4), ¬ InPortion s (addrOf s a off sz % 2 ^ 18) (bytesOfSize sz) →
      (∀ sx lane d, ¬ (sx = true ∧ sz = .d) → traps (.ldsp sz sx lane d a off) 0x05) ∧
      ∀ all lane r, ¬ (all = true ∧ lane ≠ 0#4) → traps (.stsp sz all lane r a off) 0x05) ∧
    (∀ (i : Instr) (n : Cnt) (kb : KReg) (len : Nat) (ix : Option VOp) (ks : List Word),
      rowForm i = some (n, kb, len, ix) → BlockIs s kb len ks → RowRegister (blk ks 2) →
      (len = 4 → blk ks 3 < 2 ^ 44 ∧ field 16 16 (blk ks 3) = 0) →
      let cnt := fun e => countOf s e n (blk ks 0 / 2 ^ 48)
      (∀ e ∈ ls, ∀ v, ix = some v → GroupInBudget s v (ceilDiv (cnt e) 64)) →
      ((∃ e ∈ ls, ix ≠ none ∧ 4096 < cnt e) → traps i 0x12) ∧
      ((∀ e ∈ ls, ix = none ∨ cnt e ≤ 4096) →
        (∃ e ∈ ls, ∃ r, r < cnt e ∧ (∀ v, ix = some v → (grpElem s e v r).toNat < 2 ^ 31) ∧
          ¬ InPortion s (rowAt s (blk ks 2) r) (blk ks 2 / 2 ^ 48)) → traps i 0x05)) ∧
    (∀ (n : Cnt) (kb : KReg) (ks : List Word), BlockIs s kb 2 ks → field 36 12 (blk ks 0) = 0 → blk ks 1 < 2 ^ 32 →
      (∃ e ∈ ls, 4095 < countOf s e n (blk ks 0 / 2 ^ 48)) → traps (.xnzscan n kb) 0x12) ∧
    ∀ (acc : Acc) (shp : ShpR) (kb : KReg) (ks : List Word) (da db : BitVec 3) (reuse gat : Bool) (af : Fmt) (ad : Nat),
      (curH s).verOk = false → VersionReady s acc false → BlockIs s kb (if gat then 2 else 1) ks →
      isDigits da = true → isDigits db = true →
      let w := blk ks 0
      let ixop := VOp.ofBits (BitVec.ofNat 8 (blk ks 1))
      let sh := fun e => shapeOf s e shp
      mmaFmt w = some af → af.digits? = some ad → ad ≤ da.toNat → field 48 3 w = 0 → field 18 12 w = 0 →
      (gat = true → blk ks 1 / 2 ^ 8 = 0 ∧ GroupInBudget s ixop 1) → GroupInBudget s (mmaAreg w) 1 →
      (∀ e ∈ ls,
        (∀ x, bankFmt s e (stepped s (w % 2 ^ 18)) = some x →
          ∃ bd, (fmtOf x).digits? = some bd ∧ bd ≤ db.toNat ∧ (gat = true → (fmtOf x).isMx = false)) ∧
        (works (sh e) = true → (∀ l, latchOf s e = some l → l.fmt = field 51 5 w) ∧
          GroupInBudget s (mmaAreg w) (aRegs af (min (sh e).2.2 (kMax af))) ∧
          (gat = true → GroupInBudget s ixop (ceilDiv (sh e).2.2 64)))) →
      (∃ e ∈ ls, kMax af < (sh e).2.2 ∨ works (sh e) = true ∧ ∃ l, latchOf s e = some l ∧ l.ka < (sh e).2.2) →
      traps (if gat then .mmag acc shp kb da db reuse else .mma acc shp kb da db reuse) 0x11

/-- R304, R307, R312: one row of `xld`, `xst`, `xgath` and `xscat` moves between memory and the portion, or records its fault, and the
lane's progress moves past it; a row whose index has bit 31 set is passed over. -/
def Sys2Proof.Claims.RowElement : Prop :=
  ∀ (s s1 s2 : State) (g id lane : Nat) (x : Cmd) (j : LaneJob) (ld ix : Bool) (ch : Hint),
    ElementMayRun s s1 g id lane x j → rowAccess x.op = some (ld, ix, ch) →
    let u := (j.idx.getD j.done 0#32).toNat
    let va := memRow x.ks j.lane (if ix then u else j.done)
    let rb := blk x.ks 2 / 2 ^ 48 % 2 ^ 15
    let la := (blk x.ks 2 % 2 ^ 18 + j.done * (blk x.ks 2 / 2 ^ 18 % 2 ^ 18)) % 2 ^ 18
    let leaves := fun t => ElementLeaves s g id lane x t (further j 1)
    (ix = true → 2 ^ 31 ≤ u → leaves s1) ∧
    ((ix = true → u < 2 ^ 31) →
      (ld = true →
        (∀ bs, cmdRead s1 g x j.lane va rb ch = .ok bs s2 →
          leaves (wrPlace s2 (cmdPlace s1 g x j.lane) la rb (ofBytes bs))) ∧
        (∀ f, cmdRead s1 g x j.lane va rb ch = .fault f s2 → ElementFails s g id lane x j s2 f 4 va x.asid)) ∧
      (ld = false → let bs := bytesOf rb (rdPlace s1 (cmdPlace s1 g x j.lane) la rb)
        (∀ u, cmdWrite s1 g x j.lane va bs ch = .ok u s2 → leaves s2) ∧
        (∀ f, cmdWrite s1 g x j.lane va bs ch = .fault f s2 → ElementFails s g id lane x j s2 f 5 va x.asid)))

/-- R12, R54, R66, R93, R315: one row of `xcopy`, `xwload` and `xwstore`. A window row of a POD that names no pod of the team, or
that is not placed as R315 asks, fails with code 0x0A; that a row across banks fails so is the model's choice (log entry 34). -/
def Sys2Proof.Claims.CopyElement : Prop :=
  ∀ (s s1 : State) (g id lane : Nat) (x : Cmd) (j : LaneJob) (n : Cnt) (kb : KReg), ElementMayRun s s1 g id lane x j →
    let w0 := blk x.ks 0
    let w1 := blk x.ks 1
    let nel := w0 / 2 ^ 32 % 2 ^ 16
    let own := cmdPlace s1 g x j.lane
    let row := fun (first step : Nat) => (first % 2 ^ 18 + j.done * (step % 2 ^ 18)) % 2 ^ 18
    let copied := fun (p q : Place) (xs xd sla dla : Nat) =>
      ∃ t, ElementLeaves s g id lane x t (further j 1) ∧ CopiedRow s1 t p q xs xd sla dla nel
    (x.op = .xcopy n kb → let sla := row w1 (w1 / 2 ^ 18)
      let dla := row w0 (w1 / 2 ^ 36)
      dstOk j.lf.length (fmtAt j.lf sla) (fmtAt j.lf dla) dla nel = true →
      copied own own (fmtAt j.lf sla) (fmtAt j.lf dla) sla dla) ∧
    ∀ ld : Bool, x.op = (if ld then .xwload n kb else .xwstore n kb) →
      let wla := row w0 (w1 / 2 ^ 18)
      let la := row w1 (w1 / 2 ^ 36)
      let pod := w0 / 2 ^ 22 % 8
      let wl := (w0 / 2 ^ 18 % 16 + j.lane * (w0 / 2 ^ 25 % 16)) % 16
      let mine := fmtAt j.lf la
      let win := fmtAt j.wf wla
      let place := windowPlace s1 x.launch x.team pod wl g x.id
      let placed := if ld then srcOk j.wf.length win mine wla nel else dstOk j.wf.length mine win wla nel
      (place = none ∨ placed = false → ElementFails s g id lane x j s1 (tfault 0x0A 0) (if ld then 4 else 5)
        (pod * 2 ^ 22 + wl * 2 ^ 18 + wla) x.asid) ∧
      ∀ p, place = some p → placed = true →
        (ld = true → dstOk j.lf.length win mine la nel = true → copied p own win mine wla la) ∧
        (ld = false → copied own p mine win la wla)

/-- R307, R314, R435, R436: one row of `xrld` and `xrst`, where the unit holds the port mask of the package: it waits while no route
is up, and otherwise moves the bytes that the package answers, or records its fault with the remote ASID. What a package
answers is a free value (log entry 30). -/
def Sys2Proof.Claims.RemoteElement : Prop :=
  ∀ (s s1 : State) (g id lane : Nat) (x : Cmd) (j : LaneJob) (n : Cnt) (kb : KReg) (ch : Hint) (ld : Bool) (m : Nat),
    ElementMayRun s s1 g id lane x j → x.op = (if ld then .xrld n kb ch else .xrst n kb ch) →
    let p := blk x.ks 3 % 2 ^ 16
    let rasid := blk x.ks 3 / 2 ^ 32 % 2 ^ 12
    mget none s1.pkg.rmasks p = some m →
    let up := s1.pkg.pkgid ≠ 0xFFFF#64 ∧ ∃ k, k < 16 ∧ m.testBit k = true ∧ (mget Port.reset s1.pkg.ports k).state = .up
    let va := memRow x.ks j.lane j.done
    let rb := blk x.ks 2 / 2 ^ 48 % 2 ^ 15
    let la := (blk x.ks 2 % 2 ^ 18 + j.done * (blk x.ks 2 / 2 ^ 18 % 2 ^ 18)) % 2 ^ 18
    let kind := if ld then 4 else 5
    let answer := Config.remoteFault p rasid va s1.freeCtr
    let t := { s1 with freeCtr := s1.freeCtr + 1 }
    (¬ up → exec (.transferElement g id lane) s = .next s1) ∧
    (up → va < 2 ^ 48 → va + rb ≤ 2 ^ 48 →
      (answer = none → ElementLeaves s g id lane x (if ld then wrPlace t (cmdPlace s1 g x j.lane) la rb
        (packNat 8 rb fun i => (Config.remoteByte p rasid (va + i) s1.freeCtr).toNat) else t) (further j 1)) ∧
      (answer ≠ none → ∃ f, ElementFails s g id lane x j t f kind va rasid ∧
        (f.merr = false → f.code ∈ [2, 3, 4, 5, 6, 7, 9, 0x0C, 0x0D]))) ∧
    (up → 2 ^ 48 < va + rb → answer = none → ElementFails s g id lane x j t (tfault 0x01 0) kind va rasid)

/-- R140, R316, R317: one element of `xemitv` and `xemitt` puts its pair into the buffer of its port, with its address, width and
value; an index with bit 31 set yields none. -/
def Sys2Proof.Claims.EmitElement : Prop :=
  ∀ (s s1 : State) (g id lane : Nat) (x : Cmd) (j : LaneJob) (n : Cnt) (kb : KReg), ElementMayRun s s1 g id lane x j →
    let width := fun (ew : EmitW) => match ew with | .w2 => 2 | .w4 => 4 | .w8 => 8
    let sends := fun (va : Word) (w val : Nat) => ∃ t y, ElementLeaves s g id lane x t (further j 1) ∧
      t.pkg.pairs = s1.pkg.pairs ++ [y] ∧ Emitted y g x j va w val ∧ t.mem = s1.mem ∧ t.sp = s1.sp
    (∀ ew cvt v, x.op = .xemitv ew cvt n kb v →
      let u := (j.idx.getD j.done 0#32).toNat
      let el := fun i => j.vals.getD i 0#32
      (2 ^ 31 ≤ u → ElementLeaves s g id lane x s1 (further j 1)) ∧
      (u < 2 ^ 31 → sends (BitVec.ofNat 64 (memRow x.ks j.lane u)) (width ew) (match ew with
        | .w2 => if cvt then convert .fp16 .rne (f32 (el j.done)) else (el j.done).toNat % 2 ^ 16
        | .w4 => (el j.done).toNat
        | .w8 => (el (2 * j.done)).toNat + (el (2 * j.done + 1)).toNat * 2 ^ 32))) ∧
    ∀ ew ix, x.op = .xemitt ew ix n kb →
      let w := width ew
      let per := blk x.ks 2 / 2 ^ 48 % 2 ^ 15 / w
      let r := j.done / per
      let k := j.done % per
      let u := (j.idx.getD r 0#32).toNat
      let la := (blk x.ks 2 % 2 ^ 18 + r * (blk x.ks 2 / 2 ^ 18 % 2 ^ 18)) % 2 ^ 18
      (ix ≠ none → 2 ^ 31 ≤ u → ElementLeaves s g id lane x s1 (further j (per - k))) ∧
      ((ix ≠ none → u < 2 ^ 31) →
        sends (BitVec.ofNat 64 (memRow x.ks j.lane (if ix = none then r else u) + k * w)) w
          (rdPlace s1 (cmdPlace s1 g x j.lane) ((la + k * w) % 2 ^ 18) w))

/-- R87, R319, R336: `xnzscan` writes the count and the indices of the nonzero elements of its run, then padding; `gshuft` writes the
bytes it has captured. -/
def Sys2Proof.Claims.ScanAndShuffleElement : Prop :=
  ∀ (s s1 : State) (g id lane : Nat) (x : Cmd) (j : LaneJob) (kb : KReg), ElementMayRun s s1 g id lane x j →
    let w0 := blk x.ks 0
    let q := cmdPlace s1 g x j.lane
    (∀ n : Cnt, x.op = .xnzscan n kb →
      let sla := w0 % 2 ^ 18
      let dla := w0 / 2 ^ 18 % 2 ^ 18
      let hits := (List.range j.m).filter fun i => !(rowValue s1 q (fmtAt j.lf sla) sla j.m i).isZero
      let word := fun k => if k = 0 then hits.length else
        match hits[k - 1]? with
        | some i => (blk x.ks 1 + i) % 2 ^ 32
        | none => 0xFFFFFFFF
      ElementLeaves s g id lane x (wrPlace s1 q dla (4 * (j.m + 1)) (packNat 32 (j.m + 1) word)) (further j 1)) ∧
    ∀ r, x.op = .gshuft kb r →
      ElementLeaves s g id lane x (wrPlace s1 q (w0 / 2 ^ 18 % 2 ^ 18) (w0 / 2 ^ 48 % 2 ^ 15) j.a) (further j 1)

/-- R320 to R322: one entry of `xwalk`: COL and VR of the entry, RROW of a row that is met first, and behind the last entry the
padding, NE, NV and FLAGS; a read of CI that fails is the element's fault. -/
def Sys2Proof.Claims.WalkElement : Prop :=
  ∀ (s s1 s2 : State) (g id lane nnz : Nat) (x : Cmd) (j : LaneJob) (kb : KReg) (ch : Hint),
    ElementMayRun s s1 g id lane x j → x.op = .xwalk kb ch →
    let nr := blk x.ks 2 / 2 ^ 32
    let start := (blk x.ks 2 % 2 ^ 32 + j.lane * j.n) % 2 ^ 32
    let p := (start + j.done) % 2 ^ 32
    let rp := x.ks.getD 0 0#64
    let ci := x.ks.getD 1 0#64
    let q := cmdPlace s1 g x j.lane
    let put := walkWrite q x
    (if j.done ≠ 0 then nnz = j.k ∧ s2 = s1 else if nr = 0 then nnz = 0 ∧ s2 = s1
      else walkRead s1 g x j.lane ch rp nr = .ok nnz s2) →
    (nnz ≤ p → WalkGoes s g id lane x q ch start (put (put s2 j.done 0xFFFFFFFF) (j.n + j.done) 0xFFFFFFFF) { j with k := nnz }) ∧
    (p < nnz → ∀ r s3, searchRow g x j.lane ch p 33 s2 0 (nr - 1) = some (r, s3) →
      (∀ f t, walkRead s3 g x j.lane ch ci p = .fault f t →
        ElementFails s g id lane x j t f 4 ((ci.toNat + 4 * p) % 2 ^ 64) x.asid) ∧
      ∀ col s4, walkRead s3 g x j.lane ch ci p = .ok col s4 →
        let v := if j.prev = some r then j.vrow - 1 else j.vrow
        let s5 := if j.prev = some r then s4 else put s4 (2 * j.n + v) r
        WalkGoes s g id lane x q ch start (put (put s5 j.done col) (j.n + j.done) v)
          { j with k := nnz, prev := some r, vrow := v + 1, vals := if j.vals = [] then [BitVec.ofNat 32 r] else j.vals })

/-- R54, R304, R307, R312, R314 to R317, R319 to R322, R336: what one element of each transfer command does to memory, to the scratchpad,
to the buffers of pairs and to its lane's progress, or the fault it records. What a remote package answers (log entry 30), the
failure of a window row across banks (log entry 34) and the order of the elements (log entry 8) are the model's choices. -/
def Obligations.TransferElementMovesRow : Prop :=
  RowElement ∧ CopyElement ∧ RemoteElement ∧ EmitElement ∧ ScanAndShuffleElement ∧ WalkElement

/-- R282, R291 to R294, R299, R58: a matrix command completes in a lane in its turn: its tile, then its version. Inside the
shape, `mma` and `mmag` of INT8 operands add the products of each k-group with one rounding (R95 to R97, R99), and `mstore`
writes the converted elements of its rows to a bank whose format is neither MX nor of half a byte, and no other byte. The
moment of completion is the model's choice (log entry 8), and so is that a direct B operand is read at it (log entry 22). -/
def Sys2Proof.Claims.MatrixTurns : Prop :=
  ∀ (s : State) (g id lane : Nat) (x : Cmd) (j : LaneJob), lane < 16 →
    (∀ st, TileTurn s g id lane x j st →
      let i := if st then Instr.mstoreComplete g id lane else .matrixCommandComplete g id lane
      ∃ t, exec i s = .next t ∧ accver t g lane x.tile = (accver s g lane x.tile + 1) % 64 ∧
        ((ctxOf s g).phase ≠ .frozen ∨ (ctxOf s g).stk = [] → t.mem = s.mem) ∧ t.vregs = s.vregs ∧ (st = false → (ctxOf s g).prim.pend = [] → (ctxOf s g).spare = none → t.sp = s.sp) ∧
        ∀ y ∈ (ctxOf t g).cmds, y.id = id → ∀ k ∈ y.jobs, k.lane = lane → k.fin = true) ∧
    (TileTurn s g id lane x j false → ∃ t, exec (.matrixCommandComplete g id lane) s = .next t ∧
      (∀ a, x.op = .mzero a → j.a = 0 → rdTile t g lane x.tile = 0#32768) ∧
      (∀ a v r, x.op = .minit a v r → ∀ m k, m < 32 → k < 32 →
        elemT (rdTile t g lane x.tile) m k = BitVec.ofNat 32 (j.a / 2 ^ (32 * (32 * m + k)))) ∧
      let w := blk x.ks 0
      let bRow := fun u => rdSpRow (settleSp { s with freeCtr := s.freeCtr + 1 } g) g lane
        (w % 2 ^ 18 + u * (w / 2 ^ 30 % 2 ^ 18)) j.n
      ∀ a sh kb da db re (gat : Bool), x.op = (if gat then .mmag a sh kb da db re else .mma a sh kb da db re) →
        ∀ i c, i < 32 → c < 32 →
        let old := elemT (rdTile s g lane x.tile) i c
        let new := elemT (rdTile t g lane x.tile) i c
        (j.m ≤ i ∨ j.n ≤ c → new = old) ∧
        (i < j.m → c < j.n → w / 2 ^ 51 % 32 = 12 → fmtOf j.fmt = .int8 →
          da ∈ [4#3, 5#3, 6#3] → db ∈ [4#3, 5#3, 6#3] →
          let b := fun k => if gat then
              match j.idx[k]? with
              | some u => if u.toNat < 2 ^ 31 then byteInt (bRow u.toNat) (8 * c) else 0
              | none => 0
            else byteInt (bRow k) (8 * c)
          new = accInt (if da = 4#3 ∧ db = 4#3 then 2 else 1) j.k
            (fun k => byteInt j.a (256 * k + 8 * i) * b k) old)) ∧
    (TileTurn s g id lane x j true → ∃ t, exec (.mstoreComplete g id lane) s = .next t ∧
      ∀ a sh kb rm sat clr relu bias scl, x.op = .mstore a sh kb rm sat clr relu bias scl →
        rdTile t g lane x.tile = (if clr then 0#32768 else rdTile s g lane x.tile) ∧
        let f := fmtOf j.fmt
        let w := blk x.ks 0
        let n := f.bits / 8
        let place := fun i => skey (g / 8) lane ((cmdPlace s g x lane).splo * 16384 + (w % 2 ^ 18 + i * (w / 2 ^ 30 % 2 ^ 18)))
        f ∈ [.fp32, .fp16, .bf16, .e4m3, .e5m2, .e3m2, .e2m3, .int8, .int16, .int32, .int64] →
        (∀ i c, i < j.m → c < j.n → i < 32 → c < 32 → (i + 1 < j.m → j.n * n ≤ w / 2 ^ 30 % 2 ^ 18) →
          let v := storedValue scl bias relu (BitVec.ofNat 32 (blk x.ks 1)) (BitVec.ofNat 32 (j.a / 2 ^ (32 * c)))
            (elemT (rdTile s g lane x.tile) i c)
          getBytes t.sp (place i + n * c) n = convertS sat f rm (f32 v) % 2 ^ f.bits) ∧
        ((ctxOf s g).prim.pend = [] → (ctxOf s g).spare = none → ∀ b,
          (∀ i, i < j.m → ¬ (place i ≤ b ∧ b < place i + j.n * n)) → mget 0#8 t.sp b = mget 0#8 s.sp b))

/-- R56, R80, R83, R94 to R99, R284, R286, R288, R291, R292: inside the shape, `mma` and `mmag` of operands of any formats leave in each
element the sum over the k-groups of the products of the decoded elements, each group scaled by the scales of MX operands and
added with one rounding. -/
def Sys2Proof.Claims.MatrixProducts : Prop :=
  ∀ (s : State) (g id lane : Nat) (x : Cmd) (j : LaneJob), lane < 16 → TileTurn s g id lane x j false →
    ∃ t, exec (.matrixCommandComplete g id lane) s = .next t ∧
      ∀ a sh kb da db re (gat : Bool) af, x.op = (if gat then .mmag a sh kb da db re else .mma a sh kb da db re) →
        let w := blk x.ks 0
        Fmt.ofCode? (w / 2 ^ 51 % 32) = some af →
        let u := settleSp { s with freeCtr := s.freeCtr + 1 } g
        let bf := fmtOf j.fmt
        let bla := w % 2 ^ 18
        let step := w / 2 ^ 30 % 2 ^ 18
        let bank := bla / 16384 * 16384
        let e0 := bla % 16384 * 8 / bf.bits
        let code := fun (f : Fmt) (n i : Nat) => n / 2 ^ (f.bits * i) % 2 ^ f.bits
        let row := fun k => if gat then
            (match j.idx[k]? with
             | some v => if v.toNat < 2 ^ 31 then some v.toNat else none
             | none => none)
          else some k
        let left := fun i k => fmtDecode af (code af j.a (32 * k + i)) 127
        let right := fun c k => if bf.isMx then
            some (fmtDecode bf (code bf
              (rdSpRow u g lane (bank + (e0 + c * step) * bf.bits / 8) (ceilDiv (j.k * bf.bits) 8)) k) 127)
          else (row k).map fun v => fmtDecode bf (code bf (rdSpRow u g lane (bla + v * step) (ceilDiv (j.n * bf.bits) 8)) c) 127
        let scale := fun i c k y =>
          let y := if af.isMx then scaleBy (j.asc.toNat / 2 ^ (8 * (k / 32 * 32 + i)) % 256) y else y
          if bf.isMx then scaleBy (rdSpRow u g lane (bank + scoffOf j.fmt + (e0 + c * step + k) / 32) 1) y else y
        let q := quadsOf da.toNat db.toNat
        ∀ i c, i < 32 → c < 32 → i < j.m → c < j.n → elemT (rdTile t g lane x.tile) i c =
          accCell q (groupOf q) j.k (left i) (right c) (scale i c) (elemT (rdTile s g lane x.tile) i c)

/-- R54, R56, R75, R82, R83, R93, R299: the rows of `mstore` to a bank of any format, MX and half-byte formats among them: the
converted elements, or whole blocks with their scales; the other half byte of an odd row, and every other byte, stay. -/
def Sys2Proof.Claims.MatrixStores : Prop :=
  ∀ (s : State) (g id lane : Nat) (x : Cmd) (j : LaneJob), lane < 16 → TileTurn s g id lane x j true →
    ∃ t, exec (.mstoreComplete g id lane) s = .next t ∧
      ∀ a sh kb rm sat clr relu bias scl, x.op = .mstore a sh kb rm sat clr relu bias scl →
        let f := fmtOf j.fmt
        let w := blk x.ks 0
        let step := w / 2 ^ 30 % 2 ^ 18
        let la := fun i => w % 2 ^ 18 + i * step
        let len := rowLen j.fmt j.n
        let key := (cmdPlace s g x lane).key
        (1 < j.m → len ≤ step) →
        (f.isMx = true → la 0 % 16384 % (4 * f.bits) = 0 ∧ step % (4 * f.bits) = 0 ∧
          la 0 % 16384 + (j.m - 1) * step + len ≤ scoffOf j.fmt) →
        (∀ i, i < j.m → RowHolds t.sp key j.fmt (la i) j.n (convertS sat f rm) fun c =>
          f32 (storedValue scl bias relu (BitVec.ofNat 32 (blk x.ks 1)) (BitVec.ofNat 32 (j.a / 2 ^ (32 * c)))
            (elemT (rdTile s g lane x.tile) i c))) ∧
        ((ctxOf s g).prim.pend = [] → (ctxOf s g).spare = none →
          (f.isMx = false → ∀ i, i < j.m →
            getBytes t.sp (key (la i)) len / 2 ^ (f.bits * j.n) = getBytes s.sp (key (la i)) len / 2 ^ (f.bits * j.n)) ∧
          ∀ b, (∀ i, i < j.m → ¬ InRow key j.fmt (la i) j.n b) → mget 0#8 t.sp b = mget 0#8 s.sp b)

/-- R54, R56, R58, R75, R76, R80, R82, R83, R89, R93 to R99, R282, R284, R286, R288, R291 to R294, R299: the completion of matrix commands, and
what they compute and store in every format. The moment of completion is the model's choice (log entry 8), and so is that a
direct B operand is read at it (log entry 22). -/
def Obligations.MatrixCommandsComplete : Prop := MatrixTurns ∧ MatrixProducts ∧ MatrixStores

/-- R143, R308, R353, R365: a transfer command completes when its lanes are done or it has failed and its pairs are
taken, a grammar command once the bytes of its step are written. -/
def Obligations.CommandsComplete : Prop :=
  ∀ (s : State) (g id : Nat) (x : Cmd), cmdOf s g id = some x → x.fin = false →
    (∀ y ∈ (ctxOf s g).cmds, y.id = id → y = x) →
    (x.cls = .transfer → (x.flt ≠ none ∨ ∀ j ∈ x.jobs, j.fin = true) →
      (∀ p ∈ s.pkg.pairs, p.gcn = g → p.cmd ≠ id) →
      ∃ t, exec (.transferCommandComplete g id) s = .next t ∧ SameStorage s t ∧
        ∀ y ∈ (ctxOf t g).cmds, y.id = id → y.fin = true) ∧
    (x.cls = .grammar → x.stepped = true →
      ∃ t, exec (if gIsMask x.op then .maskComplete g id else .grammarCommandComplete g id) s = .next t ∧
        t.sp = x.outs.foldl (fun m o =>
          putBytes m (skey (g / 8) o.1 ((cmdPlace s g x o.1).splo * 16384 + o.2.1)) o.2.2) (settleSp s g).sp ∧
        t.mem = s.mem ∧ t.vregs = s.vregs ∧ t.tiles = s.tiles ∧ ∀ y ∈ (ctxOf t g).cmds, y.id = id → y.fin = true)

/-- R353, R354, R356, R359, R360: on a die whose grammar unit is ready (R443), the slot step of `pdaunbind`, `pdamark`,
`pdaroll` and `pdafork` gives their handle its new state and changes no other handle of the context and no memory. A handle
without a binding gives the grammar fault UNBOUND, and a mark that is not there NOMARK, with every handle as it was. -/
def Sys2Proof.Claims.HandleSteps : Prop :=
  ∀ (s : State) (g : Nat) (x : Cmd) (h : Handle),
    ((ctxOf s g).cmds.filter fun c => c.cls == .grammar).find? (fun c => !c.stepped && !c.fin) = some x →
    storesDone s g = true → s.pkg.rdyGram.getLsbD (g / 256) = true →
    let slot := gSlot s g h
    let src := gSlot s g (BitVec.ofNat 3 (blk x.ks 0))
    let steps := fun (new : Option GSlot) => ∃ t, exec (.grammarStep g) s = .next t ∧ gSlot t g h = new ∧
      (∀ h', h' ≠ h → gSlot t g h' = gSlot s g h') ∧ t.mem = s.mem
    let fails := fun (code : Nat) => ∃ t, exec (.grammarStep g) s = .next t ∧ (∀ h', gSlot t g h' = gSlot s g h') ∧
      t.mem = s.mem ∧ ∀ y ∈ (ctxOf t g).cmds, y.id = x.id → ∃ f, y.flt = some f ∧ f.gcode = code
    (x.op = .pdaunbind h → steps none) ∧
    (∀ res kb sl, x.op = .pdamark h res kb → slot = some sl →
      steps (some { sl with marks := (⟨sl.state, sl.fin, sl.top, sl.depth, sl.pos⟩ :: sl.marks).take 16 })) ∧
    (∀ res kb sl m, x.op = .pdaroll h res kb → slot = some sl → sl.marks[blk x.ks 0 % 16]? = some m →
      steps (some { sl with
        state := m.state, fin := m.fin, top := m.top, depth := m.depth, pos := m.pos,
        marks := sl.marks.drop (blk x.ks 0 % 16 + 1) })) ∧
    (∀ res kb sl, x.op = .pdaroll h res kb → slot = some sl → sl.marks.length ≤ blk x.ks 0 % 16 → fails 12) ∧
    (∀ res kb sl, x.op = .pdafork h res kb → src = some sl → steps (some sl)) ∧
    (∀ res kb, x.op = .pdafork h res kb → src = none → fails 8) ∧
    (∀ res kb, x.op = .pdaadv h res kb ∨ x.op = .pdamark h res kb ∨ x.op = .pdaroll h res kb → slot = none → fails 8)

/-- R340, R344, R346 to R348, R353 to R358, R361: on a die whose grammar unit is ready, the slot steps of `pdabind`, `pdarest`,
`pdasave`, `pdaadv` and `pdamask` on bound handles: what they read and write, the handle's new binding, the result word, and
the faults of a header, a record and a walk. The place of the faults among several is the model's choice (log entry 13). -/
def Sys2Proof.Claims.GrammarWork : Prop :=
  ∀ (s s1 : State) (g : Nat) (x : Cmd) (h : Handle) (res : Bool) (kb : KReg),
    ((ctxOf s g).cmds.filter fun c => c.cls == .grammar).find? (fun c => !c.stepped && !c.fin) = some x →
    storesDone s g = true → s.pkg.rdyGram.getLsbD (g / 256) = true → s1 = flushStores (settleSp s g) g →
    let slot := gSlot s g h
    let k1 := blk x.ks 1
    let leaves := fun u new code outs => GrammarLeaves s g x h res u new code false outs
    let fails := fun u new code outs => GrammarLeaves s g x h res u new code true outs
    let alone := ∀ y ∈ (ctxOf s g).cmds, y.cls = .grammar → y.id < x.id → y.fin = true
    let header := fun (u : State) (va : Nat) (k : Nat → State → Prop) => ∀ w v, gRead g x u va 64 = .ok w v → k w v
    let writes := fun (u : State) (l : List (Nat × List Byte)) (k : State → Prop) =>
      ∀ v t, gCheckWrites g x u l = .ok () v → gWrites g x v v l = .ok () t → k t
    (x.op = .pdabind h res kb → alone → k1 % 64 = 0 → header s1 k1 fun w u =>
      let bot := headField w 6
      let n := if bot = 2 ^ 32 - 1 then 0 else 1
      let arena := blk x.ks 2
      (¬ ImageHeader k1 w → fails u none 9 []) ∧
      (ImageHeader k1 w → writes u ((arena, bytesOf 4 (1 + n)) :: if n = 0 then [] else [(arena + 16, bytesOf 16 bot)]) fun t =>
        leaves t (some ⟨k1, arena, blk x.ks 0 % 2 ^ 32, headField w 5, false, n, n, 0, []⟩) 0 [])) ∧
    (x.op = .pdarest h res kb → alone → ∀ r u, gRead g x s1 k1 320 = .ok r u →
      let w := fun i => r / 2 ^ (64 * i) % 2 ^ 64
      let state := w 3 % 2 ^ 20
      let mark := fun i => GMark.mk (w (8 + 2 * i) % 2 ^ 20) ((w (8 + 2 * i)).testBit 20) (w (8 + 2 * i) / 2 ^ 32)
        (w (9 + 2 * i) / 2 ^ 32 % 2 ^ 16) (w (9 + 2 * i) % 2 ^ 32)
      (¬ SaveRecord w → fails u none 14 []) ∧
      (SaveRecord w → w 0 % 64 ≠ 0 → fails u none 9 []) ∧
      (SaveRecord w → w 0 % 64 = 0 → header u (w 0) fun hd v =>
        (¬ ImageHeader (w 0) hd → fails v none 9 []) ∧
        (ImageHeader (w 0) hd → headField hd 2 ≤ state → fails v none 14 []) ∧
        (ImageHeader (w 0) hd → state < headField hd 2 →
          leaves v (some ⟨w 0, w 1, w 2, state, (w 3).testBit 20, w 4 % 2 ^ 32, w 4 / 2 ^ 32 % 2 ^ 16, w 5,
            (List.range (w 4 / 2 ^ 48 % 32)).map mark⟩) 0 []))) ∧
    (∀ sl, x.op = .pdasave h res kb → slot = some sl → sl.state < 2 ^ 20 → sl.top < 2 ^ 32 → sl.depth < 2 ^ 16 →
      sl.marks.length ≤ 16 → (∀ k ∈ sl.marks, FitsMark k.state k.top k.depth k.pos) →
      writes s1 [(k1, (saveWords sl).flatMap (bytesOf 8))] fun t => leaves t slot 0 []) ∧
    (∀ sl, x.op = .pdaadv h res kb → slot = some sl → header s1 sl.imgva fun w u =>
      let m := imageOf sl.imgva w
      let tok := blk x.ks 0 % 2 ^ 18
      let pos := (sl.pos + 1) % 2 ^ 32
      (∀ v, gBit g x m sl tok u = .ok false v → leaves v slot 1 []) ∧
      ∀ v syms v1, gBit g x m sl tok u = .ok true v → gString g x m v tok = .ok (some syms) v1 →
        let walked := fun r v2 => gWalk g x m sl true syms ⟨sl.state, sl.top, sl.depth, [], none⟩ v1 = .ok r v2
        (∀ v2, walked .reject v2 → fails v2 slot 9 []) ∧
        (∀ v2, walked .accepted v2 → leaves v2 (some { sl with fin := true, pos := pos }) 2 []) ∧
        ∀ c v2, walked (.ok c) v2 →
          writes v2 ((c.new.reverse.map fun n => (sl.arenava + 16 * n.1, bytesOf 16 (n.2.1 + 2 ^ 32 * n.2.2))) ++
            (match c.cursor with
             | some i => [(sl.arenava, bytesOf 4 i)]
             | none => [])) fun t =>
            leaves t (some { sl with state := c.state, top := c.top, depth := c.depth, pos := pos }) 0 []) ∧
    ∀ sl spread, x.op = .pdamask spread h res kb → slot = some sl → masksOn s (g / 256) < 64 →
      let n := k1 / 2 ^ 36 % 2 ^ 18
      let first := k1 / 2 ^ 18 % 2 ^ 18
      let places := if spread then x.jobs.map fun j => (j.lane, first + j.lane * n) else [(blk x.ks 0 / 2 ^ 60 % 16, first)]
      let zeros := places.map fun y => (y.1, k1 % 2 ^ 18, List.replicate (n / 8) 0#8)
      header s1 sl.imgva fun w u => let m := imageOf sl.imgva w
        (sl.fin = true → leaves u slot 0 zeros) ∧
        (∀ bits v, MasksRead g x m sl n places bits u v → leaves v slot 0
          ((places.zip bits).map fun y => (y.1.1, k1 % 2 ^ 18, bytesOf (n / 8) (ofBits y.2)))) ∧
        ∀ bits v c v1, spread = false → bits.length < n → TokensRead g x m sl first bits u v →
          gBit g x m sl (first + bits.length) v = .code c v1 → fails v1 slot c zeros

/-- R340, R344, R346 to R348, R353 to R361: on a die whose grammar unit is ready (R443), the slot steps of grammar commands. The fault
that decides among several, and the order in which a step reads, are the model's choices (log entries 13 and 34). -/
def Obligations.GrammarSteps : Prop := HandleSteps ∧ GrammarWork
end
section
open Sys2Proof Sys2Proof.Machine Sys2Proof.Claims

/-! ### Sequencers and pickers -/

/-- R180: a Parked context whose results have all landed, or land as its issue goes on, with a half that may go on and no
interlocked wait in either half, becomes Ready; while an interlocked wait remains, or no half may go on, it stays Parked. -/
def Sys2Proof.Claims.ParkEnds : Prop :=
  ∀ (s : State) (g : Nat), (ctxOf s g).phase = .parked →
    let x := fun h => (ctxOf s g).half h
    let may := fun h => (x h).wait = .none ∨ (x h).wait = .held
    let rests := fun h => may h ∨ (x h).wait = .stopped ∨ (x h).wait = .join
    ((∀ h ∈ (ctxOf s g).halves, (x h).wait = .stopped ∨ ∀ p ∈ (x h).pend, LeftByASwitch (x h) p) →
      (∀ h ∈ (ctxOf s g).halves, rests h) → (∃ h ∈ (ctxOf s g).halves, may h) →
      exec (.parkEnd g) s = .next (updCtx s g fun c => { c with phase := .ready, age := 0 })) ∧
    ((∃ h ∈ (ctxOf s g).halves, ¬ rests h) ∨ (∀ h ∈ (ctxOf s g).halves, ¬ may h) → exec (.parkEnd g) s = .next s)
/-- R186: a run of 4,096 issue cycles ends at a quiet point while another slot of the pod is Ready; no register
changes. -/
def Sys2Proof.Claims.ForcedRunEnds : Prop :=
  ∀ (s : State) (g : Nat), (ctxOf s g).phase = .issuing →
    (∀ h ∈ (ctxOf s g).halves, let x := (ctxOf s g).half h
      x.wait = .none ∧ x.begun = false ∧ x.rep = 0 ∧ x.pend = [] ∨
        x.wait.isSwitch = true ∧ ∀ p ∈ x.pend, LeftByASwitch x p) →
    (∃ h ∈ (ctxOf s g).halves, 4096 ≤ ((ctxOf s g).half h).run) →
    (∃ n, n < 5 ∧ n ≠ g % 8 ∧ (slotOfPod s (g / 8) n).phase = .ready) →
    ∃ t, exec (.forcedRunEnd g) s = .next t ∧ (ctxOf t g).phase = .parked ∧ SameStorage s t ∧
      SameRegs (ctxOf s g) (ctxOf t g) ∧ ∀ k, k ≠ g → ctxOf t k = ctxOf s k
/-- R187, R259, R387: the choice of the next run, by the first rule that applies; contexts that have yielded are passed over. -/
def Sys2Proof.Claims.PickerChooses : Prop :=
  ∀ (s : State) (p : Nat), (∀ n, n < 5 → (slotOfPod s p n).phase ≠ .issuing) →
    (∀ n, n < 4 → (slotOfPod s p n).preempting = false) →
    let c := slotOfPod s p
    ((c 4).phase = .ready → ∃ t, exec (.pickerChoice p) s = .next t ∧ (slotOfPod t p 4).phase = .issuing ∧
      ∀ n, n < 4 → slotOfPod t p n = c n) ∧
    ((c 4).phase ≠ .ready → ∀ n, n < 4 → (c n).phase = .ready →
      (3 ≤ (c n).age → (∀ m, m < 4 → (c m).phase = .ready → (c m).age < (c n).age ∨ (c m).age = (c n).age ∧ n ≤ m) →
        ∃ t, exec (.pickerChoice p) s = .next t ∧ Chosen s t p n) ∧
      ((∀ m, m < 4 → (c m).phase = .ready → (c m).age < 3) → (c n).yieldSet = [] → (c n).yielded = false →
        (∀ m, m < 4 → m ≠ n → (c m).phase = .ready → (c m).yieldSet ≠ [] ∨ (c m).yielded = true) →
        ∃ t, exec (.pickerChoice p) s = .next t ∧ Chosen s t p n) ∧
      ((∀ m, m < 4 → (c m).phase = .ready → (c m).age < 3 ∧ (c m).yieldSet = [] ∧ (c m).yielded = false) →
        ((c n).urgent = true → (c n).credit ≠ 0 → (∃ m, m < 4 ∧ (c m).phase ≠ .ready) →
          (∀ m, m < n → (c m).phase = .ready → ¬ ((c m).urgent = true ∧ (c m).credit ≠ 0)) →
          ∃ t, exec (.pickerChoice p) s = .next t ∧ Chosen s t p n ∧ (slotOfPod t p n).credit = 0) ∧
        ((∀ m, m < 4 → (c m).phase = .ready → (c m).urgent = false ∧
            ((c m).age < (c n).age ∨ (c m).age = (c n).age ∧ n ≤ m)) →
          ∃ t, exec (.pickerChoice p) s = .next t ∧ Chosen s t p n)))
/-- R110, R244: an interlocked instruction is made again under the urgency of its first try, and when it completes the half
stands behind its slot. -/
def Sys2Proof.Claims.InterlockCompletes : Prop :=
  ∀ (s : State) (g : Nat) (h : HalfId) (i : Instr) (t : State), Waiting s g h (.access i) →
    (ctxOf s g).phase = .issuing → slotOf i ≠ none → exec i (retrying s g h) = .next t →
    ((ctxOf t g).phase = .issuing ∧ ((ctxOf t g).half h).wait = .none →
      exec (.interlockedAccessComplete g h) s = .next (urgencyOf s (passed t g h) g)) ∧
    (¬ ((ctxOf t g).phase = .issuing ∧ ((ctxOf t g).half h).wait = .none) →
      exec (.interlockedAccessComplete g h) s = .next (urgencyOf s (landFrozen t g) g))
/-- R110, R244: a load or store that waits at its slot has its result once its slices serve it and its lines and bytes are
there: the half then stands behind the slot. -/
def Sys2Proof.Claims.InterlockedAccessPasses : Prop :=
  ∀ (s t : State) (g : Nat) (h : HalfId) (sz : Size) (ch : Hint) (a : SReg) (off : BitVec 7),
    (ctxOf s g).phase = .issuing → (h = .primary ∨ (ctxOf s g).spare ≠ none) →
    let s' := retrying s g h
    (∀ sx d x stk, ((ctxOf s g).half h).wait = .access (.ld sz sx ch d a off) → ¬ (sx = true ∧ sz = .d) →
      loadOf s' (addrOf s' a off sz) (bytesOfSize sz) ch = some (x, t, stk) →
      mayWrite t d (loaded sx (bytesOfSize sz) x) →
      exec (.interlockedAccessComplete g h) s =
        .next (urgencyOf s (passed (if stk then result t d (loaded sx (bytesOfSize sz) x) 3
          else arrived t d (loaded sx (bytesOfSize sz) x)) g h) g)) ∧
    (∀ r, ((ctxOf s g).half h).wait = .access (.st sz ch r a off) →
      storeOf s' (addrOf s' a off sz) (bytesOf (bytesOfSize sz) ((rdS s' r).toNat % 2 ^ (8 * bytesOfSize sz))) ch = some t →
      exec (.interlockedAccessComplete g h) s = .next (urgencyOf s (passed t g h) g))
/-- R204, R209, R213, R236, R237: a bundle that holds one `nop` or one scalar arithmetic instruction issues whole in one
issue cycle: its result is queued, and the half stands at the bundle behind it. -/
def Sys2Proof.Claims.BundleIssues : Prop :=
  ∀ (s s1 : State) (hdr w : W32) (ws ext : List W32) (b : Bundle) (k : Slot) (i : Instr) (res : Option (SReg × Word)),
    AtBundle s → (curH s).pend = [] → (curH s).verOk = false → (curH s).stV = none → (curH s).stM = none →
    (curH s).stX = none → (curH s).nextPc = none → (curH s).switchReq = false → (cur s).tretTo = none →
    (cur s).tctl.getLsbD 0 = false →
    let g := s.issuer.gcn
    let s0 := updHalf { s with issuer := ⟨g, .primary, .sa, Env.fresh⟩ } g .primary fun x => { x with wait := .none }
    fetchAt s0 g (curH s).pc = .ok hdr ws s1 → makeBundle hdr ws = some b → b.slots = [(k, w, ext)] →
    headerRep b.header = 0 → headerSw b.header = false → (k = .sa ∨ k = .sb) → decodeSyllable k w ext = .ok i →
    (i = .nop ∧ res = none ∨ ∃ d v, arith i s0 = some (d, v) ∧ mayWrite s0 d v ∧
      res = if d = 0#6 then none else some (d, v)) →
    ∃ t, exec (.bundleIssue g .primary) s = .next t ∧ t.mem = s1.mem ∧ t.sp = s.sp ∧ t.vregs = s.vregs ∧
      (ctxOf t g).phase = .issuing ∧ (ctxOf t g).prim.begun = false ∧ (ctxOf t g).prim.wait = .none ∧
      (ctxOf t g).prim.pc = (curH s).pc + BitVec.ofNat 64 (4 * (1 + ws.length)) ∧
      (ctxOf t g).prim.cycle = (curH s).cycle + 1 ∧ (∀ n, rdSH (ctxOf t g).prim n = rdSH (curH s) n) ∧
      ∃ beat, (ctxOf t g).prim.pend = match res with
        | none => []
        | some (d, v) => [⟨(curH s).cycle + 2, [.s d v], (cur s).dbgPend, beat, (curH s).cycle + 1⟩]
/-- R213 to R219: one issue of a legal bundle, of any slots and at any repeat: its slots act in commit order, each by what it
issues afresh or re-issues, up to a trap or a wait; behind the last the issue ends. -/
def Sys2Proof.Claims.SlotsInOrder : Prop :=
  ∀ (s s1 t : State) (hdr : W32) (ws : List W32) (b : Bundle) (stop : Bool), AtRepeat s →
    let g := s.issuer.gcn
    let s0 := updHalf { s with issuer := ⟨g, .primary, .sa, Env.fresh⟩ } g .primary fun x => { x with wait := .none }
    fetchAt s0 g (curH s).pc = .ok hdr ws s1 → s1.issuer = s0.issuer → cur s1 = cur s0 →
    makeBundle hdr ws = some b → badMix b = false → isHalt b = false → (curH s).rep ≤ headerRep b.header →
    (∀ y ∈ b.slots, ∃ i, decodeSyllable y.1 y.2.1 y.2.2 = .ok i) →
    SlotsDo b g [.sa, .sb, .v, .m, .x, .g] (begun s1 (curH s1).pc ws.length) t stop →
    (stop = true → exec (.bundleIssue g .primary) s = .next (landFrozen t g)) ∧
    (stop = false → exec (.bundleIssue g .primary) s = .next (landFrozen (enterFrozen (endIssue b t g .primary) g) g))
/-- R69: the fills of the stack cache: the lines that an interlocked access misses, and in the background up to two
lines above those held. -/
def Sys2Proof.Claims.StackFills : Prop :=
  (∀ (s : State) (g : Nat) (h : HalfId) (i : Instr) (va n : Nat) (t : State),
    let s' := { s with issuer := ⟨g, h, .sa, Env.fresh⟩ }
    Waiting s g h (.access i) → StackBytes s' i va n → stackPart s' va n = .inside → stkFills s' g h va n = .ok t →
    exec (.stackCacheFill g h) s = .next t) ∧
  (∀ (s : State) (g top : Nat) (t u : State),
    ((ctxOf s g).phase = .issuing ∨ (ctxOf s g).phase = .ready ∨ (ctxOf s g).phase = .parked) → (ctxOf s g).stk ≠ [] →
    top = (ctxOf s g).stk.foldl (fun a l => max a (l.va + 64)) 0 →
    let sp := (rdSH (ctxOf s g).prim 63#6).toNat
    sp < top → top ≤ sp + 256 → top + 128 ≤ (ctxOf s g).stktop.toNat →
    (ctxOf s g).stk.length < 64 → stkFill s g .primary top top = .ok t → (ctxOf t g).stk.length < 64 →
    stkFill t g .primary (top + 64) (top + 64) = .ok u → exec (.stackCacheBackgroundFill g) s = .next u)
/-- R61, R69, R110 (urgency), R180, R186, R187, R204 to R219, R244, R259, R387: the events of a pod's sequencers, the issue of a
bundle and the end of an interlocked access among them. The count of a forced run, the ends of parks by a switch and the
retry of interlocked accesses are the model's choices (log entry 11), and so is that the slots of one issue act in one step
(log entry 33). -/
def Obligations.SequencerEvents : Prop :=
  ParkEnds ∧ ForcedRunEnds ∧ PickerChooses ∧ InterlockCompletes ∧ InterlockedAccessPasses ∧ BundleIssues ∧ SlotsInOrder ∧
    StackFills

/-! ### Ends of waits -/

/-- R59, R144, R153, R156, R251, R253: what ends an ordering wait, and how the context goes on. A release or full fence at
system scope waits until its context's stores and those visible to it have taken effect; at a narrower scope it makes them
visible there and no further. That the narrower release leaves the stores in their queues is the model's choice (log entry
7), and so is what the system fence waits for (log entry 9) and how a half goes on behind its wait (log entry 11). -/
def Sys2Proof.Claims.OrderingEnds : Prop :=
  ∀ (s : State) (g : Nat) (h : HalfId),
    let at_ := { landSwitch s g h with issuer := ⟨g, h, .sa, Env.fresh⟩ }
    (∀ k sc, Waiting s g h (.fence k sc) → (k = .acq → exec (.fenceComplete g h) s = .next (goOn s g h)) ∧
      (k ≠ .acq → sc ≠ .sys → exec (.fenceComplete g h) s = .next (goOn (releaseTo s g h (scopeVis sc)) g h)) ∧
      (k ≠ .acq → sc = .sys →
        let ag := agentOf s g
        let s1 := (visibleStores s ag).foldl (fun u x => flushStores u x.1) (flushStores s g)
        exec (.fenceComplete g h) s = .next
          (if ((ctxOf s1 g).half h).stq = [] ∧ visibleStores s1 ag = [] then goOn s1 g h else s1))) ∧
    (∀ n cm, Waiting s g h (.waitb n cm) → (∀ x ∈ covered (ctxOf s g) n cm, x.fin = true) →
      (∀ x ∈ covered (ctxOf at_ g) n cm, x.flt = none ∨ x.reported = true) → (ctxOf at_ g).deferred = none →
      (ctxOf at_ g).phase ≠ .frozen →
      exec (.waitbComplete g h) s = .next (goOn (coverUnseen at_ g n cm) g h)) ∧
    (∀ upto, Waiting s g h (.ufence upto) → (∀ p ∈ s.pkg.pairs, p.gcn = g → upto ≤ p.cmd) →
      (∀ x ∈ (ctxOf s g).cmds, x.fin = false → x.id < upto → ∀ ew cv n kb v ix, x.op ≠ .xemitv ew cv n kb v ∧ x.op ≠ .xemitt ew ix n kb) →
      (ctxOf at_ g).deferred = none → exec (.ufenceComplete g h) s = .next (goOn at_ g h)) ∧
    (∀ tl v extra, Waiting s g h (.version tl v extra) →
      (∀ e ∈ activeLanes ((ctxOf s g).half h).am, if extra then outstandingIn (ctxOf s g) e tl = 0
        else accver s g e tl = v) →
      exec (.versionCheckRelease g h) s =
        .next (holdHalf (updHalf (landSwitch s g h) g h fun x => { x with wait := .none, verOk := true, run := 0 }) g h)) ∧
    (∀ d ctr x, Waiting s g h (.arrinc d ctr x) →
      let s1 := releaseTo s g h .pkg
      let v := mget 0#32 (die s1 d).arrcnt ctr + x
      exec (.arrincAccepted g h) s = .next (passed (updPkg (updDie s1 d fun y =>
        { y with arrcnt := mset 0#32 y.arrcnt ctr v }) fun p => { p with checks := p.checks ++ [(d, ctr, v, p.nextLaunch)] }) g h))
/-- R43, R253, R307, R399: a wait that covers one failed command reports it: TSW with W and the cause of the fault,
and the context frozen. -/
def Sys2Proof.Claims.WaitReportsFault : Prop :=
  ∀ (s : State) (g n : Nat) (cm : BitVec 3) (x : Cmd) (f : CmdFault), Waiting s g .primary (.waitb n cm) → g % 8 ≠ 4 →
    (ctxOf s g).spare = none → (ctxOf s g).stopBy = none → (ctxOf s g).prim.pend = [] → (ctxOf s g).deferred = none →
    covered (ctxOf s g) n cm = [x] → x.fin = true → x.reported = false → x.flt = some f → f.gcode = 0 →
    ∃ t, exec (.waitbComplete g .primary) s = .next t ∧ (ctxOf t g).phase = .frozen ∧
      (ctxOf t g).tsw.toNat / 256 % 64 = (if f.merr then 0x0B else 0x0A) ∧ (ctxOf t g).tsw.getLsbD 24 = true ∧
      (ctxOf t g).lastCmd = some x.id ∧ (ctxOf t g).hxflt = xfltWord f
/-- R162, R250: a generation whose participants have all arrived completes, and releases those that wait for it. -/
def Sys2Proof.Claims.GenerationCompletes : Prop :=
  ∀ (s : State) (l : Nat) (bk : BarKind) (u id : Nat) (x : Launch), launchOf s l = some x →
    let b := barrierOf x bk u id
    participants s l bk u ≠ [] → (∀ g ∈ participants s l bk u, g ∈ b.arrived ∧ (ctxOf s g).prim.pend = [] ∧
      (ctxOf s g).spare = none) →
    ∃ t, exec (.barrierGenerationComplete l bk u id) s = .next t ∧
      (∃ y, launchOf t l = some y ∧ barrierOf y bk u id = { b with gen := b.gen + 1, arrived := [] }) ∧
      ∀ g ∈ participants s l bk u, Waiting s g .primary (.barw bk id b.gen) →
        (ctxOf t g).prim.wait = .none ∧ ∀ a ∈ (ctxOf t g).arrivals, ¬ (a.1 = bk ∧ a.2.1 = id)
/-- R191 to R193, R393: a split starts its spare half on the not-taken lanes, and a join restores AM and keeps the
primary's registers. That a join waits for the spare half's queued stores is the model's choice (log entry 9). -/
def Sys2Proof.Claims.SplitAndJoin : Prop :=
  (∀ (s : State) (g : Nat) (tk nt : Mask) (tgt ft rpc : Word), Waiting s g .primary (.split tk nt tgt ft rpc) →
    (ctxOf s g).spare = none → storesDone (flushStores s g) g = true → (ctxOf (flushStores s g) g).spare = none →
    let c := ctxOf (landHalf (flushStores s g) g .primary) g
    ∃ t y, exec (.splitStart g) s = .next t ∧ (ctxOf t g).spare = some y ∧ (ctxOf t g).prim.am = tk ∧
      (ctxOf t g).prim.pc = tgt ∧ (ctxOf t g).prim.stalk = ⟨nt, rpc, true, c.prim.am, ft⟩ :: c.prim.stalk ∧
      y.am = nt ∧ y.pc = ft ∧ y.stalk = [] ∧ y.tpc = c.prim.tpc ∧
      ∀ n, rdSH (ctxOf t g).prim n = rdSH c.prim n ∧ rdSH y n = rdSH c.prim n) ∧
  (∀ (s : State) (g : Nat) (e : StalkEntry) (l : List StalkEntry), Waiting s g .primary .join →
    Waiting s g .spare .join → (ctxOf s g).prim.stalk = e :: l →
    let s1 := drainStq s g .spare ((ctxOf s g).half .spare).stq.length
    let c := ctxOf (landHalf (landHalf s1 g .primary) g .spare) g
    (((ctxOf s1 g).half .spare).stq ≠ [] → exec (.join g) s = .next s1) ∧
    (((ctxOf s1 g).half .spare).stq = [] →
      ∃ t, exec (.join g) s = .next t ∧ (ctxOf t g).spare = none ∧ (ctxOf t g).prim.am = e.saved ∧
        (ctxOf t g).prim.stalk = l ∧ (ctxOf t g).prim.wait = .none ∧ (ctxOf t g).prim.pc = c.prim.pc ∧
        (ctxOf t g).prim.stq = c.prim.stq ∧
        (ctxOf t g).prim.tpc = (if c.tsw.getLsbD 25 then (c.half .spare).tpc else c.prim.tpc) ∧
        ∀ n, rdSH (ctxOf t g).prim n = rdSH c.prim n))
/-- R43, R59, R144, R156, R162, R191 to R193, R250, R251, R253: the ends of waits. How far a release makes stores visible, what a
system fence and a join wait for, and how a half goes on, are the model's choices (log entries 7, 9 and 11). -/
def Obligations.WaitsEnd : Prop := OrderingEnds ∧ WaitReportsFault ∧ GenerationCompletes ∧ SplitAndJoin

/-! ### Memory side -/

/-- R20, R46: a placement unit loads a range table, and a synchronisation drops every copy of one and ends when no
access placed with it is in flight. -/
def Sys2Proof.Claims.RangeTables : Prop :=
  (∀ (s t : State) (u asid : Nat) (es : List (Word × Word)), loadRange s u asid = .ok es t →
    exec (.rangeTableLoad u asid) s = .next t ∧
      ∃ x ∈ t.pkg.rtabs, x.unit = u ∧ x.asid = asid ∧ x.entries = es) ∧
  (∀ (s : State) (asid : Nat), ∃ t, exec (.rngsyncWrite asid) s = .next t ∧ t.pkg.rngq = s.pkg.rngq ++ [asid] ∧
    (s.pkg.rngq = [] → NoTable t asid) ∧ (s.pkg.rngq ≠ [] → t.pkg.rtabs = s.pkg.rtabs)) ∧
  (∀ (s : State) (a : Nat) (l : List Nat), s.pkg.rngq = a :: l → StoresClear s (fun y => y.asid = a) →
    PairsClear s (fun p => p.asid = a) → ∃ t, exec .rngsyncComplete s = .next t ∧ t.pkg.rngq = l ∧
      ∀ b, l.head? = some b → NoTable t b)
/-- R105, R110: which request a slice serves next, where none to the same line is before it: an urgent one first, and no more
than 16 urgent ones in a row while another waits. -/
def Sys2Proof.Claims.SlicesServe : Prop :=
  ∀ (s : State) (n : Option Nat) (l : List Seg), behind (requests s) n l = false →
    let ks := slicesOf s l
    let other := fun (r : Req) (k : Nat) => r ∈ requests s ∧ shareLine r.segs l = false ∧
      behind (requests s) r.ask r.segs = false ∧ k ∈ ks ∧ k ∈ slicesOf s r.segs
    ((∀ k ∈ ks, urgentRow s k < 16) → serves s true n l = true) ∧
    (∀ r k, other r k → r.urg = false → 16 ≤ urgentRow s k → serves s true n l = false) ∧
    (∀ r k, other r k → r.urg = true → (∀ k ∈ ks, urgentRow s k < 16) → serves s false n l = false) ∧
    ((∀ r k, other r k → r.urg = false) → serves s false n l = true) ∧
    (∀ k ∈ ks, 16 ≤ urgentRow s k → serves s false n l = true)
/-- R24, R30, R32, R103, R105, R106, R110: a queued store takes effect when its slices serve it, a filling line takes its bytes
and leaves those of other memory types alone, a walk on the home die of its address installs its entry unless it ends in a
fault, and one on another die installs nothing. -/
def Sys2Proof.Claims.SliceEvents : Prop :=
  (∀ (s s1 s2 : State) (g n : Nat) (h : HalfId) (e : StqEntry), let q := ((ctxOf s g).half h).stq
    let ls := e.segs.map (·.1)
    let s' := countServed s e.urg ls
    q[n]? = some e → (h = .primary ∨ (ctxOf s g).spare ≠ none) → (∀ x ∈ q.take n, ¬ ShareLine x e) →
    storeReady s g e = true → serves s e.urg none ls = true → heldStore s' g e = false →
    segsReady s' ls = .ok () s1 → wrSegs e.ch e.urg s1 e.segs = .ok () s2 →
    exec (.sliceAccess g h n) s = .next (updHalf s2 g h fun x => { x with stq := x.stq.eraseIdx n })) ∧
  (∀ (s : State) (d asid ln : Nat) (mt : MemType) (l : Line), lineFind (die s d) asid ln mt = some l → l.st = .fill →
    (∀ ty k, ty ≠ mt → lineFind (die s d) asid ln ty = some k → k.st ≠ .fill) →
    stackState s (stackOf (l.pln * 128)) = 2 →
    ((∀ b ∈ s.pkg.badSectors, b / 4 ≠ l.pln) → ∃ t, exec (.lineFillComplete d asid ln) s = .next t ∧ t.mem = s.mem ∧
      (∀ ty, ty ≠ mt → lineFind (die t d) asid ln ty = lineFind (die s d) asid ln ty) ∧
      lineFind (die t d) asid ln mt =
        some { l with st := .clean, data := BitVec.ofNat 1024 (ofBytes (rdPhys s (l.pln * 128) 128)) }) ∧
    ((∃ b ∈ s.pkg.badSectors, b / 4 = l.pln) → CollectorRuns s → ∃ t, exec (.lineFillComplete d asid ln) s = .next t ∧ t.mem = s.mem ∧
      lineFind (die t d) asid ln mt = none ∧ t.pkg.evtstat.getLsbD 2 = true)) ∧
  (∀ (s s1 : State) (d asid va : Nat) (es : List (Word × Word)), loadRange s d asid = .ok es s1 →
    let home := va < 2 ^ 48 ∧ dieReady s1 d = true ∧ placeIn s1 es va = (d, false)
    (¬ home → exec (.pageWalkComplete d asid va) s = .next s1 ∧ s1.dies = s.dies) ∧
    ∀ (t : State) (e : TlbEnt) (new : Bool), home → ContWellFormed s1 d asid va → leafFor s1 d asid va = .ok (e, new) t →
      let good := ∃ mt, leafMt e.leaf.toNat = some mt ∧ leafPlace d (paOf e va) mt = none ∧
        (mt = .host → inHost (paOf e va) = true)
      let u := keepLeaf t d (e, new)
      (good → exec (.pageWalkComplete d asid va) s = .next u ∧ e ∈ (die u d).tlb ∧ e.asid = asid ∧ e.va ≤ va ∧
        va < e.va + e.size) ∧
      (¬ good → exec (.pageWalkComplete d asid va) s = .next t ∧ (die t d).tlb = (die s d).tlb))
/-- R20, R24, R32, R46, R103, R105, R106, R110, R112: the events of placement units, slices and walkers. That an access to
several slices goes first once one of them has served 16 urgent ones is the model's choice (log entry 9). -/
def Obligations.MemoryEvents : Prop := RangeTables ∧ SlicesServe ∧ SliceEvents

/-- R37: a shootdown leaves no TLB entry and no slice line of its pages on the die, and another is refused while it
runs. That entries and lines are gone as it starts, and lines again as it ends, is the model's choice (log entry 10). -/
def Sys2Proof.Claims.Shootdowns : Prop :=
  ∀ (s : State) (d : Nat),
    let va := (die s d).tlbinva.toNat
    ((die s d).shoot = none →
      (∀ asid count, ∃ t, exec (.shootdownPageRange d asid count) s = .next t ∧
        (die t d).shoot = some ⟨.page, asid, va, count + 1⟩ ∧
        (∀ e ∈ (die t d).tlb, e.asid = asid → e.va + e.size ≤ va ∨ va + (count + 1) * 65536 ≤ e.va) ∧
        ∀ l ∈ (die t d).lines, l.asid = asid → l.ln * 128 < va ∨ va + (count + 1) * 65536 ≤ l.ln * 128) ∧
      (∀ asid, ∃ t, exec (.shootdownAsid d asid) s = .next t ∧ (∃ x, (die t d).shoot = some x ∧ x.asid = asid) ∧
        (∀ e ∈ (die t d).tlb, e.asid ≠ asid) ∧ ∀ l ∈ (die t d).lines, l.asid ≠ asid) ∧
      (∃ t, exec (.shootdownAll d) s = .next t ∧ (die t d).shoot ≠ none ∧ (die t d).tlb = [] ∧ (die t d).lines = [])) ∧
    ((die s d).shoot ≠ none → ∀ i, (∃ asid count, i = .shootdownPageRange d asid count) ∨
        (∃ asid, i = .shootdownAsid d asid) ∨ i = .shootdownAll d →
      exec i s = .next (updDie s d fun x => { x with tlberr := true })) ∧
    ((die s d).shoot ≠ none → StoresClear s (fun y => y.die = d ∧ shotBy (die s d) y.asid y.va = true) →
      PairsClear s (fun p => p.die = d ∧ shotBy (die s d) p.asid p.va.toNat = true) →
      (∀ x ∈ (die s d).grans, shotBy (die s d) x.asid x.va = true → ∀ p ∈ s.pkg.pairs, p.stage = .filtered →
        p.pa / 4096 ≠ x.gran) →
      ∃ t, exec (.shootdownComplete d) s = .next t ∧ (die t d).shoot = none ∧
        ∀ l ∈ (die t d).lines, shotBy (die s d) l.asid (l.ln * 128) = false)
/-- R111, R116, R117, R119: the states of a stack, its scrubber and its refresh rate. That a scrub which meets an
uncorrectable sector raises the event is log entry 19. -/
def Sys2Proof.Claims.Stacks : Prop :=
  ∀ (s : State) (n : Nat),
    (∀ sector, let pa := n * 2 ^ 37 + sector * 32
      sector * 32 < 0x1800000000 → n < 16 → stackState s n = 2 →
      (pa / 32 ∉ s.pkg.badSectors → ∃ t, exec (.patrolScrub n sector) s = .next t ∧ t.mem = s.mem ∧
        pa / 32 ∉ t.pkg.softSectors ∧ ∀ b, b ≠ pa / 32 → (b ∈ t.pkg.softSectors ↔ b ∈ s.pkg.softSectors)) ∧
      (pa / 32 ∈ s.pkg.badSectors → CollectorRuns s → ∃ t, exec (.patrolScrub n sector) s = .next t ∧ t.mem = s.mem ∧
        t.pkg.evtstat.getLsbD 2 = true)) ∧
    (stackState s n = 0 → ∃ t, exec (.stackTrainingStart n) s = .next t ∧ stackState t n = 1) ∧
    (stackState s n = 1 → ∀ ok, ∃ t, exec (.stackTrainingEnd n ok) s = .next t ∧
      stackState t n = if ok then 2 else 3) ∧
    (stackState s n = 2 → ∃ t, exec (.stackChannelLoss n) s = .next t ∧ stackState t n = 3 ∧ t.mem = s.mem ∧
      ∀ d, d < 8 → ∀ l ∈ (die t d).lines, stackOf (l.pln * 128) ≠ n) ∧
    (∀ hot, exec (.refreshRateChange n hot) s =
      .next (updPkg s fun p => { p with hotref := mset false p.hotref n hot }))
/-- R37, R111, R116, R117, R119: shootdowns, and what happens to stacks. -/
def Obligations.ShootdownsAndStacks : Prop := Shootdowns ∧ Stacks

/-! ### Update pairs -/

/-- R124, R140: a pair leaves the buffer of its port in the port's order; at its home die it is dropped by the first failing
check with its class, or goes on with the region's binding. -/
def Sys2Proof.Claims.PairIsChecked : Prop :=
  ∀ (s0 s1 : State) (id : Nat) (y : Pair) (sg : Seg), pairOf s0 id = some y →
    (y.stage = .sent ∨ y.stage = .buffered ∧ nextOfPort s0 y = true) →
    let x := { y with stage := .sent }
    let s := if y.stage = .buffered then putPair s0 x else s0
    xlatePiece s { agentOf s x.gcn with asid := x.asid } .emit x.va.toNat x.w = .ok sg s1 →
    let b := rgnFields (mget 0#32 (die s1 sg.die).uprgn sg.rid)
    (b.2.2 = false → x.gcn % 8 ≠ 4 → ∃ t, exec (.pairHomeDieCheck id) s0 = .next t ∧ Dropped s1 t x 3) ∧
    (b.2.2 = true → bindWidth b.1 b.2.1 ≠ x.w → x.gcn % 8 ≠ 4 →
      ∃ t, exec (.pairHomeDieCheck id) s0 = .next t ∧ Dropped s1 t x 4) ∧
    (b.2.2 = true → bindWidth b.1 b.2.1 = x.w → x.va.toNat % x.w ≠ 0 → x.gcn % 8 ≠ 4 →
      ∃ t, exec (.pairHomeDieCheck id) s0 = .next t ∧ Dropped s1 t x 5) ∧
    (b.2.2 = true → bindWidth b.1 b.2.1 = x.w → x.va.toNat % x.w = 0 → stackState s1 (stackOf sg.pa) = 3 →
      x.gcn % 8 ≠ 4 → ∃ t, exec (.pairHomeDieCheck id) s0 = .next t ∧ Dropped s1 t x 2) ∧
    (b.2.2 = true → bindWidth b.1 b.2.1 = x.w → x.va.toNat % x.w = 0 → stackState s1 (stackOf sg.pa) ≠ 3 →
      exec (.pairHomeDieCheck id) s0 = .next (requestPermit (putPair s1 { x with
        stage := .ingress, die := sg.die, pa := sg.pa, rid := sg.rid, op := b.1, et := b.2.1 }) x.gcn (stackOf sg.pa)))
/-- R140: the request of a stack that arrived first is granted a permit of 64 slots within the limits of the stack and of the
context. -/
def Sys2Proof.Claims.PermitIsGranted : Prop :=
  ∀ (s : State) (g n : Nat),
    let mine := s.pkg.permits.filter fun t => t.gcn == g && t.stack == n
    s.pkg.permReqs.find? (fun k => k.2 == n) = some (g, n) →
    stackState s n = 2 → mine.length < 4 → (s.pkg.permits.filter fun t => t.stack == n).length < 1024 →
    exec (.permitGrant g n) s = .next (updPkg s fun p =>
      { p with permits := p.permits ++ [⟨p.nextPermit, g, n, 0, 0⟩], nextPermit := p.nextPermit + 1,
               permReqs := p.permReqs.filter fun k => k != (g, n) })
/-- R107, R125: a pair with a permit, which no line of its sender's stack cache overlaps, sets its granule's pending bit and its
granule's lines leave the slices. -/
def Sys2Proof.Claims.PairPassesFilter : Prop :=
  ∀ (s : State) (id : Nat) (x : Pair), pairOf s id = some x → x.stage = .ingress →
    stackState s (stackOf x.pa) = 2 →
    storeBefore s (agentOf s x.gcn) [⟨x.die, x.asid, x.va.toNat, x.pa, x.w, .update, x.rid⟩] = false →
    (∃ u ∈ s.pkg.permits, u.gcn = x.gcn ∧ u.stack = stackOf x.pa ∧ u.used < 64) →
    (∀ l ∈ (ctxOf s x.gcn).stk, l.va + 64 ≤ x.va.toNat ∨ x.va.toNat + x.w ≤ l.va) →
    ∃ t, ∃ u ∈ s.pkg.permits, u.gcn = x.gcn ∧ u.stack = stackOf x.pa ∧ u.used < 64 ∧
      exec (.pairFilterPass id) s = .next t ∧ pairOf t id = some { x with stage := .filtered, permit := u.id } ∧
      isPending t x.die x.pa = true ∧
      (isPending s x.die x.pa = false → ∀ l ∈ (die t x.die).lines, l.pln / 32 ≠ x.pa / 4096)
/-- R126, R136: the sorter takes a pair into the bin of its element, combined by the operator of its region, in the order of
acceptance; for add.f32, whose grouping R127 leaves open, that order is the model's choice (log entry 18). -/
def Sys2Proof.Claims.PairEntersBin : Prop :=
  ∀ (s : State) (id : Nat) (x : Pair), pairOf s id = some x → x.stage = .filtered →
    stackState s (stackOf x.pa) ≠ 3 →
    let at_ := fun (b : Bin) => b.pa = x.pa ∧ b.op = x.op ∧ b.et = x.et
    let v := toBin x.op x.val.toNat
    ((∀ b ∈ (die s x.die).bins, ¬ at_ b) → binsOf (die s x.die) (stackOf x.pa) < 2097152 →
      ∃ t b, exec (.pairBinAccept id) s = .next t ∧ pairOf t id = none ∧ at_ b ∧ b.val = v ∧
        (die t x.die).bins = (die s x.die).bins ++ [b]) ∧
    (∀ l b r, (die s x.die).bins = l ++ b :: r → at_ b → (∀ a ∈ l, ¬ at_ a) →
      ∃ t, exec (.pairBinAccept id) s = .next t ∧ pairOf t id = none ∧
        (die t x.die).bins = l ++ { b with val := binCombine x.op x.et b.val v } :: r)
/-- R129 to R131, R134: an apply writes each bin of the granule over its element and clears the pending bit. That add.f32 is
grouped as bin, then element, is the model's choice (log entry 18). -/
def Sys2Proof.Claims.GranulesAreApplied : Prop :=
  (∀ (s : State) (gran : Nat), let d := gran * 4096 / 2 ^ 37 / 2
    populated (gran * 4096) = true → stackState s (stackOf (gran * 4096)) = 2 →
    isPending s d (gran * 4096) = true → Appliable s gran →
    ∃ t, exec (.pendingGranuleAccess gran) s = .next t ∧ isPending t d (gran * 4096) = false ∧
      (∀ b ∈ (die t d).bins, b.pa / 4096 ≠ gran) ∧
      ∀ b, (die s d).bins.filter (fun x => x.pa / 4096 == gran) = [b] →
        (die s d).spill.filter (fun x => x.pa / 4096 == gran) = [] →
        rdPhys t b.pa (bindWidth b.op b.et) = bytesOf (bindWidth b.op b.et)
          (binWord (binCombine b.op b.et b.val (toBin b.op (rdNum s b.pa (bindWidth b.op b.et)))))) ∧
  (∀ (s : State) (n : Nat) (b : Bin), (die s (n / 2)).hwm.getD (n % 2) false = true → stackState s n = 2 →
    oldestBin s n = some b → Appliable s (b.pa / 4096) →
    (∀ x ∈ (die s (n / 2)).bins, x.pa / 4096 = b.pa / 4096 → x.op ≠ 2) →
    ∃ t, exec (.earlyApply n) s = .next t ∧ ∀ x ∈ (die t (n / 2)).bins, x.pa / 4096 ≠ b.pa / 4096)
/-- R107, R124 to R126, R129 to R131, R134, R140: the way of a pair from its home die to its element. The grouping of add.f32,
which R127 leaves open, is the model's choice (log entry 18). -/
def Obligations.PairsReachTheirElements : Prop :=
  PairIsChecked ∧ PermitIsGranted ∧ PairPassesFilter ∧ PairEntersBin ∧ GranulesAreApplied

/-- R122, R123, R142: the region table, drains of a region, and the kill message of a context. -/
def Obligations.RegionsAndKills : Prop :=
  ∀ (s : State) (d : Nat),
    (∀ rid (v : W32), let b := rgnFields v
      let busy := (∃ x ∈ (die s d).grans, x.rid = rid) ∨
        ∃ p ∈ s.pkg.pairs, InFlight p ∧ p.die = d ∧ p.rid = rid
      ((b.2.2 = true → bindWidth b.1 b.2.1 ≠ 0) → ¬ busy → exec (.uprgnWrite d rid v) s =
        .next (updDie s d fun x => { x with uprgn := mset 0#32 x.uprgn rid (v &&& 0x800000FF#32) })) ∧
      ((b.2.2 = true ∧ bindWidth b.1 b.2.1 = 0) ∨ busy → exec (.uprgnWrite d rid v) s =
        .next (updDie s d fun x => { x with uperr := true }))) ∧
    (∀ rid, (die s d).drain = none → ∃ t, exec (.updrainWrite d rid) s = .next t ∧ (die t d).drain = some rid ∧
      (s.pkg.badSectors = [] → s.pkg.pairs = [] → ∀ x ∈ (die t d).grans, x.rid ≠ rid)) ∧
    (∀ rid, (die s d).drain ≠ none → exec (.updrainWrite d rid) s =
      .next (updDie s d fun x => { x with uperr := true })) ∧
    (∀ rid, (die s d).drain = some rid → (∀ p ∈ s.pkg.pairs, p.stage = .filtered → p.die = d → p.rid ≠ rid) → ∃ t, exec (.drainComplete d) s = .next t ∧ (die t d).drain = none) ∧
    (∀ g, (g, d) ∈ s.pkg.kills → (∀ p ∈ s.pkg.pairs, p.gcn = g → p.stage ≠ .sent ∧ p.die ≠ d) →
      ∃ t, exec (.contextKillMessage g d) s = .next t ∧ (g, d) ∉ t.pkg.kills ∧
        (∀ x, x ∈ t.pkg.permits ↔ x ∈ s.pkg.permits ∧ ¬ (x.gcn = g ∧ x.stack / 2 = d)) ∧
        ∀ k ∈ t.pkg.permReqs, ¬ (k.1 = g ∧ k.2 / 2 = d))
end
section
open Sys2Proof Sys2Proof.Machine Sys2Proof.Claims

/-! ### Pods, handler slots, stops -/

/-- R198, R199, R443: a pod's self-test writes its map, and the pod becomes ready when the map is valid. -/
def Sys2Proof.Claims.PodSelfTests : Prop :=
  ∀ (s : State) (p : Nat) (work : BitVec 17) (m0 m1 : Word) (degr : Bool), (pod s p).rdy = false →
    ∃ t, exec (.podSelfTest p work m0 m1 degr) s = .next t ∧ (pod t p).work = work ∧ (pod t p).degr = degr ∧
      (pod t p).map0 = m0 &&& 0x3F3F3F3F3F3F3F3F#64 ∧ (pod t p).map1 = m1 &&& 0x3F3F3F3F3F3F3F3F#64 ∧
      (ValidMap work m0 m1 degr → (pod t p).rdy = true ∧ (pod t p).maperr = false) ∧
      (¬ ValidMap work m0 m1 degr → (pod t p).rdy = false ∧ (pod t p).maperr = true)
/-- R74, R396, R399: an idle handler slot takes the head of its queue, once that context is Frozen with its matrix
commands done and its dirty stack lines written back: it starts at TVEC with all lanes active, s63 at the top of its
private region, and HSEL at the context that entered. -/
def Sys2Proof.Claims.HandlerEnters : Prop :=
  ∀ (s s2 : State) (p n : Nat) (rest : List Nat) (r : Nat × Nat), (pod s p).queue = n :: rest →
    let hg := p * 8 + 4
    let g := p * 8 + n
    n < 4 → (ctxOf s hg).phase = .free → (ctxOf s hg).serving = none → (ctxOf s g).preempting = false →
    let s1 := settleFrozen s g
    isFrozen (ctxOf s1 g) = true → privRegion s1 p (ctxOf s1 g).asid = .ok r s2 →
    ∃ t, exec (.handlerEntry p) s = .next t ∧ (ctxOf t hg).phase = .ready ∧ (ctxOf t hg).serving = some n ∧
      (ctxOf t hg).asid = (ctxOf s2 g).asid ∧ (ctxOf t hg).prim.pc = (ctxOf s2 g).tvec ∧
      (ctxOf t hg).prim.am = 0xFFFF#16 ∧ (ctxOf t hg).prim.stalk = [] ∧
      (ctxOf t hg).hsel = BitVec.ofNat 64 (n + if (ctxOf s2 g).tsw.getLsbD 25 then 4 else 0) ∧
      rdSH (ctxOf t hg).prim 63#6 = (ctxOf t hg).prvtop ∧
      let size := r.2 / 2 ^ 16 % 2 ^ 16 * 65536
      let top := r.1 / 2 ^ 16 % 2 ^ 32 * 65536 + (p + 1) * size
      size ≠ 0 → (ctxOf t hg).prvtop = BitVec.ofNat 64 (top % 2 ^ 48) ∧
        (ctxOf t hg).prvlo = BitVec.ofNat 64 ((top - size) % 2 ^ 48)
/-- R195, R386, R394: a stop request is taken under cause 0x17 at a boundary of a half, and the context is frozen once its
other half, if it has one, stands at its own; a fatal stop ends every context of its launch. -/
def Sys2Proof.Claims.StopsAndKills : Prop :=
  (∀ (s : State) (g : Nat), let c := ctxOf s g
    let h : HalfId := if c.prim.begun = false then .primary else .spare
    c.stopReq = true → c.stopBy = none → (c.phase = .issuing ∨ c.phase = .ready ∨ c.phase = .parked) →
    h ∈ c.halves → (c.half h).begun = false →
    ∃ t, exec (.stopRequestFreeze g) s = .next t ∧ (ctxOf t g).stopReq = false ∧
      (ctxOf t g).tsw.toNat / 256 % 64 = 0x17 ∧
      ((∀ k ∈ c.halves, k ≠ h → (c.half k).wait = .stopped ∨ (c.half k).begun = false) →
        (ctxOf t g).phase = .frozen)) ∧
  (∀ (s : State) (l : Nat) (x : Launch), launchOf s l = some x → x.fatal ≠ none → x.killed = false →
    s.pkg.lkillq = [] → ∃ t, exec (.fatalStop l) s = .next t ∧ AllGone s t l ∧
      ∀ y, launchOf t l = some y → y.killed = true)
/-- R72 to R74, R430: the driver's side of high-water faults; a dispatcher with no value from PRVLO to below PRVHW takes
none (log entry 8). -/
def Sys2Proof.Claims.HighWater : Prop :=
  ∀ (s : State) (p d : Nat),
    (∀ v w, (ctxOf s (p * 8 + 4)).phase = .frozen → (ctxOf s (p * 8 + 4)).prim.wait = .highWater w →
      let x := v &&& 0x0000FFFFFFFF0000#64
      ((ctxOf s (p * 8 + 4)).prvlo.toNat ≤ x.toNat → x.toNat ≤ (ctxOf s (p * 8 + 4)).prvtop.toNat →
        exec (.hprvhwWrite p v) s = .next (updCtx s (p * 8 + 4) fun c => { c with prvhw := x })) ∧
      (x.toNat < (ctxOf s (p * 8 + 4)).prvlo.toNat ∨ (ctxOf s (p * 8 + 4)).prvtop.toNat < x.toNat →
        exec (.hprvhwWrite p v) s = .next s) ∧
      ∃ t, exec (.podctlHres p) s = .next t ∧ (ctxOf t (p * 8 + 4)).phase = .ready ∧
        (ctxOf t (p * 8 + 4)).prim.wait = .none ∧ SameRegs (ctxOf s (p * 8 + 4)) (ctxOf t (p * 8 + 4))) ∧
    (∃ t, exec (.dspresRes d) s = .next t ∧ (die t d).dspFrozen = false) ∧
    (d < 8 → (die s d).dspFrozen = false → s.pkg.bootst.getLsbD 0 = true → s.pkg.bootst.getLsbD 4 = false →
      ((die s d).prvlo.toNat < (die s d).prvhw.toNat → ∃ t, exec (.dispatcherHighWaterFault d) s = .next t ∧
        (die t d).dspFrozen = true ∧ t.pkg.dsppend.getLsbD d = true ∧ t.pkg.evtstat.getLsbD 1 = true) ∧
      ((die s d).prvhw.toNat ≤ (die s d).prvlo.toNat → exec (.dispatcherHighWaterFault d) s = .next s))
/-- R72 to R74, R198, R199, R386, R394, R396, R399, R430: pods, handler slots and stops. -/
def Obligations.PodsAndHandlers : Prop := PodSelfTests ∧ HandlerEnters ∧ StopsAndKills ∧ HighWater

/-! ### Launches -/

/-- R166, R366, R367, R369, R381: a start vector comes behind the host's posted writes; it joins the end of its queue, which
joins its class's list when it was empty, or is discarded. A close vector closes the open launches it names. -/
def Sys2Proof.Claims.VectorsAreTaken : Prop :=
  ∀ (s : State) (q : Nat) (hi : Word),
    let f := svFields s q
    (hi.getLsbD 0 = false → ∃ t, exec (.startVectorSubmit q hi) s = .next t ∧
      t.mem = (hostDeliver s.pkg.hostIn.length s).mem ∧ t.pkg.hostIn = [] ∧
      ((queueOf s q).length < 1024 → f.1 ≠ 0 → f.2.2 = 0 → f.2.1 % 64 = 0 →
        queueOf t q = queueOf s q ++ [svEntry s q hi] ∧ mget false t.pkg.ovf q = mget false s.pkg.ovf q ∧
        let joins := fun (high : Bool) => if queueOf s q = [] ∧ (qcfgOf s q).getLsbD 16 = high then [q] else []
        t.pkg.hi = s.pkg.hi ++ joins true ∧ t.pkg.lo = s.pkg.lo ++ joins false) ∧
      (1024 ≤ (queueOf s q).length ∨ f.1 = 0 ∨ f.2.2 ≠ 0 ∨ f.2.1 % 64 ≠ 0 →
        queueOf t q = queueOf s q ∧ mget false t.pkg.ovf q = true ∧ t.pkg.hi = s.pkg.hi ∧ t.pkg.lo = s.pkg.lo)) ∧
    (hi.getLsbD 0 = true → f.1 ≠ 0 → f.2.2 = 0 → ∃ t, exec (.closeVector q hi) s = .next t ∧ queueOf t q = queueOf s q ∧
      ∀ x ∈ s.pkg.launches, launchOf s x.id = some x → x.asid = f.1 → x.tag = BitVec.ofNat 32 (hi.toNat / 2 ^ 32) →
        x.refused = 0 → x.fatal = none → x.killed = false → recOpen x ≠ 0 →
        ∀ y, launchOf t x.id = some y → y.closed = true)
/-- R369, R371, R374, R439: while the dispatcher firmware runs, the record of an entry of the head window is read once; a
dispatch admits the head of its queue within the deficit, with the DETAIL of its checks, and takes its cost from the deficit
of a visit that goes on; a queue left empty leaves its list with deficit 0. Beyond the deficit it puts the queue at the end
of its list, and its visit ends. -/
def Sys2Proof.Claims.HeadsAreDispatched : Prop :=
  (∀ (s s1 : State) (q pos : Nat) (e : QEntry) (bs : List Byte), (queueOf s q)[pos]? = some e → pos < 4 →
    s.pkg.bootst.getLsbD 0 = true → s.pkg.bootst.getLsbD 4 = false → e.record = none →
    memRead s (idie e.asid) .sload e.rva 64 .normal = .ok bs s1 →
    ∃ t, exec (.nestRecordRead q pos) s = .next t ∧
      (queueOf t q)[pos]? = some { e with record := some (wordsOf 8 bs) }) ∧
  (∀ (s s1 : State) (q pos : Nat) (e : QEntry) (f : MFault), (queueOf s q)[pos]? = some e → pos < 4 →
    s.pkg.bootst.getLsbD 0 = true → s.pkg.bootst.getLsbD 4 = false → e.record = none →
    memRead s (idie e.asid) .sload e.rva 64 .normal = .fault f s1 →
    ∃ t, exec (.nestRecordRead q pos) s = .next t ∧ queueOf t q = (queueOf s q).eraseIdx pos ∧
      t.pkg.lerr.getLsbD 0 = true) ∧
  ∀ (s : State) (q : Nat) (rest : List Nat) (e : QEntry) (more : List QEntry) (w : List Word) (high : Bool),
    (high = true ↔ s.pkg.hi ≠ [] ∧ (s.pkg.lo = [] ∨ s.pkg.hrun < 7)) →
    (if high then s.pkg.hi else s.pkg.lo) = q :: rest → queueOf s q = e :: more → e.record = some w →
    s.pkg.launches.length < 64 → s.pkg.bootst.getLsbD 0 = true → s.pkg.bootst.getLsbD 4 = false →
    let deficit := mget 0 s.pkg.deficit q + if q ∈ s.pkg.visit then 0 else (qcfgOf s q).toNat % 2 ^ 13
    let hrun := if high then s.pkg.hrun + 1 else 0
    (deficit < dispatchCost w → ∃ t, exec .launchDispatch s = .next t ∧ t.pkg.launches = s.pkg.launches ∧
      (if high then t.pkg.hi else t.pkg.lo) = rest ++ [q] ∧ mget 0 t.pkg.deficit q = deficit ∧
      q ∉ t.pkg.visit ∧ t.pkg.hrun = hrun ∧ queueOf t q = e :: more) ∧
    (dispatchCost w ≤ deficit → ∀ detail k s1, admitCheck s q e.asid w (if high then 1 else 0) = .ok (detail, k) s1 →
      ∃ t x, exec .launchDispatch s = .next t ∧ t.pkg.launches = s1.pkg.launches ++ [x] ∧ x.refused = detail ∧
        x.asid = e.asid ∧ x.tag = e.tag ∧ x.rva = e.rva ∧ x.record = w ∧ x.kern = k ∧ x.q = q ∧ x.fired = false ∧
        queueOf t q = more ∧ t.pkg.hrun = hrun ∧
        (more ≠ [] → mget 0 t.pkg.deficit q = deficit - dispatchCost w ∧ q ∈ t.pkg.visit ∧
          t.pkg.hi = s1.pkg.hi ∧ t.pkg.lo = s1.pkg.lo) ∧
        (more = [] → mget 0 t.pkg.deficit q = 0 ∧ q ∉ t.pkg.visit ∧ q ∉ t.pkg.hi ∧ q ∉ t.pkg.lo))
/-- R366, R367, R369, R371, R374, R381: queues and admission. -/
def Obligations.QueuesAndAdmission : Prop := VectorsAreTaken ∧ HeadsAreDispatched

/-- R376, R377, R381, R382, R390: arrival counters, the firing of a launch with its bounds, and extensions. A change of a
counter is checked against the launches admitted by then, the die dispatchers concerned have not stopped, and an extension
comes behind the checks and the firing that its launch's die stands before (R420). T is the product in 64 bits. -/
def Obligations.TriggersAndBounds : Prop :=
  (∀ (s : State) (d c : Nat) (v : W32), exec (.arrcntWrite d c v) s =
    .next (updPkg (updDie s d fun x => { x with arrcnt := mset 0#32 x.arrcnt c v }) fun p =>
      { p with checks := p.checks ++ [(d, c, v, p.nextLaunch)] })) ∧
  (∀ (s : State) (d c n : Nat) (v : W32), s.pkg.checks.find? (fun x => x.1 == d) = some (d, c, v, n) →
    dispatcherStopped s d = false → ∃ t, exec (.arrivalCounterIncrement d) s = .next t ∧ t.pkg.checks.length + 1 = s.pkg.checks.length ∧
      ∀ x ∈ s.pkg.launches, launchOf s x.id = some x → x.refused = 0 → x.fatal = none → x.killed = false →
        x.id < n → wordAt x.record 6 / 16 % 8 = d → ∀ y, launchOf t x.id = some y →
        ((wordAt x.record 6).testBit 7 = true → wordAt x.record 2 / 2 ^ 56 = c →
          wordAt x.record 6 / 2 ^ 32 ≤ v.toNat → y.trig = true) ∧
        (wordAt x.record 2 / 2 ^ 48 % 256 = c → v ≠ 0#32 → recOpen x ≠ 0 → y.closed = true)) ∧
  (∀ (s : State) (l : Nat) (x : Launch), launchOf s l = some x → x.refused = 0 → x.fatal = none → x.killed = false →
    x.fired = false → x.trig = true → dispatcherStopped s (wordAt x.record 6 / 16 % 8) = false →
    (∀ bs s1, readBounds x.asid x [0, 1, 2, 3] s = .ok bs s1 →
      let total := ((List.range (recNdm x + 1)).map fun i => bs.getD i 0).foldl (· * ·) 1 % 2 ^ 64
      (total ≤ 2 ^ 48 → recOpen x = 0 → exec (.launchFire l) s =
        .next (updLaunch s1 l fun x => { x with fired := true, bounds := bs })) ∧
      (total ≤ 2 ^ 48 → recOpen x ≠ 0 → ∀ n, n = recOrder x (recNdm x) → n < bs.length →
        (x.exts.getD n none = none →
          exec (.launchFire l) s = .next (updLaunch s1 l fun x => { x with fired := true, bounds := bs })) ∧
        ∀ e m, x.exts.getD n none = some e → Clamped (otherBounds x (bs.getD · 0) n) (max (bs.getD n 0) e) m →
          let t := updLaunch s1 l fun x => { x with fired := true, bounds := bs.set n m }
          exec (.launchFire l) s =
            .next (if m < max (bs.getD n 0) e then updPkg t fun p => { p with lerr := p.lerr ||| 8#32 } else t)) ∧
      (2 ^ 48 < total → exec (.launchFire l) s = .next (updLaunch s1 l fun x => { x with refused := 0x000B }))) ∧
    ∀ f s1, readBounds x.asid x [0, 1, 2, 3] s = .fault f s1 →
      exec (.launchFire l) s = .next (updLaunch s1 l fun x => { x with refused := 0x000C })) ∧
  (∀ (s s2 : State) (g id : Nat) (c : Cmd) (j : LaneJob) (js : List LaneJob) (kb : KReg) (l : List Seg) (x : Launch),
    cmdOf s g id = some c → c.op = .xtend kb → c.jobs = j :: js → c.fin = false → c.flt = none →
    let s1 := releaseCtx (settleSp s g) g .pkg
    let va := blk c.ks 0 / 64 % 2 ^ 42 * 64
    let n := blk c.ks 1 / 2 ^ 32 % 4
    let v := blk c.ks 1 % 2 ^ 32
    xlate (cmdAgent s1 g c) .tread 3 s1 va 64 = .ok l s2 → launchOf s2 x.id = some x →
    (s.pkg.launches.filter fun y => y.asid == c.asid && y.rva == va) = [x] →
    (∀ d ∈ recDies x, dispatcherStopped s d = false) →
    x.refused = 0 → x.fatal = none → x.killed = false → extBehind s x = false →
    ∃ t y, exec (.xtendAccept g id) s = .next t ∧ launchOf t x.id = some y ∧
      (∀ k ∈ (ctxOf t g).cmds, k.id = id → k.fin = true) ∧
      (x.closed = true ∨ (recOpen x).testBit n = false → y = x) ∧
      (x.closed = false → (recOpen x).testBit n = true → x.fired = false → n < x.exts.length →
        y = { x with exts := x.exts.set n (some (max v ((x.exts.getD n none).getD 0))) }) ∧
      (x.closed = false → (recOpen x).testBit n = true → x.fired = true → n < x.bounds.length →
        Clamped (otherBounds x (boundOf x) n) (max (boundOf x n) v) (boundOf y n) ∧
        t.pkg.lerr.getLsbD 3 = (s2.pkg.lerr.getLsbD 3 || decide (boundOf y n < max (boundOf x n) v))))

/-- R232, R377 to R380, R383, R385, R388: a team is placed once its die's dispatcher has found the kernel header in order,
iterations are handed out in order, an urgent context is held back, and a launch that has ended is taken from the admitted
ones. A context that single-steps `halt.next` is frozen as it receives its iteration (log entry 34). -/
def Obligations.PlacementAndCompletion : Prop :=
  (∀ (s s0 s1 : State) (l d : Nat) (x : Launch) (k : Kern) (pl : List (Nat × Nat)), launchOf s l = some x →
    x.kern.cores = false → wantsTeam x d = true → (∀ y ∈ s.pkg.launches, y.id < l → wantsTeam y d = false) →
    dispatcherStopped s d = false → startCheck s x d = .ok (0, k) s0 →
    let team := diePos x d * recTeams x + mget 0 x.placed d
    placeTeam (updLaunch s0 l fun x => { x with kern := k }) l d team pl = some s1 →
    exec (.teamPlacement l d [pl]) s = .next (startTeams s1 l [(team, d)]) ∧
      ∀ u ∈ pl, (ctxOf s1 (u.1 * 8 + u.2)).phase = .loading ∧ (ctxOf s1 (u.1 * 8 + u.2)).launch = some l ∧
        (ctxOf s1 (u.1 * 8 + u.2)).team = team ∧ u.1 / 32 = d ∧ (pod s0 u.1).rdy = true ∧
        (ctxOf s0 (u.1 * 8 + u.2)).phase = .free ∧
        rdSH (ctxOf s1 (u.1 * 8 + u.2)).prim 63#6 = (ctxOf s1 (u.1 * 8 + u.2)).stktop) ∧
  (∀ (s : State) (l d : Nat) (x : Launch) (before after : List (Nat × List Nat)) (unit : List Nat),
    launchOf s l = some x → x.refused = 0 → x.fatal = none →
    x.killed = false → x.fired = true → x.pre = .running → dispatcherStopped s d = false → itersLeft x d ≠ 0 →
    x.waiting = before ++ (d, unit) :: after → (∀ u ∈ before, u.1 ≠ d) → unit.Nodup →
    (∀ g ∈ unit, (ctxOf s g).prim.pend = [] ∧ (ctxOf s g).phase ≠ .frozen ∧ (ctxOf s g).phase ≠ .issuing ∧
      (ctxOf s g).tctl.getLsbD 0 = false ∧ ∀ u ∈ before ++ after, g ∉ u.2) →
    let k := mget 0 x.next d
    let iter := k * (recDies x).length + diePos x d
    let o := recOrder x
    ∃ t y, exec (.iterationHandout l d) s = .next t ∧ launchOf t l = some y ∧ mget 0 y.next d = k + 1 ∧
      y.handed = x.handed + 1 ∧ (2 ≤ itersLeft x d → y.waiting = before ++ after) ∧ ∀ g ∈ unit,
      (ctxOf t g).phase = .ready ∧ (ctxOf t g).prim.pc = BitVec.ofNat 64 x.kern.entry ∧
      (ctxOf t g).prim.am = 0xFFFF#16 ∧ (ctxOf t g).prim.stalk = [] ∧
      rdSH (ctxOf t g).prim 63#6 = (ctxOf t g).stktop ∧
      (∀ (f : Nat) (r : SReg), f ≤ recNdm x → o f ≤ recNdm x → (∀ f', f' < f → o f' ≠ o f) →
        recPre x (o f) = r.toNat → (∀ j, j ≤ recNdm x → j ≠ o f → recPre x j ≠ r.toNat) → r ≠ 0#6 → r ≠ 63#6 →
        rdSH (ctxOf t g).prim r =
          BitVec.ofNat 64 (iter / ((List.range f).map fun f' => boundOf x (o f')).foldl (· * ·) 1 % boundOf x (o f))) ∧
      ∀ r : SReg, r ≠ 0#6 → r ≠ 63#6 → (∀ j, j ≤ recNdm x → recPre x j ≠ r.toNat) →
        rdSH (ctxOf t g).prim r = rdSH (ctxOf s g).prim r) ∧
  (∀ (s : State) (g : Nat), (ctxOf s g).urgent = true → (ctxOf s g).heldBack = false → 65536 ≤ (ctxOf s g).urgentRuns →
    ∃ t, exec (.urgencyHoldBack g) s = .next t ∧ (ctxOf t g).heldBack = true ∧ (ctxOf t g).urgent = false ∧
      (ctxOf t g).credit = 0) ∧
  (∀ (s s1 : State) (l : Nat) (x : Launch), launchOf s l = some x → launchCtxs s l = [] →
    x.pre = .running → (x.refused ≠ 0 ∨ x.killed = true ∨ x.fatal = none ∧ x.fired = true ∧
      (recOpen x = 0 ∨ x.closed = true) ∧ ∀ d ∈ recDies x, itersLeft x d = 0) →
    visibleStores s (idie x.asid) = [] → writeRecord s x = .ok () s1 →
    ∃ t, exec (.launchComplete l) s = .next t ∧ t.mem = s1.mem ∧ (∀ y ∈ t.pkg.launches, y.id ≠ l) ∧
      t.pkg.msgs = s1.pkg.msgs ++
        (if (wordAt x.record 3).testBit 63 then [wordAt x.record 3 / 2 ^ 52 % 2048] else [])) ∧
  ∀ (s : State) (l : Nat) (x : Launch), launchOf s l = some x → x.pre ≠ .running →
    exec (.launchComplete l) s = .next s

/-- R67, R406 to R409, R447: pre-emption, its end, resume, the size query and kills. The launch that a register access
names when several match, BUSY, and the size of a save are the model's choice (log entry 16), and so is what a pre-emption
of a launch that is pre-empted already does (log entry 11). -/
def Obligations.Preemption : Prop :=
  ∀ (s : State) (asid : BitVec 12) (tag : W32),
    (s.pkg.preBusy ≠ none →
      (∃ t, exec (.preempt asid tag) s = .next t ∧ t.pkg.prestat.getLsbD 1 = true ∧ t.pkg.launches = s.pkg.launches) ∧
      (∃ t, exec (.sizeQuery asid tag) s = .next t ∧ t.pkg.prestat.getLsbD 1 = true ∧ t.pkg.launches = s.pkg.launches) ∧
      exec (.lkill asid tag) s = .next (updPkg s fun p => { p with lkillq := p.lkillq ++ [(asid.toNat, tag)] })) ∧
    (s.pkg.preBusy = none →
      (∀ x, preLaunch s asid tag (fun x => !isSaved x && !x.killed) = some x → ∃ t, exec (.preempt asid tag) s = .next t ∧
        t.pkg.preBusy = some x.id ∧ t.pkg.prestat.getLsbD 0 = true ∧
        (∃ y, launchOf t x.id = some y ∧ y.pre = .freezing (s.pkg.prearea.toNat / 65536 % 2 ^ 28 * 65536)) ∧
        ∀ g ∈ launchCtxs s x.id, (ctxOf t g).preempting = true) ∧
      (launchesOf s asid.toNat tag = [] → ∃ t, exec (.preempt asid tag) s = .next t ∧ t.pkg.prestat.getLsbD 2 = true ∧
        t.pkg.launches = s.pkg.launches) ∧
      (launchesOf s asid.toNat tag ≠ [] → (∀ x ∈ launchesOf s asid.toNat tag, isSaved x = true ∨ x.killed = true) →
        ∃ t, exec (.preempt asid tag) s = .next t ∧ t.pkg.prestat.getLsbD 2 = s.pkg.prestat.getLsbD 2 ∧
          t.pkg.launches = s.pkg.launches ∧ t.pkg.preBusy = none) ∧
      (∀ x, preLaunch s asid tag (fun _ => true) = some x → ∃ t, exec (.sizeQuery asid tag) s = .next t ∧
        t.pkg.prestat.toNat / 2 ^ 32 = (Config.saveNeed x.record).toNat) ∧
      (preLaunch s asid tag (fun _ => true) = none → ∃ t, exec (.sizeQuery asid tag) s = .next t ∧
        t.pkg.prestat.getLsbD 2 = true) ∧
      (∀ x place, preLaunch s asid tag isSaved = some x →
        let s1 := setPre (updPkg s fun p => { p with preBusy := some x.id }) 0
        (restoreLaunch s1 x place = none → exec (.resume asid tag place) s = .next s1) ∧
        ∀ t, restoreLaunch s1 x place = some t → s.pkg.lkillq = [] → exec (.resume asid tag place) s = .next t ∧
          t.pkg.preBusy = none) ∧
      (launchesOf s asid.toNat tag = [] → ∃ t, exec (.lkill asid tag) s = .next t ∧ t.pkg.prestat.getLsbD 2 = true) ∧
      ∃ t, exec (.lkill asid tag) s = .next t ∧
        ∀ x ∈ launchesOf s asid.toNat tag, x.killed = false → AllGone s t x.id) ∧
    (∀ l x area, s.pkg.preBusy = some l → launchOf s l = some x → x.pre = .freezing area → s.pkg.lkillq = [] →
      let gs := launchCtxs s x.id
      let s1 := gs.foldl settleFrozen (gs.foldl preFreeze s)
      let r := settleAll gs s1
      (∀ g ∈ gs, mayHusk s1 g = true) → r.2 = false → (∀ g ∈ gs, storesDone r.1 g = true) →
      ∃ t, exec .preemptComplete s = .next t ∧ AllGone s t x.id ∧ t.pkg.preBusy = none ∧
        t.pkg.prestat.getLsbD 0 = false ∧ t.pkg.evtstat.getLsbD 5 = true ∧
        ∃ y hs ps, launchOf t x.id = some y ∧ y.pre = .saved area hs ps ∧
          hs.map (·.gcn) = launchCtxs s x.id)

/-! ### Host link and package -/

/-- R429 to R434: the aperture, the copy engine, the registers of the windows, and the host's accesses of any size; the
writable bits of ASIDTAB and TLBINVA are R45's and those of PREAREA R406's. MISUSE for the upper half of an 8-byte register and
both sizes at PKGID and LNKEN are the model's choice (log entry 31), and so is that a copy's bytes move as it completes
(log entry 20). -/
def Obligations.HostWindows : Prop :=
  ∀ (s : State),
    (∀ (o : Nat) (wide : Bool) (v : Word), let n := if wide then 8 else 4
      let pa := s.pkg.apbase.toNat / 8388608 % 2 ^ 21 * 8388608 + o
      let refused := fun (bit : W32) =>
        exec (.apertureRead o wide) s =
          .next (updPkg s fun p => { p with hlerr := p.hlerr ||| bit, hostRead := accessBits wide (-1) }) ∧
        exec (.apertureWrite o wide v) s = .next (updPkg s fun p => { p with hlerr := p.hlerr ||| bit })
      (o % n ≠ 0 → refused 2#32) ∧
      (o % n = 0 → populated pa = false ∨ stackState s (stackOf pa) ≠ 2 → refused 4#32) ∧
      (o % n = 0 → populated pa = true → stackState s (stackOf pa) = 2 → isPending s (stackOf pa / 2) pa = false →
        hostWaits s pa n = false →
        (pa / 32 ∉ s.pkg.badSectors → ∃ t, exec (.apertureRead o wide) s = .next t ∧ t.mem = s.mem ∧
          t.pkg.hostRead = BitVec.ofNat 64 (ofBytes (rdPhys s pa n))) ∧
        ∃ t, exec (.apertureWrite o wide v) s = .next t ∧ rdPhys t pa n = bytesOf n v.toNat ∧
          ∀ a, a < pa ∨ pa + n ≤ a → rdByte t a = rdByte s a)) ∧
    (s.pkg.copy = none → let n := s.pkg.cpylen.toNat
      let src := s.pkg.cpysrc.toNat
      let dst := s.pkg.cpydst.toNat
      let may := n ≠ 0 ∧ n % 64 = 0 ∧ src % 64 = 0 ∧ dst % 64 = 0 ∧ CopyRange s src n ∧ CopyRange s dst n ∧
        ¬ (inHost src = true ∧ inHost dst = true)
      (may → exec .copyStart s = .next (updPkg s fun p => { p with copy := some ⟨src, dst, n⟩ })) ∧
      (¬ may → ∃ t, exec .copyStart s = .next t ∧ t.mem = s.mem ∧
        t.pkg.copy = none ∧ t.pkg.cpyst.getLsbD 1 = true ∧ t.pkg.cpyst.getLsbD 2 = true)) ∧
    (s.pkg.copy ≠ none → exec .copyStart s = .next (updPkg s fun p => { p with cpyst := p.cpyst ||| 2#32 })) ∧
    (∀ src dst, s.pkg.copy = some ⟨src, dst, 64⟩ → stackState s (stackOf src) = 2 → stackState s (stackOf dst) = 2 →
      src % 64 = 0 → dst % 64 = 0 → populated src = true → populated dst = true →
      isPending s (stackOf src / 2) src = false → isPending s (stackOf dst / 2) dst = false →
      src / 32 ∉ s.pkg.badSectors → src / 32 + 1 ∉ s.pkg.badSectors →
      hostWaits s src 64 = false → hostWaits s dst 64 = false →
      ∃ t, exec .copyComplete s = .next t ∧ t.pkg.copy = none ∧ t.pkg.cpyst.getLsbD 2 = true ∧
        t.pkg.evtstat.getLsbD 7 = true ∧ rdPhys t dst 64 = rdPhys s src 64) ∧
    (∀ (w : Window) (o : Nat) (wide : Bool) (v : Word), let n := if wide then 8 else 4
      inAperture w o = false →
      (o % n ≠ 0 → exec (.mmioRegisterWrite w o wide v) s =
        .next (updPkg s fun p => { p with hlerr := p.hlerr ||| 2#32 })) ∧
      (o % n = 0 → regAt w o = none → exec (.mmioRegisterWrite w o wide v) s =
        .next (if upperHalf w o wide then updPkg s fun p => { p with hlerr := p.hlerr ||| 2#32 } else s)) ∧
      ∀ r m, o % n = 0 → regAt w o = some r → r.takes wide = true → rwMask r = some m →
        ∃ t, exec (.mmioRegisterWrite w o wide v) s = .next t ∧ r.read t = accessBits wide v &&& m) ∧
    (∀ (w : Window) (o : Nat) (wide : Bool), let n := if wide then 8 else 4
      inAperture w o = false →
      (o % n ≠ 0 ∨ (regAt w o = none ∧ upperHalf w o wide = true) ∨ (∃ r, regAt w o = some r ∧ r.takes wide = false) →
        hostTurn (.read w o n) s = .next (updPkg s fun p =>
          { p with hlerr := p.hlerr ||| 2#32, hostRead := accessBits wide (-1) })) ∧
      (o % n = 0 → regAt w o = none → upperHalf w o wide = false →
        hostTurn (.read w o n) s = .next (updPkg s fun p => { p with hostRead := 0#64 })) ∧
      ∀ r, o % n = 0 → regAt w o = some r → r.takes wide = true →
        hostTurn (.read w o n) s = .next (updPkg s fun p => { p with hostRead := r.read s })) ∧
    (∀ (w : Window) (o n : Nat) (v : Word),
      (n ≠ 4 → n ≠ 8 → hostTurn (.write w o n v) s = .next (updPkg s fun p => { p with hlerr := p.hlerr ||| 2#32 }) ∧
        hostTurn (.read w o n) s = .next (updPkg s fun p =>
          { p with hlerr := p.hlerr ||| 2#32, hostRead := BitVec.ofNat 64 (2 ^ (8 * min n 8) - 1) })) ∧
      hostTurn (.write w o 4 v) s = exec (.mmioRegisterWrite w o false v) s ∧
      hostTurn (.write w o 8 v) s = exec (.mmioRegisterWrite w o true v) s) ∧
    ∀ pa bs, hostTurn (.store pa bs) s = .next (updPkg s fun p => { p with hostIn := p.hostIn ++ [(pa, bs)] })

/-- R428, R433, R439 to R445: boot, attestation, readiness and field data. A root firmware that does not verify, or is too
old, starts nothing and counts as one verification failure (log entry 29), and a read of host memory comes after some of the host's posted writes. The order of
the hashes of a measurement and the comparison of security versions are readings of the model (log entry 29). -/
def Obligations.SecurityAndFieldData : Prop :=
  ∀ (s : State),
    (∀ i c, (i = Instr.attestReport ∧ c = SecCmd.report) ∨ (i = .getCertificates ∧ c = .certs) ∨
        (∃ n : BitVec 3, i = .extendMeasurement n ∧ c = .extend n.toNat) →
      (s.pkg.sec = none → ∃ t, exec i s = .next t ∧ t.pkg.sec = some c ∧ t.pkg.attst.getLsbD 0 = true) ∧
      (s.pkg.sec ≠ none → ∃ t, exec i s = .next t ∧ t.pkg.sec = s.pkg.sec ∧ t.pkg.attst.getLsbD 1 = true)) ∧
    (∀ c, s.pkg.sec = some c → ∃ t, exec .securityCommandComplete s = .next t ∧ t.pkg.sec = none ∧
      t.pkg.attst.getLsbD 0 = false ∧ t.pkg.evtstat.getLsbD 6 = true ∧
      let pa := s.pkg.attbuf.toNat / 2 ^ 14 % 2 ^ 30 * 2 ^ 14
      (inHost pa = false → t.mem = s.mem ∧ t.pkg.attst.getLsbD 2 = true) ∧
      (inHost pa = true → ∀ n, c = .extend n → 5 ≤ n → n ≤ 7 →
        let k := (Config.freeWord s.freeCtr).toNat % (s.pkg.hostIn.length + 1)
        measOf t.pkg n = (if Config.hostReadFails s.freeCtr then measOf s.pkg n
          else extendBy (measOf s.pkg n) (rdPhys (hostDeliver k s) pa 64)) ∧
        ∀ m, m ≠ n → measOf t.pkg m = measOf s.pkg m)) ∧
    (∀ (svn : W32) (fail : BitVec 3), s.pkg.bootst.getLsbD 0 = false →
      ∃ t, exec (.bootVerification svn fail) s = .next t ∧
        (Config.rootVerifies = false ∨ svn.toNat < Config.minSvn.toNat → t.pkg.bootst = s.pkg.bootst ∧ t.mem = s.mem ∧
          (∀ n, measOf t.pkg n = measOf s.pkg n) ∧ liveCount t 7 0 3 = liveCount s 7 0 3 + 1) ∧
        (Config.rootVerifies = true → Config.minSvn.toNat ≤ svn.toNat → t.pkg.bootst.toNat = 1 + fail.toNat * 16 + svn.toNat * 2 ^ 32 ∧
          ∀ n, (n < 5 → measOf t.pkg n = extendBy (measOf s.pkg n) (bootComponent s n)) ∧
            (5 ≤ n → measOf t.pkg n = measOf s.pkg n))) ∧
    (∀ d, d < 8 →
      (s.pkg.bootst.getLsbD 0 = true → s.pkg.bootst.getLsbD 4 = false →
        ∃ t, exec (.functionReady (.die d)) s = .next t ∧ t.pkg.rdyDie.getLsbD d = true) ∧
      (∃ t, exec (.functionReady (.grammar d)) s = .next t ∧ t.pkg.rdyGram.getLsbD d = true) ∧
      ∀ i, i < 64 → ∃ t, exec (.functionReady (.slice d i)) s = .next t ∧ (die t d).slcrdy.getLsbD i = true) ∧
    (∀ c i w, c < 256 → i < 65536 → w < 256 →
      let k := c * 2 ^ 24 + i * 2 ^ 8 + w
      ∃ t, exec (.fieldDataSelect (BitVec.ofNat 32 k)) s = .next t ∧
        (FieldWord c i w →
          HReg.read .fddata t = BitVec.ofNat 64 (min (mget 0 s.pkg.fdStored k + liveCount s c i w) (2 ^ 64 - 1))) ∧
        (¬ FieldWord c i w → HReg.read .fddata t = 0xFFFFFFFFFFFFFFFF#64)) ∧
    (rising s.pkg.fdLive = true → CollectorRuns s → ∃ t, exec .fieldDataSave s = .next t ∧ t.pkg.fdLive = [] ∧
      ∀ k, fdData t k = fdData s k)

/-- R369, R435 to R438, R443 to R445: links, islands, power-on time, thermal stops and module reset. The bounds of the
thermal readings (log entry 27), what a module reset keeps and what a thermal stop leaves (log entry 28), the answer
to a remote access (log entry 30), that the event of a disabled port changes nothing (log entry 6) and the zero bits above
the fields of RTSYNC and PWRCAP (log entry 31) are readings of the model. The pairs that were sent are applied before a reset (R142). -/
def Obligations.LinksPowerAndReset : Prop :=
  ∀ (s : State),
    (∃ t, exec .rtsyncWrite s = .next t ∧ t.pkg.rmasks = [] ∧ HReg.read .rtsync t = 1#64) ∧
    (∃ t, exec .rtsyncComplete s = .next t ∧ HReg.read .rtsync t = 0#64) ∧
    (∀ n st lanes, n < 16 → let old := mget Port.reset s.pkg.ports n
      (st = .down ∨ st = .failed ∨ s.pkg.lnken.getLsbD n = true → ∃ t, exec (.portStateChange n st lanes) s = .next t ∧
        (mget Port.reset t.pkg.ports n).state = st ∧ (mget Port.reset t.pkg.ports n).lanes = lanes ∧
        (old.state ≠ st → t.pkg.evtstat.getLsbD 3 = true)) ∧
      (st ≠ .down → st ≠ .failed → s.pkg.lnken.getLsbD n = false → exec (.portStateChange n st lanes) s = .next s)) ∧
    (∀ (pkg : BitVec 16) (rasid : BitVec 12) (va : Word) (data : List Byte) (wr : Bool), s.pkg.pkgid ≠ 0xFFFF#64 →
      let r := pkg.toNat
      let a := rasid.toNat
      let ok := ∃ n, n < 64 ∧ let e := (mget 0#64 s.pkg.adm n).toNat
        e.testBit 63 = true ∧ e / 2 ^ 32 % 4096 = a ∧ e % 65536 = r
      (¬ ok → exec (.remoteAccessArrival pkg rasid va wr data) s =
        .next (updPkg s fun p => { p with remote := p.remote ++ [(r, a, va.toNat, [], some 0x0D)] })) ∧
      (ok → ∀ bs t, memRead s (remoteAgent a) .tread va.toNat data.length .normal = .ok bs t →
        exec (.remoteAccessArrival pkg rasid va false data) s =
          .next (updPkg t fun p => { p with remote := p.remote ++ [(r, a, va.toNat, bs, none)] })) ∧
      (ok → ∀ u t, memWrite s (remoteAgent a) .twrite va.toNat data .normal = .ok u t →
        exec (.remoteAccessArrival pkg rasid va true data) s =
          .next (updPkg t fun p => { p with remote := p.remote ++ [(r, a, va.toNat, [], none)] })) ∧
      (ok → ∀ (f : MFault) t, (if wr then (memWrite s (remoteAgent a) .twrite va.toNat data .normal).bind fun _ t => .ok [] t
          else memRead s (remoteAgent a) .tread va.toNat data.length .normal) = .fault f t →
        exec (.remoteAccessArrival pkg rasid va wr data) s = .next (updPkg t fun p => { p with remote :=
          p.remote ++ [(r, a, va.toNat, [], some (if f.merr then 64 + f.src else f.code))] }))) ∧
    (∀ (pkg : BitVec 16) (rasid : BitVec 12) (va : Word) (data : List Byte) (wr : Bool), s.pkg.pkgid = 0xFFFF#64 →
      exec (.remoteAccessArrival pkg rasid va wr data) s = .next s) ∧
    (∀ i, (∃ t, exec (.thermalThrottle i) s = .next t ∧ (islOf t i).throttled = true ∧
        840 ≤ (islOf t i).temp ∧ (islOf t i).temp < 960 ∧
        ((islOf s i).mhz ≠ 0 → (islOf t i).mhz = islFloor i)) ∧
      ((islOf s i).throttled = true → ∃ t, exec (.thermalThrottleEnd i) s = .next t ∧
        (islOf t i).throttled = false ∧ (islOf t i).temp < 800) ∧
      (∀ mhz mv, IslMay i mhz mv → s.pkg.bootst.getLsbD 0 = true → s.pkg.bootst.getLsbD 5 = false → ((islOf s i).throttled = false ∨ mhz = islFloor i) →
        ∃ t, exec (.islandSettingChange i mhz mv) s = .next t ∧ (islOf t i).mhz = mhz ∧ (islOf t i).mv = mv) ∧
      (∀ mv, ∃ t, exec (.supplyDroop i mv) s = .next t ∧
        liveCount t 4 i (min 15 (mv / 10)) = liveCount s 4 i (min 15 (mv / 10)) + 1) ∧
      ∃ t, exec (.thermalStop i) s = .next t ∧ t.pkg.linkUp = false ∧ t.pkg.launches = [] ∧
        (∀ g, (ctxOf t g).phase = .free) ∧ t.mem = (landPairs s).mem ∧
        liveCount t 7 0 2 = liveCount (landPairs s) 7 0 2 + 1) ∧
    (∀ w : BitVec 16, (1000 ≤ w.toNat → w.toNat ≤ 3300 → ∃ t, exec (.pwrcapWrite w) s = .next t ∧
        HReg.read .pwrcap t = w.setWidth 64) ∧
      (w.toNat < 1000 ∨ 3300 < w.toNat → exec (.pwrcapWrite w) s = .next s)) ∧
    (∃ t, exec .powerOnSecond s = .next t ∧ liveCount t 7 0 0 = liveCount s 7 0 0 + 1 ∧ t.mem = s.mem ∧
      ∀ i, i < 280 → (islOf t i).mhz = (islOf s i).mhz ∧
        ((islOf s i).throttled = true → 800 ≤ (islOf t i).temp ∧ (islOf t i).temp < 960) ∧
        ∃ hot, (islOf s i).peak ≤ hot ∧ (islOf t i).temp ≤ hot ∧
          ((islOf s i).throttled = false → hot < 840 ∨ hot = (islOf s i).peak) ∧
          liveCount t 3 i (min 15 ((hot - 160) / 64)) = liveCount s 3 i (min 15 ((hot - 160) / 64)) + 1) ∧
    (∃ t, exec .moduleReset s = .next t ∧ t.pkg.launches = [] ∧ (∀ q, queueOf t q = []) ∧ t.pkg.hi = [] ∧
      t.pkg.lo = [] ∧ t.pkg.hrun = 0 ∧ (∀ g, (ctxOf t g).phase = .free) ∧ t.mem = (landPairs s).mem ∧
      (∀ n, measOf t.pkg n = 0#512) ∧ liveCount t 7 0 1 = liveCount (landPairs s) 7 0 1 + 1)
end
section
open Sys2Proof Sys2Proof.Machine Sys2Proof.Claims

/-! ### Statements in several parts -/

/-- R236 to R238, R240 to R242: what the scalar register instructions compute. -/
def Obligations.ScalarResults : Prop := ScalarArithmetic ∧ CompareSetsOneOrZero ∧ BitFieldOperations ∧ RegisterMoves

/-- R68, R72, R233: what bounds a result for s63, in a context and in the handler slot. -/
def Obligations.StackPointerBounds : Prop := StackLimitTrap ∧ HandlerStackBounds

/-- Frames of the instructions that only compute registers, in the scalar, vector and gang slots (R61, R233, R261). -/
def Obligations.RegisterInstructionsLeaveTheRest : Prop := RegisterInstructionsFrame ∧ VectorAndExchangeFrame

/-- R243, R244: scalar loads and stores. -/
def Obligations.ScalarLoadsAndStores : Prop := ScalarLoad ∧ ScalarStore

/-- Frames of scalar stores: which bytes change, and nothing else (R69, R155, R244). -/
def Obligations.StoresLeaveTheRest : Prop := StoreOutsideStackFrame ∧ StoreInStackFrame

/-- R247, R248: branches, jumps, calls and returns. That s63 of `call`, `callr` and `ret` has latency 1 is the model's choice
(log entry 34). -/
def Obligations.ControlFlow : Prop := BranchesAndJumps ∧ CallsAndReturns

/-- R162, R250: arrivals at barriers and waits for their generations. That an arrival counts at once, with the stores before
it made visible and left in their queues, is the model's choice (log entries 12 and 7). -/
def Obligations.Barriers : Prop := BarrierArrive ∧ BarrierWait

/-- R49, R52, R57, R64, R191, R246, R250, R253, R255, R281, R305, R319, R329 to R332, R392: where instructions trap, with the cause
and with nothing written. That KMAX is checked in every active lane, one with M or N = 0 too, and that the all form of stsp
checks its range with an empty active mask, are readings of the model (log entry 23). -/
def Obligations.SlotTraps : Prop :=
  AtomicTraps ∧ SequenceTraps ∧ CsrTraps ∧ VectorOperandTraps ∧ GangTraps ∧ RangeAndShapeTraps

/-- R255, R256: reads and writes of CSRs, of a context, of its engines, and of the handler slot (R57, R234, R399, R400). That view
writes and HCMD are ignored on a Frozen context that is still settling is a reading of the model (log entry 11). -/
def Obligations.CsrAccess : Prop :=
  CsrReads ∧ CsrWrites ∧ SplitCsrWrites ∧ DebugControl ∧ EngineCsrs ∧ HandlerCsrs ∧ HandlerViewReads ∧
    HandlerViewWritesIssue ∧ HandlerViewWritesLand ∧ HandlerCommands

/-- R257, R391 to R399, R402: traps of a context and of the handler slot. -/
def Obligations.Traps : Prop := TrapInstructions ∧ SoftwareTrapsComplete ∧ TrapInHandlerIsFatal

/-- R258, R401, R402: the return of the handler. -/
def Obligations.HandlerReturns : Prop := HandlerReturnRequest ∧ HandlerReturnResumes

/-- R180, R259, R260, R387: yields and halts. -/
def Obligations.YieldAndHalt : Prop := YieldLetsOthersRun ∧ HaltEndsContext

/-- R264 to R267, R272: vector arithmetic, element by element. -/
def Obligations.VectorArithmetic : Prop := VectorIntegerArithmetic ∧ VectorFloatArithmetic

/-- R76, R89, R267: special results of the transcendentals, and FP32 codes as values. -/
def Obligations.FloatSpecialValues : Prop := TranscendentalSpecials ∧ FloatCodesRoundTrip

/-- R268 to R276: vector compares, selects, moves, reductions, scans, shapes and masks. -/
def Obligations.VectorMovesAndReductions : Prop := VectorSelectPermuteMove ∧ VectorReductions ∧ VectorScanShapeMask

/-- R277, R278: vector loads and stores of the scratchpad. -/
def Obligations.VectorLoadsAndStores : Prop := VectorRawLoadStore ∧ VectorConvertingLoadStore

/-- R58, R287, R295, R296: `mread` and `mscale`. -/
def Obligations.MatrixReadAndScale : Prop := MatrixRead ∧ MatrixScale

/-- R304 to R306, R311 to R314: the row commands and the prefetch at issue. -/
def Obligations.RowCommandsJoinBatch : Prop := RowCommandsIssue ∧ PrefetchIssues

/-- R315 to R317, R319, R320, R323, R336: the other transfer commands at issue, with what they capture (R197, R306). That gshuft
captures its source bytes at issue is the model's choice (log entry 8: R170 leaves the moment open), and so are the size of
a window row that has no bank and what xnzscan does for a shape or a count that is 0 (log entry 34). -/
def Obligations.OtherTransfersJoinBatch : Prop := CopyScanWalkIssue ∧ EmitsAndExtendIssue
end
end

