-- ==== Sys2Proof/Laws/NMap.lean ====
section
/-!
SUPPORT. Maps held as rising lists: what a key reads after one is set, that setting a key leaves every other key,
and that the canonical form is kept.
-/
namespace Sys2Proof.Machine

variable {α : Type}

/-- A map that lists nothing reads the default. -/
@[simp] theorem mget_nil (d : α) (k : Nat) : mget d ([] : NMap α) k = d := rfl
theorem mget_mins (d : α) (m : NMap α) (k j : Nat) (v : α) :
    mget d (mins k v m) j = if j = k then v else mget d m j := by
  induction m with
  | nil => simp [mins, mget]
  | cons y m ih =>
    obtain ⟨k', v'⟩ := y
    simp only [mins, beq_iff_eq]
    split
    · subst k; simp only [mget, beq_iff_eq]; split <;> rfl
    · split
      · simp [mget]
      · by_cases hj : j = k'
        · have h4 : k' ≠ k := by omega
          simp [mget, hj, h4]
        · simp [mget, hj, ih]
theorem mget_mdel (d : α) (m : NMap α) (k j : Nat) :
    mget d (mdel k m) j = if j = k then d else mget d m j := by
  induction m with
  | nil => simp [mdel, mget]
  | cons y m ih =>
    obtain ⟨k', v'⟩ := y
    by_cases h : k' = k
    · subst h
      have : mdel k' ((k', v') :: m) = mdel k' m := by simp [mdel]
      rw [this, ih]
      by_cases hj : j = k' <;> simp [mget, hj]
    · have : mdel k ((k', v') :: m) = (k', v') :: mdel k m := by simp [mdel, h]
      rw [this]
      by_cases hj : j = k'
      · subst hj; simp [mget, h]
      · simp [mget, hj, ih]
/-- What a key reads after a key is set. -/
theorem mget_mset [DecidableEq α] (d : α) (m : NMap α) (k j : Nat) (v : α) :
    mget d (mset d m k v) j = if j = k then v else mget d m j := by
  unfold mset
  split
  · subst v; exact mget_mdel d m k j
  · exact mget_mins d m k j v
@[simp] theorem mget_mset_same [DecidableEq α] (d : α) (m : NMap α) (k : Nat) (v : α) :
    mget d (mset d m k v) k = v := by rw [mget_mset, if_pos rfl]
theorem mget_mset_other [DecidableEq α] (d : α) (m : NMap α) {k j : Nat} (v : α) (h : j ≠ k) :
    mget d (mset d m k v) j = mget d m j := by rw [mget_mset, if_neg h]

/-- The tail of a rising list is rising. -/
theorem rising_tail {k : Nat} {v : α} {m : NMap α} (h : rising ((k, v) :: m) = true) : rising m = true := by
  cases m with
  | nil => rfl
  | cons x m => simp only [rising, Bool.and_eq_true] at h; exact h.2
/-- Every key of a rising list's tail lies above its head. -/
theorem rising_above {k : Nat} {v : α} {m : NMap α} (h : rising ((k, v) :: m) = true) :
    ∀ x ∈ m, k < x.1 := by
  induction m generalizing k v with
  | nil => intro x hx; cases hx
  | cons y m ih =>
    obtain ⟨k', v'⟩ := y
    simp only [rising, Bool.and_eq_true, decide_eq_true_eq] at h
    intro x hx
    cases hx with
    | head => exact h.1
    | tail _ hx => exact Nat.lt_trans h.1 (ih h.2 x hx)
/-- A head below every key of a rising list makes a rising list. -/
theorem rising_cons {k : Nat} {v : α} {m : NMap α} (h : rising m = true) (hk : ∀ x ∈ m, k < x.1) :
    rising ((k, v) :: m) = true := by
  cases m with
  | nil => rfl
  | cons y m =>
    simp only [rising, Bool.and_eq_true, decide_eq_true_eq]
    exact ⟨hk y List.mem_cons_self, h⟩
theorem mins_above {m : NMap α} {k j : Nat} {v : α} (hj : j < k) (h : ∀ x ∈ m, j < x.1) :
    ∀ x ∈ mins k v m, j < x.1 := by
  induction m with
  | nil =>
    intro x hx
    simp only [mins, List.mem_singleton] at hx
    subst hx; exact hj
  | cons y m ih =>
    obtain ⟨k', v'⟩ := y
    have hy := h (k', v') List.mem_cons_self
    have hm := fun x hx => h x (List.mem_cons_of_mem _ hx)
    simp only [mins, beq_iff_eq]
    intro x hx
    split at hx
    · cases hx with
      | head => exact hj
      | tail _ hx => exact hm x hx
    · split at hx
      · cases hx with
        | head => exact hj
        | tail _ hx => exact h x hx
      · cases hx with
        | head => exact hy
        | tail _ hx => exact ih hm x hx
theorem filter_rising {m : NMap α} (p : Nat × α → Bool) (h : rising m = true) : rising (m.filter p) = true := by
  induction m with
  | nil => rfl
  | cons y m ih =>
    obtain ⟨k', v'⟩ := y
    have ha := rising_above h
    rw [List.filter_cons]
    split
    · exact rising_cons (ih (rising_tail h)) (fun x hx => ha x ((List.mem_filter.mp hx).1))
    · exact ih (rising_tail h)
theorem mins_rising {m : NMap α} (k : Nat) (v : α) (h : rising m = true) : rising (mins k v m) = true := by
  induction m with
  | nil => rfl
  | cons y m ih =>
    obtain ⟨k', v'⟩ := y
    have ha := rising_above h
    simp only [mins, beq_iff_eq]
    split
    · subst k; exact rising_cons (rising_tail h) ha
    · split
      · rename_i h1
        refine rising_cons h (fun x hx => ?_)
        cases hx with
        | head => exact h1
        | tail _ hx => exact Nat.lt_trans h1 (ha x hx)
      · exact rising_cons (ih (rising_tail h)) (mins_above (by omega) ha)
theorem mins_mem {m : NMap α} {k : Nat} {v : α} {x : Nat × α} (h : x ∈ mins k v m) : x = (k, v) ∨ x ∈ m := by
  induction m with
  | nil => simp only [mins, List.mem_singleton] at h; exact .inl h
  | cons y m ih =>
    obtain ⟨k', v'⟩ := y
    simp only [mins, beq_iff_eq] at h
    split at h
    · cases h with
      | head => exact .inl rfl
      | tail _ h => exact .inr (List.mem_cons_of_mem _ h)
    · split at h
      · cases h with
        | head => exact .inl rfl
        | tail _ h => exact .inr h
      · cases h with
        | head => exact .inr List.mem_cons_self
        | tail _ h => exact (ih h).imp id (List.mem_cons_of_mem _)
/-- The canonical form says: rising keys, and no entry equal to the default. -/
theorem mwf_iff [DecidableEq α] (d : α) (m : NMap α) :
    mwf d m = true ↔ rising m = true ∧ ∀ x ∈ m, x.2 ≠ d := by
  simp [mwf, List.all_eq_true]
/-- Setting a key keeps the canonical form. -/
theorem mset_wf [DecidableEq α] {d : α} {m : NMap α} (k : Nat) (v : α) (h : mwf d m = true) :
    mwf d (mset d m k v) = true := by
  rw [mwf_iff] at h ⊢
  unfold mset
  split
  · exact ⟨filter_rising _ h.1, fun x hx => h.2 x ((List.mem_filter.mp hx).1)⟩
  · rename_i hv
    refine ⟨mins_rising k v h.1, fun x hx => ?_⟩
    cases mins_mem hx with
    | inl e => subst e; exact hv
    | inr e => exact h.2 x e

end Sys2Proof.Machine
end

