-- ==== Sys2Proof/Laws/State.lean ====
section
/-!
SUPPORT. What each update of the state leaves alone, one lemma per field, and what the piece it names reads
afterwards.
-/
namespace Sys2Proof.Machine

@[simp] theorem setCtx_agenda (s : State) (g : Nat) (c : Ctx) : (setCtx s g c).agenda = s.agenda := rfl
@[simp] theorem setCtx_issuer (s : State) (g : Nat) (c : Ctx) : (setCtx s g c).issuer = s.issuer := rfl
@[simp] theorem setCtx_mem (s : State) (g : Nat) (c : Ctx) : (setCtx s g c).mem = s.mem := rfl
@[simp] theorem setCtx_pods (s : State) (g : Nat) (c : Ctx) : (setCtx s g c).pods = s.pods := rfl
@[simp] theorem setCtx_dies (s : State) (g : Nat) (c : Ctx) : (setCtx s g c).dies = s.dies := rfl
@[simp] theorem setCtx_vregs (s : State) (g : Nat) (c : Ctx) : (setCtx s g c).vregs = s.vregs := rfl
@[simp] theorem setCtx_tiles (s : State) (g : Nat) (c : Ctx) : (setCtx s g c).tiles = s.tiles := rfl
@[simp] theorem setCtx_vers (s : State) (g : Nat) (c : Ctx) : (setCtx s g c).vers = s.vers := rfl
@[simp] theorem setCtx_sp (s : State) (g : Nat) (c : Ctx) : (setCtx s g c).sp = s.sp := rfl
@[simp] theorem setCtx_unseen (s : State) (g : Nat) (c : Ctx) : (setCtx s g c).unseen = s.unseen := rfl
@[simp] theorem setCtx_spfmt (s : State) (g : Nat) (c : Ctx) : (setCtx s g c).spfmt = s.spfmt := rfl
@[simp] theorem setCtx_pkg (s : State) (g : Nat) (c : Ctx) : (setCtx s g c).pkg = s.pkg := rfl
@[simp] theorem setCtx_freeCtr (s : State) (g : Nat) (c : Ctx) : (setCtx s g c).freeCtr = s.freeCtr := rfl
@[simp] theorem updCtx_agenda (s : State) (g : Nat) (f : Ctx → Ctx) : (updCtx s g f).agenda = s.agenda := rfl
@[simp] theorem updCtx_issuer (s : State) (g : Nat) (f : Ctx → Ctx) : (updCtx s g f).issuer = s.issuer := rfl
@[simp] theorem updCtx_mem (s : State) (g : Nat) (f : Ctx → Ctx) : (updCtx s g f).mem = s.mem := rfl
@[simp] theorem updCtx_pods (s : State) (g : Nat) (f : Ctx → Ctx) : (updCtx s g f).pods = s.pods := rfl
@[simp] theorem updCtx_dies (s : State) (g : Nat) (f : Ctx → Ctx) : (updCtx s g f).dies = s.dies := rfl
@[simp] theorem updCtx_vregs (s : State) (g : Nat) (f : Ctx → Ctx) : (updCtx s g f).vregs = s.vregs := rfl
@[simp] theorem updCtx_tiles (s : State) (g : Nat) (f : Ctx → Ctx) : (updCtx s g f).tiles = s.tiles := rfl
@[simp] theorem updCtx_vers (s : State) (g : Nat) (f : Ctx → Ctx) : (updCtx s g f).vers = s.vers := rfl
@[simp] theorem updCtx_sp (s : State) (g : Nat) (f : Ctx → Ctx) : (updCtx s g f).sp = s.sp := rfl
@[simp] theorem updCtx_unseen (s : State) (g : Nat) (f : Ctx → Ctx) : (updCtx s g f).unseen = s.unseen := rfl
@[simp] theorem updCtx_spfmt (s : State) (g : Nat) (f : Ctx → Ctx) : (updCtx s g f).spfmt = s.spfmt := rfl
@[simp] theorem updCtx_pkg (s : State) (g : Nat) (f : Ctx → Ctx) : (updCtx s g f).pkg = s.pkg := rfl
@[simp] theorem updCtx_freeCtr (s : State) (g : Nat) (f : Ctx → Ctx) : (updCtx s g f).freeCtr = s.freeCtr := rfl
@[simp] theorem updPod_agenda (s : State) (p : Nat) (f : Pod → Pod) : (updPod s p f).agenda = s.agenda := rfl
@[simp] theorem updPod_issuer (s : State) (p : Nat) (f : Pod → Pod) : (updPod s p f).issuer = s.issuer := rfl
@[simp] theorem updPod_mem (s : State) (p : Nat) (f : Pod → Pod) : (updPod s p f).mem = s.mem := rfl
@[simp] theorem updPod_ctxs (s : State) (p : Nat) (f : Pod → Pod) : (updPod s p f).ctxs = s.ctxs := rfl
@[simp] theorem updPod_dies (s : State) (p : Nat) (f : Pod → Pod) : (updPod s p f).dies = s.dies := rfl
@[simp] theorem updPod_vregs (s : State) (p : Nat) (f : Pod → Pod) : (updPod s p f).vregs = s.vregs := rfl
@[simp] theorem updPod_tiles (s : State) (p : Nat) (f : Pod → Pod) : (updPod s p f).tiles = s.tiles := rfl
@[simp] theorem updPod_vers (s : State) (p : Nat) (f : Pod → Pod) : (updPod s p f).vers = s.vers := rfl
@[simp] theorem updPod_sp (s : State) (p : Nat) (f : Pod → Pod) : (updPod s p f).sp = s.sp := rfl
@[simp] theorem updPod_unseen (s : State) (p : Nat) (f : Pod → Pod) : (updPod s p f).unseen = s.unseen := rfl
@[simp] theorem updPod_spfmt (s : State) (p : Nat) (f : Pod → Pod) : (updPod s p f).spfmt = s.spfmt := rfl
@[simp] theorem updPod_pkg (s : State) (p : Nat) (f : Pod → Pod) : (updPod s p f).pkg = s.pkg := rfl
@[simp] theorem updPod_freeCtr (s : State) (p : Nat) (f : Pod → Pod) : (updPod s p f).freeCtr = s.freeCtr := rfl
@[simp] theorem updDie_agenda (s : State) (d : Nat) (f : Die → Die) : (updDie s d f).agenda = s.agenda := rfl
@[simp] theorem updDie_issuer (s : State) (d : Nat) (f : Die → Die) : (updDie s d f).issuer = s.issuer := rfl
@[simp] theorem updDie_mem (s : State) (d : Nat) (f : Die → Die) : (updDie s d f).mem = s.mem := rfl
@[simp] theorem updDie_ctxs (s : State) (d : Nat) (f : Die → Die) : (updDie s d f).ctxs = s.ctxs := rfl
@[simp] theorem updDie_pods (s : State) (d : Nat) (f : Die → Die) : (updDie s d f).pods = s.pods := rfl
@[simp] theorem updDie_vregs (s : State) (d : Nat) (f : Die → Die) : (updDie s d f).vregs = s.vregs := rfl
@[simp] theorem updDie_tiles (s : State) (d : Nat) (f : Die → Die) : (updDie s d f).tiles = s.tiles := rfl
@[simp] theorem updDie_vers (s : State) (d : Nat) (f : Die → Die) : (updDie s d f).vers = s.vers := rfl
@[simp] theorem updDie_sp (s : State) (d : Nat) (f : Die → Die) : (updDie s d f).sp = s.sp := rfl
@[simp] theorem updDie_unseen (s : State) (d : Nat) (f : Die → Die) : (updDie s d f).unseen = s.unseen := rfl
@[simp] theorem updDie_spfmt (s : State) (d : Nat) (f : Die → Die) : (updDie s d f).spfmt = s.spfmt := rfl
@[simp] theorem updDie_pkg (s : State) (d : Nat) (f : Die → Die) : (updDie s d f).pkg = s.pkg := rfl
@[simp] theorem updDie_freeCtr (s : State) (d : Nat) (f : Die → Die) : (updDie s d f).freeCtr = s.freeCtr := rfl
@[simp] theorem updPkg_agenda (s : State) (f : Pkg → Pkg) : (updPkg s f).agenda = s.agenda := rfl
@[simp] theorem updPkg_issuer (s : State) (f : Pkg → Pkg) : (updPkg s f).issuer = s.issuer := rfl
@[simp] theorem updPkg_mem (s : State) (f : Pkg → Pkg) : (updPkg s f).mem = s.mem := rfl
@[simp] theorem updPkg_ctxs (s : State) (f : Pkg → Pkg) : (updPkg s f).ctxs = s.ctxs := rfl
@[simp] theorem updPkg_pods (s : State) (f : Pkg → Pkg) : (updPkg s f).pods = s.pods := rfl
@[simp] theorem updPkg_dies (s : State) (f : Pkg → Pkg) : (updPkg s f).dies = s.dies := rfl
@[simp] theorem updPkg_vregs (s : State) (f : Pkg → Pkg) : (updPkg s f).vregs = s.vregs := rfl
@[simp] theorem updPkg_tiles (s : State) (f : Pkg → Pkg) : (updPkg s f).tiles = s.tiles := rfl
@[simp] theorem updPkg_vers (s : State) (f : Pkg → Pkg) : (updPkg s f).vers = s.vers := rfl
@[simp] theorem updPkg_sp (s : State) (f : Pkg → Pkg) : (updPkg s f).sp = s.sp := rfl
@[simp] theorem updPkg_unseen (s : State) (f : Pkg → Pkg) : (updPkg s f).unseen = s.unseen := rfl
@[simp] theorem updPkg_spfmt (s : State) (f : Pkg → Pkg) : (updPkg s f).spfmt = s.spfmt := rfl
@[simp] theorem updPkg_freeCtr (s : State) (f : Pkg → Pkg) : (updPkg s f).freeCtr = s.freeCtr := rfl
@[simp] theorem updHalf_agenda (s : State) (g : Nat) (h : HalfId) (f : Half → Half) : (updHalf s g h f).agenda = s.agenda := rfl
@[simp] theorem updHalf_issuer (s : State) (g : Nat) (h : HalfId) (f : Half → Half) : (updHalf s g h f).issuer = s.issuer := rfl
@[simp] theorem updHalf_mem (s : State) (g : Nat) (h : HalfId) (f : Half → Half) : (updHalf s g h f).mem = s.mem := rfl
@[simp] theorem updHalf_pods (s : State) (g : Nat) (h : HalfId) (f : Half → Half) : (updHalf s g h f).pods = s.pods := rfl
@[simp] theorem updHalf_dies (s : State) (g : Nat) (h : HalfId) (f : Half → Half) : (updHalf s g h f).dies = s.dies := rfl
@[simp] theorem updHalf_vregs (s : State) (g : Nat) (h : HalfId) (f : Half → Half) : (updHalf s g h f).vregs = s.vregs := rfl
@[simp] theorem updHalf_tiles (s : State) (g : Nat) (h : HalfId) (f : Half → Half) : (updHalf s g h f).tiles = s.tiles := rfl
@[simp] theorem updHalf_vers (s : State) (g : Nat) (h : HalfId) (f : Half → Half) : (updHalf s g h f).vers = s.vers := rfl
@[simp] theorem updHalf_sp (s : State) (g : Nat) (h : HalfId) (f : Half → Half) : (updHalf s g h f).sp = s.sp := rfl
@[simp] theorem updHalf_unseen (s : State) (g : Nat) (h : HalfId) (f : Half → Half) : (updHalf s g h f).unseen = s.unseen := rfl
@[simp] theorem updHalf_spfmt (s : State) (g : Nat) (h : HalfId) (f : Half → Half) : (updHalf s g h f).spfmt = s.spfmt := rfl
@[simp] theorem updHalf_pkg (s : State) (g : Nat) (h : HalfId) (f : Half → Half) : (updHalf s g h f).pkg = s.pkg := rfl
@[simp] theorem updHalf_freeCtr (s : State) (g : Nat) (h : HalfId) (f : Half → Half) : (updHalf s g h f).freeCtr = s.freeCtr := rfl
@[simp] theorem updCur_agenda (s : State) (f : Ctx → Ctx) : (updCur s f).agenda = s.agenda := rfl
@[simp] theorem updCur_issuer (s : State) (f : Ctx → Ctx) : (updCur s f).issuer = s.issuer := rfl
@[simp] theorem updCur_mem (s : State) (f : Ctx → Ctx) : (updCur s f).mem = s.mem := rfl
@[simp] theorem updCur_pods (s : State) (f : Ctx → Ctx) : (updCur s f).pods = s.pods := rfl
@[simp] theorem updCur_dies (s : State) (f : Ctx → Ctx) : (updCur s f).dies = s.dies := rfl
@[simp] theorem updCur_vregs (s : State) (f : Ctx → Ctx) : (updCur s f).vregs = s.vregs := rfl
@[simp] theorem updCur_tiles (s : State) (f : Ctx → Ctx) : (updCur s f).tiles = s.tiles := rfl
@[simp] theorem updCur_vers (s : State) (f : Ctx → Ctx) : (updCur s f).vers = s.vers := rfl
@[simp] theorem updCur_sp (s : State) (f : Ctx → Ctx) : (updCur s f).sp = s.sp := rfl
@[simp] theorem updCur_unseen (s : State) (f : Ctx → Ctx) : (updCur s f).unseen = s.unseen := rfl
@[simp] theorem updCur_spfmt (s : State) (f : Ctx → Ctx) : (updCur s f).spfmt = s.spfmt := rfl
@[simp] theorem updCur_pkg (s : State) (f : Ctx → Ctx) : (updCur s f).pkg = s.pkg := rfl
@[simp] theorem updCur_freeCtr (s : State) (f : Ctx → Ctx) : (updCur s f).freeCtr = s.freeCtr := rfl
@[simp] theorem updH_agenda (s : State) (f : Half → Half) : (updH s f).agenda = s.agenda := rfl
@[simp] theorem updH_issuer (s : State) (f : Half → Half) : (updH s f).issuer = s.issuer := rfl
@[simp] theorem updH_mem (s : State) (f : Half → Half) : (updH s f).mem = s.mem := rfl
@[simp] theorem updH_pods (s : State) (f : Half → Half) : (updH s f).pods = s.pods := rfl
@[simp] theorem updH_dies (s : State) (f : Half → Half) : (updH s f).dies = s.dies := rfl
@[simp] theorem updH_vregs (s : State) (f : Half → Half) : (updH s f).vregs = s.vregs := rfl
@[simp] theorem updH_tiles (s : State) (f : Half → Half) : (updH s f).tiles = s.tiles := rfl
@[simp] theorem updH_vers (s : State) (f : Half → Half) : (updH s f).vers = s.vers := rfl
@[simp] theorem updH_sp (s : State) (f : Half → Half) : (updH s f).sp = s.sp := rfl
@[simp] theorem updH_unseen (s : State) (f : Half → Half) : (updH s f).unseen = s.unseen := rfl
@[simp] theorem updH_spfmt (s : State) (f : Half → Half) : (updH s f).spfmt = s.spfmt := rfl
@[simp] theorem updH_pkg (s : State) (f : Half → Half) : (updH s f).pkg = s.pkg := rfl
@[simp] theorem updH_freeCtr (s : State) (f : Half → Half) : (updH s f).freeCtr = s.freeCtr := rfl
@[simp] theorem addPend_agenda (s : State) (lat : Nat) (ws : List Wr) : (addPend s lat ws).agenda = s.agenda := rfl
@[simp] theorem addPend_issuer (s : State) (lat : Nat) (ws : List Wr) : (addPend s lat ws).issuer = s.issuer := rfl
@[simp] theorem addPend_mem (s : State) (lat : Nat) (ws : List Wr) : (addPend s lat ws).mem = s.mem := rfl
@[simp] theorem addPend_pods (s : State) (lat : Nat) (ws : List Wr) : (addPend s lat ws).pods = s.pods := rfl
@[simp] theorem addPend_dies (s : State) (lat : Nat) (ws : List Wr) : (addPend s lat ws).dies = s.dies := rfl
@[simp] theorem addPend_vregs (s : State) (lat : Nat) (ws : List Wr) : (addPend s lat ws).vregs = s.vregs := rfl
@[simp] theorem addPend_tiles (s : State) (lat : Nat) (ws : List Wr) : (addPend s lat ws).tiles = s.tiles := rfl
@[simp] theorem addPend_vers (s : State) (lat : Nat) (ws : List Wr) : (addPend s lat ws).vers = s.vers := rfl
@[simp] theorem addPend_sp (s : State) (lat : Nat) (ws : List Wr) : (addPend s lat ws).sp = s.sp := rfl
@[simp] theorem addPend_unseen (s : State) (lat : Nat) (ws : List Wr) : (addPend s lat ws).unseen = s.unseen := rfl
@[simp] theorem addPend_spfmt (s : State) (lat : Nat) (ws : List Wr) : (addPend s lat ws).spfmt = s.spfmt := rfl
@[simp] theorem addPend_pkg (s : State) (lat : Nat) (ws : List Wr) : (addPend s lat ws).pkg = s.pkg := rfl
@[simp] theorem addPend_freeCtr (s : State) (lat : Nat) (ws : List Wr) : (addPend s lat ws).freeCtr = s.freeCtr := rfl
@[simp] theorem setPc_agenda (s : State) (v : Word) : (setPc s v).agenda = s.agenda := rfl
@[simp] theorem setPc_issuer (s : State) (v : Word) : (setPc s v).issuer = s.issuer := rfl
@[simp] theorem setPc_mem (s : State) (v : Word) : (setPc s v).mem = s.mem := rfl
@[simp] theorem setPc_pods (s : State) (v : Word) : (setPc s v).pods = s.pods := rfl
@[simp] theorem setPc_dies (s : State) (v : Word) : (setPc s v).dies = s.dies := rfl
@[simp] theorem setPc_vregs (s : State) (v : Word) : (setPc s v).vregs = s.vregs := rfl
@[simp] theorem setPc_tiles (s : State) (v : Word) : (setPc s v).tiles = s.tiles := rfl
@[simp] theorem setPc_vers (s : State) (v : Word) : (setPc s v).vers = s.vers := rfl
@[simp] theorem setPc_sp (s : State) (v : Word) : (setPc s v).sp = s.sp := rfl
@[simp] theorem setPc_unseen (s : State) (v : Word) : (setPc s v).unseen = s.unseen := rfl
@[simp] theorem setPc_spfmt (s : State) (v : Word) : (setPc s v).spfmt = s.spfmt := rfl
@[simp] theorem setPc_pkg (s : State) (v : Word) : (setPc s v).pkg = s.pkg := rfl
@[simp] theorem setPc_freeCtr (s : State) (v : Word) : (setPc s v).freeCtr = s.freeCtr := rfl
@[simp] theorem wrTile_agenda (s : State) (g lane t : Nat) (x : Tile) : (wrTile s g lane t x).agenda = s.agenda := rfl
@[simp] theorem wrTile_issuer (s : State) (g lane t : Nat) (x : Tile) : (wrTile s g lane t x).issuer = s.issuer := rfl
@[simp] theorem wrTile_mem (s : State) (g lane t : Nat) (x : Tile) : (wrTile s g lane t x).mem = s.mem := rfl
@[simp] theorem wrTile_ctxs (s : State) (g lane t : Nat) (x : Tile) : (wrTile s g lane t x).ctxs = s.ctxs := rfl
@[simp] theorem wrTile_pods (s : State) (g lane t : Nat) (x : Tile) : (wrTile s g lane t x).pods = s.pods := rfl
@[simp] theorem wrTile_dies (s : State) (g lane t : Nat) (x : Tile) : (wrTile s g lane t x).dies = s.dies := rfl
@[simp] theorem wrTile_vregs (s : State) (g lane t : Nat) (x : Tile) : (wrTile s g lane t x).vregs = s.vregs := rfl
@[simp] theorem wrTile_vers (s : State) (g lane t : Nat) (x : Tile) : (wrTile s g lane t x).vers = s.vers := rfl
@[simp] theorem wrTile_sp (s : State) (g lane t : Nat) (x : Tile) : (wrTile s g lane t x).sp = s.sp := rfl
@[simp] theorem wrTile_unseen (s : State) (g lane t : Nat) (x : Tile) : (wrTile s g lane t x).unseen = s.unseen := rfl
@[simp] theorem wrTile_spfmt (s : State) (g lane t : Nat) (x : Tile) : (wrTile s g lane t x).spfmt = s.spfmt := rfl
@[simp] theorem wrTile_pkg (s : State) (g lane t : Nat) (x : Tile) : (wrTile s g lane t x).pkg = s.pkg := rfl
@[simp] theorem wrTile_freeCtr (s : State) (g lane t : Nat) (x : Tile) : (wrTile s g lane t x).freeCtr = s.freeCtr := rfl
@[simp] theorem setAccver_agenda (s : State) (g lane t v : Nat) : (setAccver s g lane t v).agenda = s.agenda := rfl
@[simp] theorem setAccver_issuer (s : State) (g lane t v : Nat) : (setAccver s g lane t v).issuer = s.issuer := rfl
@[simp] theorem setAccver_mem (s : State) (g lane t v : Nat) : (setAccver s g lane t v).mem = s.mem := rfl
@[simp] theorem setAccver_ctxs (s : State) (g lane t v : Nat) : (setAccver s g lane t v).ctxs = s.ctxs := rfl
@[simp] theorem setAccver_pods (s : State) (g lane t v : Nat) : (setAccver s g lane t v).pods = s.pods := rfl
@[simp] theorem setAccver_dies (s : State) (g lane t v : Nat) : (setAccver s g lane t v).dies = s.dies := rfl
@[simp] theorem setAccver_vregs (s : State) (g lane t v : Nat) : (setAccver s g lane t v).vregs = s.vregs := rfl
@[simp] theorem setAccver_tiles (s : State) (g lane t v : Nat) : (setAccver s g lane t v).tiles = s.tiles := rfl
@[simp] theorem setAccver_sp (s : State) (g lane t v : Nat) : (setAccver s g lane t v).sp = s.sp := rfl
@[simp] theorem setAccver_unseen (s : State) (g lane t v : Nat) : (setAccver s g lane t v).unseen = s.unseen := rfl
@[simp] theorem setAccver_spfmt (s : State) (g lane t v : Nat) : (setAccver s g lane t v).spfmt = s.spfmt := rfl
@[simp] theorem setAccver_pkg (s : State) (g lane t v : Nat) : (setAccver s g lane t v).pkg = s.pkg := rfl
@[simp] theorem setAccver_freeCtr (s : State) (g lane t v : Nat) : (setAccver s g lane t v).freeCtr = s.freeCtr := rfl
@[simp] theorem wrSp_agenda (s : State) (g lane la : Nat) (bs : List Byte) : (wrSp s g lane la bs).agenda = s.agenda := rfl
@[simp] theorem wrSp_issuer (s : State) (g lane la : Nat) (bs : List Byte) : (wrSp s g lane la bs).issuer = s.issuer := rfl
@[simp] theorem wrSp_mem (s : State) (g lane la : Nat) (bs : List Byte) : (wrSp s g lane la bs).mem = s.mem := rfl
@[simp] theorem wrSp_ctxs (s : State) (g lane la : Nat) (bs : List Byte) : (wrSp s g lane la bs).ctxs = s.ctxs := rfl
@[simp] theorem wrSp_pods (s : State) (g lane la : Nat) (bs : List Byte) : (wrSp s g lane la bs).pods = s.pods := rfl
@[simp] theorem wrSp_dies (s : State) (g lane la : Nat) (bs : List Byte) : (wrSp s g lane la bs).dies = s.dies := rfl
@[simp] theorem wrSp_vregs (s : State) (g lane la : Nat) (bs : List Byte) : (wrSp s g lane la bs).vregs = s.vregs := rfl
@[simp] theorem wrSp_tiles (s : State) (g lane la : Nat) (bs : List Byte) : (wrSp s g lane la bs).tiles = s.tiles := rfl
@[simp] theorem wrSp_vers (s : State) (g lane la : Nat) (bs : List Byte) : (wrSp s g lane la bs).vers = s.vers := rfl
@[simp] theorem wrSp_unseen (s : State) (g lane la : Nat) (bs : List Byte) : (wrSp s g lane la bs).unseen = s.unseen := rfl
@[simp] theorem wrSp_spfmt (s : State) (g lane la : Nat) (bs : List Byte) : (wrSp s g lane la bs).spfmt = s.spfmt := rfl
@[simp] theorem wrSp_pkg (s : State) (g lane la : Nat) (bs : List Byte) : (wrSp s g lane la bs).pkg = s.pkg := rfl
@[simp] theorem wrSp_freeCtr (s : State) (g lane la : Nat) (bs : List Byte) : (wrSp s g lane la bs).freeCtr = s.freeCtr := rfl
@[simp] theorem landSp_agenda (s : State) (g lane la : Nat) (bs : List Byte) : (landSp s g lane la bs).agenda = s.agenda := rfl
@[simp] theorem landSp_issuer (s : State) (g lane la : Nat) (bs : List Byte) : (landSp s g lane la bs).issuer = s.issuer := rfl
@[simp] theorem landSp_mem (s : State) (g lane la : Nat) (bs : List Byte) : (landSp s g lane la bs).mem = s.mem := rfl
@[simp] theorem landSp_ctxs (s : State) (g lane la : Nat) (bs : List Byte) : (landSp s g lane la bs).ctxs = s.ctxs := rfl
@[simp] theorem landSp_pods (s : State) (g lane la : Nat) (bs : List Byte) : (landSp s g lane la bs).pods = s.pods := rfl
@[simp] theorem landSp_dies (s : State) (g lane la : Nat) (bs : List Byte) : (landSp s g lane la bs).dies = s.dies := rfl
@[simp] theorem landSp_vregs (s : State) (g lane la : Nat) (bs : List Byte) : (landSp s g lane la bs).vregs = s.vregs := rfl
@[simp] theorem landSp_tiles (s : State) (g lane la : Nat) (bs : List Byte) : (landSp s g lane la bs).tiles = s.tiles := rfl
@[simp] theorem landSp_vers (s : State) (g lane la : Nat) (bs : List Byte) : (landSp s g lane la bs).vers = s.vers := rfl
@[simp] theorem landSp_spfmt (s : State) (g lane la : Nat) (bs : List Byte) : (landSp s g lane la bs).spfmt = s.spfmt := rfl
@[simp] theorem landSp_pkg (s : State) (g lane la : Nat) (bs : List Byte) : (landSp s g lane la bs).pkg = s.pkg := rfl
@[simp] theorem landSp_freeCtr (s : State) (g lane la : Nat) (bs : List Byte) : (landSp s g lane la bs).freeCtr = s.freeCtr := rfl
@[simp] theorem wrPhys_agenda (s : State) (a : Nat) (bs : List Byte) : (wrPhys s a bs).agenda = s.agenda := rfl
@[simp] theorem wrPhys_issuer (s : State) (a : Nat) (bs : List Byte) : (wrPhys s a bs).issuer = s.issuer := rfl
@[simp] theorem wrPhys_ctxs (s : State) (a : Nat) (bs : List Byte) : (wrPhys s a bs).ctxs = s.ctxs := rfl
@[simp] theorem wrPhys_pods (s : State) (a : Nat) (bs : List Byte) : (wrPhys s a bs).pods = s.pods := rfl
@[simp] theorem wrPhys_dies (s : State) (a : Nat) (bs : List Byte) : (wrPhys s a bs).dies = s.dies := rfl
@[simp] theorem wrPhys_vregs (s : State) (a : Nat) (bs : List Byte) : (wrPhys s a bs).vregs = s.vregs := rfl
@[simp] theorem wrPhys_tiles (s : State) (a : Nat) (bs : List Byte) : (wrPhys s a bs).tiles = s.tiles := rfl
@[simp] theorem wrPhys_vers (s : State) (a : Nat) (bs : List Byte) : (wrPhys s a bs).vers = s.vers := rfl
@[simp] theorem wrPhys_sp (s : State) (a : Nat) (bs : List Byte) : (wrPhys s a bs).sp = s.sp := rfl
@[simp] theorem wrPhys_unseen (s : State) (a : Nat) (bs : List Byte) : (wrPhys s a bs).unseen = s.unseen := rfl
@[simp] theorem wrPhys_spfmt (s : State) (a : Nat) (bs : List Byte) : (wrPhys s a bs).spfmt = s.spfmt := rfl
@[simp] theorem wrPhys_pkg (s : State) (a : Nat) (bs : List Byte) : (wrPhys s a bs).pkg = s.pkg := rfl
@[simp] theorem wrPhys_freeCtr (s : State) (a : Nat) (bs : List Byte) : (wrPhys s a bs).freeCtr = s.freeCtr := rfl
@[simp] theorem updLaunch_agenda (s : State) (id : Nat) (f : Launch → Launch) : (updLaunch s id f).agenda = s.agenda := rfl
@[simp] theorem updLaunch_issuer (s : State) (id : Nat) (f : Launch → Launch) : (updLaunch s id f).issuer = s.issuer := rfl
@[simp] theorem updLaunch_mem (s : State) (id : Nat) (f : Launch → Launch) : (updLaunch s id f).mem = s.mem := rfl
@[simp] theorem updLaunch_ctxs (s : State) (id : Nat) (f : Launch → Launch) : (updLaunch s id f).ctxs = s.ctxs := rfl
@[simp] theorem updLaunch_pods (s : State) (id : Nat) (f : Launch → Launch) : (updLaunch s id f).pods = s.pods := rfl
@[simp] theorem updLaunch_dies (s : State) (id : Nat) (f : Launch → Launch) : (updLaunch s id f).dies = s.dies := rfl
@[simp] theorem updLaunch_vregs (s : State) (id : Nat) (f : Launch → Launch) : (updLaunch s id f).vregs = s.vregs := rfl
@[simp] theorem updLaunch_tiles (s : State) (id : Nat) (f : Launch → Launch) : (updLaunch s id f).tiles = s.tiles := rfl
@[simp] theorem updLaunch_vers (s : State) (id : Nat) (f : Launch → Launch) : (updLaunch s id f).vers = s.vers := rfl
@[simp] theorem updLaunch_sp (s : State) (id : Nat) (f : Launch → Launch) : (updLaunch s id f).sp = s.sp := rfl
@[simp] theorem updLaunch_unseen (s : State) (id : Nat) (f : Launch → Launch) : (updLaunch s id f).unseen = s.unseen := rfl
@[simp] theorem updLaunch_spfmt (s : State) (id : Nat) (f : Launch → Launch) : (updLaunch s id f).spfmt = s.spfmt := rfl
@[simp] theorem updLaunch_freeCtr (s : State) (id : Nat) (f : Launch → Launch) : (updLaunch s id f).freeCtr = s.freeCtr := rfl
@[simp] theorem raiseEvent_agenda (s : State) (k : Nat) : (raiseEvent s k).agenda = s.agenda := rfl
@[simp] theorem raiseEvent_issuer (s : State) (k : Nat) : (raiseEvent s k).issuer = s.issuer := rfl
@[simp] theorem raiseEvent_mem (s : State) (k : Nat) : (raiseEvent s k).mem = s.mem := rfl
@[simp] theorem raiseEvent_ctxs (s : State) (k : Nat) : (raiseEvent s k).ctxs = s.ctxs := rfl
@[simp] theorem raiseEvent_pods (s : State) (k : Nat) : (raiseEvent s k).pods = s.pods := rfl
@[simp] theorem raiseEvent_dies (s : State) (k : Nat) : (raiseEvent s k).dies = s.dies := rfl
@[simp] theorem raiseEvent_vregs (s : State) (k : Nat) : (raiseEvent s k).vregs = s.vregs := rfl
@[simp] theorem raiseEvent_tiles (s : State) (k : Nat) : (raiseEvent s k).tiles = s.tiles := rfl
@[simp] theorem raiseEvent_vers (s : State) (k : Nat) : (raiseEvent s k).vers = s.vers := rfl
@[simp] theorem raiseEvent_sp (s : State) (k : Nat) : (raiseEvent s k).sp = s.sp := rfl
@[simp] theorem raiseEvent_unseen (s : State) (k : Nat) : (raiseEvent s k).unseen = s.unseen := rfl
@[simp] theorem raiseEvent_spfmt (s : State) (k : Nat) : (raiseEvent s k).spfmt = s.spfmt := rfl
@[simp] theorem raiseEvent_freeCtr (s : State) (k : Nat) : (raiseEvent s k).freeCtr = s.freeCtr := rfl
@[simp] theorem countFd_agenda (s : State) (cls idx w n : Nat) : (countFd s cls idx w n).agenda = s.agenda := rfl
@[simp] theorem countFd_issuer (s : State) (cls idx w n : Nat) : (countFd s cls idx w n).issuer = s.issuer := rfl
@[simp] theorem countFd_mem (s : State) (cls idx w n : Nat) : (countFd s cls idx w n).mem = s.mem := rfl
@[simp] theorem countFd_ctxs (s : State) (cls idx w n : Nat) : (countFd s cls idx w n).ctxs = s.ctxs := rfl
@[simp] theorem countFd_pods (s : State) (cls idx w n : Nat) : (countFd s cls idx w n).pods = s.pods := rfl
@[simp] theorem countFd_dies (s : State) (cls idx w n : Nat) : (countFd s cls idx w n).dies = s.dies := rfl
@[simp] theorem countFd_vregs (s : State) (cls idx w n : Nat) : (countFd s cls idx w n).vregs = s.vregs := rfl
@[simp] theorem countFd_tiles (s : State) (cls idx w n : Nat) : (countFd s cls idx w n).tiles = s.tiles := rfl
@[simp] theorem countFd_vers (s : State) (cls idx w n : Nat) : (countFd s cls idx w n).vers = s.vers := rfl
@[simp] theorem countFd_sp (s : State) (cls idx w n : Nat) : (countFd s cls idx w n).sp = s.sp := rfl
@[simp] theorem countFd_unseen (s : State) (cls idx w n : Nat) : (countFd s cls idx w n).unseen = s.unseen := rfl
@[simp] theorem countFd_spfmt (s : State) (cls idx w n : Nat) : (countFd s cls idx w n).spfmt = s.spfmt := rfl
@[simp] theorem countFd_freeCtr (s : State) (cls idx w n : Nat) : (countFd s cls idx w n).freeCtr = s.freeCtr := rfl

/-- The value an update of a context slot leaves there. -/
theorem ctxOf_setCtx (s : State) (g g' : Nat) (c : Ctx) :
    ctxOf (setCtx s g c) g' = if g' = g then c else ctxOf s g' := mget_mset _ _ _ _ _
theorem ctxOf_updCtx (s : State) (g g' : Nat) (f : Ctx → Ctx) :
    ctxOf (updCtx s g f) g' = if g' = g then f (ctxOf s g) else ctxOf s g' := mget_mset _ _ _ _ _
theorem pod_updPod (s : State) (p p' : Nat) (f : Pod → Pod) :
    pod (updPod s p f) p' = if p' = p then f (pod s p) else pod s p' := mget_mset _ _ _ _ _
theorem die_updDie (s : State) (d d' : Nat) (f : Die → Die) :
    die (updDie s d f) d' = if d' = d then f (die s d) else die s d' := mget_mset _ _ _ _ _
@[simp] theorem updPkg_pkg (s : State) (f : Pkg → Pkg) : (updPkg s f).pkg = f s.pkg := rfl
/-- Replacing a half and reading it. -/
@[simp] theorem setHalf_half_primary (c : Ctx) (x : Half) : (c.setHalf .primary x).half .primary = x := rfl
@[simp] theorem setHalf_half_spare (c : Ctx) (x : Half) : (c.setHalf .spare x).half .spare = x := rfl
@[simp] theorem half_primary (c : Ctx) : c.half .primary = c.prim := rfl
/-- s0 reads as zero and takes no write (R210). -/
@[simp] theorem rdSH_zero (h : Half) : rdSH h 0#6 = 0#64 := rfl
@[simp] theorem wrSH_zero (h : Half) (v : Word) : wrSH h 0#6 v = h := rfl
/-- A written scalar register reads the value. -/
theorem rdSH_wrSH (h : Half) (n m : SReg) (v : Word) :
    rdSH (wrSH h n v) m = if m = n then (if n = 0#6 then 0#64 else v) else rdSH h m := by
  by_cases hn : n = 0#6
  · subst hn
    by_cases hm : m = 0#6
    · subst hm; rfl
    · simp [hm]
  · by_cases hm : m = 0#6
    · subst hm; simp [Ne.symm hn]
    · have h1 : wrSH h n v = { h with sreg := mset 0#64 h.sreg n.toNat v } := if_neg hn
      have h2 : ∀ x, rdSH x m = mget 0#64 x.sreg m.toNat := fun x => if_neg hm
      rw [h2, h2, h1, mget_mset]
      by_cases e : m = n
      · simp [e, hn]
      · have : m.toNat ≠ n.toNat := fun h => e (BitVec.eq_of_toNat_eq h)
        simp [e, this]

@[simp] theorem markFatal_agenda (s : State) (g cause named : Nat) :
    (markFatal s g cause named).agenda = s.agenda := by
  unfold markFatal; split
  · rfl
  · split
    · rfl
    · dsimp only; split <;> rfl
@[simp] theorem markFatal_issuer (s : State) (g cause named : Nat) :
    (markFatal s g cause named).issuer = s.issuer := by
  unfold markFatal; split
  · rfl
  · split
    · rfl
    · dsimp only; split <;> rfl
@[simp] theorem markFatal_mem (s : State) (g cause named : Nat) :
    (markFatal s g cause named).mem = s.mem := by
  unfold markFatal; split
  · rfl
  · split
    · rfl
    · dsimp only; split <;> rfl
@[simp] theorem markFatal_ctxs (s : State) (g cause named : Nat) :
    (markFatal s g cause named).ctxs = s.ctxs := by
  unfold markFatal; split
  · rfl
  · split
    · rfl
    · dsimp only; split <;> rfl
@[simp] theorem markFatal_pods (s : State) (g cause named : Nat) :
    (markFatal s g cause named).pods = s.pods := by
  unfold markFatal; split
  · rfl
  · split
    · rfl
    · dsimp only; split <;> rfl
@[simp] theorem markFatal_dies (s : State) (g cause named : Nat) :
    (markFatal s g cause named).dies = s.dies := by
  unfold markFatal; split
  · rfl
  · split
    · rfl
    · dsimp only; split <;> rfl
@[simp] theorem markFatal_vregs (s : State) (g cause named : Nat) :
    (markFatal s g cause named).vregs = s.vregs := by
  unfold markFatal; split
  · rfl
  · split
    · rfl
    · dsimp only; split <;> rfl
@[simp] theorem markFatal_tiles (s : State) (g cause named : Nat) :
    (markFatal s g cause named).tiles = s.tiles := by
  unfold markFatal; split
  · rfl
  · split
    · rfl
    · dsimp only; split <;> rfl
@[simp] theorem markFatal_vers (s : State) (g cause named : Nat) :
    (markFatal s g cause named).vers = s.vers := by
  unfold markFatal; split
  · rfl
  · split
    · rfl
    · dsimp only; split <;> rfl
@[simp] theorem markFatal_sp (s : State) (g cause named : Nat) :
    (markFatal s g cause named).sp = s.sp := by
  unfold markFatal; split
  · rfl
  · split
    · rfl
    · dsimp only; split <;> rfl
@[simp] theorem markFatal_unseen (s : State) (g cause named : Nat) :
    (markFatal s g cause named).unseen = s.unseen := by
  unfold markFatal; split
  · rfl
  · split
    · rfl
    · dsimp only; split <;> rfl
@[simp] theorem markFatal_spfmt (s : State) (g cause named : Nat) :
    (markFatal s g cause named).spfmt = s.spfmt := by
  unfold markFatal; split
  · rfl
  · split
    · rfl
    · dsimp only; split <;> rfl
@[simp] theorem markFatal_freeCtr (s : State) (g cause named : Nat) :
    (markFatal s g cause named).freeCtr = s.freeCtr := by
  unfold markFatal; split
  · rfl
  · split
    · rfl
    · dsimp only; split <;> rfl
@[simp] theorem enterFrozen_agenda (s : State) (g : Nat) :
    (enterFrozen s g).agenda = s.agenda := by
  unfold enterFrozen; simp only []; repeat' split
  all_goals simp
@[simp] theorem enterFrozen_issuer (s : State) (g : Nat) :
    (enterFrozen s g).issuer = s.issuer := by
  unfold enterFrozen; simp only []; repeat' split
  all_goals simp
@[simp] theorem enterFrozen_mem (s : State) (g : Nat) :
    (enterFrozen s g).mem = s.mem := by
  unfold enterFrozen; simp only []; repeat' split
  all_goals simp
@[simp] theorem enterFrozen_dies (s : State) (g : Nat) :
    (enterFrozen s g).dies = s.dies := by
  unfold enterFrozen; simp only []; repeat' split
  all_goals simp
@[simp] theorem enterFrozen_vregs (s : State) (g : Nat) :
    (enterFrozen s g).vregs = s.vregs := by
  unfold enterFrozen; simp only []; repeat' split
  all_goals simp
@[simp] theorem enterFrozen_tiles (s : State) (g : Nat) :
    (enterFrozen s g).tiles = s.tiles := by
  unfold enterFrozen; simp only []; repeat' split
  all_goals simp
@[simp] theorem enterFrozen_vers (s : State) (g : Nat) :
    (enterFrozen s g).vers = s.vers := by
  unfold enterFrozen; simp only []; repeat' split
  all_goals simp
@[simp] theorem enterFrozen_sp (s : State) (g : Nat) :
    (enterFrozen s g).sp = s.sp := by
  unfold enterFrozen; simp only []; repeat' split
  all_goals simp
@[simp] theorem enterFrozen_unseen (s : State) (g : Nat) :
    (enterFrozen s g).unseen = s.unseen := by
  unfold enterFrozen; simp only []; repeat' split
  all_goals simp
@[simp] theorem enterFrozen_spfmt (s : State) (g : Nat) :
    (enterFrozen s g).spfmt = s.spfmt := by
  unfold enterFrozen; simp only []; repeat' split
  all_goals simp
@[simp] theorem enterFrozen_freeCtr (s : State) (g : Nat) :
    (enterFrozen s g).freeCtr = s.freeCtr := by
  unfold enterFrozen; simp only []; repeat' split
  all_goals simp
@[simp] theorem freeze_agenda (s : State) (g : Nat) (h : HalfId) (cause arg : Nat) (w q : Bool) :
    (freeze s g h cause arg w q).agenda = s.agenda := by
  unfold freeze; simp only []; split <;> simp
@[simp] theorem freeze_issuer (s : State) (g : Nat) (h : HalfId) (cause arg : Nat) (w q : Bool) :
    (freeze s g h cause arg w q).issuer = s.issuer := by
  unfold freeze; simp only []; split <;> simp
@[simp] theorem freeze_mem (s : State) (g : Nat) (h : HalfId) (cause arg : Nat) (w q : Bool) :
    (freeze s g h cause arg w q).mem = s.mem := by
  unfold freeze; simp only []; split <;> simp
@[simp] theorem freeze_dies (s : State) (g : Nat) (h : HalfId) (cause arg : Nat) (w q : Bool) :
    (freeze s g h cause arg w q).dies = s.dies := by
  unfold freeze; simp only []; split <;> simp
@[simp] theorem freeze_vregs (s : State) (g : Nat) (h : HalfId) (cause arg : Nat) (w q : Bool) :
    (freeze s g h cause arg w q).vregs = s.vregs := by
  unfold freeze; simp only []; split <;> simp
@[simp] theorem freeze_tiles (s : State) (g : Nat) (h : HalfId) (cause arg : Nat) (w q : Bool) :
    (freeze s g h cause arg w q).tiles = s.tiles := by
  unfold freeze; simp only []; split <;> simp
@[simp] theorem freeze_vers (s : State) (g : Nat) (h : HalfId) (cause arg : Nat) (w q : Bool) :
    (freeze s g h cause arg w q).vers = s.vers := by
  unfold freeze; simp only []; split <;> simp
@[simp] theorem freeze_sp (s : State) (g : Nat) (h : HalfId) (cause arg : Nat) (w q : Bool) :
    (freeze s g h cause arg w q).sp = s.sp := by
  unfold freeze; simp only []; split <;> simp
@[simp] theorem freeze_unseen (s : State) (g : Nat) (h : HalfId) (cause arg : Nat) (w q : Bool) :
    (freeze s g h cause arg w q).unseen = s.unseen := by
  unfold freeze; simp only []; split <;> simp
@[simp] theorem freeze_spfmt (s : State) (g : Nat) (h : HalfId) (cause arg : Nat) (w q : Bool) :
    (freeze s g h cause arg w q).spfmt = s.spfmt := by
  unfold freeze; simp only []; split <;> simp
@[simp] theorem freeze_freeCtr (s : State) (g : Nat) (h : HalfId) (cause arg : Nat) (w q : Bool) :
    (freeze s g h cause arg w q).freeCtr = s.freeCtr := by
  unfold freeze; simp only []; split <;> simp
@[simp] theorem raiseW_agenda (s : State) (cause arg : Nat) (w : Bool) :
    (raiseW s cause arg w).agenda = s.agenda := by
  unfold raiseW; simp only []; split <;> simp
@[simp] theorem raiseW_issuer (s : State) (cause arg : Nat) (w : Bool) :
    (raiseW s cause arg w).issuer = s.issuer := by
  unfold raiseW; simp only []; split <;> simp
@[simp] theorem raiseW_mem (s : State) (cause arg : Nat) (w : Bool) :
    (raiseW s cause arg w).mem = s.mem := by
  unfold raiseW; simp only []; split <;> simp
@[simp] theorem raiseW_dies (s : State) (cause arg : Nat) (w : Bool) :
    (raiseW s cause arg w).dies = s.dies := by
  unfold raiseW; simp only []; split <;> simp
@[simp] theorem raiseW_vregs (s : State) (cause arg : Nat) (w : Bool) :
    (raiseW s cause arg w).vregs = s.vregs := by
  unfold raiseW; simp only []; split <;> simp
@[simp] theorem raiseW_tiles (s : State) (cause arg : Nat) (w : Bool) :
    (raiseW s cause arg w).tiles = s.tiles := by
  unfold raiseW; simp only []; split <;> simp
@[simp] theorem raiseW_vers (s : State) (cause arg : Nat) (w : Bool) :
    (raiseW s cause arg w).vers = s.vers := by
  unfold raiseW; simp only []; split <;> simp
@[simp] theorem raiseW_sp (s : State) (cause arg : Nat) (w : Bool) :
    (raiseW s cause arg w).sp = s.sp := by
  unfold raiseW; simp only []; split <;> simp
@[simp] theorem raiseW_unseen (s : State) (cause arg : Nat) (w : Bool) :
    (raiseW s cause arg w).unseen = s.unseen := by
  unfold raiseW; simp only []; split <;> simp
@[simp] theorem raiseW_spfmt (s : State) (cause arg : Nat) (w : Bool) :
    (raiseW s cause arg w).spfmt = s.spfmt := by
  unfold raiseW; simp only []; split <;> simp
@[simp] theorem raiseW_freeCtr (s : State) (cause arg : Nat) (w : Bool) :
    (raiseW s cause arg w).freeCtr = s.freeCtr := by
  unfold raiseW; simp only []; split <;> simp
@[simp] theorem waitAt_agenda (s : State) (w : Wait) (b : Bool) :
    (waitAt s w b).agenda = s.agenda := by
  unfold waitAt; dsimp only; split <;> split <;> rfl
@[simp] theorem waitAt_issuer (s : State) (w : Wait) (b : Bool) :
    (waitAt s w b).issuer = s.issuer := by
  unfold waitAt; dsimp only; split <;> split <;> rfl
@[simp] theorem waitAt_mem (s : State) (w : Wait) (b : Bool) :
    (waitAt s w b).mem = s.mem := by
  unfold waitAt; dsimp only; split <;> split <;> rfl
@[simp] theorem waitAt_pods (s : State) (w : Wait) (b : Bool) :
    (waitAt s w b).pods = s.pods := by
  unfold waitAt; dsimp only; split <;> split <;> rfl
@[simp] theorem waitAt_dies (s : State) (w : Wait) (b : Bool) :
    (waitAt s w b).dies = s.dies := by
  unfold waitAt; dsimp only; split <;> split <;> rfl
@[simp] theorem waitAt_vregs (s : State) (w : Wait) (b : Bool) :
    (waitAt s w b).vregs = s.vregs := by
  unfold waitAt; dsimp only; split <;> split <;> rfl
@[simp] theorem waitAt_tiles (s : State) (w : Wait) (b : Bool) :
    (waitAt s w b).tiles = s.tiles := by
  unfold waitAt; dsimp only; split <;> split <;> rfl
@[simp] theorem waitAt_vers (s : State) (w : Wait) (b : Bool) :
    (waitAt s w b).vers = s.vers := by
  unfold waitAt; dsimp only; split <;> split <;> rfl
@[simp] theorem waitAt_sp (s : State) (w : Wait) (b : Bool) :
    (waitAt s w b).sp = s.sp := by
  unfold waitAt; dsimp only; split <;> split <;> rfl
@[simp] theorem waitAt_unseen (s : State) (w : Wait) (b : Bool) :
    (waitAt s w b).unseen = s.unseen := by
  unfold waitAt; dsimp only; split <;> split <;> rfl
@[simp] theorem waitAt_spfmt (s : State) (w : Wait) (b : Bool) :
    (waitAt s w b).spfmt = s.spfmt := by
  unfold waitAt; dsimp only; split <;> split <;> rfl
@[simp] theorem waitAt_freeCtr (s : State) (w : Wait) (b : Bool) :
    (waitAt s w b).freeCtr = s.freeCtr := by
  unfold waitAt; dsimp only; split <;> split <;> rfl
@[simp] theorem leave_agenda (s : State) (k : StickySlot) (op : Instr) (cap : Cap) (t : Option Nat) (v : Nat) :
    (leave s k op cap t v).agenda = s.agenda := by
  unfold leave; by_cases h : s.issuer.env.re = true <;> simp [h]
@[simp] theorem leave_issuer (s : State) (k : StickySlot) (op : Instr) (cap : Cap) (t : Option Nat) (v : Nat) :
    (leave s k op cap t v).issuer = s.issuer := by
  unfold leave; by_cases h : s.issuer.env.re = true <;> simp [h]
@[simp] theorem leave_mem (s : State) (k : StickySlot) (op : Instr) (cap : Cap) (t : Option Nat) (v : Nat) :
    (leave s k op cap t v).mem = s.mem := by
  unfold leave; by_cases h : s.issuer.env.re = true <;> simp [h]
@[simp] theorem leave_pods (s : State) (k : StickySlot) (op : Instr) (cap : Cap) (t : Option Nat) (v : Nat) :
    (leave s k op cap t v).pods = s.pods := by
  unfold leave; by_cases h : s.issuer.env.re = true <;> simp [h]
@[simp] theorem leave_dies (s : State) (k : StickySlot) (op : Instr) (cap : Cap) (t : Option Nat) (v : Nat) :
    (leave s k op cap t v).dies = s.dies := by
  unfold leave; by_cases h : s.issuer.env.re = true <;> simp [h]
@[simp] theorem leave_vregs (s : State) (k : StickySlot) (op : Instr) (cap : Cap) (t : Option Nat) (v : Nat) :
    (leave s k op cap t v).vregs = s.vregs := by
  unfold leave; by_cases h : s.issuer.env.re = true <;> simp [h]
@[simp] theorem leave_tiles (s : State) (k : StickySlot) (op : Instr) (cap : Cap) (t : Option Nat) (v : Nat) :
    (leave s k op cap t v).tiles = s.tiles := by
  unfold leave; by_cases h : s.issuer.env.re = true <;> simp [h]
@[simp] theorem leave_vers (s : State) (k : StickySlot) (op : Instr) (cap : Cap) (t : Option Nat) (v : Nat) :
    (leave s k op cap t v).vers = s.vers := by
  unfold leave; by_cases h : s.issuer.env.re = true <;> simp [h]
@[simp] theorem leave_sp (s : State) (k : StickySlot) (op : Instr) (cap : Cap) (t : Option Nat) (v : Nat) :
    (leave s k op cap t v).sp = s.sp := by
  unfold leave; by_cases h : s.issuer.env.re = true <;> simp [h]
@[simp] theorem leave_unseen (s : State) (k : StickySlot) (op : Instr) (cap : Cap) (t : Option Nat) (v : Nat) :
    (leave s k op cap t v).unseen = s.unseen := by
  unfold leave; by_cases h : s.issuer.env.re = true <;> simp [h]
@[simp] theorem leave_spfmt (s : State) (k : StickySlot) (op : Instr) (cap : Cap) (t : Option Nat) (v : Nat) :
    (leave s k op cap t v).spfmt = s.spfmt := by
  unfold leave; by_cases h : s.issuer.env.re = true <;> simp [h]
@[simp] theorem leave_pkg (s : State) (k : StickySlot) (op : Instr) (cap : Cap) (t : Option Nat) (v : Nat) :
    (leave s k op cap t v).pkg = s.pkg := by
  unfold leave; by_cases h : s.issuer.env.re = true <;> simp [h]
@[simp] theorem leave_freeCtr (s : State) (k : StickySlot) (op : Instr) (cap : Cap) (t : Option Nat) (v : Nat) :
    (leave s k op cap t v).freeCtr = s.freeCtr := by
  unfold leave; by_cases h : s.issuer.env.re = true <;> simp [h]

end Sys2Proof.Machine
end

