-- ==== Sys2Proof/Laws/Memory.lean ====
section
/-!
SUPPORT. Physical memory: a byte that has been written reads as written, a write leaves every other byte, and
every write keeps the canonical form.
-/
namespace Sys2Proof.Machine

/-- A byte outside the bytes written reads as before. -/
theorem mget_wrMem_outside (m : List Host.Cell) (a : Nat) (bs : List Byte) (x : Nat)
    (h : x < a ∨ a + bs.length ≤ x) : mget memDefault (wrMem m a bs) x = mget memDefault m x := by
  induction bs generalizing m a with
  | nil => rfl
  | cons b bs ih =>
    simp only [List.length_cons] at h
    rw [wrMem, ih _ _ (by omega), mget_mset_other _ _ _ (by omega)]
/-- A byte inside the bytes written reads as written. -/
theorem mget_wrMem_inside (m : List Host.Cell) (a : Nat) (bs : List Byte) (i : Nat) (h : i < bs.length) :
    mget memDefault (wrMem m a bs) (a + i) = bs[i] := by
  induction bs generalizing m a i with
  | nil => cases h
  | cons b bs ih =>
    rw [wrMem]
    cases i with
    | zero => rw [mget_wrMem_outside _ _ _ _ (by omega)]; simp
    | succ i =>
      have := ih (mset memDefault m a b) (a + 1) i (by simpa using h)
      rw [show a + (i + 1) = a + 1 + i by omega, this]
      rfl
/-- A write keeps the canonical form. -/
theorem wrMem_wf (m : List Host.Cell) (a : Nat) (bs : List Byte) (h : Memory.wf m = true) :
    Memory.wf (wrMem m a bs) = true := by
  induction bs generalizing m a with
  | nil => exact h
  | cons b bs ih => exact ih _ _ (mset_wf a b h)
theorem rdByte_wrPhys_outside (s : State) (a : Nat) (bs : List Byte) (x : Nat)
    (h : x < a ∨ a + bs.length ≤ x) : rdByte (wrPhys s a bs) x = rdByte s x :=
  mget_wrMem_outside _ _ _ _ h
theorem rdByte_wrPhys_inside (s : State) (a : Nat) (bs : List Byte) (i : Nat) (h : i < bs.length) :
    rdByte (wrPhys s a bs) (a + i) = bs[i] := mget_wrMem_inside _ _ _ _ h
/-- Reading does not depend on anything but memory. -/
theorem rdByte_congr {s t : State} (h : t.mem = s.mem) (a : Nat) : rdByte t a = rdByte s a := by
  simp only [rdByte, h]
/-- Reading n bytes reads n bytes. -/
@[simp] theorem rdPhys_length (s : State) (a n : Nat) : (rdPhys s a n).length = n := by
  induction n generalizing a with
  | zero => rfl
  | succ n ih => simp [rdPhys, ih]
theorem rdPhys_getElem (s : State) (a n i : Nat) (h : i < (rdPhys s a n).length) :
    (rdPhys s a n)[i] = rdByte s (a + i) := by
  induction n generalizing a i with
  | zero => simp [rdPhys] at h
  | succ n ih =>
    cases i with
    | zero => rfl
    | succ i =>
      have := ih (a + 1) i (by simpa [rdPhys] using h)
      simp only [rdPhys, List.getElem_cons_succ, this]
      congr 1; omega

end Sys2Proof.Machine
end

