-- ==== Sys2Proof/Laws/MemoryWf.lean ====
section
/-!
SUPPORT. The operations of the memory side keep the canonical form of memory: one lemma for each, over every
answer that it can give.
-/
namespace Sys2Proof.Machine

/-- What holds in the state that a memory operation leaves, when it leaves one. -/
def MemR.After {α : Type} (r : MemR α) (P : State → Prop) : Prop :=
  match r with
  | .ok _ t => P t
  | .fault _ t => P t
  | .wait _ => True
theorem MemR.After.bind {α β : Type} {P : State → Prop} {x : MemR α} {k : α → State → MemR β} (h : x.After P)
    (hk : ∀ a t, P t → (k a t).After P) : (x.bind k).After P := by
  cases x with
  | ok a t => exact hk a t h
  | wait => trivial
  | fault f t => exact h

theorem memOk_reset : memOk State.reset := rfl
/-- Only memory counts. -/
theorem memOk_congr {s t : State} (h : t.mem = s.mem) : memOk t ↔ memOk s := by simp only [memOk, h]
theorem wrPhys_memOk (a : Nat) (bs : List Byte) {s : State} (h : memOk s) : memOk (wrPhys s a bs) := wrMem_wf _ _ _ h
/-- A fold of operations that keep the form keeps it. -/
theorem foldl_memOk {α : Type} {f : State → α → State} (hf : ∀ s x, memOk s → memOk (f s x)) (l : List α) {s : State}
    (h : memOk s) : memOk (l.foldl f s) := by
  induction l generalizing s with
  | nil => exact h
  | cons x l ih => exact ih (hf s x h)

theorem updPkg_memOk (f : Pkg → Pkg) {s : State} (h : memOk s) : memOk (updPkg s f) := h
theorem updDie_memOk (d : Nat) (f : Die → Die) {s : State} (h : memOk s) : memOk (updDie s d f) := h
theorem countFd_memOk (cls idx w n : Nat) {s : State} (h : memOk s) : memOk (countFd s cls idx w n) :=
  (memOk_congr (by simp)).mpr h
theorem repair_memOk (pa n : Nat) {s : State} (h : memOk s) : memOk (repair s pa n) := by
  unfold repair
  dsimp only
  split
  · exact countFd_memOk _ _ _ _ (updPkg_memOk _ h)
  · exact h
@[simp] theorem countBad_mem (s : State) (c i : Nat) : (countBad s c i).mem = s.mem := by
  unfold countBad
  split <;> simp
theorem countBad_memOk (c i : Nat) {s : State} (h : memOk s) : memOk (countBad s c i) :=
  (memOk_congr (countBad_mem s c i)).mpr h
@[simp] theorem markBins_mem (s : State) (n : Nat) : (markBins s n).mem = s.mem := rfl
@[simp] theorem repair_mem (s : State) (pa n : Nat) : (repair s pa n).mem = s.mem := by
  unfold repair
  dsimp only
  split <;> simp
theorem hostDeliver_memOk (k : Nat) {s : State} (h : memOk s) : memOk (hostDeliver k s) := by
  induction k generalizing s with
  | zero => exact h
  | succ k ih =>
    unfold hostDeliver
    split
    · exact h
    · exact ih (wrPhys_memOk _ _ h)
theorem rdHost_memOk (pa n : Nat) {s : State} (h : memOk s) : memOk (rdHost s pa n).2 := by
  unfold rdHost
  dsimp only
  split <;> exact hostDeliver_memOk _ h
theorem overAccess_mem (s : State) (pa : Nat) : (overAccess s pa).mem = s.mem := by
  unfold overAccess
  split <;> rfl
theorem overAccess_memOk (pa : Nat) {s : State} (h : memOk s) : memOk (overAccess s pa) :=
  (memOk_congr (overAccess_mem s pa)).mpr h

/-- A read of a stack changes no byte. -/
theorem rdStack_mem (s : State) (pa n : Nat) : (rdStack s pa n).After fun t => t.mem = s.mem := by
  unfold rdStack
  dsimp only
  split
  · rfl
  · split
    · rfl
    · split
      · trivial
      · split <;> simp [MemR.After]
theorem rdStack_memOk (pa n : Nat) {s : State} (h : memOk s) : (rdStack s pa n).After memOk := by
  have := rdStack_mem s pa n
  cases hr : rdStack s pa n with
  | wait => trivial
  | ok a t => rw [hr] at this; exact (memOk_congr this).mpr h
  | fault f t => rw [hr] at this; exact (memOk_congr this).mpr h
theorem rdDesc_memOk (tab : Word) (asid : Nat) {s : State} (h : memOk s) : (rdDesc s tab asid).After memOk :=
  (rdStack_memOk _ _ h).bind fun a t ht => by
    dsimp only
    split <;> exact ht
theorem loadRange_memOk (unit asid : Nat) {s : State} (h : memOk s) : (loadRange s unit asid).After memOk := by
  unfold loadRange
  split
  · trivial
  · split
    · trivial
    · split
      · exact h
      · exact (rdDesc_memOk _ _ h).bind fun _ _ ht => (rdStack_memOk _ _ ht).bind fun _ _ ht => ht
theorem walk_memOk (va : Nat) (fuel table lvl : Nat) {s : State} (h : memOk s) : (walk s va fuel table lvl).After memOk := by
  induction fuel generalizing s table lvl with
  | zero => exact h
  | succ n ih =>
    unfold walk
    have hr := rdStack_memOk (table + 8 * walkIdx lvl va) 8 h
    split
    · trivial
    · next heq =>
      rw [heq] at hr
      split <;> exact hr
    · next heq =>
      rw [heq] at hr
      dsimp only
      split
      · exact hr
      · split
        · split <;> exact hr
        · split
          · exact hr
          · exact ih _ _ hr
theorem ownWalk_memOk (asid root va : Nat) {s : State} (h : memOk s) : (ownWalk s asid root va).After memOk :=
  (walk_memOk _ _ _ _ h).bind fun _ _ ht => ht
theorem pteRepair_memOk (a n : Nat) {s : State} (h : memOk s) : memOk (pteRepair s a n) := by
  unfold pteRepair
  split
  · exact repair_memOk _ _ h
  · exact h
theorem contRead_memOk (root va : Nat) {s : State} (h : memOk s) : memOk (contRead s root va) := by
  have h1 := pteRepair_memOk (root + 8 * walkIdx 1 va) 8 h
  unfold contRead
  dsimp only
  split
  · exact h1
  · split
    · exact pteRepair_memOk _ _ h1
    · exact pteRepair_memOk _ _ (pteRepair_memOk _ _ h1)
theorem leafFor_memOk (d asid va : Nat) {s : State} (h : memOk s) : (leafFor s d asid va).After memOk := by
  unfold leafFor
  split
  · trivial
  · refine (rdDesc_memOk _ _ h).bind fun _ _ ht => ?_
    dsimp only
    split
    · exact ht
    · split
      · exact contRead_memOk _ _ ht
      · split
        · exact ownWalk_memOk _ _ _ (contRead_memOk _ _ ht)
        · exact contRead_memOk _ _ ht
      · exact ownWalk_memOk _ _ _ (contRead_memOk _ _ ht)
theorem keepLeaf_memOk (d : Nat) (x : TlbEnt × Bool) {s : State} (h : memOk s) : memOk (keepLeaf s d x) := by
  unfold keepLeaf
  split <;> exact h
theorem xlatePiece_memOk (ag : Agent) (k : AKind) (va len : Nat) {s : State} (h : memOk s) :
    (xlatePiece s ag k va len).After memOk := by
  unfold xlatePiece
  have hr := loadRange_memOk ag.unit ag.asid h
  split
  · trivial
  · next heq => rw [heq] at hr; exact hr
  · next heq =>
    rw [heq] at hr
    split
    · split
      · trivial
      · exact (rdDesc_memOk _ _ hr).bind fun _ _ ht => ht
    · split
      split
      · trivial
      · refine (leafFor_memOk _ _ _ hr).bind fun _ _ ht => ?_
        dsimp only
        split
        · exact ht
        · split
          · exact ht
          · exact keepLeaf_memOk _ _ ht
/-- Translation keeps the form. -/
theorem xlate_memOk (ag : Agent) (k : AKind) (fuel va n : Nat) {s : State} (h : memOk s) :
    (xlate ag k fuel s va n).After memOk := by
  induction fuel generalizing s va n with
  | zero => exact h
  | succ m ih =>
    unfold xlate
    split
    · exact h
    · exact (xlatePiece_memOk _ _ _ _ h).bind fun _ _ ht => (ih _ _ ht).bind fun _ _ ht => ht

theorem writeBack_memOk (l : Line) {s : State} (h : memOk s) : memOk (writeBack s l) :=
  updPkg_memOk _ (wrPhys_memOk _ _ h)
theorem loseLine_memOk (d : Nat) (l : Line) {s : State} (h : memOk s) : memOk (loseLine s d l) := by
  unfold loseLine
  dsimp only
  split
  · exact updPkg_memOk _ (countBad_memOk _ _ h)
  · exact countBad_memOk _ _ h
theorem softOut_memOk (d : Nat) (l : Line) {s : State} (h : memOk s) : memOk (softOut s d l) := by
  unfold softOut
  dsimp only
  split
  · exact h
  · exact countFd_memOk _ _ _ _ h
theorem evict_memOk (d : Nat) (l : Line) {s : State} (h : memOk s) : memOk (evict s d l) := by
  unfold evict
  refine updDie_memOk _ _ ?_
  split
  · exact loseLine_memOk d l h
  · split
    · exact writeBack_memOk l (softOut_memOk d l h)
    · exact h
theorem victim_memOk (d sl st fuel : Nat) {s : State} (h : memOk s) : ∀ w t, victim s d sl st fuel = some (w, t) → memOk t := by
  induction fuel generalizing s with
  | zero => exact fun _ _ hv => nomatch hv
  | succ n ih =>
    intro w t hv
    unfold victim at hv
    dsimp only at hv
    split at hv
    · cases hv
      exact h
    · split at hv
      · cases hv
        exact evict_memOk d _ h
      · split at hv
        · exact ih (updDie_memOk d (fun x => ageSet x sl st) h) w t hv
        · split at hv
          · cases hv
            exact evict_memOk d _ h
          · cases hv
theorem allocate_memOk (sg : Seg) (ch : Hint) (u : Bool) {s : State} (h : memOk s) :
    ∀ l t, allocate s sg ch u = some (l, t) → memOk t := by
  intro l t ha
  unfold allocate at ha
  dsimp only at ha
  split at ha
  · cases ha
  · next heq =>
    have := victim_memOk _ _ _ _ h _ _ heq
    cases ha
    simpa [memOk] using this
theorem applyBin_memOk (b : Bin) {s : State} (h : memOk s) : memOk (applyBin s b) :=
  wrPhys_memOk _ _ (repair_memOk _ _ h)
theorem clearGran_mem (s : State) (d gran : Nat) : (clearGran s d gran).mem = s.mem := by
  unfold clearGran
  dsimp only
  split <;> rfl
/-- The apply of a granule keeps the form. -/
theorem applyGran_memOk (d gran : Nat) {s : State} (h : memOk s) : memOk (applyGran s d gran) := by
  unfold applyGran
  refine (memOk_congr ((markBins_mem _ _).trans (clearGran_mem _ _ _))).mpr (updDie_memOk _ _ ?_)
  exact foldl_memOk (fun s x hs => applyBin_memOk x hs) _ h
theorem tagCheck_memOk (d sl st : Nat) {s : State} (h : memOk s) : memOk (tagCheck s d sl st) := by
  have hf := fun l => foldl_memOk (fun s x hs => loseLine_memOk d x hs) l h
  unfold tagCheck
  dsimp only
  split
  · exact h
  · refine updDie_memOk _ _ ?_
    split
    · exact hf _
    · exact countFd_memOk _ _ _ _ (hf _)
theorem softFix_mem (s : State) (d : Nat) (l : Line) (ks : List Nat) : (softFix s d l ks).1.mem = s.mem := by
  unfold softFix
  dsimp only
  split
  · rfl
  · simp
theorem softFix_memOk (d : Nat) (l : Line) (ks : List Nat) {s : State} (h : memOk s) : memOk (softFix s d l ks).1 :=
  (memOk_congr (softFix_mem s d l ks)).mpr h
theorem filledBytes_memOk (sg : Seg) (l : Line) {s : State} (h : memOk s) : (filledBytes s sg l).After memOk := by
  unfold filledBytes
  dsimp only
  split
  · exact countBad_memOk _ _ h
  · exact h
theorem rdMiss_memOk (sg : Seg) (ch : Hint) (u : Bool) {s : State} (h : memOk s) : (rdMiss s sg ch u).After memOk := by
  unfold rdMiss
  split
  · exact rdStack_memOk _ _ h
  · split
    · trivial
    · next heq => exact filledBytes_memOk _ _ (allocate_memOk _ _ _ h _ _ heq)
theorem wrStack_memOk (pa : Nat) (bs : List Byte) {s : State} (h : memOk s) : memOk (wrStack s pa bs) :=
  repair_memOk _ _ (updPkg_memOk _ (wrPhys_memOk _ _ h))
theorem stackGate_memOk (pa : Nat) {s : State} (h : memOk s) : (stackGate s pa).After memOk := by
  unfold stackGate
  dsimp only
  split
  · exact h
  · split
    · exact h
    · trivial
theorem rdApplied_memOk (sg : Seg) {s : State} (h : memOk s) : (rdApplied s sg).After memOk := by
  unfold rdApplied
  split
  · exact countBad_memOk _ _ h
  · exact rdStack_memOk _ _ h
theorem rdLine_memOk (sg : Seg) (ch : Hint) (u : Bool) {s : State} (h : memOk s) : (rdLine s sg ch u).After memOk := by
  have hg := fun d sl st => tagCheck_memOk d sl st h
  unfold rdLine
  dsimp only
  split
  · split
    · trivial
    · split
      · exact updDie_memOk _ _ (softFix_memOk _ _ _ (hg _ _ _))
      · split
        · exact countBad_memOk _ _ (hg _ _ _)
        · exact rdMiss_memOk _ _ _ (updDie_memOk _ _ (hg _ _ _))
  · exact rdMiss_memOk _ _ _ (hg _ _ _)
/-- A read of a piece keeps the form. -/
theorem rdSeg_memOk (sg : Seg) (ch : Hint) (u : Bool) {s : State} (h : memOk s) : (rdSeg s sg ch u).After memOk := by
  unfold rdSeg
  split
  · exact rdHost_memOk _ _ h
  · refine (stackGate_memOk _ h).bind fun _ _ ht => ?_
    have ho := overAccess_memOk sg.pa ht
    dsimp only
    split
    · trivial
    · split
      · split
        · trivial
        · have ha := applyGran_memOk sg.die (sg.pa / 4096) ho
          revert ha
          generalize applyGran _ sg.die (sg.pa / 4096) = t
          exact fun ha => rdApplied_memOk _ ha
      · exact rdLine_memOk _ _ _ ho
/-- A write of a piece keeps the form. -/
theorem wrSeg_memOk (sg : Seg) (bs : List Byte) (ch : Hint) (u : Bool) {s : State} (h : memOk s) :
    (wrSeg s sg bs ch u).After memOk := by
  unfold wrSeg
  split
  · exact wrPhys_memOk _ _ h
  · refine (stackGate_memOk _ h).bind fun _ _ ht => ?_
    have ho := overAccess_memOk sg.pa ht
    dsimp only
    split
    · trivial
    · split
      · split
        · trivial
        · exact wrStack_memOk _ _ (applyGran_memOk _ _ ho)
      · have hg := fun d sl st => tagCheck_memOk d sl st ho
        split
        · split
          · trivial
          · exact updDie_memOk _ _ (softFix_memOk _ _ _ (hg _ _ _))
        · split
          · exact wrStack_memOk _ _ (hg _ _ _)
          · split
            · trivial
            · next heq => exact updDie_memOk _ _ (allocate_memOk _ _ _ (hg _ _ _) _ _ heq)
theorem rdSegs_memOk (ch : Hint) (u : Bool) (l : List Seg) {s : State} (h : memOk s) : (rdSegs ch u s l).After memOk := by
  induction l generalizing s with
  | nil => exact h
  | cons sg l ih => exact (rdSeg_memOk _ _ _ h).bind fun _ _ ht => (ih ht).bind fun _ _ ht => ht
theorem wrSegs_memOk (ch : Hint) (u : Bool) (l : List (Seg × List Byte)) {s : State} (h : memOk s) :
    (wrSegs ch u s l).After memOk := by
  induction l generalizing s with
  | nil => exact h
  | cons x l ih => exact (wrSeg_memOk _ _ _ _ h).bind fun _ _ ht => ih ht
theorem segsReady_memOk (l : List Seg) {s : State} (h : memOk s) : (segsReady s l).After memOk := by
  induction l generalizing s with
  | nil => exact h
  | cons sg l ih =>
    refine MemR.After.bind ?_ fun _ _ ht => ih ht
    unfold segReady
    split
    · exact h
    · refine (stackGate_memOk _ h).bind fun _ _ ht => ?_
      split
      · trivial
      · split
        · split
          · trivial
          · exact ht
        · exact ht
/-- Being served at the slices keeps the form. -/
theorem countServed_memOk (u : Bool) (l : List Seg) {s : State} (h : memOk s) : memOk (countServed s u l) :=
  foldl_memOk (fun _ _ ht => updDie_memOk _ _ ht) _ h
theorem atSlices_memOk {α : Type} (ag : Agent) (wr : Bool) (l : List Seg) {k : State → MemR α} {s : State} (h : memOk s)
    (hk : ∀ t, memOk t → (k t).After memOk) : (atSlices s ag wr l k).After memOk := by
  unfold atSlices
  dsimp only
  split
  · have hr := hk _ (countServed_memOk ((((s.pkg.asks.find? fun a => ag.who == some a.who && a.segs == l).map
      fun a => a.ag.urgent)).getD ag.urgent) l (s := updPkg s fun q =>
        { q with asks := q.asks.filter fun a => !(ag.who == some a.who && a.segs == l) }) h)
    split
    · trivial
    · exact hr
  · trivial
/-- An access at its slices waits, or it goes on from a state in which its request stands no more and its slices have counted
it (R110). -/
theorem atSlices_cases {α : Type} (s : State) (ag : Agent) (wr : Bool) (l : List Seg) (k : State → MemR α) :
    (∃ q, atSlices s ag wr l k = .wait q) ∨
    ∃ a urg, atSlices s ag wr l k = k (countServed (updPkg s fun p => { p with asks := a }) urg l) := by
  unfold atSlices
  dsimp only
  split
  · split
    · exact .inl ⟨_, rfl⟩
    · exact .inr ⟨_, _, rfl⟩
  · exact .inl ⟨_, rfl⟩
/-- Noting refused accesses changes the requests that stand and their numbering alone. -/
@[simp] theorem noteAsks_nil (s : State) : noteAsks s [] = s := rfl
theorem addAsk_eq (s : State) (a : Ask) :
    ∃ q n, addAsk s a = updPkg s fun p => { p with asks := q, nextAsk := n } := by
  unfold addAsk
  split
  · exact ⟨s.pkg.asks, s.pkg.nextAsk, rfl⟩
  · exact ⟨_, _, rfl⟩
theorem noteAsks_eq (s : State) (l : List Ask) :
    ∃ q n, noteAsks s l = updPkg s fun p => { p with asks := q, nextAsk := n } := by
  unfold noteAsks
  split
  · exact ⟨s.pkg.asks, s.pkg.nextAsk, rfl⟩
  · suffices h : ∀ (l : List Ask) (t : State), (∃ q n, t = updPkg s fun p => { p with asks := q, nextAsk := n }) →
        ∃ q n, l.foldl addAsk t = updPkg s fun p => { p with asks := q, nextAsk := n } from h l _ ⟨_, s.pkg.nextAsk, rfl⟩
    intro l
    induction l with
    | nil => exact fun _ h => h
    | cons a l ih =>
      rintro t ⟨q, n, rfl⟩
      obtain ⟨q', n', he⟩ := addAsk_eq (updPkg s fun p => { p with asks := q, nextAsk := n }) a
      exact ih _ ⟨q', n', he⟩
/-- The requests that stand at the slices are no memory. -/
theorem addAsk_memOk (a : Ask) {s : State} (h : memOk s) : memOk (addAsk s a) := by
  unfold addAsk
  split
  · exact h
  · exact h
theorem noteAsks_memOk (l : List Ask) {s : State} (h : memOk s) : memOk (noteAsks s l) := by
  unfold noteAsks
  split
  · exact h
  · exact foldl_memOk (fun _ _ ht => addAsk_memOk _ ht) l h
/-- An access of virtual memory keeps the form, whether it is made, waits or faults. -/
theorem memRead_memOk (ag : Agent) (k : AKind) (va n : Nat) (ch : Hint) {s : State} (h : memOk s) :
    (memRead s ag k va n ch).After memOk :=
  (xlate_memOk _ _ _ _ _ h).bind fun _ _ ht => atSlices_memOk _ _ _ ht fun _ ht =>
    (rdSegs_memOk _ _ _ ht).bind fun _ _ ht => ht
theorem memWrite_memOk (ag : Agent) (k : AKind) (va : Nat) (bs : List Byte) (ch : Hint) {s : State} (h : memOk s) :
    (memWrite s ag k va bs ch).After memOk :=
  (xlate_memOk _ _ _ _ _ h).bind fun _ _ ht => by
    split
    · trivial
    · exact atSlices_memOk _ _ _ ht fun _ ht => (segsReady_memOk _ ht).bind fun _ _ ht => wrSegs_memOk _ _ _ ht

end Sys2Proof.Machine
end

