-- ==== Sys2Proof/Laws/Ops.lean ====
section
/-!
SUPPORT. What the shared operations of the issuing context do: results, traps, waits, the return of the handler, the
stack cache and the store queue. One lemma says everything that an operation can answer; the others say what it keeps.
-/
namespace Sys2Proof.Machine

/-- Memory, pod storage, C-dies, the agenda and the issuer are the same. -/
def KeepsUnits (s t : State) : Prop :=
  t.mem = s.mem ∧ t.vregs = s.vregs ∧ t.tiles = s.tiles ∧ t.vers = s.vers ∧ t.sp = s.sp ∧
    t.unseen = s.unseen ∧ t.spfmt = s.spfmt ∧ t.dies = s.dies ∧ t.agenda = s.agenda ∧ t.issuer = s.issuer
theorem KeepsUnits.rfl' (s : State) : KeepsUnits s s := ⟨rfl, rfl, rfl, rfl, rfl, rfl, rfl, rfl, rfl, rfl⟩
theorem KeepsUnits.trans {s t u : State} (h : KeepsUnits s t) (k : KeepsUnits t u) : KeepsUnits s u := by
  obtain ⟨h1, h2, h3, h4, h5, h6, h7, h8, h9, ha⟩ := h
  obtain ⟨k1, k2, k3, k4, k5, k6, k7, k8, k9, ka⟩ := k
  exact ⟨k1.trans h1, k2.trans h2, k3.trans h3, k4.trans h4, k5.trans h5, k6.trans h6, k7.trans h7, k8.trans h8,
    k9.trans h9, ka.trans ha⟩
theorem KeepsUnits.memOk {s t : State} (h : KeepsUnits s t) (hm : memOk s) : memOk t := (memOk_congr h.1).mpr hm
/-- Every context but g is the same. -/
def KeepsOthers (s t : State) (g : Nat) : Prop := ∀ g', g' ≠ g → ctxOf t g' = ctxOf s g'
theorem KeepsOthers.trans {s t u : State} {g : Nat} (h : KeepsOthers s t g) (k : KeepsOthers t u g) : KeepsOthers s u g :=
  fun g' hg => (k g' hg).trans (h g' hg)
theorem KeepsOthers.of_ctxs {s t : State} (g : Nat) (h : t.ctxs = s.ctxs) : KeepsOthers s t g :=
  fun g' _ => by simp only [ctxOf, h]
theorem ctxOf_congr {s t : State} (h : t.ctxs = s.ctxs) (g : Nat) : ctxOf t g = ctxOf s g := by simp only [ctxOf, h]

@[simp] theorem ctxOf_countFd (s : State) (c i w n g : Nat) : ctxOf (countFd s c i w n) g = ctxOf s g := rfl
@[simp] theorem ctxOf_updPod (s : State) (p : Nat) (f : Pod → Pod) (g : Nat) : ctxOf (updPod s p f) g = ctxOf s g := rfl
@[simp] theorem ctxOf_updDie (s : State) (d : Nat) (f : Die → Die) (g : Nat) : ctxOf (updDie s d f) g = ctxOf s g := rfl
@[simp] theorem ctxOf_updPkg (s : State) (f : Pkg → Pkg) (g : Nat) : ctxOf (updPkg s f) g = ctxOf s g := rfl
@[simp] theorem ctxOf_updLaunch (s : State) (l : Nat) (f : Launch → Launch) (g : Nat) : ctxOf (updLaunch s l f) g = ctxOf s g := rfl
@[simp] theorem ctxOf_raiseEvent (s : State) (k g : Nat) : ctxOf (raiseEvent s k) g = ctxOf s g := rfl
@[simp] theorem ctxOf_wrPhys (s : State) (a : Nat) (bs : List Byte) (g : Nat) : ctxOf (wrPhys s a bs) g = ctxOf s g := rfl
@[simp] theorem ctxOf_markFatal (s : State) (g c n g' : Nat) : ctxOf (markFatal s g c n) g' = ctxOf s g' :=
  ctxOf_congr (markFatal_ctxs _ _ _ _) g'

/-! ### Updates of a context -/

theorem updCtx_units (s : State) (g : Nat) (f : Ctx → Ctx) : KeepsUnits s (updCtx s g f) := KeepsUnits.rfl' s
theorem updCtx_others (s : State) (g : Nat) (f : Ctx → Ctx) : KeepsOthers s (updCtx s g f) g :=
  fun g' hg => by rw [ctxOf_updCtx, if_neg hg]
@[simp] theorem ctxOf_updCtx_same (s : State) (g : Nat) (f : Ctx → Ctx) : ctxOf (updCtx s g f) g = f (ctxOf s g) := by
  rw [ctxOf_updCtx, if_pos rfl]
theorem updHalf_units (s : State) (g : Nat) (h : HalfId) (f : Half → Half) : KeepsUnits s (updHalf s g h f) :=
  updCtx_units _ _ _
theorem updHalf_others (s : State) (g : Nat) (h : HalfId) (f : Half → Half) : KeepsOthers s (updHalf s g h f) g :=
  updCtx_others _ _ _
@[simp] theorem ctxOf_updHalf_same (s : State) (g : Nat) (h : HalfId) (f : Half → Half) :
    ctxOf (updHalf s g h f) g = (ctxOf s g).setHalf h (f ((ctxOf s g).half h)) := ctxOf_updCtx_same _ _ _
@[simp] theorem setHalf_half_same (c : Ctx) (h : HalfId) (x : Half) : (c.setHalf h x).half h = x := by cases h <;> rfl
/-- Two updates of one half are one. -/
theorem setHalf_setHalf (c : Ctx) (h : HalfId) (x y : Half) : (c.setHalf h x).setHalf h y = c.setHalf h y := by
  cases h <;> rfl
@[simp] theorem setHalf_phase (c : Ctx) (h : HalfId) (x : Half) : (c.setHalf h x).phase = c.phase := by cases h <;> rfl
@[simp] theorem setHalf_launch (c : Ctx) (h : HalfId) (x : Half) : (c.setHalf h x).launch = c.launch := by cases h <;> rfl
@[simp] theorem setHalf_cmds (c : Ctx) (h : HalfId) (x : Half) : (c.setHalf h x).cmds = c.cmds := by cases h <;> rfl
@[simp] theorem setHalf_stk (c : Ctx) (h : HalfId) (x : Half) : (c.setHalf h x).stk = c.stk := by cases h <;> rfl
@[simp] theorem setHalf_dbgPend (c : Ctx) (h : HalfId) (x : Half) : (c.setHalf h x).dbgPend = c.dbgPend := by
  cases h <;> rfl
/-- The half that issues after its update. -/
@[simp] theorem curH_updH (s : State) (f : Half → Half) : curH (updH s f) = f (curH s) := by
  show ((ctxOf (updHalf s s.issuer.gcn s.issuer.half f) s.issuer.gcn).half s.issuer.half) = _
  rw [ctxOf_updHalf_same, setHalf_half_same]
  rfl
@[simp] theorem cur_updCur (s : State) (f : Ctx → Ctx) : cur (updCur s f) = f (cur s) := ctxOf_updCtx_same _ _ _
theorem updH_units (s : State) (f : Half → Half) : KeepsUnits s (updH s f) := updHalf_units _ _ _ _
theorem updH_others (s : State) (f : Half → Half) : KeepsOthers s (updH s f) s.issuer.gcn := updHalf_others _ _ _ _

/-! ### Results (R61, R233) -/

theorem addPend_units (s : State) (lat : Nat) (ws : List Wr) : KeepsUnits s (addPend s lat ws) := updH_units _ _
theorem addPend_others (s : State) (lat : Nat) (ws : List Wr) : KeepsOthers s (addPend s lat ws) s.issuer.gcn :=
  updH_others _ _
@[simp] theorem curH_addPend (s : State) (lat : Nat) (ws : List Wr) :
    curH (addPend s lat ws) = { curH s with
      pend := (curH s).pend ++ [⟨(curH s).cycle + lat, ws, (cur s).dbgPend, (cur s).beat, (curH s).cycle⟩] } :=
  curH_updH _ _
/-- A value that s63 may take goes on (R68, R72). -/
theorem checkS63_within {s : State} {v : Word} (k : State → Outcome)
    (h : if inHandler s then (cur s).prvhw ≤ v ∧ v ≤ (cur s).prvtop else (cur s).stklim ≤ v ∧ v ≤ (cur s).stktop) :
    checkS63 s v k = k s := by
  unfold checkS63
  cases hh : inHandler s <;> simp only [hh, if_true, if_false, Bool.false_eq_true] at h ⊢
  · have h1 : ¬ v < (cur s).stklim := fun hl => absurd (BitVec.lt_def.mp hl) (by have := BitVec.le_def.mp h.1; omega)
    have h2 : ¬ (cur s).stktop < v := fun hl => absurd (BitVec.lt_def.mp hl) (by have := BitVec.le_def.mp h.2; omega)
    simp [h1, h2]
  · simp [h.1, h.2]
/-- In an ordinary context any other value is the stack-limit trap (R68). -/
theorem checkS63_outside {s : State} {v : Word} (k : State → Outcome) (hh : inHandler s = false)
    (h : v < (cur s).stklim ∨ (cur s).stktop < v) : checkS63 s v k = raise s causeStack := by
  unfold checkS63
  simp only [hh, Bool.false_eq_true, if_false]
  rcases h with h | h <;> simp [h]
/-- A result for s0 is discarded (R233). -/
@[simp] theorem putS_s0 (s : State) (v : Word) (lat : Nat) : putS s 0#6 v lat = .next s := rfl
/-- A result for another register than s63 is queued (R61). -/
theorem putS_queued {s : State} {d : SReg} (v : Word) (lat : Nat) (h0 : d ≠ 0#6) (h : d ≠ 63#6) :
    putS s d v lat = .next (addPend s lat [.s d v]) := by
  show (if d = 0#6 then _ else if d = 63#6 then _ else _) = _
  rw [if_neg h0, if_neg h]
/-- A result for s63 is checked first (R233). -/
theorem putS_s63 (s : State) (v : Word) (lat : Nat) :
    putS s 63#6 v lat = checkS63 s v fun s => .next (addPend s lat [.s 63#6 v]) := rfl
/-- A result of a register that may take it: all that `putS` does then. -/
theorem putS_within {s : State} {d : SReg} {v : Word} (lat : Nat)
    (h : d = 63#6 → if inHandler s then (cur s).prvhw ≤ v ∧ v ≤ (cur s).prvtop else (cur s).stklim ≤ v ∧ v ≤ (cur s).stktop) :
    putS s d v lat = .next (if d = 0#6 then s else addPend s lat [.s d v]) := by
  by_cases h0 : d = 0#6
  · subst h0
    rfl
  · by_cases h1 : d = 63#6
    · subst h1
      rw [putS_s63, checkS63_within _ (h rfl)]
      rfl
    · rw [putS_queued v lat h0 h1, if_neg h0]

/-! ### Traps (R391 to R399, R402) -/

theorem countFd_units (s : State) (c i w n : Nat) : KeepsUnits s (countFd s c i w n) := KeepsUnits.rfl' s
theorem markFatal_units (s : State) (g cause named : Nat) : KeepsUnits s (markFatal s g cause named) := by
  simp [KeepsUnits]
theorem freeze_units (s : State) (g : Nat) (h : HalfId) (cause arg : Nat) (w q : Bool) :
    KeepsUnits s (freeze s g h cause arg w q) := by
  simp [KeepsUnits]
/-- A trap changes neither storage nor memory. -/
theorem raiseW_units (s : State) (cause arg : Nat) (w : Bool) : KeepsUnits s (raiseW s cause arg w) := by
  unfold raiseW
  dsimp only
  split
  · refine KeepsUnits.trans ?_ (updCtx_units _ _ _)
    exact (markFatal_units _ _ _ _).trans (countFd_units _ _ _ _ _)
  · exact freeze_units _ _ _ _ _ _ _
theorem enterFrozen_others (s : State) (g : Nat) : KeepsOthers s (enterFrozen s g) g := by
  intro g' hg
  unfold enterFrozen
  dsimp only
  split
  · rfl
  · split
    · rfl
    · split
      · rw [updCtx_others _ _ _ g' hg]
      · split
        · rw [ctxOf_markFatal, updCtx_others _ _ _ g' hg]
        · rw [ctxOf_updPod, updCtx_others _ _ _ g' hg]
theorem freeze_others (s : State) (g : Nat) (h : HalfId) (cause arg : Nat) (w q : Bool) :
    KeepsOthers s (freeze s g h cause arg w q) g := by
  intro g' hg
  unfold freeze
  dsimp only
  split
  · rw [enterFrozen_others _ _ g' hg, updCtx_others _ _ _ g' hg]
  · rw [enterFrozen_others _ _ g' hg, ctxOf_countFd, updCtx_others _ _ _ g' hg]
/-- A context whose halves have all stopped is Frozen, with its steps of R396 left to do. -/
theorem enterFrozen_ctx {s : State} {g : Nat} {q : Bool} (h : (ctxOf s g).stopBy = some q)
    (hs : ((ctxOf s g).halves.all fun k => hasStopped ((ctxOf s g).half k)) = true) :
    ctxOf (enterFrozen s g) g =
      { ctxOf s g with
        phase := .frozen, stopBy := none, settling := true
        prim := freezeHalf (ctxOf s g).prim, spare := (ctxOf s g).spare.map freezeHalf } := by
  unfold enterFrozen
  simp only [h, hs, Bool.not_true, Bool.false_eq_true, if_false]
  split
  · rw [ctxOf_updCtx_same]
  · split
    · rw [ctxOf_markFatal, ctxOf_updCtx_same]
    · rw [ctxOf_updPod, ctxOf_updCtx_same]
/-- TSW of a freeze of a half with a cause (R393). -/
def freezeTsw (s : State) (g : Nat) (h : HalfId) (cause arg : Nat) (w : Bool) : Word :=
  tswWord arg ((ctxOf s g).half h).rep (ctxOf s g).spare.isSome h w
    (if ((ctxOf s g).half h).slot < 6 then ((ctxOf s g).half h).slot else 5) cause
/-- A context that is not split freezes at once: its TSW and its TPC (R393, R395). -/
theorem freeze_ctx {s : State} {g : Nat} (cause arg : Nat) (w q : Bool) (hn : (ctxOf s g).stopBy = none)
    (hs : (ctxOf s g).spare = none) :
    ctxOf (freeze s g .primary cause arg w q) g =
      { ctxOf s g with
        phase := .frozen, stopBy := none, settling := true, tsw := freezeTsw s g .primary cause arg w
        prim := { (ctxOf s g).prim with
          tpc := tpcOf (ctxOf s g).prim.pc, pc := tpcOf (ctxOf s g).prim.pc, wait := .none, ask := none, live := false,
          verOk := false } } := by
  unfold freeze
  simp only [hn, Option.isSome_none, Bool.false_eq_true, if_false]
  rw [enterFrozen_ctx (q := q)]
  · rw [ctxOf_countFd, ctxOf_updCtx_same]
    simp [hs, Ctx.setHalf, freezeHalf, freezeTsw]
  · rw [ctxOf_countFd, ctxOf_updCtx_same]
  · rw [ctxOf_countFd, ctxOf_updCtx_same]
    simp [hs, Ctx.halves, Ctx.setHalf, hasStopped]
/-- With a handler, the context goes to the end of the queue of its pod (R399). -/
theorem freeze_queue {s : State} {g : Nat} (cause arg : Nat) (w : Bool) (hn : (ctxOf s g).stopBy = none)
    (hs : (ctxOf s g).spare = none) (ht : (ctxOf s g).tvec ≠ 0#64) :
    (pod (freeze s g .primary cause arg w true) (podOf g)).queue = (pod s (podOf g)).queue ++ [slotOfG g] := by
  unfold freeze enterFrozen
  simp only [hn, Option.isSome_none, Bool.false_eq_true, if_false, ctxOf_countFd, ctxOf_updCtx_same]
  have h1 : (Ctx.halves { (ctxOf s g).setHalf .primary { (ctxOf s g).half .primary with wait := .stopped, live := false } with
      tsw := freezeTsw s g .primary cause arg w, stopBy := some true }).all (fun h => hasStopped (Ctx.half
        { (ctxOf s g).setHalf .primary { (ctxOf s g).half .primary with wait := .stopped, live := false } with
          tsw := freezeTsw s g .primary cause arg w, stopBy := some true } h)) = true := by
    simp [hs, Ctx.halves, Ctx.setHalf, hasStopped]
  unfold freezeTsw at h1
  simp only [h1, Bool.not_true, Bool.false_eq_true, if_false]
  have h2 : ((ctxOf s g).setHalf .primary { (ctxOf s g).half .primary with wait := .stopped, live := false }).tvec ≠ 0#64 := ht
  rw [if_neg h2, pod_updPod, if_pos rfl]
  rfl
/-- A trap in an ordinary context is a freeze. -/
theorem raiseW_ordinary {s : State} (cause arg : Nat) (w : Bool) (h : isHandler s.issuer.gcn = false) :
    raiseW s cause arg w = freeze s s.issuer.gcn s.issuer.half cause arg w true := by
  unfold raiseW
  simp [h]
/-- A context that traps and is not split is Frozen, the handler slot too (R395, R402). -/
theorem raiseW_phase {s : State} (cause arg : Nat) (w : Bool)
    (h : isHandler s.issuer.gcn = false → (cur s).stopBy = none ∧ (cur s).spare = none ∧ s.issuer.half = .primary) :
    (cur (raiseW s cause arg w)).phase = .frozen := by
  unfold cur
  rw [(raiseW_units s cause arg w).2.2.2.2.2.2.2.2.2]
  cases hh : isHandler s.issuer.gcn
  · obtain ⟨h1, h2, h3⟩ := h hh
    rw [raiseW_ordinary _ _ _ hh, h3, freeze_ctx _ _ _ _ h1 h2]
  · unfold raiseW
    simp only [hh, if_true]
    rw [ctxOf_updCtx_same]
theorem raiseW_others (s : State) (cause arg : Nat) (w : Bool) : KeepsOthers s (raiseW s cause arg w) s.issuer.gcn := by
  cases h : isHandler s.issuer.gcn
  · rw [raiseW_ordinary _ _ _ h]
    exact freeze_others _ _ _ _ _ _ _
  · unfold raiseW
    simp only [h, if_true]
    exact (KeepsOthers.of_ctxs _ (by simp)).trans (updCtx_others _ _ _)
/-- A trap answers a next state. -/
theorem raise_next (s : State) (cause : Nat) : raise s cause = .next (raiseW s cause 0 false) := rfl

/-! ### Waits (R60, R185) -/

theorem waitAt_units (s : State) (w : Wait) (sw : Bool) : KeepsUnits s (waitAt s w sw) := by
  simp [KeepsUnits]
theorem waitAt_others (s : State) (w : Wait) (sw : Bool) : KeepsOthers s (waitAt s w sw) s.issuer.gcn := by
  suffices ∀ t, KeepsOthers s t s.issuer.gcn → t.issuer = s.issuer →
      KeepsOthers s (if sw then updCur t parkIfDone else t) s.issuer.gcn from
    this _ (by
      split
      · intro g' hg
        rw [ctxOf_updPkg]
        exact updH_others _ _ g' hg
      · exact updH_others _ _) (by split <;> rfl)
  intro t ht hi
  split
  · exact ht.trans (hi ▸ updCtx_others _ _ _)
  · exact ht
/-- An interlock that is no access changes only the wait of the half, with the urgency at which it began. -/
theorem waitAt_interlock (s : State) {w : Wait} (h : w.isAccess = false) :
    waitAt s w false = updH s fun h => { h with wait := w, urgAt := (cur s).urgent && !inHandler s, ask := none } := by
  simp [waitAt, h]
/-- A waiting access also keeps the place of its first try among the arrivals (R110). -/
theorem waitAt_access (s : State) (i : Instr) :
    waitAt s (.access i) false = updPkg
      (updH s fun h => { h with wait := .access i, urgAt := (cur s).urgent && !inHandler s,
                                ask := some (h.ask.getD s.pkg.nextAsk) })
      fun p => { p with nextAsk := s.pkg.nextAsk + 1 } := rfl

/-! ### The stack cache and the store queue -/

theorem stkWriteBack_memOk (w : Option Who) (g : Nat) (l : StkLine) {s : State} (h : memOk s) :
    (stkWriteBack s w g l).After memOk :=
  memWrite_memOk _ _ _ _ _ h
theorem updCtx_memOk (g : Nat) (f : Ctx → Ctx) {s : State} (h : memOk s) : memOk (updCtx s g f) := h
theorem updHalf_memOk (g : Nat) (k : HalfId) (f : Half → Half) {s : State} (h : memOk s) : memOk (updHalf s g k f) := h
theorem stkCleanOne_memOk (w : Option Who) (g : Nat) (l : StkLine) {r : State × Bool} (h : memOk r.1) :
    memOk (stkCleanOne w g r l).1 := by
  unfold stkCleanOne
  have hw := stkWriteBack_memOk w g l h
  split
  · next heq => rw [heq] at hw; exact hw
  · exact foldl_memOk (fun _ _ ht => addAsk_memOk _ ht) _ h
  · next heq =>
    rw [heq] at hw
    split <;> exact hw
/-- Writing dirty lines back keeps the form. -/
theorem stkClean_memOk (w : Option Who) (g va n : Nat) {s : State} (h : memOk s) : memOk (stkClean s w g va n).1 := by
  suffices ∀ (l : List StkLine) (r : State × Bool), memOk r.1 → memOk (l.foldl (stkCleanOne w g) r).1 from
    this _ (s, false) h
  intro l
  induction l with
  | nil => exact fun _ h => h
  | cons x l ih => exact fun r hr => ih _ (stkCleanOne_memOk w g x hr)
theorem stkDrop_memOk (g va n : Nat) {s : State} (h : memOk s) : memOk (stkDrop s g va n) := h
theorem stkMakeRoom_memOk (w : Who) (g k : Nat) {s : State} (h : memOk s) : (stkMakeRoom s w g k).After memOk := by
  unfold stkMakeRoom
  dsimp only
  split
  · exact h
  · split
    · exact h
    · split
      · exact (stkWriteBack_memOk _ _ _ h).bind fun _ _ ht => ht
      · exact h
/-- What holds in the state that a stack-cache access leaves, when it leaves one. -/
def StkR.After (r : StkR) (P : State → Prop) : Prop :=
  match r with
  | .ok t => P t
  | .fault _ _ t => P t
  | .wait _ => True
theorem stkFill_memOk (g : Nat) (k : HalfId) (va p : Nat) {s : State} (h : memOk s) : (stkFill s g k va p).After memOk := by
  unfold stkFill
  split
  · exact h
  · have hr := stkMakeRoom_memOk (.fill g k va) g p h
    split
    · trivial
    · next heq => rw [heq] at hr; exact hr
    · next t heq =>
      rw [heq] at hr
      have hm := memRead_memOk ((agentOf t g).asking (.fill g k va)) .sload va 64 .normal hr
      split
      · trivial
      · next heq => rw [heq] at hm; exact hm
      · next heq => rw [heq] at hm; exact hm
theorem stkFills_memOk (g : Nat) (k : HalfId) (va n : Nat) {s : State} (h : memOk s) : (stkFills s g k va n).After memOk := by
  unfold stkFills
  dsimp only
  have h1 := stkFill_memOk g k (va / 64 * 64) ((va + n - 1) / 64 * 64) h
  split
  · next heq =>
    rw [heq] at h1
    split
    · exact h1
    · exact stkFill_memOk _ _ _ _ h1
  · exact h1
/-- A store that leaves its queue keeps the form. -/
theorem drainNth_memOk (g : Nat) (k : HalfId) (n : Nat) {s : State} (h : memOk s) : memOk (drainNth s g k n) := by
  unfold drainNth
  dsimp only
  split
  · exact h
  · next e _ =>
    have hr := segsReady_memOk (e.segs.map (·.1)) h
    split
    · exact h
    · split
      · exact h
      · next heq => rw [heq] at hr; exact hr
      · next t heq =>
        rw [heq] at hr
        have hw := wrSegs_memOk e.ch e.urg e.segs hr
        split
        · next heq => rw [heq] at hw; exact hw
        · exact hr
        · next heq => rw [heq] at hw; exact hw
theorem serveNth_memOk (g : Nat) (k : HalfId) (n : Nat) {s : State} (h : memOk s) : memOk (serveNth s g k n) := by
  unfold serveNth
  split
  · exact h
  · dsimp only
    split
    · exact h
    · exact drainNth_memOk g k n (countServed_memOk _ _ h)
theorem drainStq_memOk (g : Nat) (k : HalfId) (fuel : Nat) {s : State} (h : memOk s) : memOk (drainStq s g k fuel) := by
  induction fuel generalizing s with
  | zero => exact h
  | succ n ih =>
    unfold drainStq
    dsimp only
    split
    · exact h
    · split
      · exact ih (serveNth_memOk g k 0 h)
      · exact serveNth_memOk g k 0 h
/-- Draining the store queues of a context keeps the form. -/
theorem flushStores_memOk (g : Nat) {s : State} (h : memOk s) : memOk (flushStores s g) :=
  foldl_memOk (fun _ _ hs => drainStq_memOk _ _ _ hs) _ h

/-! ### Scalar accesses (R41, R68, R114, R244) -/

theorem recordFault_units (s : State) (g : Nat) (f : MFault) (kind va e a : Nat) : KeepsUnits s (recordFault s g f kind va e a) := by
  unfold recordFault
  dsimp only
  split
  · exact KeepsUnits.rfl' s
  · split <;> exact updCtx_units _ _ _
/-- A precise access goes on, waits interlocked, or records its fault and traps. -/
theorem withMem_cases {α : Type} (s : State) (i : Instr) (k : AKind) (va : Nat) (r : MemR α) (f : α → State → Outcome) :
    (∃ a t, r = .ok a t ∧ withMem s i k va r f = f a t) ∨
    (∃ l, r = .wait l ∧ withMem s i k va r f = .next (waitAt (noteAsks s l) (.access i) false)) ∨
    (∃ m t, r = .fault m t ∧ withMem s i k va r f =
      .next (raiseW (recordFault t (served t) m k.code va 0 (cur t).asid) (memCause m) 0 false)) := by
  cases r with
  | ok a t => exact .inl ⟨a, t, rfl, rfl⟩
  | wait l => exact .inr (.inl ⟨l, rfl, rfl⟩)
  | fault m t => exact .inr (.inr ⟨m, t, rfl, rfl⟩)
/-- The answer of a precise access keeps the form when what goes on does. -/
theorem withMem_memOk {α : Type} {s : State} (i : Instr) (k : AKind) (va : Nat) {r : MemR α} {f : α → State → Outcome}
    (h : memOk s) (hr : r.After memOk) (hf : ∀ a t, memOk t → ∀ u, f a t = .next u → memOk u) :
    ∀ u, withMem s i k va r f = .next u → memOk u := by
  intro u hu
  rcases withMem_cases s i k va r f with ⟨a, t, rfl, he⟩ | ⟨l, rfl, he⟩ | ⟨m, t, rfl, he⟩
  · exact hf a t hr u (he.symm.trans hu)
  · cases he.symm.trans hu
    exact (waitAt_units _ _ _).memOk (noteAsks_memOk l h)
  · cases he.symm.trans hu
    exact ((recordFault_units _ _ _ _ _ _ _).trans (raiseW_units _ _ _ _)).memOk hr
/-- A trap of a load or store across an end of the stack (R68). -/
theorem loadK_spans {s : State} (i : Instr) {va n : Nat} (ch : Hint) (k : Bool → Nat → State → Outcome)
    (h : stackPart s va n = .spans) : loadK s i va n ch k = raise s causeStack := by
  unfold loadK
  simp only [h]
theorem storeK_spans {s : State} (i : Instr) {va : Nat} {bs : List Byte} (ch : Hint) (k : State → Outcome)
    (h : stackPart s va bs.length = .spans) : storeK s i va bs ch k = raise s causeStack := by
  unfold storeK
  simp only [h]
/-- A load through filled lines of the stack cache (R69). -/
theorem loadK_inside {s t : State} (i : Instr) {va n : Nat} (ch : Hint) (k : Bool → Nat → State → Outcome)
    (h : stackPart s va n = .inside) (hf : stkFills s s.issuer.gcn s.issuer.half va n = .ok t) :
    loadK s i va n ch k = k true (ofBytes (stkRead t s.issuer.gcn va n)) t := by
  unfold loadK
  simp only [h, hf]
/-- A store into filled lines of the stack cache (R69). -/
theorem storeK_inside {s t : State} (i : Instr) {va : Nat} {bs : List Byte} (ch : Hint) (k : State → Outcome)
    (h : stackPart s va bs.length = .inside) (hf : stkFills s s.issuer.gcn s.issuer.half va bs.length = .ok t) :
    storeK s i va bs ch k = k (stkWrite t s.issuer.gcn va bs) := by
  unfold storeK
  simp only [h, hf]
/-- A load outside the stack, under the context's own queued stores (R155). -/
theorem loadK_outside {s t : State} (i : Instr) {va n : Nat} (ch : Hint) (k : Bool → Nat → State → Outcome)
    {bs : List Byte} (h : stackPart s va n = .outside)
    (hr : memRead s (agentOf s s.issuer.gcn) .sload va n ch = .ok bs t) :
    loadK s i va n ch k = k false (ofBytes (overlayStk (cur t) va (overlayStq (curH t) va bs))) t := by
  unfold loadK
  simp only [h, hr]
  rfl

end Sys2Proof.Machine
end

