-- ==== Sys2Proof/Tests/Slice0.lean ====
section
/-!
SUPPORT. Tests: words written out from the encodings of the manual, the terms that each check of
well-formedness refuses, and for each statement a state and operands that meet what it supposes.
-/
namespace Sys2Proof.Tests
open Sys2Proof.Machine Sys2Proof.Claims
set_option Elab.async false

/-! ### Words of the slots, field by field from the entries of chapters 09 to 14 -/

/-- `addi s3, s0, 100` (R237): 0x10, D, A, IMM. -/
theorem test_decode_addi : (decodeSyllable .sa 0x100C0064#32 []).toOption = some (.addi 3#6 0#6 100#12) := by decide
/-- `ld.d s4, [s2]` (R243). -/
theorem test_decode_ld : (decodeSyllable .sb 0x30102C00#32 []).toOption = some (.ld .d false .normal 4#6 2#6 0#7) := by decide
/-- `movi s1, 8` (R241). -/
theorem test_decode_movi : (decodeSyllable .sa 0x24040008#32 []).toOption = some (.movi 1#6 8#18) := by decide
/-- `atadd.d s6, [s5], s3` (R246). -/
theorem test_decode_atadd : (decodeSyllable .sa 0x391850E0#32 []).toOption = some (.atadd true 6#6 5#6 3#6) := by decide
/-- `loop s1, -5` (R247): the offset counts words from the bundle. -/
theorem test_decode_loop : (decodeSyllable .sa 0x4605FFFB#32 []).toOption = some (.loop 1#6 0x1FFFB#17) := by decide
/-- `arrinc own, 7, s7` (R251). -/
theorem test_decode_arrinc : (decodeSyllable .sa 0x531E0007#32 []).toOption = some (.arrinc true 0#3 7#8 7#6) := by decide
/-- `batch s8` (R252). -/
theorem test_decode_batch : (decodeSyllable .sa 0x54200000#32 []).toOption = some (.batch 8#6) := by decide
/-- `halt` (R260). -/
theorem test_decode_halt : (decodeSyllable .sa 0x6B000000#32 []).toOption = some .halt := by decide
/-- `vadd` of an indexed and a direct operand (R211, R265). -/
theorem test_decode_vadd : (decodeSyllable .v 0x108005A2#32 []).toOption =
    some (.vadd (.indexed 0#2 0#5) (.direct 5#7) (.indexed 1#2 2#5)) := by decide
/-- `vmaskf` (R276). -/
theorem test_decode_vmaskf : (decodeSyllable .v 0x33A08008#32 []).toOption =
    some (.vmaskf (.indexed 1#2 0#5) (.indexed 0#2 0#5) 2#6) := by decide
/-- `mma a0:0, shp0, k0, 2, 2` (R289). -/
theorem test_decode_mma : (decodeSyllable .m 0x01000048#32 []).toOption =
    some (.mma ⟨0#3, 0#6⟩ 0#2 0#5 2#3 2#3 false) := by decide
/-- `mstore.relu a0:1, shp0, k2` (R297). -/
theorem test_decode_mstore : (decodeSyllable .m 0x07008208#32 []).toOption =
    some (.mstore ⟨0#3, 1#6⟩ 0#2 2#5 .rne false false true false false) := by decide
/-- `xgath.keep shp1.m, k4, v[b0+0]` (R302). -/
theorem test_decode_xgath : (decodeSyllable .x 0x06522080#32 []).toOption =
    some (.xgath (.shape 1#2 .m) 4#5 .keep (.indexed 0#2 0#5)) := by decide
/-- `xwalk k8` (R320). -/
theorem test_decode_xwalk : (decodeSyllable .x 0x0B040000#32 []).toOption = some (.xwalk 8#5 .normal) := by decide
/-- `pdaadv.res h0, k5` (R358). -/
theorem test_decode_pdaadv : (decodeSyllable .x 0x23028100#32 []).toOption = some (.pdaadv 0#3 true 5#5) := by decide
/-- `gregroup s4, v0, 0` (R335). -/
theorem test_decode_gregroup : (decodeSyllable .g 0x0C100000#32 []).toOption =
    some (.gregroup false 4#6 (.direct 0#7) 0#6) := by decide
/-- `gshuf v2, v1, s4` (R333). -/
theorem test_decode_gshuf : (decodeSyllable .g 0x08020110#32 []).toOption =
    some (.gshuf (.direct 2#7) (.direct 1#7) 4#6) := by decide
/-- `gbr s20, +19` with its reconvergence in an extension word (R329). -/
theorem test_decode_gbr : (decodeSyllable .g 0x02500013#32 [23#32]).toOption = some (.gbr 20#6 19#18 23#32) := by decide

/-! ### Terms that are not well formed, one for each check -/

/-- Events of units that the package does not have (R1, R151, R366, R436, R437). -/
theorem test_wf_units : [Instr.bundleIssue 5 .primary, .resultLand 2048 .primary, .parkEnd 6,
    .pickerChoice 256, .forcedRunEnd 7, .interlockedAccessComplete 5 .spare, .stackCacheFill 4 .primary,
    .stackCacheBackgroundFill 4, .fenceComplete 5 .primary, .waitbComplete 5 .primary, .ufenceComplete 5 .primary,
    .barrierGenerationComplete 0 .die 0 4, .barrierGenerationComplete 0 .team 0 16, .versionCheckRelease 4 .primary, .arrincAccepted 4 .primary, .splitStart 4,
    .join 4, .matrixCommandComplete 4 0 0, .matrixCommandComplete 0 0 16, .mstoreComplete 0 0 16,
    .transferElement 0 0 16, .transferCommandComplete 5 0, .rangeTableLoad 9 0, .rangeTableLoad 0 4096].all
      (fun i => !i.wf) = true := by decide
/-- Events of memory, update streams and pods (R1, R111, R122). -/
theorem test_wf_memory : [Instr.rngsyncWrite 4096, .sliceAccess 5 .primary 0, .lineFillComplete 8 0 0,
    .pageWalkComplete 0 0 (2 ^ 48), .shootdownPageRange 0 0 65536, .shootdownAsid 8 0, .shootdownAll 8,
    .shootdownComplete 8, .patrolScrub 16 0, .stackTrainingStart 16, .stackTrainingEnd 16 true, .stackChannelLoss 16,
    .permitGrant 0 16, .permitGrant 5 0, .earlyApply 16, .contextKillMessage 0 8, .uprgnWrite 0 1024 0#32,
    .updrainWrite 8 0, .drainComplete 8, .podSelfTest 256 0#17 0#64 0#64 false, .handlerEntry 256,
    .stopRequestFreeze 4, .hprvhwWrite 256 0#64, .podctlHres 256, .dspresRes 8].all
      (fun i => !i.wf) = true := by decide
/-- Events of launches, the host link and the package (R366, R376, R429, R436, R437). -/
theorem test_wf_package : [Instr.dispatcherHighWaterFault 8, .startVectorSubmit 32 0#64, .closeVector 32 0#64,
    .nestRecordRead 0 4, .arrivalCounterIncrement 8, .arrcntWrite 0 256 0#32, .xtendAccept 5 0,
    .teamPlacement 0 0 [[(256, 0)]], .teamPlacement 0 0 [[(0, 4)]], .iterationHandout 0 8, .urgencyHoldBack 4,
    .resume 0#12 0#32 [[(0, 4)]], .grammarStep 4, .maskComplete 4 0, .apertureRead 8388608 true,
    .apertureWrite 8388608 true 0#64, .portStateChange 16 .up 0, .portStateChange 0 .up 5, .thermalThrottle 280,
    .thermalStop 280, .islandSettingChange 280 0 0, .islandSettingChange 0 65536 0, .functionReady (.die 8), .functionReady (.slice 0 64),
    .functionReady (.grammar 8), .functionReady (.pod 256), .mmioRegisterWrite .launch 65536 true 0#64,
    .mmioRegisterWrite .mgmt 33554432 true 0#64, .thermalThrottleEnd 280, .refreshRateChange 16 true,
    .supplyDroop 280 0, .grammarCommandComplete 4 0].all (fun i => !i.wf) = true := by decide
/-- Slot instructions whose fields their entries forbid (R243 to R246, R250, R253, R266, R289, R316, R334, R335). -/
theorem test_wf_fields : [Instr.ld .d true .normal 1#6 0#6 0#7, .ldsp .d true 0#4 1#6 0#6 0#4,
    .stsp .b true 1#4 0#6 0#6 0#4, .atcas true 63#6 0#6 0#6, .atadd true 63#6 0#6 0#6, .atswp true 63#6 0#6 0#6,
    .atand true 63#6 0#6 0#6, .ator true 63#6 0#6 0#6, .atxor true 63#6 0#6 0#6, .barr .die 4#4, .barw .grid 4#4,
    .waitb 0#3 false 0#6, .waitb 1#3 true 1#6, .vcvt .rint .rne true (.direct 0#7) (.direct 0#7),
    .mma ⟨0#3, 0#6⟩ 0#2 0#5 0#3 1#3 false, .mmag ⟨0#3, 0#6⟩ 0#2 0#5 1#3 7#3 false,
    .xemitv .w4 true .field 0#5 (.direct 0#7), .gbcast true 1#4 (.direct 0#7) (.direct 0#7),
    .gregroup false 0#6 (.direct 0#7) 0#6, .gregroup true 63#6 (.direct 0#7) 0#6].all (fun i => !i.wf) = true := by decide

/-! ### States of the witnesses -/

/-- Registers of the witnesses: s1 = 3, s2 = −1, s3 = the low end of the page, s63 inside the stack. -/
def seatRegs : NMap Word := [(1, 3#64), (2, 0xFFFFFFFFFFFFFFFF#64), (3, 0x10000#64), (63, 0x20040#64)]
/-- The half of the witnesses: lanes 0 and 1 active, at the bundle of the loaded page. -/
def seatHalf : Half := { Half.reset with am := 3#16, pc := 0x10080#64, sreg := seatRegs }
/-- A context that issues, with the budgets of a whole pod and a stack of 256 bytes. -/
def seatCtx : Ctx :=
  { Ctx.reset with phase := .issuing, asid := 1, vcnt := 256, acnt := 8, spn := 16, stktop := 0x20100#64,
                   stklim := 0x20000#64, prim := seatHalf }
/-- The machine with one context, in slot 0 of pod 0. -/
def seat (c : Ctx) : State := { State.reset with ctxs := [(0, c)] }
/-- The machine with the context issuing from slot 0. -/
def s0 : State := seat seatCtx
/-- The same with other contents of the half. -/
def seatH (f : Half → Half) : State := seat { seatCtx with prim := f seatHalf }
/-- A launch with no content. -/
def l0 : Launch :=
  { id := 7, asid := 1, tag := 9#32, q := 0, rva := 0x10040, stkva := 0, record := [0xFF01000000000000#64], kern := ⟨0x10080, 0, 16, true, [], []⟩,
    refused := 0, trig := false, fired := false, closed := false, bounds := [], exts := [], next := [], handed := 0,
    placed := [], tpods := [], waiting := [], parkedNext := [], bars := [], pre := .running, fatal := none,
    killed := false }
/-- The machine with the launch, which owns the context. -/
def seatL (l : Launch) (c : Ctx) : State :=
  { seat { c with launch := some 7 } with pkg := { Pkg.reset with launches := [l] } }
/-- The machine whose handler slot of pod 0 issues and serves slot 0, frozen; its private region is one page. -/
def seatHand (f : Ctx → Ctx) : State :=
  { State.reset with
    ctxs := [(0, { seatCtx with phase := .frozen, launch := some 7 }),
      (4, f { seatCtx with serving := some 0, prvlo := 0x30000#64, prvhw := 0x38000#64, prvtop := 0x40000#64 })]
    pkg := { Pkg.reset with launches := [l0] }
    issuer := ⟨4, .primary, .sa, Env.fresh⟩ }
/-- The machine with a page of memory mapped for ASID 1, and the context of a loaded program. -/
def paged : State := State.reset.withFetchWord 32 0x100C0064
/-- The mapped machine with the context of the witnesses and its stack in the page. -/
def pagedSeat (f : Half → Half) : State :=
  { paged with ctxs := [(0, { seatCtx with stktop := 0x10800#64, stklim := 0x10400#64, prim := f seatHalf })] }
/-- The machine after boot verification, with every die and grammar unit ready. -/
def booted (s : State) : State := updPkg s fun p => { p with bootst := 1#64, rdyDie := 0xFF#8, rdyGram := 0xFF#8 }
/-- The state in which a sequencer at its bundle fetches it. -/
def fetching (s : State) : State :=
  updHalf { s with issuer := ⟨s.issuer.gcn, .primary, .sa, Env.fresh⟩ } s.issuer.gcn .primary fun x => { x with wait := .none }
/-- The answer of an access, if it is one. -/
def okOf {α : Type} : MemR α → Option (α × State)
  | .ok x t => some (x, t)
  | _ => none

/-! ### Encodings, steps, reset -/

/-- Well-formed instructions of each slot, at boundary operands (DecodeEncode). -/
theorem test_DecodeEncode_met : [(Instr.addi 63#6 0#6 0x800#12, Slot.sa), (.vadd (.direct 127#7) (.indexed 3#2 31#5) (.direct 0#7), .v),
    (.mma ⟨7#3, 63#6⟩ 3#2 31#5 1#3 6#3 true, .m), (.xgath (.shape 3#2 .k) 31#5 .na (.direct 127#7), .x),
    (.gbr 63#6 0x20000#18 0xFFFFFFFF#32, .g)].all (fun p => slotOf p.1 == some p.2 && p.1.wf) = true := by decide
/-- Syllables that decode: one word, an extension word, and an instruction of both scalar slots in sb (EncodeDecode). -/
theorem test_EncodeDecode_met :
    ((decodeSyllable .sb 0x100C0064#32 []).toOption = some (.addi 3#6 0#6 100#12) ∧ extWords .sb 0x10 = 0) ∧
    ((decodeSyllable .g 0x02500013#32 [23#32]).toOption = some (.gbr 20#6 19#18 23#32) ∧ extWords .g 0x02 = 1) := by
  decide
/-- An empty agenda; at its head an instruction, an event of no unit, an event, and an event of the host with the link
down; host accesses of a size that none has, of 3 bytes, over the link and not (StepRunsHead). -/
theorem test_StepRunsHead_met : s0.agenda = [] ∧ slotOf (.add 1#6 1#6 1#6) ≠ none ∧
    (slotOf (.parkEnd 6) = none ∧ (Instr.parkEnd 6).wf = false) ∧
    (slotOf (.parkEnd 0) = none ∧ (Instr.parkEnd 0).wf = true ∧ (s0.pkg.linkUp = true ∨ hostMakes (.parkEnd 0) = false)) ∧
    (slotOf (.apertureRead 0 true) = none ∧ (Instr.apertureRead 0 true).wf = true ∧ hostMakes (.apertureRead 0 true) = true) ∧
    (HostAcc.read .mgmt 0 0).wf = false ∧ ((HostAcc.write .launch 65533 3 0#64).wf = true ∧ (HostAcc.write .launch 65533 3 0#64).overLink = true) ∧
    ((HostAcc.store 0x80000000007 [1#8]).wf = true ∧ (HostAcc.store 0x80000000007 [1#8]).overLink = false) := by
  decide
/-- The words fetched from the mapped page are a bundle of one syllable that decodes (StepRunsDecodedInstruction). -/
theorem test_StepRunsDecodedInstruction_met :
    (match fetchAt (fetching paged) 0 (curH paged).pc with
     | .ok hdr ws s1 =>
       let b := makeBundle hdr ws
       let s2 := begun s1 (curH s1).pc ws.length
       let at_ := updHalf { s2 with issuer := ⟨0, .primary, .sa, Env.fresh⟩ } 0 .primary fun x => { x with slot := 0 }
       let t := exec (.addi 3#6 0#6 100#12) at_
       decide (s1.issuer = (fetching paged).issuer) && decide ((curH s1).pc = (curH paged).pc) &&
         (b.map fun b => (b.header == hdr, b.slots, badMix b)) == some (true, [(.sa, 0x100C0064#32, [])], false) &&
         (decodeSyllable .sa 0x100C0064#32 []).toOption == some (.addi 3#6 0#6 100#12) &&
         (ctxOf s2 0).phase == .issuing && decide ((ctxOf s2 0).prim.wait = .none) && (ctxOf s2 0).prim.rep == 0 &&
         (ctxOf s2 0).prim.slot == 0 && (ctxOf s2 0).prim.verOk == false && (ctxOf s2 0).prim.stV.isNone &&
         (ctxOf s2 0).prim.stM.isNone && (ctxOf s2 0).prim.stX.isNone &&
         (match t with | .next t => (ctxOf t 0).phase == .issuing && decide ((ctxOf t 0).prim.wait = .none) &&
           (ctxOf t 0).prim.stV.isNone | _ => false)
     | _ => false) = true := by decide +kernel
/-- The half at the start of its bundle (StepRunsDecodedInstruction). -/
theorem test_AtBundle_met : AtBundle paged ∧ paged.agenda = [] := by
  unfold AtBundle
  decide +kernel
/-- A slot instruction (EveryInstructionGoesOn). -/
theorem test_EveryInstructionGoesOn_met : slotOf .gpop ≠ none := by decide
/-- The first issue of a bundle with one repeat more, and the last (EndOfIssue). -/
theorem test_EndOfIssue_met : (ctxOf s0 0).prim.rep < headerRep 0x00040000#32 ∧ headerRep 0#32 ≤ (ctxOf s0 0).prim.rep ∧
    (ctxOf s0 0).tretTo = none ∧ (ctxOf s0 0).tctl.getLsbD 0 = false ∧ headerSw 0#32 = false ∧
    (ctxOf s0 0).prim.switchReq = false := by decide
/-- Reset values at the ends of the ranges (ResetValues). -/
theorem test_ResetValues_met : HReg.read (.plcmap 7) State.reset = 0x76543210#64 ∧
    HReg.read (.qcfg 31) State.reset = 0x40#64 ∧ HReg.read (.engmap 255 1) State.reset = 0x0F0E0D0C0B0A0908#64 ∧
    HReg.read (.slcmap 7 7) State.reset = 0x3F3E3D3C3B3A3938#64 ∧ HReg.read .pwrcap State.reset = 3300#64 := by decide +kernel
/-- A step from reset and from a machine with memory answers a next state (StepKeepsMemory). -/
theorem test_StepKeepsMemory_met : Memory.wf State.reset.mem = true ∧ Memory.wf paged.mem = true ∧
    (match step paged with | .next _ => true | _ => false) = true := by decide +kernel
/-- A piece of the mapped page is stored and loaded (StoreThenLoad). -/
theorem test_StoreThenLoad_met :
    let sg : Seg := ⟨0, 1, 0x10104, 0x10104, 4, .normal, 0⟩
    populated sg.pa = true ∧ isPending paged sg.die sg.pa = false ∧ sg.va % 128 + sg.len ≤ 128 ∧
    ((okOf (wrSeg paged sg [1#8, 2#8, 3#8, 4#8] .normal false)).bind fun (r : Unit × State) => okOf (rdSeg r.2 sg .normal false)).map (·.1) =
      some [1#8, 2#8, 3#8, 4#8] := by decide +kernel
/-- A Parked split context whose spare half has two results for one register and a CSR write, out of due order, and whose
primary half has results of one instruction and of one due in the same cycle (LandingWritesResults). -/
theorem test_LandingWritesResults_met :
    let a : Pend := ⟨6, [.s 1#6 2#64, .s 0#6 3#64], false, 0, 4⟩
    let b : Pend := ⟨5, [.s 1#6 1#64], false, 0, 4⟩
    let c : Pend := ⟨7, [.csr 0x121 0x10000#64 1#16], false, 0, 4⟩
    let s := seat { seatCtx with phase := .parked, prim := { seatHalf with pend := [b, { a with due := 5 }] }, spare := some { seatHalf with pend := [c, a, b] } }
    (ctxOf s 0).phase = .parked ∧ (ctxOf s 0).spare ≠ none ∧ (∀ h, ((ctxOf s 0).half h).begun = false ∧ ((ctxOf s 0).half h).wait ≠ .stopped) ∧
    (((ctxOf s 0).half .spare).pend = [c, a, b] ∧ [b, a, c].Perm [c, a, b] ∧ [b, a, c].Pairwise (fun p q => p.due < q.due)) ∧
    (((ctxOf s 0).half .primary).pend = [b, { a with due := 5 }] ∧ [b, { a with due := 5 }].Pairwise (fun p q => p.due ≤ q.due)) ∧
    (0 % 8 < 4 ∧ (0x121 : Nat) < 0x200 ∧ csrKeeps 0x121#12 ≠ none ∧ csrTableOf (ctxOf s 0) 0 0x121#12 ≠ none) ∧
    (match exec (.resultLand 0 .spare) s with
     | .next t => rdSH ((ctxOf t 0).half .spare) 1#6 == 2#64 && (ctxOf t 0).stklim == 0x10000#64
     | _ => false) = true := by
  refine ⟨by decide, by decide, by intro h; cases h <;> decide, by decide, by decide, by decide, by decide +kernel⟩

/-! ### Scalar slot -/

/-- A selection by a condition that holds and by one that does not, into s63 at the ends of its stack (SelectReadsItsFields). -/
theorem test_SelectReadsItsFields_met : (0x1A000000#32).toNat / 2 ^ 24 = 0x1A ∧
    (let s := seatH fun h => { h with sreg := [(1, 0x20000#64), (2, 0x20100#64)] }
     (rdS s 1#6 ≠ 0#64 ∧ mayWrite s 63#6 (rdS s 1#6)) ∧ rdS s 0#6 = 0#64 ∧ mayWrite s 63#6 (rdS s 2#6)) := by
  unfold mayWrite
  decide
/-- The last double of a portion of one bank, and its lane's and all lanes' stores (ScratchpadWords). -/
theorem test_ScratchpadWords_met :
    let s := seat { seatCtx with spn := 1, prim := { seatHalf with sreg := [(1, 0x3FF8#64)] } }
    InPortion s (addrOf s 1#6 0#4 .d % 2 ^ 18) 8 ∧ pendingSp s 15 0x3FF8 8 = false ∧
      mayWrite s 5#6 (loaded false 8 (rdSp s 0 15 0x3FF8 8)) ∧ ¬ (true = true ∧ Size.w = .d) ∧
      ¬ (false = true ∧ 15#4 ≠ 0#4) ∧ ¬ (true = true ∧ 0#4 ≠ 0#4) := by
  unfold InPortion mayWrite
  decide
/-- Atomics of both widths at aligned addresses of the mapped page, one of which writes nothing (AtomicOperations). -/
theorem test_AtomicOperations_met :
    let s := pagedSeat fun h => { h with sreg := [(1, 1#64), (3, 0x10008#64)] }
    atomicForm (.atadd true 5#6 3#6 1#6) = some (true, 5#6, 3#6) ∧ atomicForm (.atcas false 5#6 3#6 1#6) = some (false, 5#6, 3#6) ∧
    (rdS s 3#6).toNat % 8 = 0 ∧ ¬ OverStack s 0x10008 8 ∧ storesDone (flushStores s 0) 0 = true ∧
    (atomicAccess (.atadd true 5#6 3#6 1#6) s (flushStores s 0) 0x10008 8).map (·.1) = some 0 ∧
    (atomicAccess (.atcas false 5#6 3#6 1#6) s (flushStores s 0) 0x10008 4).map (·.1) = some 0 := by
  unfold OverStack
  decide +kernel
/-- Operands at the ends of the stack, a 1, and a staging register. -/
def sR : State := seatH fun h => { h with sreg := [(1, 0x1FFFF#64), (2, 1#64), (3, 0x20100#64)], kreg := [(31, 5#64)] }
/-- Results for s63 at both ends of its stack, and for s0 (ScalarResults). -/
theorem test_ScalarResults_met :
    arith (.add 63#6 1#6 2#6) sR = some (63#6, 0x20000#64) ∧ mayWrite sR 63#6 0x20000#64 ∧
    arith (.or 63#6 3#6 0#6) sR = some (63#6, 0x20100#64) ∧ mayWrite sR 63#6 0x20100#64 ∧
    arith (.sra 0#6 1#6 2#6) sR = some (0#6, 0xFFFF#64) ∧ mayWrite sR 0#6 0xFFFF#64 := by
  dsimp only [mayWrite]
  decide
/-- A comparison that holds and one that does not, a bit field, and moves of staging and index-base registers
(ScalarResults). -/
theorem test_ScalarResults_others :
    mayWrite sR 5#6 1#64 ∧ Holds .ltu (rdS sR 2#6) (rdS sR 1#6) ∧
    ¬ Holds .eq (rdS sR 2#6) (BitVec.ofInt 64 (0x1FF#9).toInt) ∧
    bitResult (.bext 5#6 1#6 63#6 0#6) sR = some (5#6, 0#64) ∧ moveResult (.movk 5#6 31#5) sR = some (5#6, 5#64) ∧
    stagingResult (.badd 3#2 0xFF#8) sR = some (2, .b 3#2 0xFF#8) := by
  dsimp only [mayWrite, Holds]
  decide
/-- Results for s63 just outside its stack, and in the handler slot at the bounds of its private region
(StackPointerBounds). -/
theorem test_StackPointerBounds_met :
    (let s := seatH fun h => { h with sreg := [(1, 0x1FFFF#64), (2, 0x20101#64)] }
     arith (.or 63#6 1#6 0#6) s = some (63#6, 0x1FFFF#64) ∧ arith (.or 63#6 2#6 0#6) s = some (63#6, 0x20101#64) ∧
     s.issuer.gcn % 8 ≠ 4 ∧ (curH s).slot < 6 ∧ (curH s).rep < 256 ∧ (0x1FFFF < (cur s).stklim.toNat) ∧ (cur s).stktop.toNat < 0x20101) ∧
    (let s := seatHand fun c => { c with prim := { seatHalf with sreg := [(1, 0x30000#64), (2, 0x2FFFF#64), (3, 0x40001#64)] } }
     s.issuer.gcn % 8 = 4 ∧ arith (.or 63#6 1#6 0#6) s = some (63#6, 0x30000#64) ∧
     arith (.or 63#6 2#6 0#6) s = some (63#6, 0x2FFFF#64) ∧ arith (.or 63#6 3#6 0#6) s = some (63#6, 0x40001#64) ∧
     (cur s).prvlo = 0x30000#64 ∧ (cur s).prvhw = 0x38000#64 ∧ (cur s).prvtop = 0x40000#64 ∧
     (ctxOf s (served s)).launch = some 7) := by decide
/-- An instruction of each frame answers a next state (RegisterInstructionsLeaveTheRest). -/
theorem test_RegisterInstructionsLeaveTheRest_met :
    (registerOnly (.add 5#6 1#6 2#6) = true ∧ (match exec (.add 5#6 1#6 2#6) s0 with | .next _ => true | _ => false) = true) ∧
    (slotOf (.vand (.direct 1#7) (.direct 2#7) (.direct 3#7)) = some .v ∧
      (match exec (.vand (.direct 1#7) (.direct 2#7) (.direct 3#7)) s0 with | .next _ => true | _ => false) = true) := by
  decide +kernel
/-- A load and a store of the mapped page, and one that fills the stack cache (ScalarLoadsAndStores). -/
theorem test_ScalarLoadsAndStores_met :
    let s := pagedSeat fun h => { h with sreg := [(3, 0x10000#64), (4, 0x10400#64)] }
    ((loadOf s (addrOf s 3#6 0#7 .d) 8 .normal).map fun r => (r.1, r.2.2)) = some (0, false) ∧
    ((loadOf s (addrOf s 4#6 0#7 .w) 4 .normal).map fun r => (r.1, r.2.2)) = some (0, true) ∧
    (storeOf s (addrOf s 3#6 1#7 .d) (bytesOf 8 5) .keep).isSome = true ∧
    (storeOf s (addrOf s 4#6 0#7 .b) (bytesOf 1 5) .normal).isSome = true ∧
    ¬ (true = true ∧ Size.b = .d) := by decide +kernel
/-- A store outside the stack, and one in a held line of the stack cache (StoresLeaveTheRest). -/
theorem test_StoresLeaveTheRest_met :
    (let s := pagedSeat fun h => { h with sreg := [(3, 0x10000#64)] }
     stackPart s (addrOf s 3#6 0#7 .d) 8 = .outside ∧ (match exec (.st .d .normal 1#6 3#6 0#7) s with | .next _ => true | _ => false) = true) ∧
    (let s := seat { seatCtx with stk := [⟨0x20000, false, 0#512⟩], prim := { seatHalf with sreg := [(3, 0x20038#64)] } }
     stackPart s (addrOf s 3#6 0#7 .d) 8 = .inside ∧ ((cur s).stk.any fun l => l.va == 0x20038 / 64 * 64) = true ∧
     ((cur s).stk.any fun l => l.va == (0x20038 + 7) / 64 * 64) = true ∧
     (match exec (.st .d .normal 1#6 3#6 0#7) s with | .next _ => true | _ => false) = true) := by decide +kernel
/-- Branches taken and not taken, a loop that ends, a call and a return through the stack cache (ControlFlow). -/
theorem test_ControlFlow_met :
    let s := pagedSeat fun h => { h with sreg := [(1, 1#64), (63, 0x10408#64)] }
    (((rdS s 1#6 ≠ 0#64) ↔ true = true) ∧ ¬ ((rdS s 0#6 ≠ 0#64) ↔ true = true)) ∧
    mayWrite s 1#6 (BitVec.ofInt 64 ((rdS s 1#6).toInt - 1)) ∧
    mayWrite s 63#6 0x10400#64 ∧ (storeOf s 0x10400 (bytesOf 8 (curH s).ft.toNat) .normal).isSome = true ∧
    mayWrite s 63#6 0x10410#64 ∧ (loadOf s 0x10408 8 .normal).isSome = true := by
  unfold mayWrite
  decide +kernel

/-! ### Ordering, CSRs, traps, halts -/

/-- Waits for a batch that is closed, the last number that is not ahead, and a counter of a die of the launch
(OrderingWaits). -/
theorem test_OrderingWaits_met :
    let s := seatL l0 { seatCtx with issued := 3 }
    (∃ x, OfLaunch s 7 x ∧ (x.record.getD 0 0#64).getLsbD 56 = true) ∧
    7#3 ≠ 0#3 ∧ ¬ (false = true ∧ 1#6 ≠ 0#6) ∧ ((cur s).issued + 65536 - (rdS s 1#6).toNat % 65536) % 65536 < 32768 ∧
    s.issuer.gcn % 8 ≠ 4 := by
  refine ⟨⟨l0, ⟨?_, ?_⟩, ?_⟩, ?_⟩ <;> decide
/-- 32,766 and 32,767 batches open, with the counters about to wrap (BatchCloses). -/
theorem test_BatchCloses_met :
    (let s := seat { seatCtx with issued := 65535, completed := 32769 }
     ((cur s).issued + 65536 - (cur s).completed) % 65536 = 32766 ∧ mayWrite s 1#6 0#64) ∧
    (let s := seat { seatCtx with issued := 65535, completed := 32768 }
     ((cur s).issued + 65536 - (cur s).completed) % 65536 = 32767) := by
  unfold mayWrite
  decide
/-- An arrival and a wait at a team barrier, and at the last grid barrier of a launch of cores (Barriers). -/
theorem test_Barriers_met :
    let s := seatL l0 seatCtx
    OfLaunch s 7 l0 ∧ BarrierLegal s l0 .team 15#4 ∧ BarrierLegal s l0 .grid 3#4 ∧ storesDone (flushStores s 0) 0 = true ∧
    ((cur s).arrivals.find? fun y => y.1 == BarKind.team && y.2.1 == 15) = none ∧
    (let s := seatL l0 { seatCtx with arrivals := [(.team, 15, 0), (.grid, 3, 2)] }
     (barrierOf l0 .team (barUnit s 0 .team) 15).gen = 0 ∧ (barrierOf l0 .grid (barUnit s 0 .grid) 3).gen ≠ 2) := by
  unfold OfLaunch BarrierLegal
  decide
/-- Each group of traps (SlotTraps). -/
theorem test_SlotTraps_met :
    (let s := seatH fun h => { h with sreg := [(1, 4#64), (2, 0x20000#64), (3, 0x200F8#64)] }
     s.issuer.gcn % 8 ≠ 4 ∧ (curH s).slot < 6 ∧ (curH s).rep < 256 ∧ (rdS s 1#6).toNat % 8 ≠ 0 ∧
     (rdS s 2#6).toNat % 8 = 0 ∧ OverStack s 0x20000 8 ∧ OverStack s 0x200F8 8 ∧ ¬ OverStack s 0x20100 8) ∧
    (let s := seatL l0 { seatCtx with arrivals := [(.team, 0, 0)] }
     OfLaunch s 7 l0 ∧ BarrierLegal s l0 .team 0#4 ∧
     ((cur s).arrivals.find? fun y => y.1 == BarKind.team && y.2.1 == 0) =
       some (.team, 0, (barrierOf l0 .team (barUnit s 0 .team) 0).gen)) ∧
    (let s := seatH fun h => { h with sreg := [(1, 1#64)] }
     ((cur s).issued + 65536 - (rdS s 1#6).toNat % 65536) % 65536 = 65535) := by
  refine ⟨?_, ?_, ?_⟩ <;> (try dsimp only [OverStack, OfLaunch, BarrierLegal]) <;> decide
/-- The ends of the ranges of numbers without a register, and registers that may not be written (SlotTraps). -/
theorem test_SlotTraps_csr : Unassigned 0xFF#12 ∧ Unassigned 0x2C0#12 ∧ ReadOnlyCsr 0x191#12 ∧ ¬ Unassigned 0x200#12 ∧
    ¬ ReadOnlyCsr 0x120#12 := by simp [Unassigned, ReadOnlyCsr]
/-- A direct operand just beyond the budget (SlotTraps). -/
theorem test_SlotTraps_budget : (vint (.vand (.direct 1#7) (.direct 2#7) (.direct 3#7))).isSome = true ∧
    ¬ ∀ o ∈ [VOp.direct 1#7, .direct 2#7, .direct 3#7], InBudget (seat { seatCtx with vcnt := 3 }) o :=
  ⟨by decide, fun h => absurd (h (.direct 3#7) (by simp)) (by dsimp only [InBudget]; decide)⟩
/-- A pending source of a vector instruction (SlotTraps). -/
theorem test_SlotTraps_pending :
    let s := seat { seatCtx with dbgPend := true, prim := { seatHalf with pend := [⟨9, [.v 0 2 0#2048], true, 0, 1⟩] } }
    pendingV s 0 2 = true := by decide
/-- A full stalk, an empty one, an entry of a split at the top, and a reconvergence address with bit 48 (SlotTraps). -/
theorem test_SlotTraps_gang :
    let e : StalkEntry := ⟨0#16, 0#64, false, 3#16, 0#64⟩
    (let s := seatH fun h => { h with stalk := List.replicate 32 e, sreg := [(1, 1#64)], pc := 0xFFFFFFFFFFFC#64 }
     ¬ StalkRoom s ∧ (curH s).am &&& (rdS s 1#6).extractLsb' 0 16 ≠ 0#16 ∧
     (curH s).am &&& ~~~((rdS s 1#6).extractLsb' 0 16) ≠ 0#16 ∧ (jumpTo s 0).toNat < 2 ^ 48 ∧ 2 ^ 48 ≤ (jumpTo s 1).toNat) ∧
    (curH s0).stalk = [] ∧ (curH (seatH fun h => { h with stalk := [{ e with split := true }] })).stalk = [{ e with split := true }] := by
  unfold StalkRoom
  decide
/-- The slots and gangs at which each instruction is illegal (IllegalBySlotAndGang). -/
theorem test_IllegalBySlotAndGang_met :
    (let s := seatHand id
     s.issuer.gcn % 8 = 4 ∧ (cur s).prim.slot < 8 ∧ (cur s).prim.rep < 256) ∧
    s0.issuer.gcn % 8 ≠ 4 ∧ (curH s0).slot < 6 ∧ (curH s0).rep < 256 ∧
    (cur (seat { seatCtx with spare := some seatHalf })).spare ≠ none := by decide
/-- The only syllable of opcode 0x00, the next one, and a half that has begun nothing (NoOperations). -/
theorem test_NoOperations_met : (0xFFFFFF#32).toNat < 2 ^ 24 ∧ (curH s0).begun = false ∧ (curH s0).pend = [] := by decide
/-- A register that keeps bits, a fixed one, and one of another number (CsrAccess). -/
theorem test_CsrAccess_met : s0.issuer.gcn % 8 ≠ 4 ∧ csrTable s0 0x110#12 = some 0x100000#64 ∧
    mayWrite s0 63#6 0x20100#64 ∧ csrTable s0 0x120#12 = some 0x20100#64 ∧ csrKeeps 0x120#12 = some 0x0000FFFFFFFFFFC0#64 ∧
    csrKeeps 0x110#12 = none := by
  unfold mayWrite
  decide
/-- A split context whose primary half has written STKTOP in this issue cycle, or in another one (CsrAccess). -/
theorem test_CsrAccess_split :
    let s := fun (h : HalfId) => { seat { seatCtx with beat := 4, spare := some seatHalf, prim := { seatHalf with pend := [⟨1, [.csr 0x120 0#64 0#16], false, 4, 1⟩] } } with issuer := ⟨0, h, .sa, Env.fresh⟩ }
    (s .primary).issuer.gcn % 8 ≠ 4 ∧ (cur (s .spare)).spare ≠ none ∧ csrKeeps 0x120#12 ≠ none ∧
    csrTable (s .spare) 0x120#12 = some 0x20100#64 ∧ mayWrite (s .spare) 5#6 0x20100#64 ∧
    WritesCsr (s .spare) (.csrset 5#6 0x120#12 1#6) 0x120#12 5#6 0x20100#64 0x20103#64 ∧
    WritesNow (cur (s .spare)).prim 4 0x120#12 ∧ ¬ WritesNow (cur (s .spare)).prim 4 0x121#12 := by
  refine ⟨by decide, by decide, by decide, by decide, by dsimp only [mayWrite]; decide, .inr (.inl ⟨1#6, rfl, by decide⟩),
    ⟨_, List.mem_singleton.mpr rfl, rfl, 0#64, 0#16, List.mem_singleton.mpr rfl⟩, ?_⟩
  rintro ⟨p, hp, -, v, m, hw⟩
  obtain rfl := List.mem_singleton.mp hp
  simpa using List.mem_singleton.mp hw
/-- Formats and shapes at the ends of their ranges, values that are neither, and banks at the end of the portion and beyond
it (CsrAccess). -/
theorem test_CsrAccess_engines :
    (FormatValue 0xFF0010#64 ∧ ¬ FormatValue 0x11#64 ∧ ¬ FormatValue 0x20#64 ∧ ¬ FormatValue 0x1000000#64) ∧
    (ShapeValue 0xFFFF00200020#64 ∧ ¬ ShapeValue 0x21#64 ∧ ¬ ShapeValue 0x40#64 ∧ ¬ ShapeValue 0x1000000000000#64) ∧
    (let s := seat { seatCtx with spn := 2, shp := [(0, 0x200020)] }
     (0x101#12).toNat % 16 < (cur s).spn ∧ (cur s).spn ≤ (0x102#12).toNat % 16 ∧ mayWrite s 5#6 (laneCsr (curH s).am fun e => shpOf s 0 e 0) ∧
     laneCsr (curH s).am (fun e => shpOf s 0 e 0) = 0x200020#64 ∧ laneCsr 0#16 (fun e => shpOf s 0 e 0) = 0#64 ∧
     WritesCsr s (.csrw 0x170#12 1#6) 0x170#12 0#6 0#64 3#64) := by
  refine ⟨by unfold FormatValue; decide, by unfold ShapeValue; decide, by decide, by decide, by dsimp only [mayWrite]; decide,
    by decide, by decide, .inl ⟨1#6, rfl, rfl, by decide⟩⟩
/-- The handler slot's CSRs, and its views: of a frozen context, of one that is not, of none, and of a half that is
absent (CsrAccess). -/
theorem test_CsrAccess_handler :
    let s := fun (n : Word) => { seatHand fun c => { c with hsel := n } with
      ctxs := [(0, { seatCtx with phase := .frozen, launch := some 7 }), (1, { seatCtx with phase := .parked, launch := some 7 }),
        (4, { seatCtx with serving := some 0, hsel := n, prvtop := 0x40000#64 })] }
    (s 0#64).issuer.gcn % 8 = 4 ∧ csrTableOf (ctxOf (s 0#64) (served (s 0#64))) (served (s 0#64)) 0x120#12 = some 0x20100#64 ∧
    csrTable (s 0#64) 0x192#12 = some 0#64 ∧ (cur (s 0#64)).prvtop = 0x40000#64 ∧ mayWrite (s 0#64) 5#6 0x20100#64 ∧
    (Shown (s 0#64) ∧ ViewOpen (s 0#64) ∧ selectedHalf (s 0#64) = some .primary) ∧ (Shown (s 1#64) ∧ ¬ ViewOpen (s 1#64)) ∧
    ¬ Shown (s 2#64) ∧ (Shown (s 4#64) ∧ selectedHalf (s 4#64) = none) ∧
    halfViewTable seatCtx seatHalf 0x24B = some 0x10000#64 ∧ viewTable (s 0#64) 0x201 = some 0#64 ∧ viewTable (s 0#64) 0x2AF = some 0#64 ∧
    (HalfView 0x2A8#12 ∧ ¬ HalfView 0x2A9#12 ∧ HalfView 0x2AC#12) := by
  dsimp only [mayWrite, Shown, ViewOpen, HalfView]
  decide
/-- Values for the views of a frozen context with a stalk of one entry, in a handler slot that is not split, an HS63 below the
stack and one at its end, and a replay buffer of one entry (CsrAccess). -/
theorem test_CsrAccess_views :
    let e : StalkEntry := ⟨0#16, 0#64, false, 3#16, 0#64⟩
    let x : Ctx := { seatCtx with phase := .frozen, launch := some 7, tsw := 1#64, lastCmd := some 3, prim := { seatHalf with stalk := [e], pend := [⟨0, [.s 5#6 1#64], false, 0, 0⟩] } }
    let s := { seatHand id with ctxs := [(0, x), (4, { seatCtx with serving := some 0 })] }
    (cur s).spare = none ∧ (cur s).prim.slot < 8 ∧ (cur s).prim.rep < 256 ∧ Shown s ∧ ViewOpen s ∧ selectedHalf s = some .primary ∧
    (0x1FFFF#64 < x.stklim ∧ ¬ (0x20100#64 < x.stklim ∨ x.stktop < 0x20100#64)) ∧
    ((x.half .primary).stalk.reverse[(0x209 - 0x208) / 2]? = some e ∧ (x.half .primary).stalk.reverse[(0x20A - 0x208) / 2]? = none) ∧
    (namedBy x .primary = true ∧ namedBy x .spare = false) ∧ (5 * 2 ^ 21 / 2 ^ 21 % 8 < 6 ∧ 6 ≤ 6 * 2 ^ 21 / 2 ^ 21 % 8) ∧
    (255 % 256 < x.vcnt ∧ 0x7F / 16 % 8 < x.acnt) ∧ (x.half .primary).pend = [⟨0, [.s 5#6 1#64], false, 0, 0⟩] ∧ x.launch = some 7 := by
  dsimp only [Shown, ViewOpen]
  decide
/-- A context whose handler is absent, and the handler slot at its last cause (Traps). -/
theorem test_Traps_met : (s0.issuer.gcn % 8 ≠ 4 ∧ (curH s0).rep < 256 ∧ (curH s0).slot < 6 ∧ (cur s0).tvec = 0#64 ∧
      s0.issuer.half = .primary ∧ (cur s0).spare = none ∧ (cur s0).stopBy = none) ∧
    (let s := seatHand id
     s.issuer.gcn % 8 = 4 ∧ (cur s).prim.rep < 256 ∧ (cur s).prim.slot < 8 ∧ (ctxOf s (served s)).launch = some 7) := by
  decide
/-- The frozen context of the handler, one that is not frozen, and the return to each (HandlerReturns). -/
theorem test_HandlerReturns_met :
    let s := seatHand id
    s.issuer.gcn % 8 = 4 ∧ (rdS s 0#6).toNat % 4 = 0 ∧ (ctxOf s 0).phase = .frozen ∧
    (ctxOf s 0).launch = (ctxOf s (served s)).launch ∧ (ctxOf s 0).team = (ctxOf s (served s)).team ∧
    (rdS s 1#6).toNat % 4 = 3 ∧ (ctxOf s 3).phase ≠ .frozen ∧ (ctxOf s 4).serving = some 0 := by decide
/-- A context of which nothing is outstanding (YieldAndHalt). -/
theorem test_YieldAndHalt_met : s0.issuer.gcn % 8 ≠ 4 ∧ HaltReady s0 := by
  unfold HaltReady
  decide

/-! ### Vector, matrix and gang slots -/

/-- Lane 0 alone, shapes of one element, bank 0 in E4M3, a stalk of one entry. -/
def sV : State :=
  { seat { seatCtx with shp := [(0, 0x100010001)]
                        prim := { seatHalf with am := 1#16, sreg := [(1, 0x3FC0#64), (2, 0x3F00#64)], kreg := [(30, 0x0020000000000000#64)] } } with
    spfmt := [(0, 4)] }
/-- The same with no lane active. -/
def sNone : State := seatH fun h => { h with am := 0#16 }
/-- The active lanes of `sV`. -/
theorem lanes_sV : activeLanes (curH sV).am = [0] := by decide
/-- What holds in lane 0 holds in each active lane of `sV`. -/
theorem each_lane {P : Nat → Prop} (h : P 0) : ∀ e ∈ activeLanes (curH sV).am, P e := by
  rw [lanes_sV]
  intro e he
  obtain rfl := List.mem_singleton.mp he
  exact h
/-- The format of bank 0 of `sV`. -/
theorem fmt_sV {x : Nat} (h : bankFmt sV 0 0 = some x) : 4 = x :=
  Option.some.inj ((show bankFmt sV 0 0 = some 4 by decide).symm.trans h)
/-- A group of one register from v0 is in the budget of `sV`. -/
theorem one_ok : GroupInBudget sV (.direct 0#7) 1 := by
  dsimp only [GroupInBudget]
  decide
/-- Direct operands up to the last register, and an indexed one, are ready when the debug mode is off. -/
theorem ready_of {s : State} (d : VOp) (srcs : List VOp) (h : ∀ o ∈ d :: srcs, InBudget s o)
    (hp : (cur s).dbgPend = false) : VReady s d srcs :=
  ⟨h, fun o _ e _ => by simp [pendingV, hp]⟩

/-- Operands at the ends of the budget of 128 registers (VectorArithmetic). -/
theorem test_VectorArithmetic_met :
    let s := seat { seatCtx with vcnt := 128 }
    (vint (.visubs (.direct 0#7) (.direct 127#7) (.indexed 3#2 31#5))).isSome = true ∧
    (vfloat (.vmax (.direct 0#7) (.direct 127#7) (.direct 1#7))).isSome = true ∧
    (vunary (.vcvt .qe4m3 .rup true (.direct 0#7) (.direct 127#7))).isSome = true ∧
    VReady s (.direct 0#7) [.direct 127#7, .indexed 3#2 31#5] := by
  refine ⟨by decide, by decide, by decide, ready_of _ _ ?_ (by decide)⟩
  simp only [List.mem_cons, List.not_mem_nil, or_false, forall_eq_or_imp, forall_eq]
  dsimp only [InBudget]
  decide
/-- Codes at the bounds of the clauses (FloatSpecialValues). -/
theorem test_FloatSpecialValues_met : isNan32 0x7F800001#32 = true ∧
    (isNan32 0x80000001#32 = false ∧ 0x80000000 < (0x80000001#32).toNat) ∧ (0xB9800000#32).toNat % 2 ^ 31 ≤ 0x39800000 ∧
    (isNan32 0xC1100000#32 = false ∧ 0x41100000 ≤ (0xC1100000#32).toNat % 2 ^ 31) ∧
    (intCode (-149) = 0xC3150000#32 ∧ pow2Code (-149) = 1#32 ∧ intCode 127 = 0x42FE0000#32 ∧ pow2Code 127 = 0x7F000000#32) ∧
    (0x43000000 ≤ (0x43000000#32).toNat ∧ (0x43000000#32).toNat ≤ 0x7F800000) ∧ (0xC3160000 < (0xC3160001#32).toNat ∧ (0xC3160001#32).toNat ≤ 0xFF800000) ∧
    pow2Code (-127) = 0x400000#32 ∧ pow2Code (2 * (-74)) = 2#32 := by decide
/-- Sources and destinations of the other vector instructions, a logit mask at the end of its bank, and a scan into the
last two registers (VectorMovesAndReductions). -/
theorem test_VectorMovesAndReductions_met : VReady sV (.direct 0#7) [.direct 0#7, .direct 1#7, .direct 2#7] ∧
    GroupInBudget (seat { seatCtx with vcnt := 128 }) (.direct 126#7) 2 ∧
    (let la := stepped sV ((captured sV (0x3FF8#64)).toNat % 2 ^ 18)
     la % 8 = 0 ∧ InPortion sV la 8 ∧ pendingSp sV 0 la 8 = false) := by
  refine ⟨ready_of _ _ ?_ (by decide), ?_, ?_⟩
  · simp only [List.mem_cons, List.not_mem_nil, or_false, forall_eq_or_imp, forall_eq]
    dsimp only [InBudget]
    decide
  · dsimp only [GroupInBudget]
    decide
  · unfold InPortion
    decide
/-- Values of a comparison that holds, and of one that does not (VectorMovesAndReductions). -/
theorem test_VectorMovesAndReductions_cmp : VHolds .feq 0#32 0x80000000#32 ∧ ¬ VHolds .ilt 0#32 0x80000000#32 ∧
    VHolds .fun_ 0x7FC00000#32 0#32 := by
  dsimp only [VHolds]
  decide
/-- 256 bytes at the end of the last bank, and converting groups at the end of the E4M3 bank (VectorLoadsAndStores). -/
theorem test_VectorLoadsAndStores_met :
    (let la := stepped sV ((captured sV (BitVec.ofNat 64 ((BitVec.ofInt 64 ((rdS sV 2#6).toNat + (0#10).toInt * 256)).toNat % 2 ^ 18))).toNat)
     la % 4 = 0 ∧ InPortion sV la 256 ∧ pendingSp sV 0 la 256 = false) ∧
    (let ks := groupAddrs sV 1#6 0#6
     ks = (if sV.issuer.env.re then sV.issuer.env.cap.ks else groupAddrs sV 1#6 0#6) ∧
     (rdS sV 1#6).toNat % 2 ^ 18 / 16384 < (ctxOf sV (served sV)).spn ∧ stepped sV (ks.getD 0 0#64).toNat = 0x3FC0 ∧
     groupOk sV (spfmtOf sV 0 0 0) 0x3FC0 = true ∧ groupBytes (fmtOf (spfmtOf sV 0 0 0)) ≠ 0 ∧ (cur sV).dbgPend = false) := by
  unfold InPortion
  decide
/-- A matrix command on the last tile, at the version of the tile (MatrixCommandsIssue). -/
theorem test_MatrixCommandsIssue_version : VersionReady sV ⟨7#3, 0#6⟩ true ∧ sV.issuer.gcn % 8 ≠ 4 ∧
    (curH sV).verOk = false ∧ GroupInBudget sV (.direct 112#7) 16 := by
  refine ⟨⟨by decide, each_lane ⟨by decide, fun _ => by decide⟩⟩, by decide, by decide, by dsimp only [GroupInBudget]; decide⟩
/-- A multiplication of E4M3 by E4M3 and one that gathers, in a lane of one element (MatrixCommandsIssue). -/
theorem test_MatrixCommandsIssue_mma : BlockIs sV 30#5 2 [0x0020000000000000#64, 0#64] ∧
    MmaReady sV [0x0020000000000000#64] 0#2 2#3 2#3 false ∧ MmaReady sV [0x0020000000000000#64, 0#64] 0#2 2#3 2#3 true := by
  refine ⟨by unfold BlockIs; decide, ?_, ?_⟩
  · refine ⟨.e4m3, 2, by decide, by decide, by decide, by decide, by decide, by decide, one_ok, fun h => (nomatch h),
      each_lane ⟨?_, by decide, fun _ => ⟨one_ok, ?_, fun h => (nomatch h), 4, by decide, by decide⟩⟩⟩
    · intro x hx
      obtain rfl := fmt_sV hx
      exact ⟨2, by decide, by decide, fun _ => by decide⟩
    · intro l hl
      exact (nomatch (show (none : Option Latch) = some l from hl))
  · refine ⟨.e4m3, 2, by decide, by decide, by decide, by decide, by decide, by decide, one_ok, fun _ => one_ok,
      each_lane ⟨?_, by decide, fun _ => ⟨one_ok, ?_, fun _ => one_ok, 4, by decide, by decide +kernel⟩⟩⟩
    · intro x hx
      obtain rfl := fmt_sV hx
      exact ⟨2, by decide, by decide, fun _ => by decide⟩
    · intro l hl
      exact (nomatch (show (none : Option Latch) = some l from hl))
/-- A lane whose shape asks for one element more than the deepest command, and one whose latched codes are fewer (SlotTraps). -/
theorem test_SlotTraps_shape :
    let s := fun (k : Nat) (l : NMap (Option Latch)) =>
      { seat { seatCtx with shp := [(0, 0x10001 + k * 2 ^ 32)], latch := l, prim := { seatHalf with am := 1#16 } } with spfmt := [(0, 4)] }
    let w := 0x0020000000000000#64
    (activeLanes (curH (s 1 [])).am = [0] ∧ mmaFmt w.toNat = some .e4m3 ∧ field 48 3 w.toNat = 0 ∧ field 18 12 w.toNat = 0 ∧
      isDigits 2#3 = true) ∧
    (let t := s (kMax .e4m3 + 1) []
     works (shapeOf t 0 0#2) = true ∧ kMax .e4m3 < (shapeOf t 0 0#2).2.2 ∧ latchOf t 0 = none ∧
      mmaAreg w.toNat = .direct 0#7 ∧ GroupInBudget t (.direct 0#7) (aRegs .e4m3 (min (shapeOf t 0 0#2).2.2 (kMax .e4m3))) ∧ bankFmt t 0 0 = some 4) ∧
    (let l : Latch := ⟨0, field 51 5 w.toNat, 1, ascReset⟩
     let t := s 2 [(0, some l)]
     works (shapeOf t 0 0#2) = true ∧ latchOf t 0 = some l ∧ l.fmt = field 51 5 w.toNat ∧ l.ka < (shapeOf t 0 0#2).2.2) := by
  dsimp only [GroupInBudget]
  decide +kernel
/-- A lane that stores nothing (MatrixCommandsIssue). -/
theorem test_MatrixCommandsIssue_nothing :
    let s := { seat { seatCtx with shp := [(0, 0x200000)], prim := { seatHalf with am := 1#16 } } with spfmt := [(0, 4)] }
    activeLanes (curH s).am = [0] ∧ (shapeOf s 0 0#2).1 = 0 ∧ outstanding s 0 0 = 0 ∧ MstoreReady s [0#64, 0#64] 0#2 true := by
  refine ⟨by decide, by decide, by decide, by decide, by decide, by decide, fun _ => Nat.le_of_ble_eq_true rfl, fun e he => ?_⟩
  obtain rfl := List.mem_singleton.mp he
  refine ⟨fun x hx => ?_, fun h => absurd (by decide) h⟩
  obtain rfl := Option.some.inj (show some 4 = some x from hx)
  decide
/-- A store of one element into the E4M3 bank, with a bias row (MatrixCommandsIssue). -/
theorem test_MatrixCommandsIssue_mstore : (cur sV).abase + (cur sV).acnt ≤ 8 ∧ MstoreReady sV [0#64, 0#64] 0#2 true := by
  refine ⟨by decide, ?_⟩
  refine ⟨by decide, by decide, by decide, fun _ => one_ok, each_lane ⟨?_, fun _ _ => ⟨4, by decide, by decide⟩⟩⟩
  intro x hx
  obtain rfl := fmt_sV hx
  decide
/-- Versions 32 ahead, one ahead of the commands, and reached by an outstanding command (VersionCheck). -/
theorem test_VersionCheck_met :
    (32 ≤ (expected sV ⟨0#3, 32#6⟩ + 64 - accver sV 0 0 0) % 64 ∧ 0 ∈ activeLanes (curH sV).am ∧ tileOf sV ⟨7#3, 0#6⟩ < (cur sV).acnt) ∧
    (outstanding sV 0 0 < (expected sV ⟨0#3, 1#6⟩ + 64 - accver sV 0 0 0) % 64) ∧
    (let j : LaneJob := LaneJob.start 0 (1, 1, 1)
     let c : Cmd := { id := 0, half := .primary, cls := .matrix, batch := none, op := .mzero ⟨0#3, 0#6⟩, ks := [], urg := false, asid := 1, launch := none, team := 0, splo := 0, tile := 0,
                      jobs := [j], flt := none, reported := false, stepped := false, outs := [], dests := [], fin := false }
     let s := seat { seatCtx with cmds := [c], prim := { seatHalf with am := 1#16 } }
     activeLanes (curH s).am = [0] ∧ (expected s ⟨0#3, 1#6⟩ + 64 - accver s 0 0 0) % 64 = 1 ∧ outstanding s 0 0 = 1) := by
  decide
/-- The last sixteen registers and the last tile (MatrixReadAndScale). -/
theorem test_MatrixReadAndScale_met : VersionReady sV ⟨7#3, 0#6⟩ true ∧ (cur sV).abase + (cur sV).acnt ≤ 8 ∧
    GroupInBudget sV (.direct 112#7) 16 ∧ GroupInBudget (seat { seatCtx with vcnt := 128 }) (.direct 124#7) 4 := by
  refine ⟨test_MatrixCommandsIssue_version.1, by decide, by dsimp only [GroupInBudget]; decide, by dsimp only [GroupInBudget]; decide⟩

/-- Masks that keep no lane, every lane and some, with room for one entry and a pod with no spare sequencer taken
(GangControl). -/
theorem test_GangControl_met :
    let e : StalkEntry := ⟨0#16, 0#64, false, 3#16, 0#64⟩
    let s := seatH fun h => { h with stalk := List.replicate 31 e, sreg := [(1, 1#64), (2, 3#64), (3, 4#64)], pc := 0xFFFFFFFFFFF8#64 }
    (jumpTo s 1).toNat < 2 ^ 48 ∧ s.issuer.gcn % 8 ≠ 4 ∧ StalkRoom s ∧ (cur s).spare = none ∧ spareTaken s 0 = false ∧
    ((curH s).am &&& (rdS s 3#6).extractLsb' 0 16 = 0#16) ∧
    ((curH s).am &&& (rdS s 2#6).extractLsb' 0 16 ≠ 0#16 ∧ (curH s).am &&& ~~~((rdS s 2#6).extractLsb' 0 16) = 0#16) ∧
    ((curH s).am &&& (rdS s 1#6).extractLsb' 0 16 ≠ 0#16 ∧ (curH s).am &&& ~~~((rdS s 1#6).extractLsb' 0 16) ≠ 0#16) ∧
    (curH s).stalk = e :: List.replicate 30 e ∧ e.split = false ∧ mayWrite s 5#6 3#64 := by
  dsimp only [StalkRoom, mayWrite]
  decide
/-- A context that is split tries no second split (GangControl). -/
theorem test_GangControl_split :
    let s := seat { seatCtx with spare := some seatHalf }
    (cur s).spare ≠ none ∧ spareTaken s 0 = true ∧ StalkRoom s := by
  unfold StalkRoom
  decide
/-- Operands of the exchanges, the first active lane, and a destination pair below s63 (GangExchange). -/
theorem test_GangExchange_met : s0.issuer.gcn % 8 ≠ 4 ∧ (cur s0).dbgPend = false ∧ InBudget s0 (.direct 127#7) ∧
    ¬ (true = true ∧ 0#4 ≠ 0#4) ∧ ¬ (false = true ∧ 15#4 ≠ 0#4) ∧ (activeLanes (curH s0).am).headD 0 = 0 ∧
    62#6 ≠ 0#6 ∧ 62#6 ≠ 63#6 ∧ mayWrite s0 5#6 3#64 ∧ mayWrite s0 (62#6 + 1#6) 0x20000#64 := by
  dsimp only [InBudget, mayWrite]
  decide
/-- The mask of a vote over registers of zeros (GangExchange). -/
theorem test_GangExchange_vote : ∀ e, e < 16 → (0#64).getLsbD e = ((curH s0).am.getLsbD e && (el s0 e (.direct 0#7) 0) != 0#32) := by
  decide +kernel

/-! ### Transfer slot and grammar unit -/

/-- Lane 0 alone, with staging blocks: rows of 16,384 bytes from k4, copies of one byte from k8 to k9, a walk from k12,
a pattern from k16 with LANE 0, a mask from k20, and pairs from k24. -/
def sX : State :=
  seatH fun h => { h with am := 1#16, kreg := [(4, 0x0001000000010000#64), (6, 0x4000000000000000#64), (8, 0x0001000100000000#64),
    (12, 0x0400000000010000#64), (13, 0x10000#64), (20, 0x0001000000000000#64), (28, 0x40000001FFF8#64),
    (24, 0x0001000000010000#64), (25, 0x0000000000000000#64), (26, 0x0000000000000000#64), (16, 0x100000000#64)] }
/-- The active lanes of `sX`. -/
theorem each_lane_sX {P : Nat → Prop} (h : P 0) : ∀ e ∈ activeLanes (curH sX).am, P e := by
  rw [show activeLanes (curH sX).am = [0] by decide]
  intro e he
  obtain rfl := List.mem_singleton.mp he
  exact h
/-- Row registers at both ends of RB. -/
theorem row_bounds : RowRegister 0x4000000000000000 ∧ RowRegister 0x0001000000000000 := by
  unfold RowRegister
  decide
/-- A row of 16,384 bytes, by count and by an index that the row is not skipped for (RowCommandsJoinBatch). -/
theorem test_RowCommandsJoinBatch_met :
    let ks := [0x0001000000010000#64, 0#64, 0x4000000000000000#64]
    BlockIs sX 4#5 3 ks ∧ (rowForm (.xgath .field 4#5 .na (.direct 127#7))).isSome = true ∧
    RowsReady sX .field ks none ∧ RowsReady sX .field ks (some (.direct 127#7)) ∧
    (blk [0#64, 0#64, 0#64, 0x0FFF0000FFFF#64] 3 < 2 ^ 44 ∧ field 16 16 (blk [0#64, 0#64, 0#64, 0x0FFF0000FFFF#64] 3) = 0) := by
  refine ⟨by unfold BlockIs; decide, by decide, ⟨row_bounds.1, each_lane_sX ⟨fun v h => (nomatch h), ?_⟩⟩,
    ⟨row_bounds.1, each_lane_sX ⟨?_, ?_⟩⟩, by decide⟩
  · intro r hr _
    obtain rfl : r = 0 := Nat.lt_one_iff.mp hr
    unfold InPortion
    decide
  · intro v hv
    obtain rfl := Option.some.inj hv
    refine ⟨?_, by decide⟩
    show 127 + 1 ≤ 256
    decide
  · intro r hr _
    obtain rfl : r = 0 := Nat.lt_one_iff.mp hr
    unfold InPortion
    decide
/-- A copy of one element between the ends of a bank, a window command with no row in any lane, a scan, a walk of 1,024
nodes, and an exchange of tiles (OtherTransfersJoinBatch). -/
theorem test_OtherTransfersJoinBatch_met :
    let fm := laneFmts sX 0
    (let w := (0x0001000100003FFF#64).toNat
     field 18 14 w = 0 ∧ w / 2 ^ 32 % 2 ^ 16 ≠ 0 ∧ countOf sX 0 .field (w / 2 ^ 48) = 1 ∧
      srcOk 16 (fmtAt fm 0) (fmtAt fm 0x3FFF) 0 1 = true ∧ dstOk 16 (fmtAt fm 0) (fmtAt fm 0x3FFF) 0x3FFF 1 = true) ∧
    (let w := (0x0000000100000000#64).toNat
     field 29 3 w = 0 ∧ w / 2 ^ 32 % 2 ^ 16 ≠ 0 ∧ countOf sX 0 .field (w / 2 ^ 48) = 0) ∧
    (let w := (0x0001000000000000#64).toNat
     field 36 12 w = 0 ∧ countOf sX 0 .field (w / 2 ^ 48) ≤ 4095 ∧ rawOk 16 0 (4 * 2) = true ∧ runOk 16 (fmtAt fm 0) 0 1 = true) ∧
    ((0x0400000000010000#64).toNat / 2 ^ 48 = 1024 ∧ rawOk 16 0 ((3 * 1024 + 4) * 4) = true) ∧
    (let w := (0x4000000100000000#64).toNat
     w < 2 ^ 63 ∧ field 36 12 w = 0 ∧ w / 2 ^ 48 = 16384 ∧ (cur sX).dbgPend = false ∧ sX.unseen = [] ∧ InPortion sX (w % 2 ^ 18) 16384 ∧
     InPortion sX (w / 2 ^ 18 % 2 ^ 18) 16384) := by
  unfold InPortion
  decide
/-- Window rows of four bytes that end a bank of the team's pod, and of a POD that names no pod of the team
(OtherTransfersJoinBatch). -/
theorem test_OtherTransfersJoinBatch_window :
    let s := seatL { l0 with tpods := [⟨0, 0, 0, 0⟩] } seatCtx
    windowFmts s 0x0001000400003FFC 0 = List.replicate 16 0 ∧ windowFmts s 0x0001000401C03FFC 0 = [] ∧
    WindowRowOk s 0x0001000400003FFC 0x7FFC 0 0 true ∧ WindowRowOk s 0x0001000400003FFC 0x7FFC 0 0 false ∧
    WindowRowOk s 0x0001000401C03FFC 0x7FFC 0 0 true := by
  unfold WindowRowOk
  decide +kernel
/-- Pairs of one element per lane, and an extension of the last dimension to the last bound (OtherTransfersJoinBatch). -/
theorem test_OtherTransfersJoinBatch_emit :
    BlockIs sX 24#5 3 [0x0001000000010000#64, 0#64, 0#64] ∧ ¬ (true = true ∧ EmitW.w2 ≠ .w2) ∧
    blk [0x0001000000010000#64, 0#64, 0#64] 2 % 2 ^ 56 = 0 ∧
    GroupInBudget sX (.direct 127#7) (ceilDiv (countOf sX 0 .field 1) 64) ∧
    (blk [0xFFFFFFFFFFC0#64, 0x3FFFFFFFF#64] 0 < 2 ^ 48 ∧ blk [0xFFFFFFFFFFC0#64, 0x3FFFFFFFF#64] 0 % 64 = 0 ∧
      blk [0xFFFFFFFFFFC0#64, 0x3FFFFFFFF#64] 1 < 2 ^ 34) := by
  refine ⟨by unfold BlockIs; decide, by decide, by decide, ?_, by decide⟩
  show 127 + 1 ≤ 256
  decide
/-- Tables of two states at the least addresses, and a mask of 64 tokens with its result (GrammarCommandsIssue). -/
theorem test_GrammarCommandsIssue_met :
    (grammarForm (.pdaadv 7#3 true 20#5)).isSome = true ∧ sX.issuer.gcn % 8 ≠ 4 ∧
    (let c := blk [0#64, 0x40000000000#64] 1
     c / 2 ^ 36 = 64 ∧ c < 2 ^ 54 ∧ c / 2 ^ 18 % 64 = 0) ∧
    GrammarPlaces sX true (some false) 0 (64 * 2 ^ 36) ∧ BlockIs sX 16#5 1 [0x100000000#64] := by
  dsimp only [GrammarPlaces, InPortion, BlockIs]
  decide
/-- A command of a lane in a mapped page, with one row of four bytes to go. -/
def xldCmd (op : Instr) : Cmd :=
  { id := 3, half := .primary, cls := .transfer, batch := none, op := op, ks := [0x10000#64, 0#64, 0x0004000000000000#64], urg := false, asid := 1, launch := none, team := 0, splo := 0,
    tile := 0, jobs := [{ LaneJob.start 0 (0, 1, 0) with lf := List.replicate 16 0 }], flt := none, reported := false, stepped := false, outs := [],
    dests := [], fin := false }
/-- The mapped machine with a command of its context. -/
def pagedCmd (x : Cmd) : State :=
  { paged with ctxs := [(0, { seatCtx with stktop := 0x10800#64, stklim := 0x10400#64, cmds := [x] })] }
/-- The mapped row is read and written, and one past the page faults (TransferElementMovesRow). -/
theorem test_TransferElementMovesRow_met :
    let x := xldCmd (.xld .field 4#5 .normal)
    let s := pagedCmd x
    let s1 := flushStores (settleSp { s with freeCtr := s.freeCtr + 1 } 0) 0
    (cmdOf s 0 3 = some x ∧ (jobOf x 0).map (·.lane) = some 0 ∧ (jobOf x 0).map (mayElem s 0 x) = some true ∧ storesDone s1 0 = true) ∧
    (okOf (cmdRead s1 0 x 0 (memRow x.ks 0 0) 4 .normal)).map (·.1) = some (List.replicate 4 0#8) ∧
    (okOf (cmdWrite s1 0 x 0 (memRow x.ks 0 0) [1#8, 2#8, 3#8, 4#8] .normal)).isSome = true ∧
    (match cmdRead s1 0 x 0 0x1000000000000 4 .normal with | .fault _ _ => true | _ => false) = true := by decide +kernel
/-- The state in which an element step of context 0 makes its access. -/
def before (s : State) : State := flushStores (settleSp { s with freeCtr := s.freeCtr + 1 } 0) 0
/-- Command 3 of context 0 may take its next element in lane 0. -/
def elemReady (s : State) (x : Cmd) (j : LaneJob) : Bool :=
  decide (cmdOf s 0 3 = some x) && decide (jobOf x 0 = some j) && mayElem s 0 x j && storesDone (before s) 0
theorem elem_ready {s : State} {x : Cmd} {j : LaneJob} (h : elemReady s x j = true) : ElementMayRun s (before s) 0 3 0 x j := by
  simp only [elemReady, Bool.and_eq_true, decide_eq_true_eq] at h
  exact ⟨h.1.1.1, h.1.1.2, h.1.2, rfl, h.2⟩
/-- The answer of an access is a fault. -/
def failed {α : Type} : MemR α → Bool
  | .fault _ _ => true
  | _ => false
/-- A command of one lane with a block and a part. -/
def oneJob (op : Instr) (ks : List Word) (j : LaneJob) : Cmd := { xldCmd op with ks := ks, jobs := [j] }
/-- A part of n elements in banks of a format. -/
def partOf (n x : Nat) : LaneJob :=
  { LaneJob.start 0 (0, n, 0) with lf := List.replicate 16 x, wf := List.replicate 16 x }
/-- Rows of four bytes: gathered and passed over, scattered and stored into the page, and stored and loaded beyond it
(TransferElementMovesRow). -/
theorem test_TransferElementMovesRow_rows :
    let j := fun (u : W32) => { partOf 2 0 with idx := [u] }
    let x := fun (op : Instr) (va : Word) (u : W32) => oneJob op [va, 0x400000000#64, 0x0004000000000000#64] (j u)
    let ready := fun op va u => elemReady (pagedCmd (x op va u)) (x op va u) (j u)
    let s1 := fun op va u => before (pagedCmd (x op va u))
    let g : Instr := .xgath .field 4#5 .normal (.direct 0#7)
    let c : Instr := .xscat .field 4#5 .normal (.direct 0#7)
    let st : Instr := .xst .field 4#5 .keep
    let ld : Instr := .xld .field 4#5 .normal
    (rowAccess g = some (true, true, .normal) ∧ rowAccess c = some (false, true, .normal) ∧ rowAccess st = some (false, false, .keep)) ∧
    (ready g 0x10080#64 0x80000000#32 = true ∧ 2 ^ 31 ≤ (0x80000000#32).toNat) ∧
    (ready g 0x10080#64 1#32 = true ∧
      (okOf (cmdRead (s1 g 0x10080#64 1#32) 0 (x g 0x10080#64 1#32) 0 (memRow (x g 0x10080#64 1#32).ks 0 1) 4 .normal)).isSome = true) ∧
    (ready c 0x10080#64 1#32 = true ∧
      (okOf (cmdWrite (s1 c 0x10080#64 1#32) 0 (x c 0x10080#64 1#32) 0 (memRow (x c 0x10080#64 1#32).ks 0 1) (bytesOf 4 0) .normal)).isSome = true) ∧
    (ready st 0x50000#64 0#32 = true ∧ failed (cmdWrite (s1 st 0x50000#64 0#32) 0 (x st 0x50000#64 0#32) 0 0x50000 (bytesOf 4 0) .keep) = true) ∧
    (ready ld 0x50000#64 0#32 = true ∧ failed (cmdRead (s1 ld 0x50000#64 0#32) 0 (x ld 0x50000#64 0#32) 0 0x50000 4 .normal) = true) := by
  decide +kernel
/-- A launch whose team 0 has pod 0, and a command of its context. -/
def windowCmd (x : Cmd) : State := seatL { l0 with tpods := [⟨0, 0, 0, 0⟩] } { seatCtx with cmds := [x] }
/-- Rows of one lane: of raw bytes, of five half-byte codes, and from FP16 to blocks of MX codes; window rows of a pod that
the team has and has not, and of one that leaves its bank (TransferElementMovesRow). -/
theorem test_TransferElementMovesRow_copies :
    let ks := fun (w0 w1 : Word) => [0x0001000000000000#64 ||| w0, w1]
    let x := fun (op : Instr) (w0 w1 : Word) (j : LaneJob) => { oneJob op (ks w0 w1) j with launch := some 7 }
    let ready := fun op w0 w1 j => elemReady (windowCmd (x op w0 w1 j)) (x op w0 w1 j) j
    let mx := { partOf 1 2 with lf := 2 :: List.replicate 15 0xC0000B }
    let cp : Instr := .xcopy .field 4#5
    let wl : Instr := .xwload .field 4#5
    let ws : Instr := .xwstore .field 4#5
    (ready cp 0x400000020#64 0#64 (partOf 1 0) = true ∧ dstOk 16 0 0 0x20 4 = true ∧ fmtOf 0 = .raw) ∧
    (ready cp 0x500000020#64 0#64 (partOf 1 8) = true ∧ dstOk 16 8 8 0x20 5 = true ∧ fmtOf 8 = .e2m1) ∧
    (ready cp 0x2500004000#64 0#64 mx = true ∧ fmtAt mx.lf 0 = 2 ∧ fmtAt mx.lf 0x4000 = 0xC0000B ∧
      dstOk 16 2 0xC0000B 0x4000 37 = true ∧ (fmtOf 0xC0000B).isMx = true) ∧
    (let j := partOf 1 0
     let place := fun s pod => windowPlace s (some 7) 0 pod 0 0 3
     (ready wl 0x400000020#64 0#64 j = true ∧ ready ws 0x400000020#64 0#64 j = true ∧ ready wl 0x401C00020#64 0#64 j = true ∧
      ready ws 0x400003FFE#64 0#64 j = true) ∧
     (place (before (windowCmd (x wl 0x400000020#64 0#64 j))) 0).isSome = true ∧ (place (before (windowCmd (x ws 0x400000020#64 0#64 j))) 0).isSome = true ∧
     (place (before (windowCmd (x wl 0x401C00020#64 0#64 j))) 7).isNone = true ∧
     srcOk 16 0 0 0x20 4 = true ∧ dstOk 16 0 0 0x20 4 = true ∧ dstOk 16 0 0 0 4 = true ∧ dstOk 16 0 0 0x3FFE 4 = false) := by
  decide +kernel
/-- Rows of a remote package whose mask names a port that is up, and one that is not, below 2^48 and across it. What the package
answers is a free value (TransferElementMovesRow). -/
theorem test_TransferElementMovesRow_remote :
    let x := fun (op : Instr) (va : Word) => oneJob op [va, 0#64, 0x0004000000000000#64, 0x900000005#64] (partOf 1 0)
    let s := fun (st : PortState) (op : Instr) (va : Word) =>
      updPkg (pagedCmd (x op va)) fun p => { p with pkgid := 1#64, rmasks := [(5, some 2)], ports := [(1, { Port.reset with state := st })] }
    let ld : Instr := .xrld .field 4#5 .normal
    let st : Instr := .xrst .field 4#5 .normal
    (elemReady (s .up ld 0x10900#64) (x ld 0x10900#64) (partOf 1 0) = true ∧ elemReady (s .up st 0xFFFFFFFFFFFE#64) (x st 0xFFFFFFFFFFFE#64) (partOf 1 0) = true ∧
      elemReady (s .down ld 0x10900#64) (x ld 0x10900#64) (partOf 1 0) = true) ∧
    (mget none (before (s .up ld 0x10900#64)).pkg.rmasks 5 = some 2 ∧ (before (s .up ld 0x10900#64)).pkg.pkgid ≠ 0xFFFF#64 ∧
      Nat.testBit 2 1 = true ∧ (mget Port.reset (before (s .up ld 0x10900#64)).pkg.ports 1).state = .up) ∧
    (∀ k, k < 16 → ¬ (Nat.testBit 2 k = true ∧ (mget Port.reset (before (s .down ld 0x10900#64)).pkg.ports k).state = .up)) ∧
    memRow (x ld 0x10900#64).ks 0 0 + 4 ≤ 2 ^ 48 ∧ 2 ^ 48 < memRow (x st 0xFFFFFFFFFFFE#64).ks 0 0 + 4 := by
  decide +kernel
/-- Pairs of each width, with and without an index that is passed over; the second pair of a row, by count and by index
(TransferElementMovesRow). -/
theorem test_TransferElementMovesRow_emits :
    let ks := fun (w2 : Word) => [0x10900#64, 0x400000000#64, w2]
    let ready := fun op w2 j => elemReady (pagedCmd (oneJob op (ks w2) j)) (oneJob op (ks w2) j) j
    let v := { partOf 2 0 with idx := [0x7FFFFFFF#32, 0x80000000#32], vals := [1#32, 2#32, 3#32, 4#32] }
    let em := fun ew cvt => Instr.xemitv ew cvt .field 4#5 (.direct 0#7)
    (ready (em .w2 true) 0#64 v = true ∧ ready (em .w2 false) 0#64 v = true ∧ ready (em .w4 false) 0#64 v = true ∧ ready (em .w8 false) 0#64 v = true ∧
      ready (em .w4 false) 0#64 { v with done := 1 } = true) ∧
    (let t := { v with n := 4, done := 1 }
     let row := fun ix => Instr.xemitt .w4 ix .field 4#5
     ready (row none) 0x0008000000000000#64 t = true ∧ ready (row (some (.direct 0#7))) 0x0008000000000000#64 t = true ∧
     ready (row (some (.direct 0#7))) 0x0008000000000000#64 { t with done := 2 } = true ∧
     blk (ks 0x0008000000000000#64) 2 / 2 ^ 48 % 2 ^ 15 / 4 = 2) := by
  decide +kernel
/-- A scan of seven FP16 elements and of none, and an exchange (TransferElementMovesRow). -/
theorem test_TransferElementMovesRow_scan :
    let ready := fun op ks j => elemReady (pagedCmd (oneJob op ks j)) (oneJob op ks j) j
    let sc : Instr := .xnzscan .field 4#5
    ready sc [0x100000000#64, 100#64] { partOf 1 2 with m := 7 } = true ∧ ready sc [0x100000000#64, 100#64] (partOf 1 2) = true ∧
    ready (.gshuft 4#5 1#6) [0x0004000000800000#64] { partOf 1 0 with a := 5 } = true := by
  decide +kernel
/-- A walk of three rows and five entries in the page, and of no row. -/
def walkCmd (nr start : Nat) (ci : Word) (j : LaneJob) : Cmd :=
  oneJob (.xwalk 4#5 .normal) [0x10900#64, ci, BitVec.ofNat 64 (start + nr * 2 ^ 32), 0x10#64] j
def walkState (x : Cmd) : State :=
  wrPhys (wrPhys (pagedCmd x) 0x10900 ([0, 2, 2, 5].flatMap (bytesOf 4))) 0x10A00 ([7, 8, 9, 10, 11].flatMap (bytesOf 4))
/-- First entries that read NNZ and that have no row to read, an entry of a row met before, the last entry, one behind NNZ, and
one whose column cannot be read (TransferElementMovesRow). -/
theorem test_TransferElementMovesRow_walk :
    let ready := fun (x : Cmd) j => elemReady (walkState x) x j
    let rd := fun (x : Cmd) (base : Word) i => (okOf (walkRead (before (walkState x)) 0 x 0 .normal base i)).map (·.1)
    let row := fun (x : Cmd) p => (searchRow 0 x 0 .normal p 33 (before (walkState x)) 0 2).map (·.1)
    let j := partOf 3 0
    let j1 := { j with done := 1, k := 5, prev := some 0, vrow := 1, vals := [0#32] }
    let j2 := { j1 with done := 2 }
    (let x := walkCmd 3 0 0x10A00#64 j
     ready x j = true ∧ rd x 0x10900#64 3 = some 5 ∧ row x 0 = some 0 ∧ rd x 0x10A00#64 0 = some 7) ∧
    ready (walkCmd 0 0 0x10A00#64 j) j = true ∧
    (let x := walkCmd 3 0 0x10A00#64 j1
     ready x j1 = true ∧ row x 1 = some 0 ∧ rd x 0x10A00#64 1 = some 8) ∧
    (let x := walkCmd 3 0 0x10A00#64 j2
     ready x j2 = true ∧ row x 2 = some 2 ∧ rd x 0x10A00#64 2 = some 9 ∧ rd x 0x10900#64 0 = some 0 ∧ rd x 0x10900#64 3 = some 5) ∧
    (let x := walkCmd 3 4 0x10A00#64 j2
     ready x j2 = true ∧ j2.k ≤ 4 + j2.done ∧ ready (walkCmd 3 9 0x10A00#64 { j2 with k := 5 }) j2 = true) ∧
    (let x := walkCmd 3 0 0x50000#64 j
     ready x j = true ∧ failed (walkRead (before (walkState x)) 0 x 0 .normal 0x50000#64 0) = true) := by
  decide +kernel
/-- A matrix command of one lane on tile 0, and a store of tile 1 behind it. -/
def mCmd : Cmd := { xldCmd (.mzero ⟨0#3, 0#6⟩) with cls := .matrix, jobs := [LaneJob.start 0 (1, 1, 1)] }
def mCmd2 : Cmd :=
  { mCmd with op := .mstore ⟨1#3, 0#6⟩ 0#2 0#5 .rne false true false false false, id := 4, tile := 1 }
def sM : State := seat { seatCtx with cmds := [mCmd, mCmd2] }
/-- A lane of depth 3 with INT8 operands, and the commands of the witnesses below. -/
def mmJob : LaneJob := { LaneJob.start 0 (2, 2, 3) with fmt := 12, idx := [0#32, 0xFFFFFFFF#32, 1#32], a := 3 }
def mmX : Cmd := { mCmd with op := .mma ⟨0#3, 0#6⟩ 0#2 0#5 4#3 5#3 false, ks := [0x0060002000000000#64], jobs := [mmJob] }
def mmY : Cmd := { mmX with op := .mmag ⟨0#3, 0#6⟩ 0#2 0#5 6#3 6#3 true }
def mmZ : Cmd := { mCmd2 with ks := [0x0060002000000000#64, 0#64], jobs := [{ LaneJob.start 0 (2, 2, 1) with fmt := 1 }] }
/-- The machine with one command. -/
def sMm (x : Cmd) : State := seat { seatCtx with cmds := [x] }
/-- A multiplication of INT8 operands of depth 3 whose row 0 lies at the start of the portion, direct and gathered with an
index that contributes nothing, and a store of FP32 rows 128 bytes apart (MatrixCommandsComplete). -/
theorem test_MatrixCommandsComplete_inside :
    TileTurn (sMm mmX) 0 3 0 mmX mmJob false ∧ TileTurn (sMm mmY) 0 3 0 mmY mmJob false ∧
    (blk mmX.ks 0 / 2 ^ 51 % 32 = 12 ∧ fmtOf mmJob.fmt = .int8 ∧ blk mmX.ks 0 / 2 ^ 30 % 2 ^ 18 = 128) ∧
    TileTurn (sMm mmZ) 0 4 0 mmZ { LaneJob.start 0 (2, 2, 1) with fmt := 1 } true ∧
    fmtOf 1 = .fp32 ∧ 2 * (Fmt.fp32.bits / 8) ≤ blk mmZ.ks 0 / 2 ^ 30 % 2 ^ 18 := by
  refine ⟨?_, ?_, by decide, ?_, by decide⟩ <;> unfold TileTurn <;> decide +kernel
/-- Multiplications of FP16 by BF16 gathered, and of MXINT6 by MXINT8, and stores of two rows to MXINT6 blocks and of five half
bytes (MatrixCommandsComplete). -/
theorem test_MatrixCommandsComplete_formats :
    let j := fun (f m n k : Nat) => { mmJob with m := m, n := n, k := k, fmt := f }
    let p : Cmd := { mmX with op := .mmag ⟨0#3, 0#6⟩ 0#2 0#5 3#3 2#3 true, ks := [0x0010002000000000#64], jobs := [j 3 2 2 3] }
    let q : Cmd := { mmX with op := .mma ⟨0#3, 0#6⟩ 0#2 0#5 2#3 2#3 true, ks := [0x0050001000000000#64], jobs := [j 0xC0000B 2 2 33] }
    let st := fun (f n : Nat) => { mmZ with ks := [0x0000003000000000#64, 0#64], jobs := [j f 2 n 0] }
    (TileTurn (sMm p) 0 3 0 p (j 3 2 2 3) false ∧ Fmt.ofCode? (blk p.ks 0 / 2 ^ 51 % 32) = some .fp16 ∧ fmtOf 3 = .bf16) ∧
    (TileTurn (sMm q) 0 3 0 q (j 0xC0000B 2 2 33) false ∧ Fmt.ofCode? (blk q.ks 0 / 2 ^ 51 % 32) = some .mx6 ∧ fmtOf 0xC0000B = .mx8) ∧
    (TileTurn (sMm (st 0xC0000A 32)) 0 4 0 (st 0xC0000A 32) (j 0xC0000A 2 32 0) true ∧ (fmtOf 0xC0000A = .mx6 ∧ Fmt.mx6.isMx = true) ∧
      (rowLen 0xC0000A 32 ≤ 192 ∧ 192 % (4 * Fmt.mx6.bits) = 0 ∧ 192 + rowLen 0xC0000A 32 ≤ scoffOf 0xC0000A)) ∧
    (TileTurn (sMm (st 8 5)) 0 4 0 (st 8 5) (j 8 2 5 0) true ∧ fmtOf 8 = .e2m1 ∧ rowLen 8 5 ≤ 192) := by
  refine ⟨⟨?_, by decide⟩, ⟨?_, by decide⟩, ⟨?_, by decide⟩, ?_, by decide⟩ <;> unfold TileTurn <;> decide +kernel
/-- The turns of both (MatrixCommandsComplete). -/
theorem test_MatrixCommandsComplete_met : TileTurn sM 0 3 0 mCmd (LaneJob.start 0 (1, 1, 1)) false ∧
    TileTurn sM 0 4 0 mCmd2 (LaneJob.start 0 (1, 1, 1)) true := by
  constructor <;> unfold TileTurn <;> decide +kernel
/-- A transfer command whose lanes are done and whose pairs are taken, and a stepped grammar command
(CommandsComplete). -/
theorem test_CommandsComplete_met :
    let x : Cmd := { xldCmd (.xld .field 4#5 .normal) with jobs := [{ LaneJob.start 0 (0, 1, 0) with fin := true }] }
    let y : Cmd := { xldCmd (.pdaadv 0#3 false 0#5) with cls := .grammar, id := 4, stepped := true }
    let s := seat { seatCtx with cmds := [x, y] }
    (cmdOf s 0 3 = some x ∧ x.fin = false ∧ (∀ z ∈ (ctxOf s 0).cmds, z.id = 3 → z = x) ∧ x.cls = .transfer ∧ (∀ j ∈ x.jobs, j.fin = true) ∧
      ∀ p ∈ s.pkg.pairs, p.gcn = 0 → p.cmd ≠ 3) ∧
    (cmdOf s 0 4 = some y ∧ y.fin = false ∧ (∀ z ∈ (ctxOf s 0).cmds, z.id = 4 → z = y) ∧ y.cls = .grammar ∧ y.stepped = true) := by
  decide +kernel
/-- A portion of one bank with a double that leaves it, a row that leaves its bank, a group of 4,097 elements, and a scan of
4,096 (SlotTraps). -/
theorem test_SlotTraps_range :
    let s := fun (w0 w2 : Word) => seat { seatCtx with spn := 1, prim := { seatHalf with am := 1#16, sreg := [(1, 0x3FFC#64)], kreg := [(4, w0), (6, w2)] } }
    let s1 := s 0x0001000000010000#64 0x4000000000000004#64
    let s2 := s 0x1001000000010000#64 0x0001000000000000#64
    let ks := fun (s : State) (n : Nat) => (List.range n).map fun i => rdK s (BitVec.ofNat 5 (4 + i))
    s1.issuer.gcn % 8 ≠ 4 ∧ (curH s1).slot < 6 ∧ (curH s1).rep < 256 ∧ activeLanes (curH s1).am = [0] ∧
    ¬ InPortion s1 (addrOf s1 1#6 0#4 .d % 2 ^ 18) 8 ∧
    (BlockIs s1 4#5 3 (ks s1 3) ∧ RowRegister (blk (ks s1 3) 2) ∧ 0 < countOf s1 0 .field (blk (ks s1 3) 0 / 2 ^ 48) ∧
      ¬ InPortion s1 (rowAt s1 (blk (ks s1 3) 2) 0) (blk (ks s1 3) 2 / 2 ^ 48)) ∧
    (BlockIs s2 4#5 3 (ks s2 3) ∧ RowRegister (blk (ks s2 3) 2) ∧ 4096 < countOf s2 0 .field (blk (ks s2 3) 0 / 2 ^ 48) ∧
      GroupInBudget s2 (.direct 0#7) (ceilDiv 4097 64)) ∧
    (let s3 := s 0x1000000000000000#64 0#64
     BlockIs s3 4#5 2 (ks s3 2) ∧ field 36 12 (blk (ks s3 2) 0) = 0 ∧ blk (ks s3 2) 1 < 2 ^ 32 ∧
      4095 < countOf s3 0 .field (blk (ks s3 2) 0 / 2 ^ 48)) := by
  dsimp only [InPortion, BlockIs, RowRegister, GroupInBudget]
  decide
/-- Oldest commands on a bound handle with one mark, and on an unbound one (GrammarSteps). -/
theorem test_GrammarSteps_met :
    let sl : GSlot := ⟨0x10000, 0x10000, 2, 0, false, 0, 0, 0, [⟨1, true, 0, 0, 5⟩]⟩
    let y : Cmd := { xldCmd (.pdaroll 7#3 false 0#5) with cls := .grammar, ks := [0#64] }
    let s := booted (seat { seatCtx with cmds := [xldCmd (.xld .field 4#5 .normal), y], handles := [(7, some sl)] })
    ((ctxOf s 0).cmds.filter fun c => c.cls == .grammar).find? (fun c => !c.stepped && !c.fin) = some y ∧
    storesDone s 0 = true ∧ s.pkg.rdyGram.getLsbD 0 = true ∧ gSlot s 0 7#3 = some sl ∧ sl.marks[blk y.ks 0 % 16]? = some ⟨1, true, 0, 0, 5⟩ ∧ gSlot s 0 6#3 = none ∧
    gSlot s 0 (BitVec.ofNat 3 7) = some sl ∧ gSlot s 0 (BitVec.ofNat 3 (blk y.ks 0)) = none ∧ sl.marks.length ≤ blk [15#64] 0 % 16 := by
  decide +kernel
/-- Each instruction that checks a version, with its block and digits; a tile past the budget; and an earlier command that has
reached its version, for which only `mread` waits (VersionCheck). -/
theorem test_VersionCheck_forms :
    let a : Acc := ⟨1#3, 0#6⟩
    (versionForm (.mzero a) = some (a, false) ∧ versionForm (.minit a (.direct 0#7) true) = some (a, false) ∧
      versionForm (.mma a 0#2 31#5 1#3 6#3 false) = some (a, false) ∧ versionForm (.mmag a 0#2 30#5 1#3 6#3 true) = some (a, false) ∧
      versionForm (.mstore a 0#2 30#5 .rne true true true true true) = some (a, false) ∧ versionForm (.mread a (.direct 0#7) true) = some (a, true)) ∧
    (MatrixEncodes sV (.mma a 0#2 31#5 1#3 6#3 false) ∧ MatrixEncodes sV (.mmag a 0#2 30#5 1#3 6#3 true) ∧
      MatrixEncodes sV (.mstore a 0#2 30#5 .rne true true true true true)) ∧
    (let s := seat { seatCtx with acnt := 1 }
     (cur s).acnt ≤ tileOf s a ∧ (curH s).verOk = false ∧ (curH s).slot < 6 ∧ (curH s).rep < 256) ∧
    (let c : Cmd := { xldCmd (.mzero ⟨0#3, 0#6⟩) with cls := .matrix, jobs := [LaneJob.start 0 (1, 1, 1)] }
     let s := seat { seatCtx with cmds := [c], prim := { seatHalf with am := 1#16 } }
     activeLanes (curH s).am = [0] ∧ tileOf s ⟨0#3, 0#6⟩ < (cur s).acnt ∧
     (expected s ⟨0#3, 0#6⟩ + 64 - accver s 0 0 0) % 64 = 0 ∧ outstanding s 0 0 = 1) := by
  refine ⟨by decide, ⟨⟨by decide, by decide, _, by decide, rfl⟩, ⟨by decide, by decide, _, by decide, rfl⟩, ⟨_, by decide, rfl⟩⟩, by decide, by decide +kernel⟩
/-- An image of one state and three tokens: the first pushes, the second ends, the third is not allowed. -/
def gImage : List Byte :=
  ([0x52475053, 0x10000, 1, 3, 1, 0, 0, 0, 152, 64, 112, 96, 0, 0, 0, 0, 128, 2, 144, 0, 0, 0, 0, 0, 1, 0, 0, 0].flatMap (bytesOf 4)) ++
    ([0, 65 * 2 ^ 32 + 2 ^ 40, 65 + 65 * 2 ^ 9 + 2 ^ 18, 256 + 256 * 2 ^ 9 + 3 * 2 ^ 18, 3].flatMap (bytesOf 8))
/-- A bound handle with a stack of one node and one mark. -/
def gSl : GSlot := ⟨0x11000, 0x11200, 4, 0, false, 1, 1, 5, [⟨0, true, 1, 1, 3⟩]⟩
/-- Bytes at an address as memory lists them. -/
def cellsAt (va : Nat) (bs : List Byte) : List (Nat × Byte) :=
  ((List.range bs.length).zip bs).filterMap fun b => if b.2 = 0#8 then none else some (va + b.1, b.2)
/-- The mapped machine with the page in grammar memory, an image in it and other bytes above it, one grammar command and a
bound handle. -/
def gState (img : List Byte) (l : List (Nat × List Byte)) (x : Cmd) (sl : GSlot) : State :=
  booted { paged with
    dies := paged.dies.map fun d => (d.1, { d.2 with tlb := d.2.tlb.map fun e => { e with leaf := e.leaf ||| 0x80#64 } })
    mem := paged.mem ++ cellsAt 0x11000 img ++ l.flatMap fun p => cellsAt p.1 p.2
    ctxs := [(0, { seatCtx with stktop := 0x10800#64, stklim := 0x10400#64, cmds := [x], handles := [(2, some sl)] })] }
def gCmd (op : Instr) (ks : List Word) : Cmd :=
  { xldCmd op with cls := .grammar, ks := ks, jobs := [LaneJob.start 0 (0, 1, 0)] }
/-- The state in which a grammar step of context 0 begins its reads. -/
def gBefore (s : State) : State := flushStores (settleSp s 0) 0
/-- The step of a command is the next one and may be taken. -/
def gReady (s : State) (x : Cmd) : Bool :=
  decide (((ctxOf s 0).cmds.filter fun c => c.cls == .grammar).find? (fun c => !c.stepped && !c.fin) = some x) && storesDone s 0 &&
    s.pkg.rdyGram.getLsbD 0
/-- The answer of grammar work, if it is one. -/
def gOk {α : Type} : GR α → Option (α × State)
  | .ok x t => some (x, t)
  | _ => none
/-- The CODE of grammar work that fails. -/
def gCodeOf {α : Type} : GR α → Option Nat
  | .code n _ => some n
  | _ => none
/-- Whether all writes of a step are made. -/
def gWritten (x : Cmd) (u : State) (l : List (Nat × List Byte)) : Bool :=
  ((gOk (gCheckWrites 0 x u l)).bind fun r => gOk (gWrites 0 x r.2 r.2 l)).isSome
/-- Whether a header is as R344 asks. -/
theorem header_ok {va w : Nat} (h : (let f := headField w
    decide (va % 64 = 0 ∧ f 0 = 0x52475053 ∧ f 1 = 0x10000 ∧ 1 ≤ f 2 ∧ f 2 ≤ 2 ^ 20 ∧ 1 ≤ f 3 ∧ f 3 ≤ 2 ^ 18 ∧
    (f 4 < f 3 ∨ f 4 = 2 ^ 32 - 1) ∧ f 5 < f 2 ∧ (f 6 < f 2 ∨ f 6 = 2 ^ 32 - 1) ∧ f 7 = 0 ∧ f 12 = 0 ∧ f 13 = 0 ∧ f 14 = 0 ∧ f 15 = 0 ∧
    64 ≤ f 8 ∧ f 9 % 32 = 0 ∧ f 10 % 8 = 0 ∧ f 11 % 4 = 0 ∧ f 9 + 32 * f 2 ≤ f 8 ∧ f 11 + 4 * f 3 ≤ f 8)) = true) : ImageHeader va w := by
  obtain ⟨h0, h1, h2, h3, h4, h5, h6, h7, h8, h9, h10, h12, h13, h14, h15, h⟩ := of_decide_eq_true h
  refine ⟨h0, h1, h2, h3, h4, h5, h6, h7, h8, h9, h10, fun i hi hj => ?_, h⟩
  obtain rfl | rfl | rfl | rfl : i = 12 ∨ i = 13 ∨ i = 14 ∨ i = 15 := by omega
  all_goals assumption
/-- The header of the image of the witnesses. -/
theorem image_header : ImageHeader 0x11000 (ofBytes (gImage.take 64)) := header_ok (by decide +kernel)
/-- A bind to the image, whose two writes are made, and to one whose magic number is wrong (GrammarSteps). -/
theorem test_GrammarSteps_bind :
    let x := gCmd (.pdabind 1#3 true 0#5) [0x80000000004#64, 0x11000#64, 0x11200#64]
    let s := fun i => gState (gImage.set 0 i) [] x gSl
    gReady (s 0x53#8) x = true ∧ (∀ y ∈ (ctxOf (s 0x53#8) 0).cmds, y.cls = .grammar → y.id < x.id → y.fin = true) ∧
    (gOk (gRead 0 x (gBefore (s 0x53#8)) 0x11000 64)).map (fun r => (r.1, gWritten x r.2 [(0x11200, bytesOf 4 2), (0x11210, bytesOf 16 0)])) =
      some (ofBytes (gImage.take 64), true) ∧
    (gOk (gRead 0 x (gBefore (s 0#8)) 0x11000 64)).map (fun r => decide (headField r.1 0 = 0x52475053)) = some false := by
  decide +kernel
/-- A restore reads the 40 words `w` of its record, and the header of an image whose first byte is b. -/
def restores (b : Byte) (w : List Nat) : Bool :=
  let x := gCmd (.pdarest 3#3 true 0#5) [0x80000000000#64, 0x11400#64]
  match gRead 0 x (gBefore (gState (gImage.set 0 b) [(0x11400, w.flatMap (bytesOf 8))] x gSl)) 0x11400 320 with
  | .ok r u => r == packNat 64 40 (fun i => w.getD i 0) &&
    (match gRead 0 x u 0x11000 64 with
     | .ok h _ => h == ofBytes ((gImage.set 0 b).take 64)
     | _ => false)
  | _ => false
/-- Restores of a record, of one with a reserved word, of one with a misaligned image, of one whose image has no magic number, and
of one with a state past the last (GrammarSteps). -/
theorem test_GrammarSteps_restore :
    let x := gCmd (.pdarest 3#3 true 0#5) [0x80000000000#64, 0x11400#64]
    let w := saveWords gSl
    let s := gState gImage [(0x11400, w.flatMap (bytesOf 8))] x gSl
    gReady s x = true ∧ (∀ y ∈ (ctxOf s 0).cmds, y.cls = .grammar → y.id < x.id → y.fin = true) ∧
    restores 0x53#8 w = true ∧ restores 0x53#8 (w.set 7 1) = true ∧ restores 0x53#8 (w.set 0 0x11001) = true ∧ restores 0#8 w = true ∧
    restores 0x53#8 (w.set 3 1) = true ∧ w.getD 0 0 = 0x11000 ∧ headField (ofBytes (gImage.take 64)) 2 = 1 := by
  decide +kernel
/-- The record of the witnesses (GrammarSteps). -/
theorem test_GrammarSteps_record : SaveRecord fun i => (saveWords gSl).getD i 0 := by
  refine ⟨by decide, by decide, by decide, by decide, by decide, by decide, by decide, by decide, by decide, by decide, fun i hi => ?_⟩
  obtain rfl : i = 0 := Nat.lt_one_iff.mp hi
  decide
/-- A save of the handle (GrammarSteps). -/
theorem test_GrammarSteps_save :
    let x := gCmd (.pdasave 2#3 true 0#5) [0x80000000000#64, 0x11400#64]
    gReady (gState gImage [] x gSl) x = true ∧ gSlot (gState gImage [] x gSl) 0 2#3 = some gSl ∧ (gSl.state < 2 ^ 20 ∧ gSl.top < 2 ^ 32 ∧ gSl.depth < 2 ^ 16) ∧
    gSl.marks = [⟨0, true, 1, 1, 3⟩] ∧ gWritten x (gBefore (gState gImage [] x gSl)) [(0x11400, (saveWords gSl).flatMap (bytesOf 8))] = true := by
  decide +kernel
/-- What an advance of a token of the image meets: 3 where its bit is 0, else its string with 0, 1 or 2 where its walk is rejected,
ends or goes on, and whether its writes are made. -/
def advanceOf (img : List Byte) (tok : Nat) : Option (Nat × List Nat × Bool) :=
  let x := gCmd (.pdaadv 2#3 true 0#5) [BitVec.ofNat 64 (tok + 2 ^ 43)]
  let s := gBefore (gState img [(0x11200, bytesOf 4 2)] x gSl)
  (gOk (gRead 0 x s 0x11000 64)).bind fun h =>
    let m := imageOf 0x11000 h.1
    (gOk (gBit 0 x m gSl tok h.2)).bind fun b =>
      if !b.1 then some (3, [], false)
      else (gOk (gString 0 x m b.2 tok)).bind fun y =>
        (gOk (gWalk 0 x m gSl true (y.1.getD []) ⟨gSl.state, gSl.top, gSl.depth, [], none⟩ y.2)).map fun r =>
          match r.1 with
          | .reject => (0, y.1.getD [], false)
          | .accepted => (1, y.1.getD [], false)
          | .ok c => (2, y.1.getD [], gWritten x r.2 ((c.new.reverse.map fun n => (gSl.arenava + 16 * n.1, bytesOf 16 (n.2.1 + 2 ^ 32 * n.2.2))) ++
              (match c.cursor with
               | some i => [(gSl.arenava, bytesOf 4 i)]
               | none => [])))
/-- Advances by the token that pushes, the one that ends, the one that is not allowed, and one that is allowed and whose walk
fails (GrammarSteps). -/
theorem test_GrammarSteps_advance :
    (let x := gCmd (.pdaadv 2#3 true 0#5) [0x80000000000#64]
     gReady (gState gImage [(0x11200, bytesOf 4 2)] x gSl) x = true) ∧
    advanceOf gImage 0 = some (2, [65], true) ∧ advanceOf gImage 1 = some (1, [256], false) ∧
    advanceOf gImage 2 = some (3, [], false) ∧ advanceOf (gImage.take 128 ++ bytesOf 8 0 ++ gImage.drop 136) 0 = some (0, [65], false) := by
  decide +kernel
/-- The bits that the tokens from `t` on have in the mask of the image, up to the first that fails. -/
def bitsFrom (x : Cmd) (m : GImg) : Nat → Nat → State → List Bool × Option Nat
  | 0, _, _ => ([], none)
  | n + 1, t, s =>
    match gBit 0 x m gSl t s with
    | .ok b s => let r := bitsFrom x m n (t + 1) s
      (b :: r.1, r.2)
    | .code c _ => ([], some c)
    | _ => ([], some 0)
/-- The masks of 64 tokens of the image, in one lane and in each; one whose handle has ended; and one that meets a reserved word
of the state record (GrammarSteps). -/
theorem test_GrammarSteps_mask :
    let x := fun spread => gCmd (.pdamask spread 2#3 true 0#5) [0x80000000000#64, 0x0000040000000040#64]
    let run := fun img x => (gOk (gRead 0 x (gBefore (gState img [] x gSl)) 0x11000 64)).map fun h => bitsFrom x (imageOf 0x11000 h.1) 64 0 h.2
    (gReady (gState gImage [] (x false) gSl) (x false) = true ∧ gReady (gState gImage [] (x true) gSl) (x true) = true ∧ masksOn (gState gImage [] (x true) gSl) 0 < 64) ∧
    run gImage (x true) = some ([true, true] ++ List.replicate 62 false, none) ∧
    (gReady (gState gImage [] (x false) { gSl with fin := true }) (x false) = true ∧ gSlot (gState gImage [] (x false) { gSl with fin := true }) 0 2#3 = some { gSl with fin := true }) ∧
    run (gImage.set 92 1#8) (x false) = some ([], some 9) := by
  decide +kernel

/-! ### Sequencers, waits, memory, update pairs -/

/-- A Parked context with a result that is due, a long run with another slot Ready, and choices of each rule
(SequencerEvents). -/
theorem test_SequencerEvents_met :
    (let p : Pend := ⟨5, [.s 1#6 1#64], false, 0, 5⟩
     let s := fun (w : Wait) => seat { seatCtx with phase := .parked, prim := { seatHalf with begun := true, cycle := 5, wait := w, pend := [p] } }
     (ctxOf (s .none) 0).phase = .parked ∧ (ctxOf (s .none) 0).halves = [.primary] ∧ (ctxOf (s .none) 0).prim.pend = [p] ∧
     ((ctxOf (s .none) 0).prim.begun = true ∧ p.due ≤ (ctxOf (s .none) 0).prim.cycle ∧ Wr.s 1#6 1#64 ∈ p.writes ∧ (ctxOf (s .none) 0).prim.wait = .none) ∧
     ((ctxOf (s (.version 0 1 false)) 0).prim.wait ≠ .none ∧ (ctxOf (s (.version 0 1 false)) 0).prim.wait ≠ .held)) ∧
    (let s := { State.reset with ctxs := [(0, { seatCtx with prim := { seatHalf with run := 4096 } }), (4, { seatCtx with phase := .ready })] }
     (ctxOf s 0).phase = .issuing ∧ (ctxOf s 0).halves = [.primary] ∧ (ctxOf s 0).prim.begun = false ∧ (ctxOf s 0).prim.rep = 0 ∧
     (ctxOf s 0).prim.pend = [] ∧ (ctxOf s 0).prim.wait = .none ∧ 4096 ≤ (ctxOf s 0).prim.run ∧ (slotOfPod s 0 4).phase = .ready) := by
  decide
/-- A pod with Ready contexts of the given ages, and one that is not Ready. -/
def sP (handler : Phase) (a0 a1 : Nat) (urgent1 : Bool) : State :=
  { State.reset with ctxs := [(0, { seatCtx with phase := .ready, age := a0 }), (1, { seatCtx with phase := .ready, age := a1, urgent := urgent1, credit := 1 }),
      (2, { seatCtx with phase := .parked }), (4, { seatCtx with phase := handler })] }
/-- Which of the contexts of a pod the rules of the picker look at. -/
def pickerRule (s : State) (n : Nat) : Bool × Bool × Bool :=
  let c := slotOfPod s 0
  let rd := fun m => decide ((c m).phase = .ready)
  (decide (3 ≤ (c n).age) && (List.range 4).all fun m => !rd m || decide ((c m).age < (c n).age ∨ (c m).age = (c n).age ∧ n ≤ m),
   (List.range 4).all (fun m => !rd m || (decide ((c m).age < 3) && (c m).yieldSet.isEmpty && !(c m).yielded)) && (c n).urgent && decide ((c n).credit ≠ 0) &&
     (List.range n).all fun m => !rd m || !((c m).urgent && decide ((c m).credit ≠ 0)),
   (List.range 4).all (fun m => !rd m || (decide ((c m).age < 3) && (c m).yieldSet.isEmpty && !(c m).yielded && !(c m).urgent)) &&
     (List.range 4).all fun m => !rd m || decide ((c m).age < (c n).age ∨ (c m).age = (c n).age ∧ n ≤ m))
/-- A Ready handler slot, an aged context, an urgent one with credit, and the oldest of the others (SequencerEvents). -/
theorem test_SequencerEvents_picker :
    (∀ n, n < 5 → (slotOfPod (sP .ready 0 0 false) 0 n).phase ≠ .issuing) ∧ (slotOfPod (sP .ready 0 0 false) 0 4).phase = .ready ∧
    (slotOfPod (sP .free 0 0 false) 0 4).phase ≠ .ready ∧ (slotOfPod (sP .free 0 0 false) 0 2).phase ≠ .ready ∧
    (pickerRule (sP .free 3 3 false) 0).1 = true ∧ (pickerRule (sP .free 2 2 true) 1).2.1 = true ∧
    (pickerRule (sP .free 1 2 false) 1).2.2 = true := by decide
/-- A Ready context that has not yielded beside one that has, and beside one that waits for it (SequencerEvents). -/
theorem test_SequencerEvents_yielded :
    let s := { State.reset with ctxs := [(0, { seatCtx with phase := .ready, age := 2, yielded := true }), (1, { seatCtx with phase := .ready }),
        (2, { seatCtx with phase := .ready, yieldSet := [1] }), (3, { seatCtx with phase := .parked })] }
    (∀ n, n < 5 → (slotOfPod s 0 n).phase ≠ .issuing) ∧ (∀ n, n < 4 → (slotOfPod s 0 n).preempting = false) ∧ (slotOfPod s 0 4).phase ≠ .ready ∧
    (∀ m, m < 4 → (slotOfPod s 0 m).phase = .ready → (slotOfPod s 0 m).age < 3) ∧
    ((slotOfPod s 0 1).phase = .ready ∧ (slotOfPod s 0 1).yieldSet = [] ∧ (slotOfPod s 0 1).yielded = false) ∧
    (∀ m, m < 4 → m ≠ 1 → (slotOfPod s 0 m).phase = .ready → (slotOfPod s 0 m).yieldSet ≠ [] ∨ (slotOfPod s 0 m).yielded = true) ∧
    (match exec (.pickerChoice 0) s with | .next t => decide ((slotOfPod t 0 1).phase = .issuing) | _ => false) = true := by
  decide +kernel
/-- An interlocked load outside the stack that completes; a load of the stack and its fill; a background fill
(SequencerEvents). -/
theorem test_SequencerEvents_access :
    (let i : Instr := .ld .w false .normal 5#6 3#6 0#7
     let s := pagedSeat fun h => { h with sreg := [(3, 0x10000#64)], wait := .access i }
     Waiting s 0 .primary (.access i) ∧ (ctxOf s 0).phase = .issuing ∧ slotOf i ≠ none ∧
     (match exec i (retrying s 0 .primary) with
      | .next t => decide ((ctxOf t 0).phase = .issuing) && decide (((ctxOf t 0).half .primary).wait = .none)
      | _ => false) = true) ∧
    (let s := pagedSeat fun h => { h with sreg := [(3, 0x10400#64)] }
     stackPart s (addrOf s 3#6 0#7 .w) 4 = .inside ∧ (match stkFills s 0 .primary 0x10400 4 with | .ok _ => true | _ => false) = true) ∧
    (let c := { seatCtx with stktop := 0x10800#64, stklim := 0x10400#64, stk := [⟨0x10400, false, 0#512⟩] }
     let s := { paged with ctxs := [(0, { c with prim := { seatHalf with sreg := [(63, 0x10400#64)] } })] }
     (rdSH (ctxOf s 0).prim 63#6).toNat < 0x10440 ∧ 0x10440 + 128 ≤ (ctxOf s 0).stktop.toNat ∧
     (match stkFill s 0 .primary 0x10440 0x10440 with
      | .ok t => (match stkFill t 0 .primary 0x10480 0x10480 with | .ok _ => decide ((ctxOf t 0).stk.length < 64) | _ => false)
      | _ => false) = true) := by
  unfold Waiting
  decide +kernel
/-- A load into s5 and a store of s1 that wait at their slots, with their bytes at hand (SequencerEvents). -/
theorem test_SequencerEvents_passes :
    let at_ := fun (s : State) => retrying s 0 .primary
    (let s := pagedSeat fun h => { h with sreg := [(3, 0x10400#64)], wait := .access (.ld .w true .normal 5#6 3#6 0#7) }
     (ctxOf s 0).phase = .issuing ∧ ((ctxOf s 0).half .primary).wait = .access (.ld .w true .normal 5#6 3#6 0#7) ∧
     ¬ (true = true ∧ Size.w = .d) ∧
     (match loadOf (at_ s) (addrOf (at_ s) 3#6 0#7 .w) 4 .normal with
      | some (x, _, stk) => x == 0 && stk
      | none => false) = true) ∧
    (let s := pagedSeat fun h => { h with sreg := [(1, 3#64), (3, 0x10000#64)], wait := .access (.st .d .normal 1#6 3#6 0#7) }
     ((ctxOf s 0).half .primary).wait = .access (.st .d .normal 1#6 3#6 0#7) ∧
     (storeOf (at_ s) (addrOf (at_ s) 3#6 0#7 .d) (bytesOf 8 ((rdS (at_ s) 1#6).toNat % 2 ^ 64)) .normal).isSome = true) := by
  decide +kernel
/-- The mapped machine at its bundle, which holds `addi s3, s0, 100` alone (SequencerEvents). -/
theorem test_SequencerEvents_bundle : AtBundle paged ∧
    ((curH paged).pend = [] ∧ (curH paged).verOk = false ∧ (curH paged).stV = none ∧ (curH paged).stM = none ∧
      (curH paged).stX = none ∧ (curH paged).nextPc = none ∧ (curH paged).switchReq = false ∧ (cur paged).tretTo = none ∧
      (cur paged).tctl.getLsbD 0 = false) ∧
    (match fetchAt (fetching paged) paged.issuer.gcn (curH paged).pc with
     | .ok hdr ws _ => ((makeBundle hdr ws).map fun b => (b.slots, headerRep b.header, headerSw b.header)) ==
         some ([(.sa, 0x100C0064#32, [])], 0, false)
     | _ => false) = true ∧
    (decodeSyllable .sa 0x100C0064#32 []).toOption = some (.addi 3#6 0#6 100#12) ∧
    arith (.addi 3#6 0#6 100#12) (fetching paged) = some (3#6, 100#64) ∧ mayWrite (fetching paged) 3#6 100#64 := by
  refine ⟨test_AtBundle_met.1, ?_⟩
  unfold mayWrite
  decide +kernel
/-- The mapped machine at a bundle of `addi s3, s0, 100` and `vand v0, v1, v2` that issues twice, with a repeat done and a sticky
state when `again`. -/
def pagedTwo (again : Bool) : State :=
  let s := wrPhys paged 0x10080 ([0xA0040000, 0x100C0064, ((encode (.vand (.direct 0#7) (.direct 1#7) (.direct 2#7))).headD 0#32).toNat].flatMap fun w => bytesOf 4 w)
  let st : Sticky := ⟨.vand (.direct 0#7) (.direct 1#7) (.direct 2#7), ⟨[], 0#64, 0#64⟩, 0#64, 0, 0, 0, 0#64, 0, 0, []⟩
  updHalf (updCtx s 0 fun c => { c with vcnt := 16 }) 0 .primary fun x =>
    { x with pc := 0x10080#64, rep := if again then 1 else 0, stV := if again then some st else none }
/-- Both issues of that bundle (SequencerEvents). -/
theorem test_SequencerEvents_slots : AtRepeat (pagedTwo false) ∧ AtRepeat (pagedTwo true) ∧
    ([false, true].all fun again =>
      let s := pagedTwo again
      match fetchAt (fetching s) 0 (curH s).pc with
      | .ok hdr ws s1 =>
        (match makeBundle hdr ws with
         | some b => !badMix b && !isHalt b && decide ((curH s).rep ≤ headerRep b.header) && b.slots.map (·.1) == [.sa, .v] &&
             b.slots.all fun y => (decodeSyllable y.1 y.2.1 y.2.2).toOption.isSome
         | none => false) && decide (s1.issuer = (fetching s).issuer) && decide (cur s1 = cur (fetching s))
      | _ => false) = true := by
  unfold AtRepeat
  decide +kernel

/-- Waits of each kind, with nothing that keeps them (WaitsEnd). -/
theorem test_WaitsEnd_met :
    (∀ w ∈ [Wait.fence .acq .die, .fence .rel .die, .fence .full .sys, .waitb 0 7#3, .ufence 0, .version 0 0 true, .arrinc 7 255 1#32],
      let s := seatH fun h => { h with wait := w }
      Waiting s 0 .primary w ∧ covered (ctxOf s 0) 0 7#3 = [] ∧ (ctxOf s 0).deferred = none ∧
      (ctxOf (landSwitch s 0 .primary) 0).phase ≠ .frozen ∧ (∀ p ∈ s.pkg.pairs, p.gcn ≠ 0) ∧ storesDone (flushStores s 0) 0 = true ∧
      ∀ e ∈ activeLanes ((ctxOf s 0).half .primary).am, accver s 0 e 0 = 0 ∧ outstandingIn (ctxOf s 0) e 0 = 0) := by
  unfold Waiting
  decide
/-- A finished command with a fault, of the batch waited for (WaitsEnd). -/
theorem test_WaitsEnd_fault :
    let f : CmdFault := ⟨0, 1, 4, false, 0, 2, 1, 0x10000, 0⟩
    let x : Cmd := { xldCmd (.xld .field 4#5 .normal) with batch := some 1, fin := true, flt := some f }
    let s := seat { seatCtx with cmds := [x], issued := 1, prim := { seatHalf with wait := .waitb 1 2#3 } }
    Waiting s 0 .primary (.waitb 1 2#3) ∧ (ctxOf s 0).spare = none ∧ (ctxOf s 0).prim.pend = [] ∧ (ctxOf s 0).deferred = none ∧
    covered (ctxOf s 0) 1 2#3 = [x] ∧ x.fin = true ∧ x.reported = false ∧ x.flt = some f ∧ f.gcode = 0 := by
  unfold Waiting
  decide +kernel
/-- The one participant of a team has arrived and waits (WaitsEnd). -/
theorem test_WaitsEnd_barrier :
    let l := { l0 with bars := [⟨.team, 0, 3, 0, [0]⟩] }
    let s := seatL l { seatCtx with prim := { seatHalf with wait := .barw .team 3 0 } }
    launchOf s 7 = some l ∧ participants s 7 .team 0 = [0] ∧ 0 ∈ (barrierOf l .team 0 3).arrived ∧ (ctxOf s 0).prim.pend = [] ∧
    Waiting s 0 .primary (.barw .team 3 0) := by
  unfold Waiting
  decide
/-- A split about to start, and both halves of one at its end, where the spare half has no store in its queue and where
it has one that must wait (WaitsEnd). -/
theorem test_WaitsEnd_split :
    (let s := seatH fun h => { h with wait := .split 1#16 2#16 0x10100#64 0x10088#64 0x10200#64 }
     Waiting s 0 .primary (.split 1#16 2#16 0x10100#64 0x10088#64 0x10200#64) ∧ (ctxOf s 0).spare = none ∧
     storesDone (flushStores s 0) 0 = true ∧ (ctxOf (flushStores s 0) 0).spare = none) ∧
    (let e : StalkEntry := ⟨2#16, 0x10200#64, true, 3#16, 0x10088#64⟩
     let s := seat { seatCtx with prim := { seatHalf with am := 1#16, stalk := [e], wait := .join }, spare := some { seatHalf with am := 2#16, wait := .join } }
     Waiting s 0 .primary .join ∧ Waiting s 0 .spare .join ∧ (ctxOf s 0).prim.stalk = [e] ∧
     ((ctxOf (drainStq s 0 .spare ((ctxOf s 0).half .spare).stq.length) 0).half .spare).stq = [] ∧
     (let q : StqEntry := ⟨[(⟨0, 1, 0x10104, 0x10104, 1, .normal, 0⟩, [1#8])], .normal, false, .own, 0⟩
      let s := updHalf s 0 .spare fun x => { x with stq := [q] }
      Waiting s 0 .primary .join ∧ Waiting s 0 .spare .join ∧
        ((ctxOf (drainStq s 0 .spare ((ctxOf s 0).half .spare).stq.length) 0).half .spare).stq ≠ [])) := by
  unfold Waiting
  decide +kernel

/-- A table of the page's ASID is loaded; a synchronisation with nothing in flight, first and second in line
(MemoryEvents). -/
theorem test_MemoryEvents_ranges :
    ((okOf (loadRange paged 0 1)).isSome = true ∧ (okOf (loadRange { paged with pkg := { paged.pkg with rtabs := [] } } 0 1)).isSome = true) ∧
    (updPkg s0 fun p => { p with rngq := [1, 4095] }).pkg.rngq = [1, 4095] ∧ s0.pkg.rngq = [] ∧
    (∀ x ∈ s0.ctxs, ∀ h ∈ x.2.halves, (x.2.half h).stq = []) ∧ (∀ p ∈ s0.pkg.pairs, p.stage = .sent) := by decide +kernel
/-- What the place of the leaf that maps the end of the page on die 0 is in error with, if it is a leaf. -/
def walkEnds (s : State) : Option (Option Nat) :=
  (okOf (leafFor s 0 1 0x1FFFF)).bind fun r => (leafMt r.1.1.leaf.toNat).map (leafPlace 0 (paOf r.1.1 0x1FFFF))
/-- The piece of the page that is stored to, and one of another line of its slice. -/
def sgA : Seg := ⟨0, 1, 0x10104, 0x10104, 4, .normal, 0⟩
def sgB : Seg := ⟨0, 1, 0x12180, 0x12180, 4, .normal, 0⟩
/-- The mapped machine with a store of one context to each, the second urgent or not, where the slice has served `row` urgent
requests. -/
def sTwo (urg : Bool) (row : Nat) : State :=
  let q := fun (x : Seg) (u : Bool) => { seatCtx with prim := { seatHalf with stq := [⟨[(x, [1#8, 2#8, 3#8, 4#8])], .normal, u, .own, 0⟩] } }
  updDie { paged with ctxs := [(0, q sgA false), (1, q sgB urg)] } 0 fun d => { d with urow := mset 0 d.urow 11 row }
/-- Requests to one slice that has served no urgent one and that has served 16, with the other urgent or not; and none
(MemoryEvents). -/
theorem test_MemoryEvents_serves :
    ([(false, 0), (false, 16), (true, 0), (true, 16)].all fun p =>
      let s := sTwo p.1 p.2
      !behind (requests s) none [sgA] && !behind (requests s) none [sgB] && slicesOf s [sgA] == [11] && slicesOf s [sgB] == [11] &&
        urgentRow s 11 == p.2 && !shareLine [sgB] [sgA] &&
        (requests s).any fun r => r.urg == p.1 && r.segs == [sgB] && r.ask.isNone) = true ∧
    (requests paged).isEmpty = true := by decide +kernel
/-- A queued store of the page that is first to its line, a filling line, one beside it of another memory type, a walk for a
mapped address on its home die and on another one, and one whose leaf names a stack of another die (MemoryEvents). -/
theorem test_MemoryEvents_slices :
    (let sg : Seg := ⟨0, 1, 0x10104, 0x10104, 4, .normal, 0⟩
     let e : StqEntry := ⟨[(sg, [1#8, 2#8, 3#8, 4#8])], .normal, false, .own, 0⟩
     let s := pagedSeat fun h => { h with stq := [e] }
     let s' := countServed s e.urg [sg]
     ((ctxOf s 0).half .primary).stq[0]? = some e ∧ storeReady s 0 e = true ∧ serves s e.urg none [sg] = true ∧
     heldStore s' 0 e = false ∧ ((okOf (segsReady s' [sg])).bind fun r => okOf (wrSegs .normal false r.2 e.segs)).isSome = true) ∧
    (let l : Line := ⟨1, 0x200, .normal, 0x200, 0, 0, 0, .fill, 0, false, 0#1024, [], [], false, false⟩
     let s := updDie paged 0 fun d => { d with lines := [l] }
     lineFind (die s 0) 1 0x200 .normal = some l ∧ lineFind (die s 0) 1 0x200 .grammar = none ∧ stackState s (stackOf (0x200 * 128)) = 2 ∧
     (∀ b ∈ s.pkg.badSectors, b / 4 ≠ 0x200) ∧
     lineFind (die (updPkg s fun p => { p with badSectors := [0x803] }) 0) 1 0x200 .normal = some l ∧ 0x803 / 4 = 0x200 ∧ CollectorRuns (booted s)) ∧
    ((okOf (loadRange (booted paged) 0 1)).map fun r => (0x1FFFF < 2 ^ 48 && dieReady r.2 0, placeIn r.2 r.1 0x1FFFF)) = some (true, 0, false) ∧
    walkEnds paged = some none ∧
    walkEnds (updDie paged 0 fun d => { d with tlb := [⟨1, 0x10000, 65536, 0x400001000F#64⟩] }) = some (some 4) ∧
    (match rdDesc paged (die paged 0).asidtab 1 with
     | .ok hdr t => contLeaves t (hdr / 4096 % 2 ^ 32 * 4096) 0x1FFFF == []
     | _ => false) = true := by
  unfold CollectorRuns
  decide +kernel
/-- No shootdown, one that runs, and stacks of each state with a sector at the end of a stack and one in error
(ShootdownsAndStacks). -/
theorem test_ShootdownsAndStacks_met :
    (die s0 7).shoot = none ∧ (die (updDie s0 7 fun d => { d with shoot := some ⟨.all, 0, 0, 0⟩ }) 7).shoot ≠ none ∧
    (∀ x ∈ s0.ctxs, ∀ h ∈ x.2.halves, (x.2.half h).stq = []) ∧ s0.pkg.pairs = [] ∧ CollectorRuns (booted s0) ∧
    (let s := updPkg s0 fun p => { p with msstate := [(1, 1), (2, 2), (15, 2)], badSectors := [2 * 2 ^ 37 / 32] }
     3221225471 * 32 < 0x1800000000 ∧ stackState s 15 = 2 ∧ (15 * 2 ^ 37 + 3221225471 * 32) / 32 ∉ s.pkg.badSectors ∧
     stackState s 2 = 2 ∧ (2 * 2 ^ 37 + 0 * 32) / 32 ∈ s.pkg.badSectors ∧ stackState s 0 = 0 ∧ stackState s 1 = 1) := by
  unfold CollectorRuns
  decide

/-- The mapped machine whose page is an update page of region 5. -/
def pagedUpd (v : W32) : State :=
  updDie paged 0 fun d => { d with tlb := [⟨1, 0x10000, 65536, 0x014000000001004F#64⟩], uprgn := [(5, v)] }
/-- A pair of slot 0 for an element of the page. -/
def pair0 : Pair := ⟨3, 0, 9, 0, 0, 1, 0x10004#64, 4, 1#64, .sent, 0, 0, 0, 0, 0, 0, false⟩
/-- The machine with a pair. -/
def withPair (s : State) (x : Pair) : State := updPkg s fun p => { p with pairs := [x] }
/-- The pair is found, translates to an element of the stack that is ready, and finds the region's entry. -/
def pairFinds (v : W32) (va : Word) (failed : Bool) : Bool :=
  let s := withPair (pagedUpd v) { pair0 with va := va }
  let s := if failed then updPkg (updDie s 0 fun d => { d with tlb := [⟨1, 0x10000, 65536, 0x014000200001004F#64⟩] }) fun p =>
    { p with msstate := mset 0 p.msstate 1 3 } else s
  (pairOf s 3).isSome &&
    match okOf (xlatePiece s { agentOf s 0 with asid := 1 } .emit va.toNat 4) with
    | some (sg, s1) => mget 0#32 (die s1 sg.die).uprgn sg.rid == v && stackState s1 (stackOf sg.pa) == (if failed then 3 else 2)
    | none => false
/-- Pairs for a region without binding, of another width, at an odd address, for a stack that has failed, and as it should
be (PairsReachTheirElements). -/
theorem test_PairsReachTheirElements_check : pairFinds 0#32 0x10004#64 false = true ∧ pairFinds 0x80000001#32 0x10004#64 false = true ∧
    pairFinds 0x80000000#32 0x10002#64 false = true ∧ pairFinds 0x80000000#32 0x10004#64 true = true ∧
    pairFinds 0x80000000#32 0x10004#64 false = true := by decide +kernel
/-- Region entries that are off, of 8 bytes, and of 4 bytes (PairsReachTheirElements). -/
theorem test_PairsReachTheirElements_widths : (rgnFields 0#32).2.2 = false ∧ bindWidth (rgnFields 0x80000001#32).1 (rgnFields 0x80000001#32).2.1 = 8 ∧
    bindWidth (rgnFields 0x80000000#32).1 (rgnFields 0x80000000#32).2.1 = 4 ∧ (0x10002#64).toNat % 4 ≠ 0 := by decide
/-- A pair at each place behind its check, a bin of its element, and a granule to apply (PairsReachTheirElements). -/
theorem test_PairsReachTheirElements_met :
    let x := { pair0 with stage := .ingress, pa := 0x10004, rid := 5 }
    (let s := withPair s0 x
     (updPkg s fun p => { p with permReqs := [(5, 1), (0, 0), (9, 0)] }).pkg.permReqs.find? (fun k => k.2 == 0) = some (0, 0) ∧
     stackState paged 0 = 2 ∧ (s.pkg.permits.filter fun t => t.gcn == 0 && t.stack == 0) = [] ∧ (pair0.stage = .sent) ∧
     nextOfPort (withPair s0 { pair0 with stage := .buffered }) { pair0 with stage := .buffered } = true) ∧
    (let s := updPkg (withPair paged x) fun p => { p with permits := [⟨2, 0, 0, 63, 0⟩] }
     pairOf s 3 = some x ∧ storeBefore s (agentOf s x.gcn) [⟨x.die, x.asid, x.va.toNat, x.pa, x.w, .update, x.rid⟩] = false ∧ stackState s (stackOf x.pa) = 2 ∧ (∃ t ∈ s.pkg.permits, t.gcn = x.gcn ∧ t.stack = stackOf x.pa ∧ t.used < 64) ∧
     isPending s x.die x.pa = false ∧ (ctxOf s x.gcn).stk = []) ∧
    (let y := { x with stage := PairStage.filtered }
     let b : Bin := ⟨0x10004, 0, 0, .word 5, 0⟩
     let s := updDie (withPair s0 y) 0 fun d => { d with bins := [b] }
     pairOf s 3 = some y ∧ (die (withPair s0 y) 0).bins = [] ∧ binsOf (die (withPair s0 y) 0) 0 < 2097152 ∧
     (die s 0).bins = [] ++ b :: [] ∧ b.pa = y.pa ∧ b.op = y.op ∧ b.et = y.et) := by decide +kernel
/-- A granule with one bin and its pending bit, in a sorter above its high-water mark (PairsReachTheirElements). -/
theorem test_PairsReachTheirElements_apply :
    let b : Bin := ⟨0x10004, 0, 0, .word 5, 0⟩
    let s := updDie (pagedUpd 0x80000000#32) 0 fun d => { d with bins := [b], grans := [⟨0x10, 5, 1, 0x10004⟩], hwm := [true, false] }
    populated (0x10 * 4096) = true ∧ stackState s (stackOf (0x10 * 4096)) = 2 ∧ isPending s 0 (0x10 * 4096) = true ∧ Appliable s 0x10 ∧
    (die s 0).bins.filter (fun x => x.pa / 4096 == 0x10) = [b] ∧ (die s 0).spill.filter (fun x => x.pa / 4096 == 0x10) = [] ∧
    (die s 0).hwm.getD 0 false = true ∧ oldestBin s 0 = some b ∧ ∀ x ∈ (die s 0).bins, x.pa / 4096 = b.pa / 4096 → x.op ≠ 2 := by
  unfold Appliable
  decide +kernel
/-- A region that is free and one with a pending granule, a binding of no width, a drain that runs, and a kill message
(RegionsAndKills). -/
theorem test_RegionsAndKills_met :
    bindWidth (rgnFields 0x80000011#32).1 (rgnFields 0x80000011#32).2.1 = 0 ∧ (die s0 0).grans = [] ∧ s0.pkg.pairs = [] ∧ s0.pkg.badSectors = [] ∧
    (∃ x ∈ (die (updDie s0 0 fun d => { d with grans := [⟨0x10, 5, 1, 0x10004⟩] }) 0).grans, x.rid = 5) ∧ (die s0 0).drain = none ∧
    (die (updDie s0 0 fun d => { d with drain := some 1023 }) 0).drain = some 1023 ∧
    (0, 7) ∈ (updPkg s0 fun p => { p with kills := [(0, 7)] }).pkg.kills := by decide

/-! ### Pods, launches, the host link, the package -/

/-- Values that differ from all before them differ. -/
theorem distinct {f : Nat → Nat} (h : ∀ k, k < 16 → ∀ l, l < k → f l ≠ f k) : ∀ l k, l < k → k < 16 → f l ≠ f k :=
  fun l k a b => h k b l a
/-- The map of a whole pod, and of a pod with eight engines in degraded operation (PodsAndHandlers). -/
theorem test_PodsAndHandlers_maps : (pod s0 0).rdy = false ∧ ValidMap 0x0FFFF#17 0x0706050403020100#64 0x0F0E0D0C0B0A0908#64 false ∧
    ValidMap 0x000FF#17 0x0706050403020100#64 0x2726252423222120#64 true :=
  ⟨by decide, ⟨by decide +kernel, distinct (by decide +kernel), by decide⟩, ⟨by decide +kernel, distinct (by decide +kernel), by decide⟩⟩
/-- A map with one place twice is not valid (PodsAndHandlers). -/
theorem test_PodsAndHandlers_badMap : ¬ ValidMap 0x0FFFF#17 0#64 0x0F0E0D0C0B0A0908#64 false :=
  fun h => h.2.1 0 1 (by decide) (by decide) (by decide)
/-- A frozen context at the head of the queue of a pod whose die is mapped (PodsAndHandlers). -/
theorem test_PodsAndHandlers_entry :
    let s := { paged with ctxs := [(3, { seatCtx with phase := .frozen, settling := true })], pods := [(0, { Pod.reset with queue := [3] })] }
    let s1 := settleFrozen s 3
    (pod s 0).queue = 3 :: [] ∧ (ctxOf s 4).phase = .free ∧ (ctxOf s 4).serving = none ∧ (ctxOf s 3).preempting = false ∧ isFrozen (ctxOf s1 3) = true ∧
    (okOf (privRegion s1 0 (ctxOf s1 3).asid)).isSome = true := by decide +kernel
/-- A context asked to stop, a launch with a fatal stop, a frozen handler slot, and dies with and without a frozen
dispatcher (PodsAndHandlers). -/
theorem test_PodsAndHandlers_met :
    (let s := seat { seatCtx with stopReq := true }
     (ctxOf s 0).stopReq = true ∧ (ctxOf s 0).phase = .issuing ∧ (ctxOf s 0).stopBy = none ∧ (ctxOf s 0).halves = [.primary] ∧
     (ctxOf s 0).prim.begun = false) ∧
    (let l := { l0 with fatal := some (4, 0) }
     launchOf (seatL l seatCtx) 7 = some l ∧ l.fatal ≠ none ∧ l.killed = false ∧ (seatL l seatCtx).pkg.lkillq = []) ∧
    (let s := seatHand fun c => { c with phase := .frozen, prim := { c.prim with wait := .highWater 0x30008#64 } }
     (ctxOf s 4).phase = .frozen ∧ (ctxOf s 4).prim.wait = .highWater 0x30008#64 ∧
     (0x30000#64 &&& 0x0000FFFFFFFF0000#64) = (ctxOf s 4).prvlo ∧ (0x4FFFF#64 &&& 0x0000FFFFFFFF0000#64) = (ctxOf s 4).prvtop ∧
     (0x2FFFF#64 &&& 0x0000FFFFFFFF0000#64).toNat < (ctxOf s 4).prvlo.toNat) ∧
    (let s := booted s0
     (die s 7).dspFrozen = false ∧ s.pkg.bootst.getLsbD 0 = true ∧ s.pkg.bootst.getLsbD 4 = false ∧ (die s 7).prvhw.toNat ≤ (die s 7).prvlo.toNat) ∧
    (let s := updDie (booted s0) 7 fun d => { d with prvlo := 0x10000#64, prvhw := 0x20000#64 }
     (die s 7).dspFrozen = false ∧ s.pkg.bootst.getLsbD 0 = true ∧ s.pkg.bootst.getLsbD 4 = false ∧
     (die s 7).prvlo.toNat < (die s 7).prvhw.toNat) := by decide +kernel
/-- Vectors for a queue with room, a full one, of ASID 0, and a close vector of an open launch (QueuesAndAdmission). -/
theorem test_QueuesAndAdmission_vectors :
    (let s := updPkg s0 fun p => { p with svlo := [(31, 0x0FFF000000010040#64)] }
     (0xA#64).getLsbD 0 = false ∧ (queueOf s 31).length < 1024 ∧ (svFields s 31).1 = 4095 ∧ (svFields s 31).2.2 = 0 ∧ (svFields s 31).2.1 % 64 = 0) ∧
    (svFields s0 31).1 = 0 ∧
    (let l := { l0 with record := [0#64, 0x0100000000000000#64] }
     let s := updPkg (seatL l seatCtx) fun p => { p with svlo := [(0, 0x0001000000000000#64)] }
     (0x900000001#64).getLsbD 0 = true ∧ (svFields s 0).1 = l.asid ∧ (svFields s 0).2.2 = 0 ∧ l ∈ s.pkg.launches ∧
     launchOf s l.id = some l ∧ l.tag = BitVec.ofNat 32 ((0x900000001#64).toNat / 2 ^ 32) ∧ l.refused = 0 ∧ l.fatal = none ∧
     l.killed = false ∧ recOpen l ≠ 0) := by decide +kernel
/-- A queue of 1,024 entries (QueuesAndAdmission). -/
theorem test_QueuesAndAdmission_full :
    let e : QEntry := ⟨1, 0x10040, 0#32, 0, none⟩
    1024 ≤ (queueOf (updPkg s0 fun p => { p with queues := [(0, List.replicate 1024 e)] }) 0).length := by
  show 1024 ≤ (List.replicate 1024 (⟨1, 0x10040, 0#32, 0, none⟩ : QEntry)).length
  exact Nat.le_of_eq List.length_replicate.symm
/-- The mapped machine with the tables of the I-die too. -/
def pagedI : State := updPkg paged fun p => { p with rtabs := [⟨0, 1, List.replicate 64 (0#64, 0#64)⟩, ⟨8, 1, List.replicate 64 (0#64, 0#64)⟩] }
/-- A record of one team on die 0 with one die, whose completion goes to the page. -/
def rec1 : List Word := [0x0101000000000000#64, 0#64, 0#64, 0x8000000000010100#64, 1#64, 0#64, 0#64, 0#64]
/-- The record of an entry of the head window in the page, and one beyond the addresses (QueuesAndAdmission). -/
theorem test_QueuesAndAdmission_records :
    let e : QEntry := ⟨1, 0x10040, 0#32, 0, none⟩
    let s := updPkg (booted pagedI) fun p => { p with queues := [(0, [e, e, e, e])] }
    (queueOf s 0)[3]? = some e ∧ s.pkg.bootst.getLsbD 0 = true ∧ s.pkg.bootst.getLsbD 4 = false ∧ (okOf (memRead s (idie 1) .sload 0x10040 64 .normal)).isSome = true ∧
    (match memRead s (idie 1) .sload 0xFFFFFFFFFFC0 64 .normal with | .fault _ _ => true | _ => false) = true := by decide +kernel
/-- The head queue of the high class with a deficit below the cost, and the normal class at the cost (QueuesAndAdmission). -/
theorem test_QueuesAndAdmission_dispatch :
    let e : QEntry := ⟨1, 0x10040, 0#32, 0, some rec1⟩
    (let s := updPkg (booted pagedI) fun p => { p with queues := [(3, [e])], hi := [3], visit := [3], deficit := [] }
     (s.pkg.hi ≠ [] ∧ (s.pkg.lo = [] ∨ s.pkg.hrun < 7)) ∧ queueOf s 3 = e :: [] ∧ s.pkg.launches.length < 64 ∧ s.pkg.bootst.getLsbD 0 = true ∧ s.pkg.bootst.getLsbD 4 = false ∧
     mget 0 s.pkg.deficit 3 + (if 3 ∈ s.pkg.visit then 0 else (qcfgOf s 3).toNat % 2 ^ 13) < dispatchCost rec1) ∧
    (let s := updPkg (booted pagedI) fun p => { p with queues := [(3, [e])], hi := [5], lo := [3], hrun := 7, visit := [3], deficit := [(3, 1)] }
     ¬ (s.pkg.hi ≠ [] ∧ (s.pkg.lo = [] ∨ s.pkg.hrun < 7)) ∧ dispatchCost rec1 ≤ mget 0 s.pkg.deficit 3 + 0 ∧
     queueOf s 3 = [e] ∧ queueOf (updPkg s fun p => { p with queues := [(3, [e, e])] }) 3 = e :: [e] ∧
     (okOf (admitCheck s 3 1 rec1 0)).isSome = true) := by decide +kernel
/-- A launch of the record, fired with one iteration. -/
def l1 : Launch :=
  { l0 with record := rec1, kern := ⟨0x10080, 64, 1, false, [⟨0, 1, 8, 1⟩], []⟩, fired := true, bounds := [1, 1, 1, 1], stkva := 0x20000 }
/-- A counter that reaches a threshold and one that closes; a launch that fires within the bound, beyond it, and that
faults (TriggersAndBounds). -/
theorem test_TriggersAndBounds_met :
    (let l := { l0 with record := [0x0100000000000000#64, 0x0100000000000000#64, 0xFFFF000000000000#64, 0#64, 0#64, 0#64, 0x00000005000000F0#64, 0#64] }
     let s := updPkg (booted (seatL l seatCtx)) fun p => { p with checks := [(7, 255, 5#32, 8)] }
     s.pkg.checks.find? (fun x => x.1 == 7) = some (7, 255, 5#32, 8) ∧ dispatcherStopped s 7 = false ∧ l.id < 8 ∧ launchOf s l.id = some l ∧ wordAt l.record 6 / 16 % 8 = 7 ∧
     (wordAt l.record 6).testBit 7 = true ∧ wordAt l.record 2 / 2 ^ 56 = 255 ∧ wordAt l.record 6 / 2 ^ 32 ≤ (5#32).toNat ∧
     wordAt l.record 2 / 2 ^ 48 % 256 = 255 ∧ 5#32 ≠ 0#32 ∧ recOpen l ≠ 0) ∧
    (let l := { l1 with fired := false, trig := true, bounds := [] }
     (okOf (readBounds 1 l [0, 1, 2, 3] s0)).map (·.1) = some [1, 0, 0, 0] ∧ recOpen l = 0 ∧ dispatcherStopped (booted s0) (wordAt l.record 6 / 16 % 8) = false) ∧
    (let l := { l1 with record := [0x0101000000000000#64, 0#64, 0#64, 0#64, 0xFFFFFFFFFFFFFFFF#64, 0#64, 1#64, 0#64] }
     (okOf (readBounds 1 l [0, 1, 2, 3] s0)).map (·.1) = some [4294967295, 4294967295, 0, 0] ∧ 2 ^ 48 < 4294967295 * 4294967295) ∧
    (let l := { l1 with record := [0x0101000000000000#64, 0x1000FFFFFFFFFFFC#64, 0#64, 0#64, 0#64, 0#64, 0#64, 0#64] }
     (match readBounds 1 l [0, 1, 2, 3] pagedI with | .fault _ _ => true | _ => false) = true) := by decide +kernel
/-- An extension of bound 0 of a launch that has fired, up to 2^48 iterations (TriggersAndBounds). -/
theorem test_TriggersAndBounds_extend :
    let x : Cmd := { xldCmd (.xtend 4#5) with ks := [0x10040#64, 0xFFFFFFFF#64], jobs := [LaneJob.start 0 (0, 1, 0)] }
    let l := { l1 with record := [0x0101000000000000#64, 0x0100000000000000#64, 0#64, 0#64, 1#64, 0#64, 0#64, 0#64] }
    let s := updPkg (booted (pagedCmd x)) fun p => { p with launches := [l] }
    let s1 := releaseCtx (settleSp s 0) 0 .pkg
    cmdOf s 0 3 = some x ∧ x.fin = false ∧ x.flt = none ∧ (∀ d ∈ recDies l, dispatcherStopped s d = false) ∧
    (s.pkg.launches.filter fun y => y.asid == x.asid && y.rva == 0x10040) = [l] ∧
    ((okOf (xlate (cmdAgent s1 0 x) .tread 3 s1 0x10040 64)).map fun (r : List Seg × State) => launchOf r.2 7) = some (some l) ∧ (recOpen l).testBit 0 = true ∧ l.fired = true ∧ 0 < l.bounds.length ∧
    extBehind s l = false ∧ max (boundOf l 0) 0xFFFFFFFF * 1 ≤ 2 ^ 48 ∧ (recOpen l).testBit 1 = false ∧
    (let m := { l with fired := false, exts := [none, none, none, none] }
     extBehind s m = false ∧ 0 < m.exts.length ∧ m.closed = false) ∧ { l with closed := true }.closed = true := by decide +kernel
/-- A bound that is raised, one that 2^48 iterations clamp, and one of an empty count (TriggersAndBounds). -/
theorem test_TriggersAndBounds_clamp : otherBounds { l1 with record := [0#64, 0#64, 0#64, 0#64, 0#64, 0#64, 1#64, 0#64] } ([5, 0x20000].getD · 0) 0 = 0x20000 ∧
    Clamped 1 0xFFFFFFFF 0xFFFFFFFF ∧ Clamped 0x20000 0xFFFFFFFF 0x80000000 ∧ Clamped 0 0xFFFFFFFF 0xFFFFFFFF := by
  refine ⟨by decide, ?_, ?_, ?_⟩ <;> refine ⟨by omega, by omega, fun k h1 h2 => ?_⟩ <;> omega
/-- A launch that fires with an extension of its slowest bound (TriggersAndBounds). -/
theorem test_TriggersAndBounds_fire :
    let l := { l1 with fired := false, trig := true, bounds := [], exts := [some 9, none, none, none],
                       record := [0x0101000000000000#64, 0x0100000000000000#64, 0#64, 0#64, 1#64, 0#64, 0#64, 0#64] }
    (okOf (readBounds 1 l [0, 1, 2, 3] s0)).map (·.1) = some [1, 0, 0, 0] ∧ recOpen l ≠ 0 ∧ recOrder l (recNdm l) = 0 ∧
    l.exts.getD 0 none = some 9 ∧ { l with exts := [none, none, none, none] }.exts.getD 0 none = none ∧ Clamped 1 9 9 := by
  exact ⟨by decide +kernel, by decide, by decide, by decide, by decide, by omega, by omega, fun k h1 h2 => by omega⟩
/-- The header of a kernel at 0x10080 of one role: 64 KiB stacks of 64 pages, one bank, one context of 16 registers and one
tile, by the layout of R232. -/
def head2 : List Word := [0x10080#64, 0x400100#64, 0x10105#64, 0#64, 0#64, 0#64, 0#64, 0#64]
/-- A launch of that kernel, whose role the record names too. -/
def l2 : Launch := { l1 with record := [0x0101000000010080#64, 0#64, 0#64, 0x8000000000010100#64, 1#64, 0#64, 0#64, 0x8002#64] }
/-- The mapped machine with that header in front of its entry, the launch, and pod 0 ready and empty. -/
def pagedKern : State :=
  updPkg (wrPhys { booted pagedI with ctxs := [], pods := [(0, { Pod.reset with rdy := true, work := 0xFFFF#17 })] } 0x10000
    (head2.flatMap fun w => bytesOf 8 w.toNat)) fun p => { p with launches := [l2] }
/-- A team of one context placed on a ready pod, with the header that its dispatcher reads (PlacementAndCompletion). -/
theorem test_PlacementAndCompletion_team :
    launchOf pagedKern 7 = some l2 ∧ l2.kern.cores = false ∧ wantsTeam l2 0 = true ∧
    (∀ y ∈ pagedKern.pkg.launches, y.id < 7 → wantsTeam y 0 = false) ∧ dispatcherStopped pagedKern 0 = false ∧
    (match startCheck pagedKern l2 0 with
     | .ok (0, k) s0 => k.roles == [⟨0, 1, 16, 1⟩] &&
         (placeTeam (updLaunch s0 7 fun x => { x with kern := k }) 7 0 (diePos l2 0 * recTeams l2 + mget 0 l2.placed 0) [(0, 0)]).isSome
     | _ => false) = true := by decide +kernel
/-- A context that waits for the iteration that is left; an urgent context after 65,536 runs (PlacementAndCompletion). -/
theorem test_PlacementAndCompletion_iteration :
    (let l := { l1 with waiting := [(0, [0])] }
     let s := booted (seatL l { seatCtx with phase := .parked })
     launchOf s 7 = some l ∧ l.refused = 0 ∧ l.fatal = none ∧ l.killed = false ∧ l.fired = true ∧ l.pre = .running ∧
     dispatcherStopped s 0 = false ∧ itersLeft l 0 ≠ 0 ∧ l.waiting = [(0, [0])] ∧ (ctxOf s 0).prim.pend = [] ∧
     (ctxOf s 0).phase ≠ .frozen ∧ (ctxOf s 0).phase ≠ .issuing ∧ (ctxOf s 0).tctl.getLsbD 0 = false) ∧
    (let l := { l1 with record := [0x0101000000000000#64, 0x0001000000000000#64, 0#64, 0#64, 0#64, 0#64, 0x18501#64, 0#64], bounds := [2, 3, 1, 1],
                        waiting := [(1, [9]), (0, [0, 8]), (0, [16])] }
     let c := { seatCtx with phase := .parked, launch := some 7 }
     let s := updPkg (booted { State.reset with ctxs := [(0, c), (8, c), (9, c), (16, c)] }) fun p => { p with launches := [l] }
     launchOf s 7 = some l ∧ l.waiting = [(1, [9])] ++ (0, [0, 8]) :: [(0, [16])] ∧ (∀ u ∈ ([(1, [9])] : List (Nat × List Nat)), u.1 ≠ 0) ∧ [0, 8].Nodup ∧
     (∀ g ∈ [0, 8], (ctxOf s g).prim.pend = [] ∧ (ctxOf s g).phase ≠ .frozen ∧ (ctxOf s g).phase ≠ .issuing ∧ (ctxOf s g).tctl.getLsbD 0 = false ∧
       ∀ u ∈ [(1, [9])] ++ [(0, [16])], g ∉ u.2) ∧ dispatcherStopped s 0 = false ∧ 2 ≤ itersLeft l 0 ∧
     recNdm l = 1 ∧ recOrder l 0 = 1 ∧ recOrder l 1 = 0 ∧ recPre l 0 = (5#6).toNat ∧ recPre l 1 = (6#6).toNat) ∧
    (let s := seat { seatCtx with urgent := true, urgentRuns := 65536 }
     (ctxOf s 0).urgent = true ∧ (ctxOf s 0).heldBack = false ∧ 65536 ≤ (ctxOf s 0).urgentRuns) := by decide +kernel
/-- A launch whose iterations are done, with no context, and its record in the page (PlacementAndCompletion). -/
theorem test_PlacementAndCompletion_done :
    let l := { l1 with next := [(0, 1)] }
    let s := updPkg { pagedI with ctxs := [] } fun p => { p with launches := [l] }
    { l with pre := .freezing 0 }.pre ≠ .running ∧ l.pre = .running ∧
    launchOf s 7 = some l ∧ launchCtxs s 7 = [] ∧ recOpen l = 0 ∧ (∀ d ∈ recDies l, itersLeft l d = 0) ∧ visibleStores s (idie 1) = [] ∧
    (okOf (writeRecord s l)).isSome = true := by decide +kernel
/-- A launch to pre-empt, one that is saved and is restored or not, one that has been frozen, and none (Preemption). -/
theorem test_Preemption_met :
    (let s := seatL l0 seatCtx
     s.pkg.preBusy = none ∧ preLaunch s 1#12 9#32 (fun x => !isSaved x && !x.killed) = some l0 ∧ preLaunch s 2#12 9#32 (fun _ => true) = none ∧
     launchesOf s 2 9#32 = [] ∧ (updPkg s fun p => { p with preBusy := some 7 }).pkg.preBusy ≠ none) ∧
    (let l := { l0 with pre := .saved 0x10000 [] [] }
     let s := updPkg s0 fun p => { p with launches := [l] }
     let s1 := setPre (updPkg s fun p => { p with preBusy := some 7 }) 0
     launchesOf s 1 9#32 = [l] ∧ isSaved l = true ∧ preLaunch s 1#12 9#32 isSaved = some l ∧ (restoreLaunch s1 l [[(0, 0)]]).isNone = true ∧ (restoreLaunch s1 l []).isSome = true ∧ s.pkg.lkillq = []) ∧
    (let l := { l0 with pre := .freezing 0x10000 }
     let s := updPkg (seatL l { seatCtx with preempting := true }) fun p => { p with preBusy := some 7 }
     let s1 := [0].foldl settleFrozen ([0].foldl preFreeze s)
     launchOf s 7 = some l ∧ launchCtxs s 7 = [0] ∧ mayHusk s1 0 = true ∧ (settleAll [0] s1).2 = false ∧
     storesDone (settleAll [0] s1).1 0 = true ∧ s.pkg.lkillq = []) := by decide +kernel
/-- Aperture accesses, aligned and not, at a sector that is good and one that is bad (HostWindows). -/
theorem test_HostWindows_aperture :
    (let s := paged
     0x10004 % 8 ≠ 0 ∧ populated (s.pkg.apbase.toNat / 8388608 % 2 ^ 21 * 8388608 + 0x10004) = true ∧ stackState s (stackOf 0x10004) = 2 ∧
     isPending s 0 0x10004 = false ∧ hostWaits s 0x10004 4 = false ∧ 0x10004 / 32 ∉ s.pkg.badSectors) ∧
    0x10004 % 4 = 0 ∧ stackState s0 (stackOf 0x10004) ≠ 2 := by decide +kernel
/-- Copies that start, of no bytes, of a piece of a block, and between host addresses; one of 64 bytes at its end
(HostWindows). -/
theorem test_HostWindows_copy :
    (let s := updPkg paged fun p => { p with cpysrc := 0x10040#64, cpydst := 0x10080#64, cpylen := 64#64 }
     s.pkg.copy = none ∧ CopyRange s 0x10040 64 ∧ CopyRange s 0x10080 64 ∧ ¬ (inHost 0x10040 = true ∧ inHost 0x10080 = true)) ∧
    s0.pkg.cpylen.toNat = 0 ∧ inHost 0x80000000000 = true ∧ ¬ CopyRange s0 0x10040 64 ∧
    (let s := updPkg paged fun p => { p with copy := some ⟨0x10040, 0x10080, 64⟩ }
     s.pkg.copy = some ⟨0x10040, 0x10080, 64⟩ ∧ stackState s (stackOf 0x10040) = 2 ∧ populated 0x10040 = true ∧ populated 0x10080 = true ∧
     isPending s 0 0x10040 = false ∧ hostWaits s 0x10040 64 = false ∧ hostWaits s 0x10080 64 = false ∧
     0x10040 / 32 ∉ s.pkg.badSectors) := by
  unfold CopyRange
  decide +kernel
/-- Offsets of registers that take the size and that do not, of none, of an upper half, and one that is not aligned
(HostWindows). -/
theorem test_HostWindows_registers : inAperture .mgmt 0 = false ∧
    ((List.range 4096).any fun k => match regAt .mgmt (8 * k) with
      | some r => r.takes true && (rwMask r).isSome
      | none => false) = true ∧
    ((List.range 4096).any fun k => match regAt .mgmt (8 * k) with
      | some r => !r.takes true
      | none => false) = true ∧
    ((List.range 4096).any fun k => (regAt .mgmt (8 * k)).isNone && !upperHalf .mgmt (8 * k) true) = true ∧
    ((List.range 4096).any fun k => (regAt .mgmt (8 * k + 4)).isNone && upperHalf .mgmt (8 * k + 4) false) = true ∧ 4 % 8 ≠ 0 ∧
    sizeTaken 3 = none := by decide +kernel
/-- The security controller idle, busy, with a buffer in the host window and one outside it; before and after boot
(SecurityAndFieldData). -/
theorem test_SecurityAndFieldData_met : s0.pkg.sec = none ∧
    (let s := updPkg s0 fun p => { p with sec := some (.extend 7), attbuf := 0x80000000000#64 }
     s.pkg.sec = some (.extend 7) ∧ inHost (s.pkg.attbuf.toNat / 2 ^ 14 % 2 ^ 30 * 2 ^ 14) = true) ∧
    inHost (s0.pkg.attbuf.toNat / 2 ^ 14 % 2 ^ 30 * 2 ^ 14) = false ∧ s0.pkg.bootst.getLsbD 0 = false ∧
    (booted s0).pkg.bootst.getLsbD 0 = true ∧ (booted s0).pkg.bootst.getLsbD 4 = false ∧ rising (booted s0).pkg.fdLive = true ∧
    CollectorRuns (booted s0) ∧
    ((FieldWord 1 15 1 ∧ FieldWord 2 511 1) ∧ (FieldWord 3 279 15 ∧ FieldWord 5 0 31) ∧ FieldWord 6 15 0 ∧ FieldWord 7 0 3) ∧
    (¬ FieldWord 0 0 0 ∧ ¬ FieldWord 4 280 0) ∧ ¬ FieldWord 5 0 24 ∧ ¬ FieldWord 255 65535 255 := by
  refine ⟨by decide, by decide, by decide, by decide, by decide, by decide, by decide, by unfold CollectorRuns; decide, ?_, ?_⟩ <;>
    simp [FieldWord]
/-- A version that no minimum exceeds; and whatever the implementation accepts, one of the two cases of a boot holds
(SecurityAndFieldData). -/
theorem test_SecurityAndFieldData_svn : Config.minSvn.toNat ≤ (0xFFFFFFFF#32).toNat ∧ ∀ svn : W32,
    (Config.rootVerifies = false ∨ svn.toNat < Config.minSvn.toNat) ∨ Config.rootVerifies = true ∧ Config.minSvn.toNat ≤ svn.toNat := by
  refine ⟨Nat.le_of_lt_succ Config.minSvn.isLt, fun svn => ?_⟩
  cases Config.rootVerifies <;> simp <;> omega
/-- Ports enabled and not, an admitted request and its page, an island that throttles, and caps at both ends
(LinksPowerAndReset). -/
theorem test_LinksPowerAndReset_met :
    (s0.pkg.lnken.getLsbD 15 = false ∧ (updPkg s0 fun p => { p with lnken := 0x8000#64 }).pkg.lnken.getLsbD 15 = true) ∧
    (let s := updPkg pagedI fun p => { p with pkgid := 3#64, adm := [(63, 0x8000000100000005#64)] }
     s.pkg.pkgid ≠ 0xFFFF#64 ∧ (mget 0#64 s.pkg.adm 63).toNat.testBit 63 = true ∧ (mget 0#64 s.pkg.adm 63).toNat / 2 ^ 32 % 4096 = 1 ∧
     (mget 0#64 s.pkg.adm 63).toNat % 65536 = 5 ∧ (∀ n, n < 64 → (mget 0#64 s.pkg.adm n).toNat % 65536 ≠ 6) ∧
     (okOf (memRead s (remoteAgent 1) .tread 0x10000 8 .normal)).isSome = true ∧
     (okOf (memWrite s (remoteAgent 1) .twrite 0x10000 [1#8] .normal)).isSome = true ∧
     (match memRead s (remoteAgent 1) .tread 0xFFFFFFFFFFC0 64 .normal with | .fault _ _ => true | _ => false) = true ∧
     (updPkg s fun p => { p with pkgid := 0xFFFF#64 }).pkg.pkgid = 0xFFFF#64) ∧
    (let s := updPkg (booted s0) fun p => { p with isl := [(279, ⟨850, 900, 700, 1000, true⟩)] }
     s.pkg.bootst.getLsbD 0 = true ∧ s.pkg.bootst.getLsbD 5 = false ∧ (islOf s 279).throttled = true ∧ (islOf s 279).mhz ≠ 0 ∧ (islOf s 0).throttled = false) ∧
    (1000 ≤ (1000#16).toNat ∧ (3300#16).toNat ≤ 3300 ∧ (999#16).toNat < 1000 ∧ 3300 < (3301#16).toNat) := by decide +kernel
/-- Settings at the ends of the ranges of each island (LinksPowerAndReset). -/
theorem test_LinksPowerAndReset_islands : IslMay 0 300 550 ∧ IslMay 255 1050 900 ∧ IslMay 256 800 650 ∧ IslMay 263 1600 850 ∧ IslMay 264 1000 700 ∧
    IslMay 279 1000 800 ∧ ¬ IslMay 256 300 550 := by
  simp [IslMay]

/-! ### Single steps, with results worked out by hand from the entries -/

/-- The results queued by an instruction. -/
def queued (i : Instr) (s : State) : Option (List (Nat × List Wr)) :=
  match exec i s with
  | .next t => some ((curH t).pend.map fun p => (p.due, p.writes))
  | _ => none
/-- The next state of an instruction, seen through a function. -/
def seen {α : Type} (i : Instr) (s : State) (f : State → α) : Option α :=
  match exec i s with
  | .next t => some (f t)
  | _ => none

/-- −1 × 3 has the high word −1 signed and 2 unsigned (R236). -/
theorem test_mul_high : queued (.mulhs 5#6 2#6 1#6) s0 = some [(1, [.s 5#6 0xFFFFFFFFFFFFFFFF#64])] ∧
    queued (.mulhu 5#6 2#6 1#6) s0 = some [(1, [.s 5#6 2#64])] := by decide +kernel
/-- −1 is below 3 signed and not unsigned (R238). -/
theorem test_cmp : queued (.cmp .lt 5#6 2#6 1#6) s0 = some [(1, [.s 5#6 1#64])] ∧
    queued (.cmp .ltu 5#6 2#6 1#6) s0 = some [(1, [.s 5#6 0#64])] := by decide +kernel
/-- A shift counts modulo 64: by s2 = −1 it shifts by 63 (R236). -/
theorem test_shl : queued (.shl 5#6 1#6 2#6) s0 = some [(1, [.s 5#6 0x8000000000000000#64])] := by decide +kernel
/-- Field [5:4] of s3 = 0x10000 set to the low bits of s1 = 3 (R240). -/
theorem test_bins : queued (.bins 3#6 1#6 4#6 1#6) s0 = some [(1, [.s 3#6 0x10030#64])] := by decide +kernel
/-- A result for s0 is discarded; one for s63 above STKTOP is the stack-limit trap 0x08 (R68, R233). -/
theorem test_dest : queued (.add 0#6 1#6 1#6) s0 = some [] ∧
    seen (.add 63#6 2#6 0#6) s0 (fun t => (ctxOf t 0).tsw.toNat / 256 % 64) = some 0x08 := by decide +kernel
/-- `loop` decrements s1 = 3 and branches; the bundle at 0x10080 with offset −5 gives 0x1006C (R247). -/
theorem test_loop : seen (.loop 1#6 0x1FFFB#17) s0 (fun t => ((curH t).nextPc, (curH t).pend.map (·.writes))) =
    some (some 0x1006C#64, [[.s 1#6 2#64]]) := by decide +kernel
/-- The first batch is number 1 (R252). -/
theorem test_batch : seen (.batch 5#6) s0 (fun t => ((cur t).issued, (curH t).pend.map (·.writes))) = some (1, [[.s 5#6 1#64]]) := by
  decide +kernel
/-- `trap 5` records cause 0x14 with the argument 5 and V (R257, R393); with TVEC = 0 the launch has fatal cause 4 (R402). -/
theorem test_trap : seen (.trap 5#16) (seatL l0 seatCtx) (fun t => (cur t).tsw.toNat % 2 ^ 14) = some 0x1401 ∧
    seen (.trap 5#16) (seatL l0 seatCtx) (fun t => (cur t).tsw.toNat / 2 ^ 48) = some 5 ∧
    seen (.trap 5#16) (seatL l0 seatCtx) (fun t => (launchOf t 7).bind (·.fatal)) = some (some (4, 0)) := by decide +kernel
/-- v1 := 2 × 3 in every element of lane 0, at latency 2 (R264). -/
theorem test_vimul :
    let s := { sV with vregs := [(vkey 0 0 2, packV fun _ => 2#32), (vkey 0 0 3, packV fun _ => 3#32)] }
    (queued (.vimul (.direct 1#7) (.direct 2#7) (.direct 3#7)) s) = some [(2, [.v 0 1 (packV fun _ => 6#32)])] := by decide +kernel
/-- The sum of 64 ones is 64.0 (R101, R270). -/
theorem test_vredsum :
    let s := { sV with vregs := [(vkey 0 0 2, packV fun _ => 0x3F800000#32), (vkey 0 0 3, packV fun _ => 1#32)] }
    (queued (.vredsum (.direct 1#7) (.direct 2#7) (.direct 3#7)) s) = some [(8, [.v 0 1 (packV fun _ => 0x42800000#32)])] := by decide +kernel
/-- A vote of elements that are zero in lane 0 and not in lane 1 (R328). -/
theorem test_gvote :
    let s := { s0 with vregs := [(vkey 0 1 2, packV fun k => if k = 5 then 1#32 else 0#32)] }
    queued (.gvote false 5#6 (.direct 2#7) 5#6) s = some [(4, [.s 5#6 2#64])] := by decide +kernel
/-- A divergent branch on lane 0 of two pushes lane 1 with the reconvergence address (R188, R189). -/
theorem test_gbr : seen (.gbr 1#6 4#18 8#32) (seatH fun h => { h with sreg := [(1, 1#64)], ft := 0x1008C#64 }) (fun t =>
    ((curH t).am, (curH t).nextPc, (curH t).stalk)) =
    some (1#16, some 0x10090#64, [⟨2#16, 0x100A0#64, false, 3#16, 0x1008C#64⟩]) := by decide +kernel
/-- A step fetches the bundle at 0x10080 and queues s3 := 100; the program counter moves past its two words (R204, R237). -/
theorem test_step : (match step paged with
    | .next t => ((curH t).pend.map (·.writes), (curH t).pc)
    | _ => ([], 0#64)) = ([[.s 3#6 100#64]], 0x10088#64) := by decide +kernel

end Sys2Proof.Tests
end

section
/-!
PROOFS. The nop of each slot (R209): opcode 0x00 in the five tables, the effect of each nop, and the cycle that an issue
begins.
-/
namespace Sys2Proof.Proofs
open Sys2Proof.Machine Sys2Proof.Claims Sys2Proof.Laws

/-! ### Opcode 0x00 (R207, R209) -/

/-- Decoding is reading a slot's table and then the check of well-formedness. -/
theorem decodeSyllable_eq_readWord_bind (sl : Slot) (w : W32) (ext : List W32) :
    decodeSyllable sl w ext = (readWord sl w ext).bind fun i => if i.wf then .ok i else .error DecodeErr.illFormed := by
  show (match readWord sl w ext with
    | .ok i => if i.wf then Except.ok i else .error DecodeErr.illFormed
    | .error e => .error e) = _
  cases readWord sl w ext <;> rfl

theorem opcode_eq_zero_of_lt {w : W32} (h : w.toNat < 2 ^ 24) : opcode w = 0 := by
  simp only [opcode, bits, BitVec.extractLsb'_toNat, Nat.shiftRight_eq_div_pow]
  omega

/-- Below 2^24 the 24 reserved bits of a nop are the whole word. -/
theorem zero_low24_iff {w : W32} (h : w.toNat < 2 ^ 24) : zero 0 24 w = true ↔ w = 0#32 := by
  simp only [zero, bits, beq_iff_eq, ← BitVec.toNat_inj, BitVec.extractLsb'_toNat, Nat.shiftRight_zero,
    Nat.mod_eq_of_lt h, BitVec.toNat_ofNat, Nat.zero_mod]

/-- At opcode 0x00 each table holds the nop of its slot and no other instruction. -/
theorem readWord_of_opcode_zero (sl : Slot) {w : W32} (ext : List W32) (h : opcode w = 0) :
    readWord sl w ext = if zero 0 24 w then .ok (nopOf sl) else .error .reserved := by
  have hop : (bits 24 8 w).toNat = 0 := h
  have hsb : saOnly (opcode w) = false := by rw [h]; rfl
  cases sl with
  | sa => simp only [readWord, decodeScalar, hop, nopOf]
  | sb => simp only [readWord, hsb, decodeScalar, hop, nopOf, Bool.false_eq_true, if_false]
  | v => simp only [readWord, decodeVector, hop, nopOf]
  | m => simp only [readWord, decodeMatrix, hop, nopOf]
  | x => simp only [readWord, decodeTransfer, hop, nopOf]
  | g => simp only [readWord, decodeGang, hop, nopOf]

theorem nopOf_wf (sl : Slot) : (nopOf sl).wf = true := by cases sl <;> rfl

/-- A syllable of opcode 0x00 is the nop of its slot when it is zero, and else has a reserved bit set. -/
theorem decodeSyllable_of_lt (sl : Slot) {w : W32} (ext : List W32) (h : w.toNat < 2 ^ 24) :
    decodeSyllable sl w ext = if w = 0#32 then .ok (nopOf sl) else .error .reserved := by
  rw [decodeSyllable_eq_readWord_bind, readWord_of_opcode_zero sl ext (opcode_eq_zero_of_lt h)]
  simp only [zero_low24_iff h]
  split
  · simp only [Except.bind, nopOf_wf, if_true]
  · rfl

/-! ### The effect of a nop (R209, R217) -/

theorem exec_nop (s : State) : exec .nop s = .next s := rfl
theorem exec_gnop (s : State) : exec .gnop s = .next s := rfl
theorem exec_vnop (s : State) : exec .vnop s = .next (updH s fun h => { h with stV := none }) := rfl
theorem exec_mnop (s : State) : exec .mnop s = .next (updH s fun h => { h with stM := none }) := rfl
theorem exec_xnop (s : State) : exec .xnop s = .next (updH s fun h => { h with stX := none }) := rfl

/-! ### The issue cycle (R60, R61) -/

/-- With no result of a half due, landing writes nothing. -/
theorem landDue_of_none_due {s : State} {g : Nat} {h : HalfId}
    (hd : ∀ p ∈ ((ctxOf s g).half h).pend, ((ctxOf s g).half h).cycle < p.due) :
    landDue s g h = updHalf s g h fun x => { x with pend := x.pend.filter fun p => !(p.due ≤ x.cycle) } := by
  have hdue : (((ctxOf s g).half h).pend.filter fun p => p.due ≤ ((ctxOf s g).half h).cycle) = [] :=
    List.filter_eq_nil_iff.mpr fun p hp => by simpa using hd p hp
  simp only [landDue, hdue]
  rfl

/-- The issuing half does not depend on the counter of free values. -/
theorem curH_freeCtr (s : State) (n : Nat) : curH { s with freeCtr := n } = curH s := rfl

/-- The issue cycle of a split context (R192, R234) is counted outside its halves. -/
@[simp] theorem half_nextBeat (k : HalfId) (n : Nat) (c : Ctx) (h : HalfId) : (nextBeat k n c).half h = c.half h := by
  unfold nextBeat
  split
  · rfl
  · split <;> cases h <;> rfl

theorem curH_updCur_nextBeat (s : State) (k : HalfId) (n : Nat) : curH (updCur s (nextBeat k n)) = curH s := by
  show (cur (updCur s (nextBeat k n))).half s.issuer.half = _
  rw [cur_updCur, half_nextBeat]
  rfl

/-- Landing with no result due leaves the cycle of the issuing half. -/
theorem cycle_landDue_of_none_due {s : State} (hd : ∀ p ∈ (curH s).pend, (curH s).cycle < p.due) :
    (curH (landDue s s.issuer.gcn s.issuer.half)).cycle = (curH s).cycle := by
  rw [landDue_of_none_due hd, ← updH, curH_updH]

/-- An issue that has not begun begins the next cycle of its half, also with results in flight that are due later. -/
theorem cycle_beginIssue_of_none_due {s : State} (hb : (curH s).begun = false)
    (hd : ∀ p ∈ (curH s).pend, (curH s).cycle + 1 < p.due) :
    (curH (beginIssue s)).cycle = (curH s).cycle + 1 := by
  simp only [beginIssue, curH_freeCtr, hb, Bool.false_eq_true, if_false]
  refine (cycle_landDue_of_none_due ?_).trans ?_
  · rw [curH_updCur_nextBeat, curH_updH]
    exact hd
  · rw [curH_updCur_nextBeat, curH_updH, curH_freeCtr]

/-- Settles O18: opcode 0x00 read once for the six slots, the five nops, and the cycle of an issue. -/
theorem noOperations : Obligations.NoOperations := by
  refine ⟨fun sl w hw => ⟨fun h0 => ?_, fun h0 i => ?_⟩, fun s =>
    ⟨exec_nop s, exec_gnop s, exec_vnop s, exec_mnop s, exec_xnop s, fun hb hp =>
      cycle_beginIssue_of_none_due hb (by simp [hp])⟩⟩
  · rw [decodeSyllable_of_lt sl [] hw, if_pos h0]
  · rw [decodeSyllable_of_lt sl [] hw, if_neg h0]
    exact nofun

end Sys2Proof.Proofs
end

section
/-!
PROOFS. What a trap leaves: the trap status word (R393), the fatal stop of a launch (R402), the freeze of a context (R195,
R395, R399) and the trap of a handler slot (R402); where R235 makes an instruction illegal; selection (R239).
-/
namespace Sys2Proof.Proofs
open Sys2Proof.Machine Sys2Proof.Claims Sys2Proof.Laws

/-! ### The trap status word (R393) -/

/-- A field placed above every bit that is set adds its value there. -/
theorem setField_of_lt {lo x : Nat} (len v : Nat) (h : x < 2 ^ lo) :
    setField lo len v x = x + v % 2 ^ len * 2 ^ lo := by
  have hx : x >>> (lo + len) = 0 :=
    Nat.shiftRight_eq_zero _ _ (Nat.lt_of_lt_of_le h (Nat.pow_le_pow_right (by decide) (Nat.le_add_right lo len)))
  rw [setField, hx, Nat.zero_shiftLeft, Nat.zero_or, Nat.mod_eq_of_lt h, ← Nat.shiftLeft_add_eq_or_of_lt h,
    Nat.shiftLeft_eq, Nat.add_comm]

theorem bit_lt (b : Bool) : bit b < 2 := by cases b <;> decide

theorem bit_mul (b : Bool) (n : Nat) : bit b * n = if b then n else 0 := by cases b <;> simp [bit]

/-- The word that a trap records, field by field, when each field holds its value. -/
theorem toNat_tswWord {arg rep slot cause : Nat} (split : Bool) (h : HalfId) (wait : Bool)
    (ha : arg < 2 ^ 16) (hr : rep < 2 ^ 8) (hs : slot < 2 ^ 3) (hc : cause < 2 ^ 6) :
    (tswWord arg rep split h wait slot cause).toNat = tswValue cause arg rep slot split (h == .spare) wait := by
  have hw := bit_lt wait
  have hh := bit_lt (h == .spare)
  have hp := bit_lt split
  rw [tswWord, setField_of_lt 6 cause (by decide), setField_of_lt 3 slot (by omega), setField_of_lt 1 (bit wait) (by omega),
    setField_of_lt 1 (bit (h == .spare)) (by omega), setField_of_lt 1 (bit split) (by omega), setField_of_lt 8 rep (by omega),
    setField_of_lt 16 arg (by omega), BitVec.toNat_ofNat, Nat.mod_eq_of_lt (by omega)]
  simp only [tswValue, ← bit_mul]
  omega

/-! ### Launches -/

/-- An update of a launch that keeps its number is read at that number. -/
theorem launchOf_updLaunch {f : Launch → Launch} (s : State) (l : Nat) (hf : ∀ x, (f x).id = x.id) :
    launchOf (updLaunch s l f) l = (launchOf s l).map f := by
  have hp : ((fun x : Launch => x.id == l) ∘ fun x => if x.id == l then f x else x) = fun x => x.id == l := by
    funext x
    dsimp only [Function.comp]
    split <;> simp [hf]
  show List.find? _ (List.map _ _) = Option.map f (List.find? _ _)
  rw [List.find?_map, hp]
  cases hx : s.pkg.launches.find? fun x => x.id == l with
  | none => rfl
  | some x => rw [Option.map_some, Option.map_some, if_pos (List.find?_some (p := fun x : Launch => x.id == l) hx)]

@[simp] theorem launchOf_updCtx (s : State) (g : Nat) (f : Ctx → Ctx) (l : Nat) :
    launchOf (updCtx s g f) l = launchOf s l := rfl
@[simp] theorem launchOf_countFd (s : State) (c i w n l : Nat) : launchOf (countFd s c i w n) l = launchOf s l := rfl

/-- A launch that has the fatal cause, whatever it had. -/
def setFatal (cause named : Nat) (x : Launch) : Launch := { x with fatal := some (cause, named) }
/-- A launch with a fatal cause: the first one stands (R402). -/
def stopLaunch (cause named : Nat) (x : Launch) : Launch :=
  if x.fatal.isSome then x else setFatal cause named x

/-- The fatal stop of the launch that a context belongs to (R402). -/
theorem launchOf_markFatal {s : State} {g l : Nat} (cause named : Nat) (hl : (ctxOf s g).launch = some l) :
    launchOf (markFatal s g cause named) l = (launchOf s l).map (stopLaunch cause named) := by
  have hset : launchOf (updLaunch s l (setFatal cause named)) l = (launchOf s l).map (setFatal cause named) :=
    launchOf_updLaunch s l fun _ => rfl
  unfold markFatal
  simp only [hl]
  by_cases hf : ((launchOf s l).bind fun x => x.fatal).isSome = true
  · rw [if_pos hf]
    cases hx : launchOf s l with
    | none => rfl
    | some x =>
      rw [hx, Option.bind_some] at hf
      rw [Option.map_some, stopLaunch, if_pos hf]
  · rw [if_neg hf]
    have hcount : ∀ t, launchOf t l = (launchOf s l).map (setFatal cause named) →
        launchOf (if cause ≤ 7 then countFd t 5 0 (24 + cause) 1 else t) l = (launchOf s l).map (setFatal cause named) :=
      fun t ht => by split <;> exact ht
    refine (hcount _ hset).trans ?_
    cases hx : launchOf s l with
    | none => rfl
    | some x =>
      rw [hx, Option.bind_some] at hf
      rw [Option.map_some, Option.map_some, stopLaunch, if_neg hf]


/-! ### The two parts of a freeze: a half stops, the context is Frozen (R195, R393 to R396) -/

/-- The half stops; the first stop of a context records TSW and whether it is queued for the handler. -/
def stopCtx (c : Ctx) (h : HalfId) (tsw : Word) (q : Bool) : Ctx :=
  { c.setHalf h { c.half h with wait := .stopped, live := false } with
    tsw := if c.stopBy.isSome then c.tsw else tsw, stopBy := some (c.stopBy.getD q) }
/-- The context is Frozen. -/
def frozenCtx (c : Ctx) : Ctx :=
  { c with phase := .frozen, stopBy := none, settling := true, prim := freezeHalf c.prim, spare := c.spare.map freezeHalf }

/-- A freeze is the stop of its half in a state of the same pods and launches, and then the check of both halves. -/
theorem freeze_eq_enterFrozen (s : State) (g : Nat) (h : HalfId) (cause arg : Nat) (w q : Bool) :
    ∃ u, freeze s g h cause arg w q = enterFrozen u g ∧ ctxOf u g = stopCtx (ctxOf s g) h (freezeTsw s g h cause arg w) q ∧
      u.pods = s.pods ∧ ∀ l, launchOf u l = launchOf s l := by
  unfold freeze
  cases hb : (ctxOf s g).stopBy with
  | none =>
    simp only [hb, Option.isSome_none, Bool.false_eq_true, if_false]
    refine ⟨_, rfl, ?_, rfl, fun _ => rfl⟩
    rw [ctxOf_countFd, ctxOf_updCtx_same, stopCtx, hb]
    rfl
  | some q' =>
    simp only [hb, Option.isSome_some, if_true]
    refine ⟨_, rfl, ?_, rfl, fun _ => rfl⟩
    rw [ctxOf_updCtx_same]
    cases h <;> simp only [stopCtx, Ctx.setHalf, hb, Option.isSome_some, if_true, Option.getD_some]

/-- What a half keeps of its stop, each half of the context keeps. -/
theorem half_stopCtx_congr {α : Type} {f : Half → α} (hf : ∀ x : Half, f { x with wait := .stopped, live := false } = f x)
    (c : Ctx) (h : HalfId) (tsw : Word) (q : Bool) (k : HalfId) : f ((stopCtx c h tsw q).half k) = f (c.half k) := by
  cases h <;> cases k
  case primary.primary => exact hf _
  case primary.spare =>
    show f (c.spare.getD _) = f (c.spare.getD _)
    cases c.spare with
    | none => exact hf _
    | some _ => rfl
  case spare.primary => rfl
  case spare.spare => exact hf _

/-- Both halves of a Frozen context are those of the context, frozen. -/
theorem half_frozenCtx (c : Ctx) (k : HalfId) : (frozenCtx c).half k = freezeHalf (c.half k) := by
  cases k with
  | primary => rfl
  | spare =>
    show (c.spare.map freezeHalf).getD (freezeHalf c.prim) = freezeHalf (c.spare.getD c.prim)
    cases c.spare <;> rfl

theorem half_stopCtx_same (c : Ctx) (h : HalfId) (tsw : Word) (q : Bool) :
    (stopCtx c h tsw q).half h = { c.half h with wait := .stopped, live := false } := by cases h <;> rfl

theorem half_stopCtx_other {c : Ctx} {h k : HalfId} (tsw : Word) (q : Bool) (hk : k ∈ c.halves) (hne : k ≠ h) :
    (stopCtx c h tsw q).half k = c.half k := by
  cases h <;> cases k
  case primary.primary | spare.spare => exact absurd rfl hne
  case spare.primary => rfl
  case primary.spare =>
    show c.spare.getD _ = c.spare.getD _
    cases hs : c.spare with
    | none => simp [Ctx.halves, hs] at hk
    | some _ => rfl

/-- A stop neither makes nor takes away a half that the context has. -/
theorem halves_stopCtx {c : Ctx} {h : HalfId} (tsw : Word) (q : Bool) (hm : h ∈ c.halves) :
    (stopCtx c h tsw q).halves = c.halves := by
  cases h with
  | primary => rfl
  | spare =>
    cases hs : c.spare with
    | none => simp [Ctx.halves, hs] at hm
    | some _ => simp [Ctx.halves, stopCtx, Ctx.setHalf, hs]

/-- Once a half has stopped, the context waits only for the other one. -/
theorem all_hasStopped_stopCtx {c : Ctx} {h : HalfId} (tsw : Word) (q : Bool) (hm : h ∈ c.halves) :
    ((stopCtx c h tsw q).halves.all fun k => hasStopped ((stopCtx c h tsw q).half k)) = true ↔
      ∀ k ∈ c.halves, k ≠ h → (c.half k).wait = .stopped ∨ (c.half k).begun = false := by
  have hself : hasStopped ((stopCtx c h tsw q).half h) = true := by rw [half_stopCtx_same]; rfl
  have hiff : ∀ x : Half, hasStopped x = true ↔ x.wait = .stopped ∨ x.begun = false := fun x => by
    simp [hasStopped, atBoundary]
  rw [halves_stopCtx tsw q hm, List.all_eq_true]
  refine ⟨fun ha k hk hne => ?_, fun ha k hk => ?_⟩
  · rw [← hiff, ← half_stopCtx_other tsw q hk hne]
    exact ha k hk
  · by_cases hne : k = h
    · rw [hne]; exact hself
    · rw [half_stopCtx_other tsw q hk hne, hiff]
      exact ha k hk hne

/-- A context with a half that runs on is not Frozen yet. -/
theorem enterFrozen_of_running {s : State} {g : Nat}
    (hs : ¬ ((ctxOf s g).halves.all fun k => hasStopped ((ctxOf s g).half k)) = true) : enterFrozen s g = s := by
  unfold enterFrozen
  dsimp only
  split
  · rfl
  · rw [Bool.not_eq_true] at hs
    rw [hs]
    rfl

/-- A context whose halves have stopped is Frozen, and then it is queued for the handler or its launch stops (R399). -/
theorem enterFrozen_of_stopped {s : State} {g : Nat} {q : Bool} (hb : (ctxOf s g).stopBy = some q)
    (hs : ((ctxOf s g).halves.all fun k => hasStopped ((ctxOf s g).half k)) = true) :
    enterFrozen s g = if !q then updCtx s g frozenCtx
      else if (ctxOf s g).tvec = 0#64 then markFatal (updCtx s g frozenCtx) g 0x04 g
      else updPod (updCtx s g frozenCtx) (podOf g) fun p => { p with queue := p.queue ++ [slotOfG g] } := by
  unfold enterFrozen
  simp only [hb, hs, Bool.not_true, Bool.false_eq_true, if_false]
  rfl

/-! ### What a trap leaves (R195, R391 to R402) -/

theorem sameStorage_of_keepsUnits {s t : State} (h : KeepsUnits s t) : SameStorage s t := by
  obtain ⟨hmem, hvregs, htiles, hvers, hsp, hunseen, hspfmt, hdies, hagenda, _⟩ := h
  exact ⟨hmem, hvregs, htiles, hvers, hsp, hunseen, hspfmt, hdies, hagenda⟩

theorem sameStorage_raiseW (s : State) (cause arg : Nat) (w : Bool) : SameStorage s (raiseW s cause arg w) :=
  sameStorage_of_keepsUnits (raiseW_units s cause arg w)

theorem sameOthers_raiseW (s : State) (cause arg : Nat) (w : Bool) : SameOthers s (raiseW s cause arg w) :=
  ⟨raiseW_issuer s cause arg w, raiseW_others s cause arg w⟩

/-- The registers of a half. -/
def regsOf (x : Half) : NMap Word × NMap Word × NMap Byte × Mask × List StalkEntry × Word × List StqEntry :=
  (x.sreg, x.kreg, x.breg, x.am, x.stalk, x.pc, x.stq)

/-- An update of the phase, the trap record and the halves of a context that keeps the registers of the halves keeps every
register of the context. -/
theorem sameRegs_of_regsOf {c d : Ctx}
    (hd : d = { c with phase := d.phase, tsw := d.tsw, stopBy := d.stopBy, prim := d.prim, spare := d.spare })
    (hh : ∀ k, regsOf (d.half k) = regsOf (c.half k)) : SameRegs c d := by
  rw [hd] at hh ⊢
  refine ⟨fun k n => ?_, fun k => ?_, fun k => ?_, fun k => ?_, fun k => ?_, fun k => .inl ?_, fun k => ?_, rfl, rfl, rfl, rfl,
    rfl, rfl, rfl, rfl, rfl, rfl, rfl, rfl, rfl, rfl, rfl, rfl, rfl, rfl, rfl, rfl, rfl, rfl, rfl, rfl, rfl, rfl⟩
  · exact congrArg (fun r => if n = 0#6 then 0#64 else mget 0#64 r.1 n.toNat) (hh k)
  · exact congrArg (·.2.1) (hh k)
  · exact congrArg (·.2.2.1) (hh k)
  · exact congrArg (·.2.2.2.1) (hh k)
  · exact congrArg (·.2.2.2.2.1) (hh k)
  · exact congrArg (·.2.2.2.2.2.1) (hh k)
  · exact congrArg (·.2.2.2.2.2.2) (hh k)

/-- The stop of a half writes no register. -/
theorem sameRegs_stopCtx (c : Ctx) (h : HalfId) (tsw : Word) (q : Bool) : SameRegs c (stopCtx c h tsw q) := by
  have hh := half_stopCtx_congr (f := regsOf) (fun _ => rfl) c h tsw q
  exact sameRegs_of_regsOf (by cases h <;> rfl) hh

/-- Becoming Frozen writes no register either; the program counter becomes TPC. -/
theorem sameRegs_frozenCtx {c d : Ctx} (h : SameRegs c d) (hpc : ∀ k, (d.half k).pc = (c.half k).pc) :
    SameRegs c (frozenCtx d) := by
  obtain ⟨hs, hk, hb, ham, hst, -, hq, hrest⟩ := h
  simp only [SameRegs, half_frozenCtx]
  exact ⟨hs, hk, hb, ham, hst, fun k => .inr ⟨rfl, congrArg tpcOf (hpc k)⟩, hq, hrest⟩

/-- What the freeze of a context leaves there. -/
theorem freeze_cases (s : State) (g : Nat) (h : HalfId) (cause arg : Nat) (w q : Bool) :
    ctxOf (freeze s g h cause arg w q) g = stopCtx (ctxOf s g) h (freezeTsw s g h cause arg w) q ∨
    ctxOf (freeze s g h cause arg w q) g = frozenCtx (stopCtx (ctxOf s g) h (freezeTsw s g h cause arg w) q) := by
  obtain ⟨u, hu, hctx, -, -⟩ := freeze_eq_enterFrozen s g h cause arg w q
  rw [hu, ← hctx]
  by_cases hs : ((ctxOf u g).halves.all fun k => hasStopped ((ctxOf u g).half k)) = true
  · exact .inr (enterFrozen_ctx (congrArg Ctx.stopBy hctx) hs)
  · exact .inl (by rw [enterFrozen_of_running hs])

/-- A freeze writes no register. -/
theorem sameRegs_freeze (s : State) (g : Nat) (h : HalfId) (cause arg : Nat) (w q : Bool) :
    SameRegs (ctxOf s g) (ctxOf (freeze s g h cause arg w q) g) := by
  have hstop := sameRegs_stopCtx (ctxOf s g) h (freezeTsw s g h cause arg w) q
  obtain hc | hc := freeze_cases s g h cause arg w q <;> rw [hc]
  · exact hstop
  · exact sameRegs_frozenCtx hstop (half_stopCtx_congr (f := Half.pc) (fun _ => rfl) _ _ _ _)

/-- A freeze keeps the results in flight. -/
theorem pend_freeze (s : State) (g : Nat) (h : HalfId) (cause arg : Nat) (w q : Bool) (k : HalfId) :
    ((ctxOf (freeze s g h cause arg w q) g).half k).pend = ((ctxOf s g).half k).pend := by
  have hstop := half_stopCtx_congr (f := Half.pend) (fun _ => rfl) (ctxOf s g) h (freezeTsw s g h cause arg w) q k
  obtain hc | hc := freeze_cases s g h cause arg w q <;> rw [hc]
  · exact hstop
  · rw [half_frozenCtx]
    exact hstop

/-- The first freeze of a context records its TSW, and a later one keeps it (R195). -/
theorem tsw_freeze (s : State) (g : Nat) (h : HalfId) (cause arg : Nat) (w q : Bool) :
    (ctxOf (freeze s g h cause arg w q) g).tsw =
      if (ctxOf s g).stopBy.isSome then (ctxOf s g).tsw else freezeTsw s g h cause arg w := by
  obtain hc | hc := freeze_cases s g h cause arg w q <;> rw [hc] <;> rfl

/-- The TSW of a freeze at a slot, field by field. -/
theorem toNat_freezeTsw {s : State} {g : Nat} {h : HalfId} {cause arg : Nat} (w : Bool)
    (hs : ((ctxOf s g).half h).slot < 6) (hr : ((ctxOf s g).half h).rep < 256) (hc : cause < 64) (ha : arg < 65536) :
    (freezeTsw s g h cause arg w).toNat =
      tswValue cause arg ((ctxOf s g).half h).rep ((ctxOf s g).half h).slot (ctxOf s g).spare.isSome (h == .spare) w := by
  rw [freezeTsw, if_pos hs]
  exact toNat_tswWord _ _ _ ha hr (by omega) hc

/-- A freeze leaves the context running, the half that trapped stopped, while the other half runs on (R195). -/
theorem freeze_running {s : State} {g : Nat} {h : HalfId} (cause arg : Nat) (w q : Bool) (hm : h ∈ (ctxOf s g).halves)
    (ho : ¬ ∀ k ∈ (ctxOf s g).halves, k ≠ h → ((ctxOf s g).half k).wait = .stopped ∨ ((ctxOf s g).half k).begun = false) :
    (ctxOf (freeze s g h cause arg w q) g).phase = (ctxOf s g).phase ∧
      ((ctxOf (freeze s g h cause arg w q) g).half h).wait = .stopped ∧ (freeze s g h cause arg w q).pods = s.pods := by
  obtain ⟨u, hu, hctx, hpods, -⟩ := freeze_eq_enterFrozen s g h cause arg w q
  rw [← all_hasStopped_stopCtx (freezeTsw s g h cause arg w) q hm, ← hctx] at ho
  rw [hu, enterFrozen_of_running ho, hctx, half_stopCtx_same]
  exact ⟨by cases h <;> rfl, rfl, hpods⟩

/-- The spare half that a Frozen context has holds TPC. -/
theorem spare_tpc_frozenCtx {c : Ctx} {h : HalfId} (tsw : Word) (q : Bool) (hm : h ∈ c.halves) :
    (frozenCtx (stopCtx c h tsw q)).spare.map (·.tpc) = c.spare.map (tpcOf ·.pc) := by
  cases h with
  | primary =>
    show (c.spare.map freezeHalf).map _ = _
    rw [Option.map_map]
    rfl
  | spare =>
    cases hs : c.spare with
    | none => simp [Ctx.halves, hs] at hm
    | some y => simp [frozenCtx, stopCtx, Ctx.setHalf, Ctx.half, hs, freezeHalf]


/-- Once the other half has stopped, a freeze makes the context Frozen and, by `queue`, queues it or stops its launch. -/
theorem becomesFrozen_freeze {s : State} (cause arg : Nat) (w q : Bool) (hm : s.issuer.half ∈ (cur s).halves)
    (ho : OtherStopped s) :
    BecomesFrozen s (freeze s s.issuer.gcn s.issuer.half cause arg w q) ((cur s).stopBy.getD q) := by
  obtain ⟨u, hu, hctx, hpods, hlaunch⟩ := freeze_eq_enterFrozen s s.issuer.gcn s.issuer.half cause arg w q
  have hall : ((ctxOf u s.issuer.gcn).halves.all fun k => hasStopped ((ctxOf u s.issuer.gcn).half k)) = true := by
    rw [hctx]
    exact (all_hasStopped_stopCtx _ _ hm).mpr ho
  have hby : (ctxOf u s.issuer.gcn).stopBy = some ((cur s).stopBy.getD q) := congrArg Ctx.stopBy hctx
  have htvec : (ctxOf u s.issuer.gcn).tvec = (cur s).tvec := by rw [hctx]; cases s.issuer.half <;> rfl
  have hof : (ctxOf u s.issuer.gcn).launch = (cur s).launch := by rw [hctx]; cases s.issuer.half <;> rfl
  have hfrozen : cur (freeze s s.issuer.gcn s.issuer.half cause arg w q) = frozenCtx (ctxOf u s.issuer.gcn) := by
    rw [cur, freeze_issuer, hu, enterFrozen_ctx hby hall]
    rfl
  have hends := enterFrozen_of_stopped hby hall
  rw [htvec, ← hu] at hends
  refine ⟨by rw [hfrozen]; rfl, ?_, ?_, fun hq => ?_, fun hq hv => ?_, fun hq hv => ⟨?_, fun l hl => ?_⟩⟩
  · rw [hfrozen, hctx]
    cases s.issuer.half <;> rfl
  · rw [hfrozen, hctx]
    exact spare_tpc_frozenCtx _ _ hm
  · rw [hends, hq]
    exact hpods
  · rw [hends, hq, if_neg hv]
    simp only [Bool.not_true, Bool.false_eq_true, if_false]
    rw [← podOf, pod_updPod, if_pos rfl]
    exact congrArg (fun p => (mget Pod.reset p (podOf s.issuer.gcn)).queue ++ [slotOfG s.issuer.gcn]) hpods
  · rw [hends, hq, if_pos hv]
    simpa using hpods
  · have hl' : (ctxOf (updCtx u s.issuer.gcn frozenCtx) s.issuer.gcn).launch = some l := by
      rw [ctxOf_updCtx_same]
      exact hof.trans hl
    rw [hends, hq, if_pos hv]
    simp only [Bool.not_true, Bool.false_eq_true, if_false]
    rw [launchOf_markFatal _ _ hl', launchOf_updCtx, hlaunch]
    rfl

/-- A trap of an ordinary context at a slot leaves the trap record and changes nothing else. -/
theorem trapped_raiseW {s : State} {cause arg : Nat} (w : Bool) (hg : s.issuer.gcn % 8 ≠ 4) (hs : (curH s).slot < 6)
    (hr : (curH s).rep < 256) (hc : cause < 64) (ha : arg < 65536) :
    Trapped s (raiseW s cause arg w) cause arg (curH s).slot w := by
  have hfr := raiseW_ordinary (s := s) cause arg w (beq_false_of_ne hg)
  have hcur : cur (raiseW s cause arg w) =
      ctxOf (freeze s s.issuer.gcn s.issuer.half cause arg w true) s.issuer.gcn := by rw [cur, raiseW_issuer, hfr]
  refine ⟨sameStorage_raiseW _ _ _ _, sameOthers_raiseW _ _ _ _, ?_, fun k => ?_, fun hm => ⟨fun hb => ?_, fun hb => ?_,
    fun ho => ?_, fun ho => ?_⟩⟩
  · rw [hcur]
    exact sameRegs_freeze _ _ _ _ _ _ _
  · rw [hcur]
    exact pend_freeze _ _ _ _ _ _ _ _
  · rw [cur] at hb
    rw [hcur, tsw_freeze, hb]
    exact toNat_freezeTsw w hs hr hc ha
  · rw [hcur]
    exact (tsw_freeze _ _ _ _ _ _ _).trans (if_pos (Option.isSome_iff_ne_none.mpr hb))
  · rw [hfr]
    exact becomesFrozen_freeze cause arg w true hm ho
  · rw [curH, hcur, raiseW_issuer, hfr]
    exact freeze_running cause arg w true hm ho

/-! ### Traps of a handler slot (R402) -/

/-- What a trap leaves in the handler slot that takes it. -/
theorem cur_raiseW_handler {s : State} (cause arg : Nat) (w : Bool) (hg : s.issuer.gcn % 8 = 4) :
    cur (raiseW s cause arg w) =
      { cur s with
        phase := .frozen, tsw := tswWord arg (cur s).prim.rep false .primary w (cur s).prim.slot cause
        prim := { (cur s).prim with tpc := tpcOf (cur s).prim.pc, wait := .none } } := by
  have hh : isHandler s.issuer.gcn = true := beq_iff_eq.mpr hg
  rw [cur, raiseW_issuer, raiseW]
  simp only [hh, if_true]
  rw [ctxOf_updCtx_same, ctxOf_countFd, ctxOf_markFatal]
  rfl

/-- A trap of a handler slot writes no register of it. -/
theorem sameRegs_raiseW_handler {s : State} (cause arg : Nat) (w : Bool) (hg : s.issuer.gcn % 8 = 4) :
    SameRegs (cur s) (cur (raiseW s cause arg w)) := by
  rw [cur_raiseW_handler cause arg w hg]
  refine sameRegs_of_regsOf rfl fun k => ?_
  cases k with
  | primary => rfl
  | spare =>
    show regsOf ((cur s).spare.getD _) = regsOf ((cur s).spare.getD _)
    cases (cur s).spare <;> rfl

/-- A trap of a handler slot is the fatal stop 0x02 of the launch that it serves. -/
theorem launchOf_raiseW_handler {s : State} {l : Nat} (cause arg : Nat) (w : Bool) (hg : s.issuer.gcn % 8 = 4)
    (hl : (ctxOf s (served s)).launch = some l) :
    launchOf (raiseW s cause arg w) l = (launchOf s l).map (stopLaunch 2 (served s)) := by
  have hh : isHandler s.issuer.gcn = true := beq_iff_eq.mpr hg
  rw [raiseW]
  simp only [hh, if_true]
  rw [launchOf_updCtx, launchOf_countFd]
  exact launchOf_markFatal 2 (served s) hl

/-- A trap of a handler slot leaves its trap record and the fatal stop, and changes nothing else. -/
theorem handlerTrapped_raiseW {s : State} {cause : Nat} (hg : s.issuer.gcn % 8 = 4) (hs : (cur s).prim.slot < 8)
    (hr : (cur s).prim.rep < 256) (hc : cause < 64) : HandlerTrapped s (raiseW s cause 0 false) cause := by
  have hcur := cur_raiseW_handler cause 0 false hg
  refine ⟨by rw [hcur], ?_, sameStorage_raiseW _ _ _ _, sameOthers_raiseW _ _ _ _, sameRegs_raiseW_handler _ _ _ hg,
    fun l hl => launchOf_raiseW_handler _ _ _ hg hl⟩
  rw [hcur]
  exact toNat_tswWord false .primary false (by decide) hr hs hc

/-! ### Where R235 makes an instruction illegal -/

theorem exec_barr (bk : BarKind) (id : BitVec 4) (s : State) : exec (.barr bk id) s = execBarr bk id s := rfl
theorem exec_barw (bk : BarKind) (id : BitVec 4) (s : State) : exec (.barw bk id) s = execBarw bk id s := rfl
theorem exec_arrinc (own : Bool) (dn : BitVec 3) (ctr : Byte) (a : SReg) (s : State) :
    exec (.arrinc own dn ctr a) s = execArrinc own dn ctr a s := rfl
theorem exec_yield (s : State) : exec .yield s = execYield s := rfl
theorem exec_halt (s : State) : exec .halt s = haltWith s false := rfl
theorem exec_haltNext (s : State) : exec .haltNext s = haltWith s true := rfl
theorem exec_tret (a : SReg) (s : State) : exec (.tret a) s = execTret a s := rfl

/-- Where the barriers are illegal, both their instructions raise the trap. -/
theorem exec_barrier_eq_raise {s : State} {bk : BarKind} {id : BitVec 4} (h : barIllegal s bk id = true) :
    exec (.barr bk id) s = raise s causeIllegal ∧ exec (.barw bk id) s = raise s causeIllegal :=
  ⟨(exec_barr bk id s).trans (if_pos h), (exec_barw bk id s).trans (if_pos h)⟩

/-- In the handler slot and in a split gang both halts raise the trap. -/
theorem exec_halts_eq_raise {s : State} (h : (inHandler s || (cur s).spare.isSome) = true) :
    exec .halt s = raise s causeIllegal ∧ exec .haltNext s = raise s causeIllegal :=
  ⟨(exec_halt s).trans (if_pos h), (exec_haltNext s).trans (if_pos h)⟩

/-- The instructions that a handler slot may not execute. -/
theorem exec_eq_raise_of_inHandler {s : State} (hh : inHandler s = true) (bk : BarKind) (id : BitVec 4) (own : Bool)
    (dn : BitVec 3) (ctr : Byte) (a : SReg) :
    ∀ i ∈ [Instr.barr bk id, .barw bk id, .arrinc own dn ctr a, .yield, .halt, .haltNext],
      exec i s = raise s causeIllegal := by
  obtain ⟨hbarr, hbarw⟩ := exec_barrier_eq_raise (s := s) (bk := bk) (id := id) (by simp [barIllegal, hh])
  obtain ⟨hhalt, hnext⟩ := exec_halts_eq_raise (s := s) (by simp [hh])
  have harr : exec (.arrinc own dn ctr a) s = raise s causeIllegal :=
    (exec_arrinc own dn ctr a s).trans (if_pos (by simp [hh]))
  have hyield : exec .yield s = raise s causeIllegal := (exec_yield s).trans (if_pos hh)
  simp only [List.forall_mem_cons]
  exact ⟨hbarr, hbarw, harr, hyield, hhalt, hnext, List.forall_mem_nil _⟩

/-- The instructions that neither half of a split gang may execute. -/
theorem exec_eq_raise_of_split {s : State} (hsp : (cur s).spare ≠ none) (bk : BarKind) (id : BitVec 4) :
    ∀ i ∈ [Instr.barr bk id, .barw bk id, .halt, .haltNext], exec i s = raise s causeIllegal := by
  have hsome : (cur s).spare.isSome = true := Option.isSome_iff_ne_none.mpr hsp
  obtain ⟨hbarr, hbarw⟩ := exec_barrier_eq_raise (s := s) (bk := bk) (id := id) (by simp [barIllegal, hsome])
  obtain ⟨hhalt, hnext⟩ := exec_halts_eq_raise (s := s) (by simp [hsome])
  simp only [List.forall_mem_cons]
  exact ⟨hbarr, hbarw, hhalt, hnext, List.forall_mem_nil _⟩

/-- Only a handler slot may execute `tret`. -/
theorem exec_tret_eq_raise {s : State} (hh : inHandler s = false) (a : SReg) :
    exec (.tret a) s = raise s causeIllegal := (exec_tret a s).trans (if_pos (by simp [hh]))

/-- Settles O17: each instruction raises cause 0x02 there, and what that trap leaves, in the handler slot and elsewhere. -/
theorem illegalBySlotAndGang : Obligations.IllegalBySlotAndGang := by
  intro s bk id own dn ctr a
  refine ⟨fun hg hs hr i hi => ?_, fun hg hs hr => ?_⟩
  · have hexec := exec_eq_raise_of_inHandler (beq_iff_eq.mpr hg) bk id own dn ctr a i hi
    exact ⟨_, hexec.trans (raise_next _ _), handlerTrapped_raiseW hg hs hr (by decide)⟩
  · have htrap : Trapped s (raiseW s causeIllegal 0 false) 0x02 0 (curH s).slot false :=
      trapped_raiseW false hg hs hr (by decide) (by decide)
    refine ⟨⟨_, (exec_tret_eq_raise (beq_false_of_ne hg) a).trans (raise_next _ _), htrap⟩, fun hsp i hi => ?_⟩
    exact ⟨_, (exec_eq_raise_of_split hsp bk id i hi).trans (raise_next _ _), htrap⟩

/-! ### Selection (R239) -/

/-- The opcode is the number of the word's upper byte. -/
theorem opcode_eq_div (w : W32) : opcode w = w.toNat / 2 ^ 24 := by
  simp only [opcode, bits, BitVec.extractLsb'_toNat, Nat.shiftRight_eq_div_pow]
  omega

/-- Opcode 0x1A reads as `sel` in the table of the scalar slots. -/
theorem decodeScalar_of_opcode_sel {w : W32} (ext : List W32) (h : opcode w = 0x1A) :
    decodeScalar w ext = .ok (.sel (bits 18 6 w) (bits 12 6 w) (bits 6 6 w) (bits 0 6 w)) := by
  have hop : (bits 24 8 w).toNat = 0x1A := h
  simp only [decodeScalar, hop]

/-- Both scalar slots take `sel`. -/
theorem decodeSyllable_of_opcode_sel {sl : Slot} {w : W32} (ext : List W32) (h : opcode w = 0x1A)
    (hsl : sl = .sa ∨ sl = .sb) :
    decodeSyllable sl w ext = .ok (.sel (bits 18 6 w) (bits 12 6 w) (bits 6 6 w) (bits 0 6 w)) := by
  have hread : readWord sl w ext = decodeScalar w ext := by
    obtain rfl | rfl := hsl
    · rfl
    · simp only [readWord, h, saOnly]
      rfl
  rw [decodeSyllable_eq_readWord_bind, hread, decodeScalar_of_opcode_sel ext h]
  rfl

/-- A result that its register may take is all that `putS` makes. -/
theorem putS_of_mayWrite {s : State} {d : SReg} {v : Word} (lat : Nat) (h : mayWrite s d v) :
    putS s d v lat = .next (result s d v lat) := by
  refine putS_within lat fun hd => ?_
  have hb := h hd
  simpa only [inHandler, isHandler, slotOfG, beq_iff_eq, BitVec.le_def] using hb

theorem exec_sel (d a b c : SReg) (s : State) :
    exec (.sel d a b c) s = putS s d (if rdS s c ≠ 0#64 then rdS s a else rdS s b) 1 := rfl

/-- Settles O12: the row of opcode 0x1A, read in both scalar slots, and the result that `sel` queues. -/
theorem selectReadsItsFields : Obligations.SelectReadsItsFields := by
  refine ⟨fun w hw sl hsl => decodeSyllable_of_opcode_sel [] ((opcode_eq_div w).trans hw) hsl, fun s d a b c hv => ?_⟩
  rw [exec_sel, ite_not]
  exact putS_of_mayWrite 1 hv

end Sys2Proof.Proofs
end
